-- ==== Sys2Proof/Word.lean ====
section
/-! DEFINITION. The plain words of the machine and the two instance names. -/

namespace Sys2Proof

/-- A byte: every register of the Controller, the data bus and the bytes of an image are bytes (R41, R49). -/
abbrev Byte := BitVec 8

/-- A control-signal word: nine flags, one per bus signal (R60). -/
abbrev Ctl := BitVec 9

/-- The 24-bit transfer counter (R13). -/
abbrev Count24 := BitVec 24

/-- The two fully independent instances of the hardware (R4, R304). -/
inductive InstId where
  | internal
  | external
deriving DecidableEq, Repr, Inhabited

end Sys2Proof
end

