-- ==== Sys2Proof/Config.lean ====
section
/-! DEFINITION. What the spec leaves to an implementation or to the environment: the open parameters of R7 and
the free values of the assumption log. They are fields of one structure, so that a law can be stated for every
choice of them; the machine itself uses one opaque choice, of which nothing can be proved. -/

namespace Sys2Proof

/-- Geometry of a backing image (R17): all five are naturals. -/
structure Geometry where
  cylinders : Nat
  heads : Nat
  spt : Nat
  bps : Nat
  totalSectors : Nat
deriving DecidableEq, Repr, Inhabited

/-- The open parameters of R7 and the model's free values. Constraints of the spec are built in by the readers
below (`Params.odd`, `Params.geometryOfSize`), so that every value of this structure is an admissible choice. -/
structure Params where
  /-- `D_ARB_FREE` (R7, D16). -/
  dArbFree : Nat
  /-- `D_ARB_SETTLE` (R7, D16). -/
  dArbSettle : Nat
  /-- `D_ARB_WIN` (R7, D16). -/
  dArbWin : Nat
  /-- `D_SEL_FREE` (R7, D16). -/
  dSelFree : Nat
  /-- `D_SEL_ID` (R7, D16). -/
  dSelId : Nat
  /-- `D_SEL_SEL` (R7, D16). -/
  dSelSel : Nat
  /-- `D_SEL_OK` (R7, D16). -/
  dSelOk : Nat
  /-- `D_HS` (R7, D16). -/
  dHs : Nat
  /-- `BUS_FREE_CYCLES` (R7, D18). -/
  busFreeCycles : Nat
  /-- `SEL_TIMEOUT` (R7, D17): the limit for a counter value, or none for "never". -/
  selTimeout : Count24 → Option Nat
  /-- `POLARITY` (R42, D4): true when the internal instance has its registers at odd offsets. -/
  internalOdd : Bool
  /-- `ROM_SIZE` (R46, D6). -/
  romSize : InstId → Nat
  /-- `ROM_BYTES` (R46, D6). -/
  romByte : InstId → Nat → Byte
  /-- `INQUIRY_PAYLOAD` (R264, D44). -/
  inquiryPayload : Vector Byte 36
  /-- The raw table behind `GEOMETRY_OF_SIZE` (R18, D50); see `geometryOfSize`. -/
  geometryBand : Nat → Geometry
  /-- Free value (log 5): whether the k-th store access of an instance fails (R50, I27). -/
  storeFails : InstId → Nat → Bool
  /-- Free value (log 6): whether byte j of the k-th store access, a failed write, holds the new byte (R50). -/
  storeTakesNew : InstId → Nat → Nat → Bool
  /-- Free value (log 7): the unspecified byte j of the data buffer of the record numbered k (R321, I26). -/
  bufferByte : InstId → Nat → Nat → Byte
  /-- Free value (log 8): what a field of w bytes holds for a number v that does not fit it. -/
  overflow : Nat → Nat → Nat
deriving Inhabited

/-- Whether an instance has its registers at odd offsets. `POLARITY(internal) != POLARITY(external)` (R42) holds
by construction. -/
def Params.odd (p : Params) : InstId → Bool
  | .internal => p.internalOdd
  | .external => !p.internalOdd

/-- `GEOMETRY_OF_SIZE` under its two constraints (R18, D50): at least one byte per sector, and no sector beyond
the image. Every admissible geometry is the value of some `geometryBand`. -/
def Params.geometryOfSize (p : Params) (n : Nat) : Geometry :=
  let g := p.geometryBand n
  let bps := max g.bps 1
  { g with bps := bps, totalSectors := min g.totalSectors (n / bps) }

/-- The default of `SEL_TIMEOUT` that R187 writes out and D17 marks as general knowledge: no timeout when
`tc[23:8]` is zero, else `(tc[23:8] * 256 + 15) * 2` cycles. The machine does not assume it (log 4). -/
def Params.selTimeoutDefault (tc : Count24) : Option Nat :=
  let n := (tc.extractLsb' 8 16).toNat
  if n = 0 then none else some ((n * 256 + 15) * 2)

/-- The one choice of parameters the machine runs with. It has no body: nothing about it can be proved, so every
statement about the machine holds for every choice. -/
opaque Config.params : Params

end Sys2Proof
end

