-- ==== Sys2Proof/Syntax.lean ====
section
/-! DEFINITION. The instructions: one constructor per row of spec/opcode_table.json. An instruction is one
external event or operation (R1, R8): a host register access, a ROM access, a Controller command byte, a Target
command descriptor block, a tick, an environment operation, or a direct Bus call. -/

namespace Sys2Proof

/-- The direction of a host access, with the written byte (R63). -/
inductive Access where
  | read
  | write (v : Byte)
deriving DecidableEq, Repr

/-- A 6-byte command descriptor block after its opcode (R74). LUN and control are carried and ignored (R250). -/
structure Cdb6 where
  lun : BitVec 3
  lba : BitVec 21
  len : Byte
  control : Byte
deriving DecidableEq, Repr

/-- A 10-byte command descriptor block after its opcode (R74): byte 1, the LBA in bytes 2 to 5, the reserved byte
6, the length in bytes 7 and 8, the control byte 9. -/
structure Cdb10 where
  flags : Byte
  lba : BitVec 32
  reserved : Byte
  len : BitVec 16
  control : Byte
deriving DecidableEq, Repr

/-- Where the bytes of an image that is opened come from (R18, R50): the environment gives them, or it opens again an
image that was closed on this instance, named by its place among those, whose bytes have persisted (R323, log 15). -/
inductive ImageSource where
  | given (content : List Byte)
  | kept (index : Nat)
deriving DecidableEq, Repr

/-- What the environment chooses about a Target record it creates and attaches (R321): its ready flag, and an image if
it opens one. -/
structure NewTarget where
  ready : Bool
  image : Option ImageSource
deriving DecidableEq, Repr

/-- The commands a Target tells apart by their opcode (R75). -/
inductive CdbOp where
  | testUnitReady
  | rezeroUnit
  | requestSense
  | formatUnit
  | read6
  | write6
  | seek6
  | inquiry
  | modeSelect6
  | modeSense6
  | startStopUnit
  | readCapacity
  | read10
  | write10
  | verify10
  | other
deriving DecidableEq, Repr

/-- One constructor per row of the opcode table, in the table's order. `inst` names the instance. In register
accesses `odd` is bit 0 of the window offset, the table's `p`; slots of Targets are 0 to 6. -/
inductive Instr where
  | busAttach (inst : InstId) (id : Fin 7) (dev : NewTarget)
  | busDetach (inst : InstId) (id : Fin 7)
  | busSetControl (inst : InstId) (id : Fin 8) (value mask : Ctl)
  | busSetData (inst : InstId) (id : Fin 8) (value : Byte)
  | busGetControl (inst : InstId)
  | busGetData (inst : InstId)
  | busIsBusFree (inst : InstId)
  | envOpenImage (inst : InstId) (id : Fin 7) (src : ImageSource)
  | envCloseImage (inst : InstId) (id : Fin 7)
  | envSystemReset
  | tick (inst : InstId) (cycles : Nat)
  | rBdid (inst : InstId) (odd : Bool)
  | wBdid (inst : InstId) (odd : Bool) (v : Byte)
  | rSctl (inst : InstId) (odd : Bool)
  | wSctl (inst : InstId) (odd : Bool) (v : Byte)
  | rScmd (inst : InstId) (odd : Bool)
  | wScmd (inst : InstId) (odd : Bool) (v : Byte)
  | rInts (inst : InstId) (odd : Bool)
  | wInts (inst : InstId) (odd : Bool) (v : Byte)
  | rPsns (inst : InstId) (odd : Bool)
  | wSdgc (inst : InstId) (odd : Bool) (v : Byte)
  | rSsts (inst : InstId) (odd : Bool)
  | wSsts (inst : InstId) (odd : Bool) (v : Byte)
  | rSerr (inst : InstId) (odd : Bool)
  | wSerr (inst : InstId) (odd : Bool) (v : Byte)
  | rPctl (inst : InstId) (odd : Bool)
  | wPctl (inst : InstId) (odd : Bool) (v : Byte)
  | rMbc (inst : InstId) (odd : Bool)
  | wMbc (inst : InstId) (odd : Bool) (v : Byte)
  | rDreg (inst : InstId) (odd : Bool)
  | wDreg (inst : InstId) (odd : Bool) (v : Byte)
  | rTemp (inst : InstId) (odd : Bool)
  | wTemp (inst : InstId) (odd : Bool) (v : Byte)
  | rTch (inst : InstId) (odd : Bool)
  | wTch (inst : InstId) (odd : Bool) (v : Byte)
  | rTcm (inst : InstId) (odd : Bool)
  | wTcm (inst : InstId) (odd : Bool) (v : Byte)
  | rTcl (inst : InstId) (odd : Bool)
  | wTcl (inst : InstId) (odd : Bool) (v : Byte)
  | rwIndex3 (inst : InstId) (odd : Bool) (acc : Access)
  | rwIndex15 (inst : InstId) (odd : Bool) (acc : Access)
  | rwWrongPolarity (inst : InstId) (index : Fin 16) (acc : Access)
  | rRom (inst : InstId) (off : BitVec 32)
  | wRom (inst : InstId) (off : BitVec 32) (v : Byte)
  | scmdBusRelease (inst : InstId) (low : BitVec 5)
  | scmdSelect (inst : InstId) (low : BitVec 5)
  | scmdResetAtn (inst : InstId) (low : BitVec 5)
  | scmdSetAtn (inst : InstId) (low : BitVec 5)
  | scmdTransfer (inst : InstId) (low : BitVec 5)
  | scmdTransferPause (inst : InstId) (low : BitVec 5)
  | scmdResetAckreq (inst : InstId) (low : BitVec 5)
  | scmdSetAckreq (inst : InstId) (low : BitVec 5)
  | cdbTestUnitReady (inst : InstId) (id : Fin 7) (c : Cdb6)
  | cdbRezeroUnit (inst : InstId) (id : Fin 7) (c : Cdb6)
  | cdbRequestSense (inst : InstId) (id : Fin 7) (c : Cdb6)
  | cdbFormatUnit (inst : InstId) (id : Fin 7) (c : Cdb6)
  | cdbRead6 (inst : InstId) (id : Fin 7) (c : Cdb6)
  | cdbWrite6 (inst : InstId) (id : Fin 7) (c : Cdb6)
  | cdbSeek6 (inst : InstId) (id : Fin 7) (c : Cdb6)
  | cdbInquiry (inst : InstId) (id : Fin 7) (c : Cdb6)
  | cdbModeSelect6 (inst : InstId) (id : Fin 7) (c : Cdb6)
  | cdbModeSense6 (inst : InstId) (id : Fin 7) (c : Cdb6)
  | cdbStartStopUnit (inst : InstId) (id : Fin 7) (c : Cdb6)
  | cdbReadCapacity (inst : InstId) (id : Fin 7) (c : Cdb10)
  | cdbRead10 (inst : InstId) (id : Fin 7) (c : Cdb10)
  | cdbWrite10 (inst : InstId) (id : Fin 7) (c : Cdb10)
  | cdbVerify10 (inst : InstId) (id : Fin 7) (c : Cdb10)
  | cdbOther (inst : InstId) (id : Fin 7) (opcode : Byte) (args : List Byte)
deriving DecidableEq, Repr

end Sys2Proof
end

