-- ==== Sys2Proof/Machine/Operands.lean ====
section
/-! DEFINITION. Operand forms: the bus signals and their masks, the phases, the fields and byte orders of
registers and of command descriptor blocks. Nothing here reads the machine's state. -/

namespace Sys2Proof.Machine

/-! ### The control word (R60) -/

/-- `IO` (R60). -/
abbrev sigIO : Ctl := 0x001
/-- `CD` (R60). -/
abbrev sigCD : Ctl := 0x002
/-- `MSG` (R60). -/
abbrev sigMSG : Ctl := 0x004
/-- `BSY` (R60). -/
abbrev sigBSY : Ctl := 0x008
/-- `SEL` (R60). -/
abbrev sigSEL : Ctl := 0x010
/-- `REQ` (R60). -/
abbrev sigREQ : Ctl := 0x020
/-- `ACK` (R60). -/
abbrev sigACK : Ctl := 0x040
/-- `ATN` (R60). -/
abbrev sigATN : Ctl := 0x080
/-- `RST` (R60). -/
abbrev sigRST : Ctl := 0x100
/-- `ALL` (R9, R60). -/
abbrev sigALL : Ctl := 0x1FF

/-- Whether a word has a bit of the mask (`(c & m) != 0`). -/
def has (c m : Ctl) : Bool := (c &&& m) != 0

/-- Merge of the masked bits of a value into a word (R95, R112). -/
def merge (old value mask : Ctl) : Ctl := (old &&& ~~~mask) ||| (value &&& mask)

/-- `mask` if the condition holds, else 0. -/
def onlyIf (b : Bool) (mask : Ctl) : Ctl := if b then mask else 0

/-- The phase lines of a control word as `MSG ++ CD ++ IO` (R61). -/
def phaseOf (c : Ctl) : BitVec 3 := c.extractLsb' 0 3

/-- The data-bus bit of the participant at bus address `n` (R62). -/
def idBit (n : Nat) : Byte := 1#8 <<< n

/-! ### Interrupt and error flags (R67, R71) -/

/-- `DISCONNECT`, INTS bit 5 (R67). -/
abbrev intDISCONNECT : Byte := 0x20
/-- `CC`, INTS bit 4 (R67). -/
abbrev intCC : Byte := 0x10
/-- `SR`, INTS bit 3 (R67). -/
abbrev intSR : Byte := 0x08
/-- `TO`, INTS bit 2 (R67). -/
abbrev intTO : Byte := 0x04
/-- `RC`, INTS bit 0 (R67). -/
abbrev intRC : Byte := 0x01
/-- `XO`, SERR bit 5 (R71). -/
abbrev errXO : Byte := 0x20

/-! ### Byte order (R47, R48) -/

/-- The w low bytes of a number, most significant first (R48). -/
def beBytes : Nat → Nat → List Byte
  | 0, _ => []
  | w + 1, v => BitVec.ofNat 8 (v / 256 ^ w) :: beBytes w v

/-- The number whose big-endian bytes are given (R48). -/
def natOfBE (bs : List Byte) : Nat := bs.foldl (fun n b => n * 256 + b.toNat) 0

/-- What a field of w bytes holds for a number: the number where it fits, else a free value (log 8). -/
def narrow (p : Params) (w v : Nat) : Nat := if v < 256 ^ w then v else p.overflow w v % 256 ^ w

/-- A number in a big-endian field of w bytes (R48; log 8). -/
def beField (p : Params) (w v : Nat) : List Byte := beBytes w (narrow p w v)

/-! ### Command descriptor blocks (R74, R75) -/

/-- The opcode map of the Target (R75). -/
def cdbOpOf (b : Byte) : CdbOp :=
  if b = 0x00 then .testUnitReady
  else if b = 0x01 then .rezeroUnit
  else if b = 0x03 then .requestSense
  else if b = 0x04 then .formatUnit
  else if b = 0x08 then .read6
  else if b = 0x0A then .write6
  else if b = 0x0B then .seek6
  else if b = 0x12 then .inquiry
  else if b = 0x15 then .modeSelect6
  else if b = 0x1A then .modeSense6
  else if b = 0x1B then .startStopUnit
  else if b = 0x25 then .readCapacity
  else if b = 0x28 then .read10
  else if b = 0x2A then .write10
  else if b = 0x2F then .verify10
  else .other

/-- `cdb_len` (R231): the length of a CDB by the group code of its opcode. -/
def cdbLen (op : Byte) : Nat :=
  match (op.extractLsb' 5 3).toNat with
  | 0 => 6
  | 1 => 10
  | 2 => 10
  | 5 => 12
  | _ => 6

/-- The bytes of a 6-byte CDB (R74). -/
def cdb6Bytes (opcode : Byte) (c : Cdb6) : List Byte :=
  [opcode, c.lun ++ c.lba.extractLsb' 16 5, c.lba.extractLsb' 8 8, c.lba.extractLsb' 0 8, c.len, c.control]

/-- The bytes of a 10-byte CDB (R74). -/
def cdb10Bytes (opcode : Byte) (c : Cdb10) : List Byte :=
  [opcode, c.flags, c.lba.extractLsb' 24 8, c.lba.extractLsb' 16 8, c.lba.extractLsb' 8 8, c.lba.extractLsb' 0 8,
   c.reserved, c.len.extractLsb' 8 8, c.len.extractLsb' 0 8, c.control]

/-- The LBA operand of Read(6), Write(6) and Seek(6): `(c[1] & 0x1F) << 16 | c[2] << 8 | c[3]` (R259). -/
def lba6 (cmd : Vector Byte 16) : Nat := (cmd[1] &&& 0x1F).toNat * 65536 + cmd[2].toNat * 256 + cmd[3].toNat

/-- The block count of Read(6) and Write(6): `256 if c[4] = 0 else c[4]` (R259). -/
def blocks6 (cmd : Vector Byte 16) : Nat := if cmd[4] = 0 then 256 else cmd[4].toNat

/-- The LBA operand of the 10-byte commands: `be32(c[2..5])` (R260). -/
def lba10 (cmd : Vector Byte 16) : Nat := natOfBE [cmd[2], cmd[3], cmd[4], cmd[5]]

/-- The block count of the 10-byte commands: `be16(c[7..8])` (R260). -/
def blocks10 (cmd : Vector Byte 16) : Nat := natOfBE [cmd[7], cmd[8]]

/-- A command byte of SCMD: its code in bits 7:5 and the bits below (R66). -/
def scmdByte (code : BitVec 3) (low : BitVec 5) : Byte := code ++ low

end Sys2Proof.Machine
end

