-- ==== Sys2Proof/Machine/State.lean ====
section
/-! DEFINITION. The state of the machine as plain data: two independent instances, each a Bus, a Controller and the
Targets on the Bus's slots (R10 to R17), and the queue of external events not yet taken. -/

namespace Sys2Proof.Machine

/-- The 17 states of the Controller's engine (R15). -/
inductive EngineState where
  | idle
  | arbWaitFree
  | arbAssertBsy
  | arbWait
  | arbAssertSel
  | selWaitFree
  | selAssertId
  | selAssertSel
  | selWaitBsy
  | selSuccess
  | xferWaitReq
  | xferSendData
  | xferRecvData
  | xferSendAck
  | xferWaitDeassertReq
  | xferDeassertAck
  | xferWaitFifoEmpty
deriving DecidableEq, Repr

/-- The 8-entry ring buffer (R14). -/
structure Fifo where
  buf : Vector Byte 8
  head : Fin 8
  tail : Fin 8
  count : Fin 9
deriving DecidableEq, Repr

/-- The Controller: registers (R13), FIFO (R14), engine (R15), and the transient budget of a tick (R172). -/
structure Controller where
  bdid : BitVec 3
  sctl : Byte
  scmd : Byte
  ints : Byte
  sdgc : Byte
  connected : Bool
  serr : Byte
  pctl : Byte
  tc : Count24
  temp : Byte
  dreg : Byte
  fifo : Fifo
  state : EngineState
  pending : Option (EngineState × Nat)
  xferPhase : BitVec 3
  xferTerm : Bool
  xferDma : Bool
  xferIn : Bool
  atnQueued : Bool
  selTimer : Option (Nat × Nat)
  bfTimer : Nat
  diagSig : Ctl
  irqLine : Bool
  drqLine : Bool
  rstSeen : Bool
  busy : Bool
  renotify : Bool
  budget : Nat
deriving DecidableEq, Repr

/-- Byte-addressed memory: the listed cells, addresses strictly rising. What an unlisted address reads as is said
where a memory is used: `Store` for an image, the data buffer in Machine/Ops.lean. -/
abbrev Memory := List Host.Cell

/-- Addresses strictly rising. -/
def Memory.sorted : Memory → Bool
  | [] => true
  | [_] => true
  | a :: b :: m => a.1 < b.1 && Memory.sorted (b :: m)

/-- The canonical form of an image's memory: addresses strictly rising, and no cell holding what an unlisted
address reads as, which is 0 (log 15). -/
def Memory.wf (m : Memory) : Bool := Memory.sorted m && m.all fun c => c.2 != 0

/-- A backing image: a byte array of fixed length (R50). -/
structure Store where
  size : Nat
  cells : Memory
deriving DecidableEq, Repr

/-- The device states of a Target (R17). -/
inductive TState where
  | idle
  | command
  | dataIn
  | dataOut
  | status
  | message
deriving DecidableEq, Repr

/-- The handshake sub-states of a Target (R17, R225 to R227). -/
inductive Handshake where
  | needReq
  | reqUp
  | reqDown
deriving DecidableEq, Repr

/-- A Target record (R17). `serial` is the model's own (log 7). -/
structure Target where
  tstate : TState
  cmd : Vector Byte 16
  cmdLen : Nat
  buf : Memory
  cur : Nat
  total : Nat
  lba : BitVec 32
  blocks : Nat
  senseKey : BitVec 4
  senseAsc : Byte
  senseAscq : Byte
  senseLba : BitVec 32
  senseLbaValid : Bool
  status : Byte
  message : Byte
  image : Option Store
  geom : Geometry
  ready : Bool
  mediaChanged : Bool
  id : Fin 7
  hs : Handshake
  msgOut : Bool
  tbusy : Bool
  trenotify : Bool
  serial : Nat
deriving DecidableEq, Repr

/-- Who may occupy a bus slot (R11). -/
inductive Participant where
  | controller
  | target (t : Target)
deriving DecidableEq, Repr

/-- What the change-notification callback is bound to (R11). -/
inductive Callback where
  | unbound
  | controller
deriving DecidableEq, Repr

/-- The Bus (R11). -/
structure Bus where
  sig : Vector Ctl 8
  dat : Vector Byte 8
  occ : Vector (Option Participant) 8
  ctl : Ctl
  data : Byte
  cb : Callback
deriving DecidableEq, Repr

/-- The value an event gives back to its caller (log 10). -/
inductive Ret where
  | none
  | byte (v : Byte)
  | word (c : Ctl)
  | flag (b : Bool)
deriving DecidableEq, Repr

/-- A call on a collaborator (R4): the two line callbacks (R296, R300) and the store accesses (R50), each with its
outcome (log 10). -/
inductive Call where
  | irq (level : Bool)
  | drq (level : Bool)
  | storeRead (id : Fin 7) (off len : Nat) (ok : Bool)
  | storeWrite (id : Fin 7) (off : Nat) (data : List Byte) (ok : Bool)
deriving DecidableEq, Repr

/-- One instance: Bus and Controller; the bytes of the images closed on it, in the order of their closing: "Nothing is
persisted except the image bytes" (R323, log 17); and the model's own fields: the last event's value and calls, the
number of free values drawn, and whether an event overran the model's bounds (log 5, 9, 10). -/
structure Instance where
  bus : Bus
  ctrl : Controller
  kept : List Store
  ret : Ret
  calls : List Call
  draws : Nat
  unsettled : Bool
deriving DecidableEq, Repr

/-- The whole machine: the two instances (R10) and the external events issued and not yet taken, each as its
message (log 1). -/
structure State where
  internal : Instance
  external : Instance
  events : List (List Byte)
deriving DecidableEq, Repr

/-- Reasons the machine stops. -/
inductive Fault where
  /-- Raised by `step` at a state in which an earlier event did not come to rest within the model's bounds on
  nesting and loops (log 9). Safe: the spec says every event comes to rest (R92, R174), so the machine stops where
  the hardware goes on. -/
  | unsettled
deriving DecidableEq, Repr

/-- Reasons an instruction has no meaning here. -/
inductive Refusal where
  /-- Raised by an arm of `exec` for an instruction without a meaning. Safe: nothing can be proved of it. -/
  | notModelled (mnemonic : String)
  /-- Raised by `step` when the first message of the queue is no event (log 2). Safe: the hardware has no messages;
  the environment issues only events. -/
  | undecodable
deriving DecidableEq, Repr

/-- The empty FIFO of R320. -/
def Fifo.reset : Fifo := { buf := Vector.replicate 8 0, head := 0, tail := 0, count := 0 }

/-- The Controller after system reset (R320); `budget` is zero outside a tick (R172). -/
def Controller.reset : Controller :=
  { bdid := 7, sctl := 0, scmd := 0, ints := 0, sdgc := 0, connected := false, serr := 0, pctl := 0, tc := 0,
    temp := 0, dreg := 0, fifo := Fifo.reset, state := .idle, pending := none, xferPhase := 0, xferTerm := false,
    xferDma := false, xferIn := false, atnQueued := false, selTimer := none, bfTimer := 0, diagSig := 0,
    irqLine := false, drqLine := false, rstSeen := false, busy := false, renotify := false, budget := 0 }

/-- The Bus after system reset (R320): nothing driven, the Controller at slot 7 and bound to the callback. -/
def Bus.reset : Bus :=
  { sig := Vector.replicate 8 0, dat := Vector.replicate 8 0,
    occ := (Vector.replicate 8 none).set 7 (some .controller), ctl := 0, data := 0, cb := .controller }

/-- An instance after system reset (R320); the image bytes persist (R323), and the number of draws goes on, so that free
values stay fresh (log 17). -/
def Instance.reset (draws : Nat) (kept : List Store := []) : Instance :=
  { bus := Bus.reset, ctrl := Controller.reset, kept := kept, ret := .none, calls := [], draws := draws, unsettled := false }

/-- The machine right after reset (R320): both instances reset, no event issued. -/
def State.reset : State := { internal := Instance.reset 0, external := Instance.reset 0, events := [] }

end Sys2Proof.Machine
end

