-- ==== Sys2Proof/Machine/Ops.lean ====
section
/-! DEFINITION. The named operations: parts of the state, byte memories, the backing store, the data buffer, the
FIFO, the Bus, and the primitives by which the Controller drives the bus and raises conditions. An operation that
changes the combined control word takes the change notification `n` as an argument (R91); Machine/Notify.lean ties
the knot. -/

namespace Sys2Proof.Machine

/-! ### Access to parts of the state -/

/-- The record of an instance. -/
def State.get (s : State) : InstId → Instance
  | .internal => s.internal
  | .external => s.external

/-- Replace the record of an instance. -/
def State.put (s : State) (i : InstId) (x : Instance) : State :=
  match i with
  | .internal => { s with internal := x }
  | .external => { s with external := x }

/-- Change the Controller of an instance. -/
def Instance.modCtrl (x : Instance) (f : Controller → Controller) : Instance := { x with ctrl := f x.ctrl }

/-- Change the Bus of an instance. -/
def Instance.modBus (x : Instance) (f : Bus → Bus) : Instance := { x with bus := f x.bus }

/-- The bus address of a Target slot. -/
def slotAddr (k : Fin 7) : Fin 8 := k.castSucc

/-- The Target slots in ascending order (R91). -/
def targetSlots : List (Fin 7) := [0, 1, 2, 3, 4, 5, 6]

/-- The Target at a slot, if the occupant is one. -/
def Instance.target? (x : Instance) (k : Fin 7) : Option Target :=
  match x.bus.occ[slotAddr k] with
  | some (.target t) => some t
  | _ => none

/-- Replace the occupant of a slot. -/
def Instance.setOccupant (x : Instance) (k : Fin 7) (o : Option Participant) : Instance :=
  x.modBus fun b => { b with occ := b.occ.set (slotAddr k) o }

/-- Change the Target at a slot, if the occupant is one. -/
def Instance.modTarget (x : Instance) (k : Fin 7) (f : Target → Target) : Instance :=
  match x.target? k with
  | some t => x.setOccupant k (some (.target (f t)))
  | none => x

/-- Record a call on a collaborator. -/
def Instance.logCall (x : Instance) (c : Call) : Instance := { x with calls := x.calls ++ [c] }

/-- What an operation is told of its surroundings: the parameters and which instance it belongs to. -/
structure Env where
  p : Params
  id : InstId

/-! ### Byte memories -/

/-- The cell listed at an address. -/
def Memory.lookup : Memory → Nat → Option Byte
  | [], _ => none
  | c :: m, a => if c.1 = a then some c.2 else Memory.lookup m a

/-- List a byte at an address, keeping the addresses rising. -/
def Memory.insert : Memory → Nat → Byte → Memory
  | [], a, v => [(a, v)]
  | c :: m, a, v =>
    if a < c.1 then (a, v) :: c :: m
    else if a = c.1 then (a, v) :: m
    else c :: Memory.insert m a v

/-- Drop the cell at an address. -/
def Memory.erase : Memory → Nat → Memory
  | [], _ => []
  | c :: m, a => if c.1 = a then m else c :: Memory.erase m a

/-! ### The backing store (R50) -/

/-- The byte of an image at an offset; an unlisted offset holds 0 (log 15). -/
def Store.readByte (st : Store) (a : Nat) : Byte := (st.cells.lookup a).getD 0

/-- Write a byte of an image; nothing stands beyond its fixed length. -/
def Store.writeByte (st : Store) (a : Nat) (v : Byte) : Store :=
  if a < st.size then
    { st with cells := if v = 0 then st.cells.erase a else st.cells.insert a v }
  else st

/-- `bytes[off .. off+len-1]` (R50). -/
def Store.readRange (st : Store) (off : Nat) : Nat → List Byte
  | 0 => []
  | n + 1 => st.readByte off :: st.readRange (off + 1) n

/-- `bytes[off ..] <- data` (R50). -/
def Store.writeRange (st : Store) (off : Nat) : List Byte → Store
  | [] => st
  | v :: vs => (st.writeByte off v).writeRange (off + 1) vs

/-- A failed write leaves "any mixture of old and new" (R50): byte j takes the new value where `takes j` says so. -/
def Store.writeMixed (st : Store) (off : Nat) (takes : Nat → Bool) (j : Nat) : List Byte → Store
  | [] => st
  | v :: vs => (if takes j then st.writeByte (off + j) v else st).writeMixed off takes (j + 1) vs

/-- The cells of a byte array that starts at an address. -/
def cellsFrom : Nat → List Byte → Memory
  | _, [] => []
  | a, v :: vs => if v = 0 then cellsFrom (a + 1) vs else (a, v) :: cellsFrom (a + 1) vs

/-- The image with given bytes. -/
def Store.ofBytes (bs : List Byte) : Store := { size := bs.length, cells := cellsFrom 0 bs }

/-! ### The data buffer (R17) -/

/-- A byte of the data buffer; one that nothing has written is unspecified, a free value (R321, log 7). -/
def bufRead (e : Env) (t : Target) (j : Nat) : Byte := (t.buf.lookup j).getD (e.p.bufferByte e.id t.serial j)

/-- Write one byte of the data buffer. -/
def bufWrite (m : Memory) (j : Nat) (v : Byte) : Memory := m.insert j v

/-- Write consecutive bytes of the data buffer. -/
def bufFill (m : Memory) (j : Nat) : List Byte → Memory
  | [] => m
  | v :: vs => bufFill (bufWrite m j v) (j + 1) vs

/-- `buf[j .. j+len-1]`. -/
def bufSlice (e : Env) (t : Target) (j : Nat) : Nat → List Byte
  | 0 => []
  | n + 1 => bufRead e t j :: bufSlice e t (j + 1) n

/-! ### The FIFO (R14) -/

/-- `fifo.clear()`: the bytes keep their values. -/
def Fifo.clear (f : Fifo) : Fifo := { f with head := 0, tail := 0, count := 0 }

/-- Whether the FIFO is full. -/
def Fifo.full (f : Fifo) : Bool := f.count == 8

/-- Whether the FIFO is empty. -/
def Fifo.empty (f : Fifo) : Bool := f.count == 0

/-- `fifo.push(v)`: dropped when the FIFO is full. -/
def Fifo.push (f : Fifo) (v : Byte) : Fifo :=
  if f.count.val < 8 then
    { buf := f.buf.set f.tail v, head := f.head, tail := f.tail + 1, count := f.count + 1 }
  else f

/-- The byte `fifo.pop()` returns. -/
def Fifo.front (f : Fifo) : Byte := f.buf[f.head]

/-- The FIFO after `fifo.pop()`, which requires `count > 0`. -/
def Fifo.pop (f : Fifo) : Fifo := if f.count = 0 then f else { f with head := f.head + 1, count := f.count - 1 }

/-! ### The Bus (R90 to R98) -/

/-- The OR of the eight control contributions (R90). -/
def orCtl (s : Vector Ctl 8) : Ctl := s[0] ||| s[1] ||| s[2] ||| s[3] ||| s[4] ||| s[5] ||| s[6] ||| s[7]

/-- The OR of the eight data contributions (R90). -/
def orData (d : Vector Byte 8) : Byte := d[0] ||| d[1] ||| d[2] ||| d[3] ||| d[4] ||| d[5] ||| d[6] ||| d[7]

/-- `recombine()` (R90). -/
def Bus.recombine (b : Bus) : Bus := { b with ctl := orCtl b.sig, data := orData b.dat }

/-- The bus after the write of `set_control` and its recombination (R95). -/
def Bus.writeControl (b : Bus) (id : Fin 8) (value mask : Ctl) : Bus :=
  { b with sig := b.sig.set id (merge b.sig[id] value mask) }.recombine

/-- The bus after `set_data` (R96). -/
def Bus.writeData (b : Bus) (id : Fin 8) (value : Byte) : Bus :=
  { b with dat := b.dat.set id value }.recombine

/-- The bus after a slot's contributions are cleared and its occupant replaced, recombined (R93, R94). -/
def Bus.replace (b : Bus) (id : Fin 8) (o : Option Participant) : Bus :=
  { b with sig := b.sig.set id 0, dat := b.dat.set id 0, occ := b.occ.set id o }.recombine

/-- `is_bus_free()` (R98). -/
def Bus.isFree (b : Bus) : Bool := (b.ctl &&& (sigBSY ||| sigSEL)) == 0

/-- Put a bus in place and notify if the combined control word changed (R91, R93 to R95). -/
def changeBus (n : Instance → Instance) (x : Instance) (b : Bus) : Instance :=
  let y := { x with bus := b }
  if b.ctl = x.bus.ctl then y else n y

/-- `Bus.set_control(id, value, mask)` (R95). -/
def setControl (n : Instance → Instance) (id : Fin 8) (value mask : Ctl) (x : Instance) : Instance :=
  changeBus n x (x.bus.writeControl id value mask)

/-- `Bus.set_data(id, value)`: never notifies (R96). -/
def setData (id : Fin 8) (value : Byte) (x : Instance) : Instance := x.modBus fun b => b.writeData id value

/-- `Bus.attach(device, id)` (R93). -/
def attach (n : Instance → Instance) (k : Fin 7) (t : Target) (x : Instance) : Instance :=
  changeBus n x (x.bus.replace (slotAddr k) (some (.target { t with id := k })))

/-- `Bus.detach(id)` (R94). -/
def detach (n : Instance → Instance) (k : Fin 7) (x : Instance) : Instance :=
  changeBus n x (x.bus.replace (slotAddr k) none)

/-! ### Images that are opened and closed (R18, R323) -/

/-- The store that an open finds, if any, and the instance without it among the kept ones. An image that is not there
cannot be opened (log 15). -/
def takeImage : ImageSource → Instance → Option Store × Instance
  | .given content, x => (some (Store.ofBytes content), x)
  | .kept i, x =>
    match x.kept[i]? with
    | some st => (some st, { x with kept := x.kept.eraseIdx i })
    | none => (none, x)

/-- The bytes of the image of the Target at a slot, if it has one, persist when it is closed (R323). -/
def keepImage (k : Fin 7) (x : Instance) : Instance :=
  { x with kept := x.kept ++ ((x.target? k).bind Target.image).toList }

/-! ### The Controller on the bus (R112) -/

/-- The diagnostic-mode bit of SCTL (R65). -/
def Controller.dm (c : Controller) : Bool := c.sctl.getLsbD 5

/-- `drive(value, mask)` (R112): the shadow in diagnostic mode, else the Controller's slot. -/
def drive (n : Instance → Instance) (value mask : Ctl) (x : Instance) : Instance :=
  if x.ctrl.dm then x.modCtrl fun c => { c with diagSig := merge c.diagSig value mask }
  else setControl n 7 value mask x

/-- `drive_data(v)`: never redirected (R112). -/
def driveData (v : Byte) (x : Instance) : Instance := setData 7 v x

/-- An operation during which the Controller's guard is held, as it is in the Controller's own bus writes in a run of
its engine (R92, R175): a notification in the meantime does not run the engine (log 23). -/
def guarded (f : Instance → Instance) (x : Instance) : Instance :=
  (f (x.modCtrl fun c => { c with busy := true })).modCtrl fun c => { c with busy := x.ctrl.busy }

/-! ### Exceptional conditions (R292, R252) -/

/-- `raise_int(flag)` (R292). This hardware has no trap: taking an exception is latching a flag here, and
`updateIrq` (Machine/Flags.lean) carries it to the line; nothing is saved and nothing vectors (R297). -/
def raiseInt (flag : Byte) (x : Instance) : Instance := x.modCtrl fun c => { c with ints := c.ints ||| flag }

/-- The write of INTS that clears the flags whose bits are 1 (R117): the return from a condition (R297). -/
def clearInts (v : Byte) (x : Instance) : Instance := x.modCtrl fun c => { c with ints := c.ints &&& ~~~v }

/-- `CheckCondition` (R252): the Target's error exit. -/
def checkCondition (p : Params) (key : BitVec 4) (asc ascq : Byte) (lba : Option Nat) (t : Target) : Target :=
  { t with
    senseKey := key
    senseAsc := asc
    senseAscq := ascq
    senseLba := match lba with | some l => BitVec.ofNat 32 (narrow p 4 l) | none => 0
    senseLbaValid := lba.isSome
    status := 0x02
    tstate := .status }

/-- The return from a Target condition: the sense is cleared once Request Sense has read it (R257). -/
def clearSense (t : Target) : Target :=
  { t with senseKey := 0, senseAsc := 0, senseAscq := 0, senseLba := 0, senseLbaValid := false }

/-- A store access is answered by the environment's next draw (R50, log 5). -/
def drawFails (e : Env) (x : Instance) : Bool := e.p.storeFails e.id x.draws

/-- Count a draw. -/
def nextDraw (x : Instance) : Instance := { x with draws := x.draws + 1 }

end Sys2Proof.Machine
end

