-- ==== Sys2Proof/Machine/Flags.lean ====
section
/-! DEFINITION. What is computed from the state rather than stored: the sensed signals, the PSNS, SSTS and MBC
bytes, the families of the engine, the levels of the IRQ and DRQ lines and their callbacks. -/

namespace Sys2Proof.Machine

/-! ### Sensed signals (R112, R119) -/

/-- The diagnostic-control signals `diag_ext` (R112). -/
def diagExt (sdgc : Byte) : Ctl :=
  onlyIf (sdgc.getLsbD 7) sigREQ ||| onlyIf (sdgc.getLsbD 6) sigACK ||| onlyIf (sdgc.getLsbD 3) sigBSY |||
  onlyIf (sdgc.getLsbD 2) sigMSG ||| onlyIf (sdgc.getLsbD 1) sigCD ||| onlyIf (sdgc.getLsbD 0) sigIO

/-- `sense()` (R112). -/
def sense (x : Instance) : Ctl :=
  if x.ctrl.dm then
    ((x.ctrl.diagSig ||| diagExt x.ctrl.sdgc) &&& (sigREQ ||| sigACK ||| sigBSY ||| sigMSG ||| sigCD ||| sigIO)) |||
    (x.bus.ctl &&& (sigSEL ||| sigATN ||| sigRST))
  else x.bus.ctl

/-- A byte from its eight bits, most significant first. -/
def byteOfBits (b7 b6 b5 b4 b3 b2 b1 b0 : Bool) : Byte :=
  BitVec.ofBool b7 ++ BitVec.ofBool b6 ++ BitVec.ofBool b5 ++ BitVec.ofBool b4 ++
  BitVec.ofBool b3 ++ BitVec.ofBool b2 ++ BitVec.ofBool b1 ++ BitVec.ofBool b0

/-- PSNS (R68, R119). -/
def psns (x : Instance) : Byte :=
  let s := sense x
  byteOfBits (has s sigREQ) (has s sigACK) (has s sigATN) (has s sigSEL)
    (has s sigBSY) (has s sigMSG) (has s sigCD) (has s sigIO)

/-! ### Families of the engine (R151) -/

/-- `fam(state) = F_IDLE`. -/
def EngineState.famIdle : EngineState → Bool
  | .idle => true
  | _ => false

/-- `fam(state) = F_SEL`: the nine states from `ARB_WAIT_FREE` to `SEL_SUCCESS`. -/
def EngineState.famSel : EngineState → Bool
  | .arbWaitFree | .arbAssertBsy | .arbWait | .arbAssertSel | .selWaitFree | .selAssertId | .selAssertSel
  | .selWaitBsy | .selSuccess => true
  | _ => false

/-- `fam(state) = F_XFER`: the seven `XFER_*` states. -/
def EngineState.famXfer : EngineState → Bool
  | .xferWaitReq | .xferSendData | .xferRecvData | .xferSendAck | .xferWaitDeassertReq | .xferDeassertAck
  | .xferWaitFifoEmpty => true
  | _ => false

/-- "Engine free": `state = IDLE and pending = none` (R151). -/
def Controller.engineFree (c : Controller) : Bool := c.state == .idle && c.pending.isNone

/-- `bus_free_detected()` (R211). -/
def busFreeDetected (e : Env) (x : Instance) : Bool := x.bus.isFree && decide (e.p.busFreeCycles ≤ x.ctrl.bfTimer)

/-! ### Computed registers -/

/-- SSTS (R70, R122). -/
def ssts (x : Instance) : Byte :=
  let c := x.ctrl
  byteOfBits c.connected false (!c.engineFree)
    (c.state.famXfer || (match c.pending with | some (t, _) => t.famXfer | none => false))
    (has x.bus.ctl sigRST) (c.tc == 0) c.fifo.full c.fifo.empty

/-- MBC: `zext_8(tc[3:0])` (R73, R125). -/
def mbc (x : Instance) : Byte := (x.ctrl.tc.extractLsb' 0 4).setWidth 8

/-! ### The IRQ and DRQ lines (R294 to R300) -/

/-- `irq_level` (R294). -/
def irqLevel (c : Controller) : Bool := c.sctl.getLsbD 0 && (c.ints != 0 || c.serr.getLsbD 5)

/-- `update_irq()`: the callback is made on an edge only (R296). -/
def updateIrq (x : Instance) : Instance :=
  let lvl := irqLevel x.ctrl
  if lvl = x.ctrl.irqLine then x
  else (x.modCtrl fun c => { c with irqLine := lvl }).logCall (.irq lvl)

/-- `drq_level` (R299). -/
def drqLevel (c : Controller) : Bool :=
  c.xferDma && c.state.famXfer &&
  ((c.xferIn && !c.fifo.empty) ||
   (!c.xferIn && !c.fifo.full && decide (c.fifo.count.val < c.tc.toNat)))

/-- `update_drq()` (R300). -/
def updateDrq (x : Instance) : Instance :=
  let lvl := drqLevel x.ctrl
  if lvl = x.ctrl.drqLine then x
  else (x.modCtrl fun c => { c with drqLine := lvl }).logCall (.drq lvl)

/-- `update_drq(); update_irq()`, the end of an event in which a Controller entry point ran (R111, R175, R210). "One edge
per event at most; intermediate glitches inside an event are not delivered" (D33), so the entry points that run inside
an event leave it to the event's end (log 19). -/
def updateLines (x : Instance) : Instance := updateIrq (updateDrq x)

end Sys2Proof.Machine
end

