-- ==== Sys2Proof/Machine/Engine.lean ====
section
/-! DEFINITION. The Controller's engine: delayed transitions, one definition per state, the loop that runs them,
the bus callback and the checks it makes (43_controller_fsm.md). `n` is the change notification of the Bus. -/

namespace Sys2Proof.Machine

/-- What one evaluation of the engine's state answers (R173). -/
inductive StepResult where
  | progress
  | stay
  | parked
deriving DecidableEq, Repr

/-! ### Mechanism (R170 to R174) -/

/-- `goto(t, d)` (R172): the delay is paid out of the budget, or the engine parks. -/
def goto (t : EngineState) (d : Nat) (x : Instance) : StepResult × Instance :=
  if d ≤ x.ctrl.budget then
    (.progress, x.modCtrl fun c => { c with budget := c.budget - d, state := t })
  else (.parked, x.modCtrl fun c => { c with pending := some (t, d - c.budget), budget := 0 })

/-- Leave for `IDLE` at once. -/
def toIdle (x : Instance) : Instance := x.modCtrl fun c => { c with state := .idle }

/-- The own signals that a cancellation releases (R152, R190, R207), and the own data byte. The guard is held: what is
cancelled does not go on while its signals fall (log 23). -/
def releaseSelection (n : Instance → Instance) (x : Instance) : Instance :=
  driveData 0 (guarded (drive n 0 (sigBSY ||| sigSEL ||| sigATN ||| sigACK)) x)

/-! ### Arbitration (R180 to R183) -/

/-- `ARB_WAIT_FREE` (R180). -/
def engArbWaitFree (e : Env) (x : Instance) : StepResult × Instance :=
  if busFreeDetected e x then goto .arbAssertBsy e.p.dArbFree x else (.stay, x)

/-- `ARB_ASSERT_BSY` (R181). -/
def engArbAssertBsy (e : Env) (n : Instance → Instance) (x : Instance) : StepResult × Instance :=
  goto .arbWait e.p.dArbSettle (drive n sigBSY sigBSY (driveData (idBit x.ctrl.bdid.toNat) x))

/-- `ARB_WAIT`, the priority check (R182). -/
def engArbWait (e : Env) (n : Instance → Instance) (x : Instance) : StepResult × Instance :=
  if x.bus.data >>> (x.ctrl.bdid.toNat + 1) ≠ 0 then
    (.progress, toIdle (driveData 0 (drive n 0 sigBSY x)))
  else goto .arbAssertSel e.p.dArbWin x

/-- `ARB_ASSERT_SEL` (R183). -/
def engArbAssertSel (e : Env) (n : Instance → Instance) (x : Instance) : StepResult × Instance :=
  goto .selAssertId e.p.dSelId (drive n sigSEL sigSEL x)

/-! ### Selection (R185 to R190) -/

/-- `SEL_WAIT_FREE` (R185). -/
def engSelWaitFree (e : Env) (x : Instance) : StepResult × Instance :=
  if busFreeDetected e x then goto .selAssertId e.p.dSelFree x else (.stay, x)

/-- `SEL_ASSERT_ID` (R186). -/
def engSelAssertId (e : Env) (x : Instance) : StepResult × Instance :=
  goto .selAssertSel e.p.dSelId (driveData (idBit x.ctrl.bdid.toNat ||| x.ctrl.temp) x)

/-- `SEL_ASSERT_SEL` (R187): SEL (and ATN) asserted and own BSY released in one change, then the timer is armed. -/
def engSelAssertSel (e : Env) (n : Instance → Instance) (x : Instance) : StepResult × Instance :=
  let y := drive n (sigSEL ||| onlyIf x.ctrl.atnQueued sigATN) (sigSEL ||| sigATN ||| sigBSY) x
  goto .selWaitBsy e.p.dSelSel
    (y.modCtrl fun c => { c with selTimer := (e.p.selTimeout c.tc).map fun l => (0, l) })

/-- `SEL_WAIT_BSY` (R188). -/
def engSelWaitBsy (e : Env) (x : Instance) : StepResult × Instance :=
  if has (sense x) sigBSY && !has (sense x) (sigREQ ||| sigMSG ||| sigCD ||| sigIO) then
    goto .selSuccess e.p.dSelOk (x.modCtrl fun c => { c with selTimer := none })
  else (.stay, x)

/-- `SEL_SUCCESS` (R189). -/
def engSelSuccess (n : Instance → Instance) (x : Instance) : StepResult × Instance :=
  let own := if x.ctrl.dm then x.ctrl.diagSig else x.bus.sig[7]
  if own &&& ~~~(sigATN ||| sigRST) = sigSEL then
    let y := driveData 0 (drive n 0 sigSEL x)
    (.progress, toIdle (raiseInt intCC (y.modCtrl fun c => { c with connected := true })))
  else (.stay, x)

/-- Selection timeout (R190). -/
def selectionTimeout (n : Instance → Instance) (x : Instance) : Instance :=
  (raiseInt intTO (releaseSelection n x)).modCtrl fun c =>
    { c with state := .idle, pending := none, selTimer := none, atnQueued := false }

/-! ### Transfer (R195 to R204) -/

/-- What `abort_phase` and `abort_disconnect` share (R196, R197): release, discard bytes owed to a send, raise the
flag, go idle. -/
def abortTransfer (n : Instance → Instance) (flag : Byte) (x : Instance) : Instance :=
  let y := driveData 0 (drive n 0 sigACK x)
  let z := y.modCtrl fun c => { c with fifo := if c.xferIn then c.fifo else c.fifo.clear }
  (raiseInt flag z).modCtrl fun c =>
    { c with state := .idle, pending := none, xferDma := false, xferTerm := false }

/-- `abort_phase()` (R196). -/
def abortPhase (n : Instance → Instance) (x : Instance) : Instance := abortTransfer n intSR x

/-- `abort_disconnect()` (R197). -/
def abortDisconnect (n : Instance → Instance) (x : Instance) : Instance :=
  (abortTransfer n intDISCONNECT x).modCtrl fun c => { c with connected := false }

/-- `XFER_WAIT_REQ` (R195). A transfer latched with the reserved phase 4 or 5 is no exception: without BSY it ends in
DISCONNECT (R197), not in the wait that I12 speaks of, and with BSY in SR whether or not REQ is up (log 26). -/
def engXferWaitReq (e : Env) (n : Instance → Instance) (x : Instance) : StepResult × Instance :=
  let s := sense x
  if !has s sigBSY then (.progress, abortDisconnect n x)
  else if phaseOf s ≠ x.ctrl.xferPhase then (.progress, abortPhase n x)
  else if has s sigREQ then goto (if x.ctrl.xferIn then .xferRecvData else .xferSendData) e.p.dHs x
  else (.stay, x)

/-- `XFER_SEND_DATA` (R198). -/
def engXferSendData (e : Env) (x : Instance) : StepResult × Instance :=
  if x.ctrl.tc = 0 then goto .xferSendAck e.p.dHs (driveData x.ctrl.temp x)
  else if x.ctrl.fifo.empty then (.stay, x)
  else
    goto .xferSendAck e.p.dHs
      (driveData x.ctrl.fifo.front (x.modCtrl fun c => { c with fifo := c.fifo.pop }))

/-- `XFER_RECV_DATA` (R199). -/
def engXferRecvData (e : Env) (x : Instance) : StepResult × Instance :=
  let b := x.bus.data
  if x.ctrl.tc = 0 then goto .xferSendAck e.p.dHs (x.modCtrl fun c => { c with temp := b })
  else if x.ctrl.fifo.full then (.stay, x)
  else goto .xferSendAck e.p.dHs (x.modCtrl fun c => { c with fifo := c.fifo.push b })

/-- `XFER_SEND_ACK` (R200): ATN falls as ACK rises for the last byte of a MESSAGE-OUT. -/
def engXferSendAck (e : Env) (n : Instance → Instance) (x : Instance) : StepResult × Instance :=
  let y :=
    if x.ctrl.xferPhase = 6 ∧ x.ctrl.tc.toNat ≤ 1 then
      (drive n sigACK (sigACK ||| sigATN) x).modCtrl fun c => { c with atnQueued := false }
    else drive n sigACK sigACK x
  goto .xferWaitDeassertReq e.p.dHs y

/-- `XFER_WAIT_DEASSERT_REQ` (R201). -/
def engXferWaitDeassertReq (e : Env) (x : Instance) : StepResult × Instance :=
  if has (sense x) sigREQ then (.stay, x) else goto .xferDeassertAck e.p.dHs x

/-- `XFER_DEASSERT_ACK` (R203). -/
def engXferDeassertAck (e : Env) (n : Instance → Instance) (x : Instance) : StepResult × Instance :=
  let last := decide (x.ctrl.tc.toNat ≤ 1)
  let y := x.modCtrl fun c => { c with tc := if c.tc = 0 then c.tc else c.tc - 1 }
  let z := if y.ctrl.xferIn then y else driveData 0 y
  goto (if last then .xferWaitFifoEmpty else .xferWaitReq) e.p.dHs (drive n 0 sigACK z)

/-- `XFER_WAIT_FIFO_EMPTY` (R204). -/
def engXferWaitFifoEmpty (x : Instance) : StepResult × Instance :=
  if x.ctrl.fifo.empty then
    (.progress, (raiseInt intCC (driveData 0 x)).modCtrl fun c =>
      { c with state := .idle, xferDma := false, xferTerm := false })
  else (.stay, x)

/-- `step()` (R173): one evaluation of the current state. -/
def engineStep (e : Env) (n : Instance → Instance) (x : Instance) : StepResult × Instance :=
  match x.ctrl.state with
  | .idle => (.stay, x)
  | .arbWaitFree => engArbWaitFree e x
  | .arbAssertBsy => engArbAssertBsy e n x
  | .arbWait => engArbWait e n x
  | .arbAssertSel => engArbAssertSel e n x
  | .selWaitFree => engSelWaitFree e x
  | .selAssertId => engSelAssertId e x
  | .selAssertSel => engSelAssertSel e n x
  | .selWaitBsy => engSelWaitBsy e x
  | .selSuccess => engSelSuccess n x
  | .xferWaitReq => engXferWaitReq e n x
  | .xferSendData => engXferSendData e x
  | .xferRecvData => engXferRecvData e x
  | .xferSendAck => engXferSendAck e n x
  | .xferWaitDeassertReq => engXferWaitDeassertReq e x
  | .xferDeassertAck => engXferDeassertAck e n x
  | .xferWaitFifoEmpty => engXferWaitFifoEmpty x

/-- How many evaluations one activity of a participant may take in an event (log 9): far above what the eight bytes
of the FIFO allow. -/
def loopBound : Nat := 4096

/-- The loops of `run_engine` (R174): evaluate while there is progress, and once more for every notification that
came in meanwhile. -/
def engineLoop (e : Env) (n : Instance → Instance) : Nat → Instance → Instance
  | 0, x => { x with unsettled := true }
  | k + 1, x =>
    let r := if x.ctrl.pending = none then engineStep e n x else (.stay, x)
    if r.1 = .progress then engineLoop e n k r.2
    else if r.2.ctrl.renotify then engineLoop e n k (r.2.modCtrl fun c => { c with renotify := false })
    else r.2

/-- `run_engine()` with its re-entrancy guard (R174). -/
def runEngine (e : Env) (n : Instance → Instance) (x : Instance) : Instance :=
  if x.ctrl.busy then x.modCtrl fun c => { c with renotify := true }
  else
    (engineLoop e n loopBound (x.modCtrl fun c => { c with busy := true, renotify := false })).modCtrl
      fun c => { c with busy := false }

/-! ### Checks and the bus callback (R175, R206, R207) -/

/-- `check_disconnect()` (R206). -/
def checkDisconnect (e : Env) (x : Instance) : Instance :=
  if x.ctrl.connected && x.ctrl.engineFree && busFreeDetected e x then
    let y := x.modCtrl fun c => { c with connected := false }
    if x.ctrl.pctl.getLsbD 7 then raiseInt intDISCONNECT y else y
  else x

/-- What a rising RST does to a Controller with something in progress (R207). -/
def rstAbort (n : Instance → Instance) (x : Instance) : Instance :=
  (releaseSelection n x).modCtrl fun c =>
    { c with fifo := c.fifo.clear, state := .idle, pending := none, selTimer := none, connected := false,
             atnQueued := false, xferDma := false, xferTerm := false }

/-- `check_rst()` (R207). -/
def checkRst (n : Instance → Instance) (x : Instance) : Instance :=
  let r := has x.bus.ctl sigRST
  let y :=
    if r && !x.ctrl.rstSeen then
      let y := raiseInt intRC x
      if !y.ctrl.engineFree || y.ctrl.connected then rstAbort n y else y
    else x
  y.modCtrl fun c => { c with rstSeen := r }

/-- `on_bus_change()` (R175), up to the two lines, which follow at the end of the event (`updateLines`, D33). -/
def onBusChange (e : Env) (n : Instance → Instance) (x : Instance) : Instance :=
  let y := if x.bus.isFree then x else x.modCtrl fun c => { c with bfTimer := 0 }
  runEngine e n (checkDisconnect e (checkRst n y))

/-- The common tail of every register access and of every tick, the last thing they do (R111, R210). -/
def tail (e : Env) (n : Instance → Instance) (x : Instance) : Instance :=
  updateLines (runEngine e n x)

/-! ### Tick (R210) -/

/-- Step 1 of a tick: the pending transition and the cascade, paid out of the budget. -/
def tickPending (e : Env) (n : Instance → Instance) (cycles : Nat) (x : Instance) : Instance :=
  match x.ctrl.pending with
  | some (t, r) =>
    if r ≤ cycles then
      runEngine e n (x.modCtrl fun c => { c with budget := cycles - r, pending := none, state := t })
    else x.modCtrl fun c => { c with pending := some (t, r - cycles) }
  | none => runEngine e n (x.modCtrl fun c => { c with budget := cycles })

/-- Step 2 of a tick: the selection timer, if it was armed before the tick. -/
def tickSelTimer (n : Instance → Instance) (armedBefore : Bool) (cycles : Nat) (x : Instance) : Instance :=
  if armedBefore then
    match x.ctrl.selTimer with
    | some (el, limit) =>
      if limit ≤ el + cycles then selectionTimeout n x
      else x.modCtrl fun c => { c with selTimer := some (el + cycles, limit) }
    | none => x
  else x

/-- The bus-free timer of step 3. -/
def tickBusFree (e : Env) (cycles : Nat) (x : Instance) : Instance :=
  x.modCtrl fun c =>
    { c with bfTimer := if x.bus.isFree then min (c.bfTimer + cycles) e.p.busFreeCycles else 0 }

/-- `Tick(cycles)` (R210). -/
def tickInstance (e : Env) (n : Instance → Instance) (cycles : Nat) (x : Instance) : Instance :=
  let armedBefore := x.ctrl.selTimer.isSome
  let y := (tickPending e n cycles x).modCtrl fun c => { c with budget := 0 }
  let z := tickBusFree e cycles (tickSelTimer n armedBefore cycles y)
  tail e n (checkDisconnect e z)

end Sys2Proof.Machine
end

