-- ==== Sys2Proof/Machine/Target.lean ====
section
/-! DEFINITION. The Target's commands (45_target_commands.md): the exits and checks they share, one body per
command, the dispatch on the opcode, and the store accesses they make. A body runs on the record of the Target at
slot `k`, whose command buffer holds the CDB. -/

namespace Sys2Proof.Machine

/-! ### Exits (R251) -/

/-- `Good` (R251). -/
def good (t : Target) : Target := { t with status := 0x00, tstate := .status }

/-- `DataIn` (R251). -/
def dataIn (n : Nat) (t : Target) : Target :=
  if n = 0 then good t else { t with cur := 0, total := n, status := 0x00, tstate := .dataIn }

/-- `DataOut` (R251). -/
def dataOut (n : Nat) (t : Target) : Target :=
  if n = 0 then good t else { t with cur := 0, total := n, status := 0x00, tstate := .dataOut }

/-- Fill the data buffer from its start. -/
def fillFromStart (bs : List Byte) (t : Target) : Target := { t with buf := bufFill t.buf 0 bs }

/-! ### Checks (R253) -/

/-- What a check answers: the command stops with its record, or goes on. -/
abbrev Check := Option Target

/-- `need_medium` (R253). -/
def needMedium (p : Params) (t : Target) : Check :=
  if t.image.isNone then some (checkCondition p 0x2 0x3A 0x00 none t) else none

/-- `in_range` (R253), on naturals. -/
def inRange (p : Params) (lba blocks : Nat) (t : Target) : Check :=
  if t.geom.totalSectors < lba + blocks then some (checkCondition p 0x5 0x21 0x00 (some lba) t) else none

/-- `fits` (R253). -/
def fits (p : Params) (blocks : Nat) (t : Target) : Check :=
  if 65536 < blocks * t.geom.bps then some (checkCondition p 0x5 0x24 0x00 none t) else none

/-- The first check that stops, else the command. -/
def afterChecks (checks : List Check) (t : Target) : Target := (checks.findSome? id).getD t

/-! ### Store accesses (R50) -/

/-- `StoreRead` (R50): the bytes, or none for a failure. No image, or bytes beyond the image, is a failure
(R234, log 5). -/
def storeRead (e : Env) (k : Fin 7) (off len : Nat) (x : Instance) : Option (List Byte) × Instance :=
  match (x.target? k).bind Target.image with
  | none => (none, x)
  | some st =>
    let ok := !drawFails e x && decide (off + len ≤ st.size)
    (if ok then some (st.readRange off len) else none, nextDraw (x.logCall (.storeRead k off len ok)))

/-- `StoreWrite` (R50): whether it succeeded, and the image as it leaves it; a failed write leaves any mixture of
old and new bytes (log 6). -/
def storeWrite (e : Env) (k : Fin 7) (off : Nat) (data : List Byte) (x : Instance) : Bool × Instance :=
  match (x.target? k).bind Target.image with
  | none => (false, x)
  | some st =>
    let ok := !drawFails e x && decide (off + data.length ≤ st.size)
    let st' := if ok then st.writeRange off data else st.writeMixed off (e.p.storeTakesNew e.id x.draws) 0 data
    (ok, nextDraw ((x.modTarget k fun t => { t with image := some st' }).logCall (.storeWrite k off data ok)))

/-! ### Commands without store access (R255 to R270) -/

/-- Test Unit Ready (R255). -/
def testUnitReady (p : Params) (t : Target) : Target := afterChecks [needMedium p t] (good t)

/-- Rezero (R256). -/
def rezeroUnit (p : Params) (t : Target) : Target := afterChecks [needMedium p t] (good t)

/-- The 18 bytes of extended sense (R257). -/
def senseBytes (t : Target) : List Byte :=
  [if t.senseLbaValid then 0xF0 else 0x70, 0x00, t.senseKey.setWidth 8,
   t.senseLba.extractLsb' 24 8, t.senseLba.extractLsb' 16 8, t.senseLba.extractLsb' 8 8, t.senseLba.extractLsb' 0 8,
   0x0A, 0, 0, 0, 0, t.senseAsc, t.senseAscq, 0, 0, 0, 0]

/-- Request Sense (R257): a consuming read. -/
def requestSense (t : Target) : Target :=
  let n := if t.cmd[4] = 0 then 4 else min t.cmd[4].toNat 18
  dataIn n (clearSense (fillFromStart (senseBytes t) t))

/-- Format Unit (R258). -/
def formatUnit (t : Target) : Target := good t

/-- Seek(6) (R263). -/
def seek6 (p : Params) (t : Target) : Target :=
  afterChecks [needMedium p t, inRange p (lba6 t.cmd) 0 t] (good t)

/-- Inquiry (R264). -/
def inquiry (p : Params) (t : Target) : Target :=
  dataIn (min t.cmd[4].toNat 36) (fillFromStart p.inquiryPayload.toList t)

/-- Mode Select(6) (R265). -/
def modeSelect6 (t : Target) : Target := dataOut t.cmd[4].toNat t

/-- The format page of Mode Sense (R266), 24 bytes. -/
def formatPage (p : Params) (g : Geometry) : List Byte :=
  [0x03, 0x16] ++ List.replicate 8 0 ++ beField p 2 g.spt ++ beField p 2 g.bps ++ List.replicate 10 0

/-- The geometry page of Mode Sense (R266), 24 bytes. -/
def geometryPage (p : Params) (g : Geometry) : List Byte :=
  [0x04, 0x16] ++ beField p 3 g.cylinders ++ [BitVec.ofNat 8 g.heads] ++ List.replicate 18 0

/-- Header bytes 1 to 3 and block descriptor of Mode Sense (R266). -/
def modeHeader (p : Params) (g : Geometry) : List Byte :=
  [0x00, 0x00, 0x08, 0x00] ++ beField p 3 (min g.totalSectors 0xFFFFFF) ++ [0x00] ++ beField p 3 g.bps

/-- The bytes of Mode Sense for a page (R266); byte 0 is their number less one. -/
def modeBytes (p : Params) (page : Byte) (g : Geometry) : List Byte :=
  let body := modeHeader p g ++
    (if page = 0x03 ∨ page = 0x3F then formatPage p g else []) ++
    (if page = 0x04 ∨ page = 0x3F then geometryPage p g else [])
  BitVec.ofNat 8 body.length :: body

/-- The current geometry (R266): "with no image `geom` is all zero". A record keeps its geometry when its image is
closed, because a write in progress goes on by it (R18, R230, R234; log 25). -/
def Target.currentGeom (t : Target) : Geometry := if t.image.isSome then t.geom else ⟨0, 0, 0, 0, 0⟩

/-- Mode Sense(6) (R266). -/
def modeSense6 (p : Params) (t : Target) : Target :=
  let page := t.cmd[2] &&& 0x3F
  if page ≠ 0x00 ∧ page ≠ 0x03 ∧ page ≠ 0x04 ∧ page ≠ 0x3F then checkCondition p 0x5 0x24 0x00 none t
  else
    let bs := modeBytes p page t.currentGeom
    dataIn (min t.cmd[4].toNat bs.length) (fillFromStart bs t)

/-- Start/Stop Unit (R267). -/
def startStopUnit (t : Target) : Target := good t

/-- Read Capacity (R268). -/
def readCapacity (p : Params) (t : Target) : Target :=
  afterChecks [needMedium p t]
    (dataIn 8 (fillFromStart (beField p 4 (t.geom.totalSectors - 1) ++ beField p 4 t.geom.bps) t))

/-- Verify(10) (R269). -/
def verify10 (p : Params) (t : Target) : Target :=
  if t.cmd[1].getLsbD 1 then checkCondition p 0x5 0x24 0x00 none t
  else afterChecks [needMedium p t, inRange p (lba10 t.cmd) (blocks10 t.cmd) t] (good t)

/-- Any other opcode (R270). -/
def otherOpcode (p : Params) (t : Target) : Target := checkCondition p 0x5 0x20 0x00 none t

/-! ### Reads and writes (R271, R272, R254) -/

/-- The checks of a read or a write, in order (R271, R272). -/
def rwChecks (p : Params) (lba blocks : Nat) (t : Target) : Check :=
  [needMedium p t, inRange p lba blocks t, fits p blocks t].findSome? id

/-- The staging loop of `do_read` (R271): `left` sectors of `blocks` are still to be read. -/
def stageSectors (e : Env) (k : Fin 7) (lba bps blocks : Nat) : Nat → Instance → Instance
  | 0, x => x.modTarget k (dataIn (blocks * bps))
  | left + 1, x =>
    let j := blocks - (left + 1)
    match storeRead e k ((lba + j) * bps) bps x with
    | (none, y) => y.modTarget k (checkCondition e.p 0x3 0x00 0x00 (some (lba + j)))
    | (some bs, y) =>
      stageSectors e k lba bps blocks left (y.modTarget k fun t => { t with buf := bufFill t.buf (j * bps) bs })

/-- `do_read` (R271). -/
def doRead (e : Env) (k : Fin 7) (lba blocks : Nat) (x : Instance) : Instance :=
  match x.target? k with
  | none => x
  | some t =>
    match rwChecks e.p lba blocks t with
    | some t' => x.modTarget k fun _ => t'
    | none =>
      stageSectors e k lba t.geom.bps blocks blocks
        (x.modTarget k fun t => { t with lba := BitVec.ofNat 32 lba, blocks := blocks })

/-- `do_write` (R272). -/
def doWrite (e : Env) (k : Fin 7) (lba blocks : Nat) (x : Instance) : Instance :=
  x.modTarget k fun t =>
    match rwChecks e.p lba blocks t with
    | some t' => t'
    | none => dataOut (blocks * t.geom.bps) { t with lba := BitVec.ofNat 32 lba, blocks := blocks }

/-- The record after a failed flush of sector `j` of the request (R254). -/
def flushFailed (p : Params) (j : Nat) (t : Target) : Target :=
  { t with
    senseKey := 0x3
    senseAsc := 0x00
    senseAscq := 0x00
    senseLba := BitVec.ofNat 32 (narrow p 4 (t.lba.toNat + j))
    senseLbaValid := true
    status := 0x02
    total := t.cur }

/-- `flush_sector` (R254). -/
def flushSector (e : Env) (k : Fin 7) (x : Instance) : Instance :=
  match x.target? k with
  | none => x
  | some t =>
    let bps := t.geom.bps
    let j := t.cur / bps - 1
    match storeWrite e k ((t.lba.toNat + j) * bps) (bufSlice e t (j * bps) bps) x with
    | (true, y) => y
    | (false, y) => y.modTarget k (flushFailed e.p j)

/-! ### Dispatch (R250) -/

/-- Read(6) (R259). -/
def read6 (e : Env) (k : Fin 7) (x : Instance) : Instance :=
  match x.target? k with
  | none => x
  | some t => doRead e k (lba6 t.cmd) (blocks6 t.cmd) x

/-- Read(10) (R260). -/
def read10 (e : Env) (k : Fin 7) (x : Instance) : Instance :=
  match x.target? k with
  | none => x
  | some t => doRead e k (lba10 t.cmd) (blocks10 t.cmd) x

/-- Write(6) (R261). -/
def write6 (e : Env) (k : Fin 7) (x : Instance) : Instance :=
  match x.target? k with
  | none => x
  | some t => doWrite e k (lba6 t.cmd) (blocks6 t.cmd) x

/-- Write(10) (R262). -/
def write10 (e : Env) (k : Fin 7) (x : Instance) : Instance :=
  match x.target? k with
  | none => x
  | some t => doWrite e k (lba10 t.cmd) (blocks10 t.cmd) x

/-- `execute_cdb` (R250): dispatch on the opcode of the command buffer. -/
def executeCdb (e : Env) (k : Fin 7) (x : Instance) : Instance :=
  match x.target? k with
  | none => x
  | some t =>
    match cdbOpOf t.cmd[0] with
    | .testUnitReady => x.modTarget k (testUnitReady e.p)
    | .rezeroUnit => x.modTarget k (rezeroUnit e.p)
    | .requestSense => x.modTarget k requestSense
    | .formatUnit => x.modTarget k formatUnit
    | .read6 => read6 e k x
    | .write6 => write6 e k x
    | .seek6 => x.modTarget k (seek6 e.p)
    | .inquiry => x.modTarget k (inquiry e.p)
    | .modeSelect6 => x.modTarget k modeSelect6
    | .modeSense6 => x.modTarget k (modeSense6 e.p)
    | .startStopUnit => x.modTarget k startStopUnit
    | .readCapacity => x.modTarget k (readCapacity e.p)
    | .read10 => read10 e k x
    | .write10 => write10 e k x
    | .verify10 => x.modTarget k (verify10 e.p)
    | .other => x.modTarget k (otherOpcode e.p)

end Sys2Proof.Machine
end

