-- ==== Sys2Proof/Machine/Responder.lean ====
section
/-! DEFINITION. The Target's responder (44_target_responder.md): selection gate, REQ/ACK handshake, phase sequence,
and the notification handler with its guard. `n` is the change notification of the Bus. -/

namespace Sys2Proof.Machine

/-- Direction of the Target's phase: true when the initiator sends (R221). -/
def Target.outward (t : Target) : Bool :=
  match t.tstate with
  | .command => true
  | .dataOut => true
  | .message => t.msgOut
  | _ => false

/-- The phase lines of a device state (R221). -/
def Target.phaseLines (t : Target) : Ctl :=
  match t.tstate with
  | .command => sigCD
  | .dataOut => 0
  | .dataIn => sigIO
  | .status => sigCD ||| sigIO
  | .message => if t.msgOut then sigMSG ||| sigCD else sigMSG ||| sigCD ||| sigIO
  | .idle => 0

/-- `next_in_byte` (R225). -/
def nextInByte (e : Env) (t : Target) : Byte :=
  match t.tstate with
  | .dataIn => bufRead e t t.cur
  | .status => t.status
  | .message => t.message
  | _ => 0

/-- Release of everything the Target drives (R223, R228). -/
def releaseBus (n : Instance → Instance) (id : Fin 7) (x : Instance) : Instance :=
  setControl n (slotAddr id) 0 sigALL (setData (slotAddr id) 0 x)

/-- The reaction to RST (R223). -/
def targetReset (n : Instance → Instance) (k id : Fin 7) (x : Instance) : Instance :=
  (releaseBus n id x).modTarget k fun t =>
    { t with tstate := .idle, hs := .needReq, msgOut := false, cmdLen := 0, cur := 0, total := 0 }

/-- The selection condition and gate (R223). -/
def selectionGate (t : Target) (c : Ctl) (d : Byte) : Bool :=
  has c sigSEL && !has c sigBSY && !has c sigIO && ((d &&& idBit t.id) != 0) && (t.image.isSome || t.ready)

/-- The record of a Target that has claimed a selection (R223). -/
def Target.claimed (t : Target) : Target :=
  { t with cmdLen := 0, cur := 0, total := 0, tstate := .command, hs := .needReq, msgOut := false }

/-- Whether the Target at slot `k` claims when the Target at slot `self` takes the step: it is idle, its gate is open,
and it is not in the middle of a step of its own, whose end would undo the claim (R222, R232; log 24). -/
def Target.claims (self k : Fin 7) (c : Ctl) (d : Byte) (t : Target) : Bool :=
  t.tstate == .idle && selectionGate t c d && (k == self || !t.tbusy)

/-- The claim of the Target at a slot on a bus that shows `c` and `d`, if it claims: its record, and BSY as its
contribution (R223). -/
def Bus.claim (self : Fin 7) (c : Ctl) (d : Byte) (b : Bus) (k : Fin 7) : Bus :=
  match b.occ[slotAddr k] with
  | some (.target t) =>
    if t.claims self k c d then
      { b with occ := b.occ.set (slotAddr k) (some (.target t.claimed)) }.writeControl (slotAddr t.id) sigBSY sigALL
    else b
  | _ => b

/-- The bus after the claims of every addressed ready Target (R223, I19). -/
def Bus.claims (self : Fin 7) (b : Bus) : Bus := targetSlots.foldl (Bus.claim self b.ctl b.data) b

/-- The claim of a selection (R223). "If the host sets several target bits, every addressed ready Target claims": all of
them claim on the word that selects them, in one change of the bus, which is then notified once (log 24). -/
def claimSelection (n : Instance → Instance) (self : Fin 7) (x : Instance) : Instance :=
  changeBus n x (x.bus.claims self)

/-- Present the next byte and raise REQ (R225). -/
def presentByte (e : Env) (n : Instance → Instance) (k : Fin 7) (t : Target) (x : Instance) : Instance :=
  let y := setData (slotAddr t.id) (if t.outward then 0 else nextInByte e t) x
  (setControl n (slotAddr t.id) (sigBSY ||| t.phaseLines ||| sigREQ) sigALL y).modTarget k
    fun t => { t with hs := .reqUp }

/-- Store a command byte (R230). -/
def storeCmdByte (d : Byte) (t : Target) : Target :=
  { t with cmd := t.cmd.setIfInBounds t.cmdLen d, cmdLen := t.cmdLen + 1 }

/-- Store a data-out byte (R230). -/
def storeDataByte (d : Byte) (t : Target) : Target := { t with buf := bufWrite t.buf t.cur d, cur := t.cur + 1 }

/-- `take_byte` (R230). -/
def takeByte (e : Env) (k : Fin 7) (t : Target) (d : Byte) (x : Instance) : Instance :=
  match t.tstate with
  | .command => x.modTarget k (storeCmdByte d)
  | .dataOut =>
    let y := x.modTarget k (storeDataByte d)
    if (t.cmd[0] = 0x0A ∨ t.cmd[0] = 0x2A) ∧ (t.cur + 1) % t.geom.bps = 0 then flushSector e k y else y
  | .message => x.modTarget k fun t => { t with message := d }
  | _ => x

/-- The reaction to ACK rising (R226). -/
def answerAck (e : Env) (n : Instance → Instance) (k : Fin 7) (t : Target) (d : Byte) (x : Instance) : Instance :=
  let y :=
    if t.outward then takeByte e k t d x
    else if t.tstate = .dataIn then x.modTarget k fun t => { t with cur := t.cur + 1 }
    else x
  (setControl n (slotAddr t.id) 0 sigREQ y).modTarget k fun t => { t with hs := .reqDown }

/-- `advance` (R228, R229): what follows a completed byte. -/
def advance (e : Env) (n : Instance → Instance) (k : Fin 7) (t : Target) (c : Ctl) (x : Instance) : Instance :=
  let y :=
    match t.tstate with
    | .command => if t.cmdLen < cdbLen t.cmd[0] then x else executeCdb e k x
    | .dataOut => if t.total ≤ t.cur then x.modTarget k fun t => { t with tstate := .status } else x
    | .dataIn => if t.total ≤ t.cur then x.modTarget k fun t => { t with tstate := .status } else x
    | .status => x.modTarget k fun t => { t with message := 0x00, tstate := .message, msgOut := false }
    | .message =>
      if t.msgOut then
        if has c sigATN then x
        else x.modTarget k fun t => { t with tstate := .command, msgOut := false, cmdLen := 0 }
      else (releaseBus n t.id x).modTarget k fun t => { t with tstate := .idle }
    | .idle => x
  y.modTarget k fun t => { t with hs := .needReq }

/-- `tstep(dev)` (R222 to R227) of the Target at slot `k`: whether it made progress, and the instance after it. -/
def targetStep (e : Env) (n : Instance → Instance) (k : Fin 7) (x : Instance) : Bool × Instance :=
  match x.target? k with
  | none => (false, x)
  | some t =>
    let c := x.bus.ctl
    let d := x.bus.data
    if has c sigRST then
      if t.tstate ≠ .idle ∨ x.bus.sig[slotAddr t.id] ≠ 0 ∨ x.bus.dat[slotAddr t.id] ≠ 0 then
        (true, targetReset n k t.id x)
      else (false, x)
    else if t.tstate = .idle then
      if selectionGate t c d then (true, claimSelection n k x) else (false, x)
    else if has c sigSEL then (false, x)
    else if t.tstate = .command ∧ t.cmdLen = 0 ∧ t.hs = .needReq ∧ has c sigACK = false ∧ has c sigATN = true then
      (true, x.modTarget k fun t => { t with tstate := .message, msgOut := true })
    else
      match t.hs with
      | .needReq => if has c sigACK then (false, x) else (true, presentByte e n k t x)
      | .reqUp => if has c sigACK then (true, answerAck e n k t d x) else (false, x)
      | .reqDown => if has c sigACK then (false, x) else (true, advance e n k t c x)

/-- How many evaluations one activity of a Target may take in an event (log 9). -/
def targetBound : Nat := 4096

/-- The loops of the handler (R222). -/
def targetLoop (e : Env) (n : Instance → Instance) (k : Fin 7) : Nat → Instance → Instance
  | 0, x => { x with unsettled := true }
  | m + 1, x =>
    let r := targetStep e n k x
    if r.1 then targetLoop e n k m r.2
    else if (r.2.target? k).any Target.trenotify then
      targetLoop e n k m (r.2.modTarget k fun t => { t with trenotify := false })
    else r.2

/-- `on_bus_change_target(dev)` with its re-entrancy guard (R222). -/
def targetHandler (e : Env) (n : Instance → Instance) (k : Fin 7) (x : Instance) : Instance :=
  match x.target? k with
  | none => x
  | some t =>
    if t.tbusy then x.modTarget k fun t => { t with trenotify := true }
    else
      (targetLoop e n k targetBound (x.modTarget k fun t => { t with tbusy := true, trenotify := false })).modTarget k
        fun t => { t with tbusy := false }

end Sys2Proof.Machine
end

