-- ==== Sys2Proof/Machine/Notify.lean ====
section
/-! DEFINITION. The change notification of the Bus (R91): the callback, then the Targets in ascending order of their
slots; a receiver that changes the bus causes a nested notification, which completes first. -/

namespace Sys2Proof.Machine

/-- Delivery to the callback (R91). -/
def notifyCallback (e : Env) (n : Instance → Instance) (x : Instance) : Instance :=
  match x.bus.cb with
  | .controller => onBusChange e n x
  | .unbound => x

/-- One delivery of the change notification, nested notifications being `n` (R91). -/
def deliver (e : Env) (n : Instance → Instance) (x : Instance) : Instance :=
  targetSlots.foldl (fun y k => targetHandler e n k y) (notifyCallback e n x)

/-- `notify()` with at most `d` nested deliveries. -/
def notifyTo (e : Env) : Nat → Instance → Instance
  | 0, x => { x with unsettled := true }
  | d + 1, x => deliver e (notifyTo e d) x

/-- How deep notifications may nest (log 9). Each nested one is caused by a bus write of a receiver in the middle of
its own activity, of which there are at most ten: seven Targets, the engine, the RST check, and the event itself. -/
def nestingBound : Nat := 32

/-- `notify()` (R91). -/
def notify (e : Env) : Instance → Instance := notifyTo e nestingBound

/-- The notification of a Bus call from outside, and with it the end of that event: if the callback was notified, the two
lines follow (R175, R296, R300, D33). -/
def notifyEvent (e : Env) (x : Instance) : Instance :=
  match (notify e x).bus.cb with
  | .controller => updateLines (notify e x)
  | .unbound => notify e x

end Sys2Proof.Machine
end

