-- ==== Sys2Proof/Machine/Window.lean ====
section
/-! DEFINITION. Events on an instance, and the host register window: the decode of an access by polarity (R43), the
common tail (R111), the bodies of the registers with side effects (R115, R116, R126, R127), and the Controller
commands (42_controller_commands.md). -/

namespace Sys2Proof.Machine

/-- The common tail of a Controller entry point with the machine's own notification (R111). -/
def commonTail (e : Env) (x : Instance) : Instance := tail e (notify e) x

/-- A new event of an instance: nothing returned and no call made yet (log 10). -/
def beginEvent (x : Instance) : Instance := { x with ret := .none, calls := [] }

/-- The surroundings of an instance's operations in this machine. -/
def envOf (i : InstId) : Env := { p := Config.params, id := i }

/-- Run an event on one instance; the other is not touched (R10). -/
def onInstance (i : InstId) (f : Env → Instance → Instance) (s : State) : Host.Outcome State Fault Refusal :=
  .next (s.put i (f (envOf i) (beginEvent (s.get i))))

/-! ### Window decode (R43, R110) -/

/-- A read that selects no register (R43). -/
def readNothing (x : Instance) : Instance := { x with ret := .byte 0xFF }

/-- `RegRead` behind the polarity check (R43, R110): the value is taken before the tail runs. -/
def readRegister (odd : Bool) (body : Instance → Byte × Instance) (e : Env) (x : Instance) : Instance :=
  if odd = e.p.odd e.id then commonTail e { (body x).2 with ret := .byte (body x).1 } else readNothing x

/-- A read without side effects. -/
def readPlain (odd : Bool) (value : Instance → Byte) (e : Env) (x : Instance) : Instance :=
  readRegister odd (fun y => (value y, y)) e x

/-- `RegWrite` behind the polarity check (R43, R110). -/
def writeRegister (odd : Bool) (body : Env → Instance → Instance) (e : Env) (x : Instance) : Instance :=
  if odd = e.p.odd e.id then commonTail e (body e x) else x

/-- A write that only changes the Controller. -/
def writePlain (odd : Bool) (f : Controller → Controller) (e : Env) (x : Instance) : Instance :=
  writeRegister odd (fun _ y => y.modCtrl f) e x

/-- An access that selects no register (R43). -/
def accessNothing (acc : Access) (_ : Env) (x : Instance) : Instance :=
  match acc with
  | .read => readNothing x
  | .write _ => x

/-! ### Registers with side effects -/

/-- `abort_all()` (R115): it "raises no interrupt and leaves `ints`, `tc`, `temp`" unchanged, so the guard is held while
the own signals fall, and what is aborted does not go on (log 23). -/
def abortAll (n : Instance → Instance) (x : Instance) : Instance :=
  let y := (guarded (setControl n 7 0 sigALL) x).modCtrl fun c => { c with diagSig := 0 }
  (setData 7 0 y).modCtrl fun c =>
    { c with scmd := c.scmd &&& ~~~0x10, fifo := c.fifo.clear, state := .idle, pending := none, selTimer := none,
             connected := false, atnQueued := false, xferTerm := false, xferDma := false, serr := 0 }

/-- The write of SCTL (R115). -/
def writeSctl (v : Byte) (e : Env) (x : Instance) : Instance :=
  let y := x.modCtrl fun c => { c with sctl := v }
  if v.getLsbD 7 && !y.ctrl.engineFree then abortAll (notify e) y else y

/-- The read of DREG (R126): pops, or gives the last value again. -/
def readDreg (x : Instance) : Byte × Instance :=
  if x.ctrl.fifo.empty then (x.ctrl.dreg, x)
  else (x.ctrl.fifo.front, x.modCtrl fun c => { c with dreg := c.fifo.front, fifo := c.fifo.pop })

/-- The write of DREG (R127): pushes; a byte for a full FIFO is lost and latched as an overrun. -/
def writeDreg (v : Byte) (c : Controller) : Controller :=
  if c.fifo.full then { c with dreg := v, serr := c.serr ||| errXO } else { c with dreg := v, fifo := c.fifo.push v }

/-! ### Commands (R150 to R160) -/

/-- `BUS_RELEASE` (R152). A selection is cancelled with the guard held (`releaseSelection`, log 23). -/
def cmdBusRelease (n : Instance → Instance) (x : Instance) : Instance :=
  if x.ctrl.state.famSel then
    (releaseSelection n x).modCtrl fun c =>
      { c with state := .idle, pending := none, selTimer := none, atnQueued := false }
  else if x.ctrl.state.famIdle then (releaseSelection n x).modCtrl fun c => { c with atnQueued := false }
  else x

/-- `SELECT` (R153). -/
def cmdSelect (x : Instance) : Instance :=
  if x.ctrl.engineFree then
    x.modCtrl fun c =>
      { c with serr := 0, state := if c.sctl.getLsbD 4 then .arbWaitFree else .selWaitFree }
  else x

/-- `RESET_ATN` (R154). -/
def cmdResetAtn (n : Instance → Instance) (x : Instance) : Instance :=
  drive n 0 sigATN (x.modCtrl fun c => { c with atnQueued := false })

/-- `SET_ATN` (R155). -/
def cmdSetAtn (n : Instance → Instance) (x : Instance) : Instance :=
  let y := x.modCtrl fun c => { c with atnQueued := true }
  if y.ctrl.connected then drive n sigATN sigATN y else y

/-- `TRANSFER` (R156): `v` is the command byte. -/
def cmdTransfer (v : Byte) (x : Instance) : Instance :=
  if x.ctrl.engineFree then
    x.modCtrl fun c =>
      { c with
        serr := 0
        xferPhase := c.pctl.extractLsb' 0 3
        xferIn := c.pctl.getLsbD 0
        xferDma := !v.getLsbD 2
        xferTerm := v.getLsbD 0
        state := if c.tc = 0 ∧ v.getLsbD 0 = false then .xferWaitFifoEmpty else .xferWaitReq }
  else x

/-- `TRANSFER_PAUSE` (R157): no function. -/
def cmdTransferPause (x : Instance) : Instance := x

/-- `RESET_ACKREQ` (R158). -/
def cmdResetAckreq (n : Instance → Instance) (x : Instance) : Instance :=
  if x.ctrl.engineFree then drive n 0 sigACK x else x

/-- `SET_ACKREQ` (R159). -/
def cmdSetAckreq (n : Instance → Instance) (x : Instance) : Instance :=
  if x.ctrl.engineFree then drive n sigACK sigACK x else x

/-- `execute_command(code, v)` (R150). -/
def executeCommand (n : Instance → Instance) (v : Byte) (x : Instance) : Instance :=
  match (v.extractLsb' 5 3).toNat with
  | 0 => cmdBusRelease n x
  | 1 => cmdSelect x
  | 2 => cmdResetAtn n x
  | 3 => cmdSetAtn n x
  | 4 => cmdTransfer v x
  | 5 => cmdTransferPause x
  | 6 => cmdResetAckreq n x
  | _ => cmdSetAckreq n x

/-- The write of SCMD with the command it executes (R116): store, RST-out, then the command unless disabled
(R118). -/
def writeScmdWith (command : (Instance → Instance) → Instance → Instance) (v : Byte) (e : Env) (x : Instance) :
    Instance :=
  let y := x.modCtrl fun c => { c with scmd := v }
  let z := drive (notify e) (onlyIf (v.getLsbD 4) sigRST) sigRST y
  if z.ctrl.sctl.getLsbD 7 then z else command (notify e) z

/-- The write of SCMD (R116, R150). -/
def writeScmd (v : Byte) (e : Env) (x : Instance) : Instance :=
  writeScmdWith (fun n y => executeCommand n v y) v e x

/-- The write of a command byte at the instance's own SCMD offset: the body of R116 with the command the byte's
code names, then the common tail (R150, log 12). -/
def issueCommand (command : (Instance → Instance) → Instance → Instance) (v : Byte) (e : Env) (x : Instance) :
    Instance :=
  commonTail e (writeScmdWith command v e x)

end Sys2Proof.Machine
end

