-- ==== Sys2Proof/Machine/BusCalls.lean ====
section
/-! DEFINITION. The meanings of the seven Bus operations called from outside (40_bus_ops.md, log 13). -/

namespace Sys2Proof.Machine

/-- The record a Target is created with (R17, R321): everything empty but the ready flag the environment sets and the
image it opens (R18). `serial` numbers the record for its unspecified buffer bytes (log 7). -/
def createTarget (p : Params) (k : Fin 7) (serial : Nat) (ready : Bool) (image : Option Store) : Target :=
  { tstate := .idle, cmd := Vector.replicate 16 0, cmdLen := 0, buf := [], cur := 0, total := 0, lba := 0, blocks := 0,
    senseKey := 0, senseAsc := 0, senseAscq := 0, senseLba := 0, senseLbaValid := false, status := 0x00,
    message := 0x00, image := image,
    geom := (image.map fun st => p.geometryOfSize st.size).getD ⟨0, 0, 0, 0, 0⟩,
    ready := ready || image.isSome, mediaChanged := image.isSome, id := k, hs := .needReq,
    msgOut := false, tbusy := false, trenotify := false, serial := serial }

/-- The image of a new Target, if the environment opens one, and the instance without it among the kept ones (R321). -/
def newImage (dev : NewTarget) (x : Instance) : Option Store × Instance :=
  match dev.image with
  | some src => takeImage src x
  | none => (none, x)

/-- `BUS.attach` of a new Target (R93, R321). The image bytes of an occupant that it replaces persist (R323). -/
def execBusAttach (inst : InstId) (id : Fin 7) (dev : NewTarget) (s : State) : Host.Outcome State Fault Refusal :=
  onInstance inst (fun e x =>
    let r := newImage dev (nextDraw x)
    attach (notifyEvent e) id (createTarget e.p id x.draws dev.ready r.1) (keepImage id r.2)) s

/-- `BUS.detach` (R94): the Target is destroyed, closing its image, whose bytes persist (R323). -/
def execBusDetach (inst : InstId) (id : Fin 7) (s : State) : Host.Outcome State Fault Refusal :=
  onInstance inst (fun e x => detach (notifyEvent e) id (keepImage id x)) s

/-- `BUS.set_control` (R95). -/
def execBusSetControl (inst : InstId) (id : Fin 8) (value mask : Ctl) (s : State) :
    Host.Outcome State Fault Refusal :=
  onInstance inst (fun e x => setControl (notifyEvent e) id value mask x) s

/-- `BUS.set_data` (R96). -/
def execBusSetData (inst : InstId) (id : Fin 8) (value : Byte) (s : State) : Host.Outcome State Fault Refusal :=
  onInstance inst (fun _ x => setData id value x) s

/-- `BUS.get_control` (R97). -/
def execBusGetControl (inst : InstId) (s : State) : Host.Outcome State Fault Refusal :=
  onInstance inst (fun _ x => { x with ret := .word x.bus.ctl }) s

/-- `BUS.get_data` (R97). -/
def execBusGetData (inst : InstId) (s : State) : Host.Outcome State Fault Refusal :=
  onInstance inst (fun _ x => { x with ret := .byte x.bus.data }) s

/-- `BUS.is_bus_free` (R98). -/
def execBusIsBusFree (inst : InstId) (s : State) : Host.Outcome State Fault Refusal :=
  onInstance inst (fun _ x => { x with ret := .flag x.bus.isFree }) s

end Sys2Proof.Machine
end

