-- ==== Sys2Proof/Machine/CdbCommands.lean ====
section
/-! DEFINITION. The meanings of the Target commands as operations on the Target at a slot (R250, log 11). -/

namespace Sys2Proof.Machine

/-- Put bytes into the command buffer from an index on. -/
def fillCmd (cmd : Vector Byte 16) (j : Nat) : List Byte → Vector Byte 16
  | [] => cmd
  | v :: vs => fillCmd (cmd.setIfInBounds j v) (j + 1) vs

/-- The record with a CDB collected (R230). -/
def loadCdb (bytes : List Byte) (t : Target) : Target := { t with cmd := fillCmd t.cmd 0 bytes, cmdLen := bytes.length }

/-- A CDB for the Target at a slot: collect it, then run its command (R250, log 11). Without a Target nothing
happens. -/
def runCdb (id : Fin 7) (bytes : List Byte) (command : Env → Fin 7 → Instance → Instance) (e : Env) (x : Instance) :
    Instance :=
  command e id (x.modTarget id (loadCdb bytes))

/-- Test Unit Ready (R255). -/
def execCdbTestUnitReady (inst : InstId) (id : Fin 7) (c : Cdb6) (s : State) : Host.Outcome State Fault Refusal :=
  onInstance inst (runCdb id (cdb6Bytes 0x00 c) (fun e k x => x.modTarget k (testUnitReady e.p))) s

/-- Rezero (R256). -/
def execCdbRezeroUnit (inst : InstId) (id : Fin 7) (c : Cdb6) (s : State) : Host.Outcome State Fault Refusal :=
  onInstance inst (runCdb id (cdb6Bytes 0x01 c) (fun e k x => x.modTarget k (rezeroUnit e.p))) s

/-- Request Sense (R257). -/
def execCdbRequestSense (inst : InstId) (id : Fin 7) (c : Cdb6) (s : State) : Host.Outcome State Fault Refusal :=
  onInstance inst (runCdb id (cdb6Bytes 0x03 c) (fun _ k x => x.modTarget k requestSense)) s

/-- Format Unit (R258). -/
def execCdbFormatUnit (inst : InstId) (id : Fin 7) (c : Cdb6) (s : State) : Host.Outcome State Fault Refusal :=
  onInstance inst (runCdb id (cdb6Bytes 0x04 c) (fun _ k x => x.modTarget k formatUnit)) s

/-- Read(6) (R259). -/
def execCdbRead6 (inst : InstId) (id : Fin 7) (c : Cdb6) (s : State) : Host.Outcome State Fault Refusal :=
  onInstance inst (runCdb id (cdb6Bytes 0x08 c) read6) s

/-- Write(6) (R261). -/
def execCdbWrite6 (inst : InstId) (id : Fin 7) (c : Cdb6) (s : State) : Host.Outcome State Fault Refusal :=
  onInstance inst (runCdb id (cdb6Bytes 0x0A c) write6) s

/-- Seek(6) (R263). -/
def execCdbSeek6 (inst : InstId) (id : Fin 7) (c : Cdb6) (s : State) : Host.Outcome State Fault Refusal :=
  onInstance inst (runCdb id (cdb6Bytes 0x0B c) (fun e k x => x.modTarget k (seek6 e.p))) s

/-- Inquiry (R264). -/
def execCdbInquiry (inst : InstId) (id : Fin 7) (c : Cdb6) (s : State) : Host.Outcome State Fault Refusal :=
  onInstance inst (runCdb id (cdb6Bytes 0x12 c) (fun e k x => x.modTarget k (inquiry e.p))) s

/-- Mode Select(6) (R265). -/
def execCdbModeSelect6 (inst : InstId) (id : Fin 7) (c : Cdb6) (s : State) : Host.Outcome State Fault Refusal :=
  onInstance inst (runCdb id (cdb6Bytes 0x15 c) (fun _ k x => x.modTarget k modeSelect6)) s

/-- Mode Sense(6) (R266). -/
def execCdbModeSense6 (inst : InstId) (id : Fin 7) (c : Cdb6) (s : State) : Host.Outcome State Fault Refusal :=
  onInstance inst (runCdb id (cdb6Bytes 0x1A c) (fun e k x => x.modTarget k (modeSense6 e.p))) s

/-- Start/Stop Unit (R267). -/
def execCdbStartStopUnit (inst : InstId) (id : Fin 7) (c : Cdb6) (s : State) : Host.Outcome State Fault Refusal :=
  onInstance inst (runCdb id (cdb6Bytes 0x1B c) (fun _ k x => x.modTarget k startStopUnit)) s

/-- Read Capacity (R268). -/
def execCdbReadCapacity (inst : InstId) (id : Fin 7) (c : Cdb10) (s : State) : Host.Outcome State Fault Refusal :=
  onInstance inst (runCdb id (cdb10Bytes 0x25 c) (fun e k x => x.modTarget k (readCapacity e.p))) s

/-- Read(10) (R260). -/
def execCdbRead10 (inst : InstId) (id : Fin 7) (c : Cdb10) (s : State) : Host.Outcome State Fault Refusal :=
  onInstance inst (runCdb id (cdb10Bytes 0x28 c) read10) s

/-- Write(10) (R262). -/
def execCdbWrite10 (inst : InstId) (id : Fin 7) (c : Cdb10) (s : State) : Host.Outcome State Fault Refusal :=
  onInstance inst (runCdb id (cdb10Bytes 0x2A c) write10) s

/-- Verify(10) (R269). -/
def execCdbVerify10 (inst : InstId) (id : Fin 7) (c : Cdb10) (s : State) : Host.Outcome State Fault Refusal :=
  onInstance inst (runCdb id (cdb10Bytes 0x2F c) (fun e k x => x.modTarget k (verify10 e.p))) s

/-- Any other opcode (R270). -/
def execCdbOther (inst : InstId) (id : Fin 7) (opcode : Byte) (args : List Byte) (s : State) :
    Host.Outcome State Fault Refusal :=
  onInstance inst (runCdb id (opcode :: args) (fun e k x => x.modTarget k (otherOpcode e.p))) s

end Sys2Proof.Machine
end

