-- ==== Sys2Proof/Machine/EnvCalls.lean ====
section
/-! DEFINITION. The meanings of the environment operations and of the tick (R8, R18, R210, R320). -/

namespace Sys2Proof.Machine

/-- Opening an image on a Target (R18). -/
def openImage (p : Params) (st : Store) (t : Target) : Target :=
  { t with image := some st, geom := p.geometryOfSize st.size, ready := true, mediaChanged := true }

/-- Closing the image of a Target (R18); a command in progress goes on (R234). -/
def closeImage (t : Target) : Target := { t with image := none, ready := false }

/-- An image opened on the Target at a slot: an image it had is closed, its bytes persisting (R323). A slot without a
Target has no device to open an image on, and an image that is not there is not opened (log 15). -/
def openAt (p : Params) (k : Fin 7) (src : ImageSource) (x : Instance) : Instance :=
  match x.target? k, takeImage src x with
  | some _, (some st, y) => (keepImage k y).modTarget k (openImage p st)
  | _, _ => x

/-- `ENV.open_image` (R18). -/
def execEnvOpenImage (inst : InstId) (id : Fin 7) (src : ImageSource) (s : State) : Host.Outcome State Fault Refusal :=
  onInstance inst (fun e x => openAt e.p id src x) s

/-- `ENV.close_image` (R18); the image bytes persist (R323). -/
def execEnvCloseImage (inst : InstId) (id : Fin 7) (s : State) : Host.Outcome State Fault Refusal :=
  onInstance inst (fun _ x => (keepImage id x).modTarget id closeImage) s

/-- Teardown of an instance and its construction anew: every Target is gone, its image closed, and nothing persists but
the image bytes (R320, R323). -/
def rebuild (x : Instance) : Instance :=
  Instance.reset x.draws (targetSlots.foldl (fun y k => keepImage k y) x).kept

/-- `ENV.system_reset` (R320): both instances; events already issued stay issued (log 17). -/
def execEnvSystemReset (s : State) : Host.Outcome State Fault Refusal :=
  .next { s with internal := rebuild s.internal, external := rebuild s.external }

/-- `TICK` (R210). -/
def execTick (inst : InstId) (cycles : Nat) (s : State) : Host.Outcome State Fault Refusal :=
  onInstance inst (fun e x => tickInstance e (notify e) cycles x) s

end Sys2Proof.Machine
end

