-- ==== Sys2Proof/Machine/RegisterReads.lean ====
section
/-! DEFINITION. The meanings of the host reads of the 15 registers (41_controller_registers.md). -/

namespace Sys2Proof.Machine

/-- Read of BDID (R114). -/
def execRBdid (inst : InstId) (odd : Bool) (s : State) : Host.Outcome State Fault Refusal :=
  onInstance inst (readPlain odd (fun x => idBit x.ctrl.bdid.toNat)) s

/-- Read of SCTL (R115). -/
def execRSctl (inst : InstId) (odd : Bool) (s : State) : Host.Outcome State Fault Refusal :=
  onInstance inst (readPlain odd (fun x => x.ctrl.sctl)) s

/-- Read of SCMD (R116). -/
def execRScmd (inst : InstId) (odd : Bool) (s : State) : Host.Outcome State Fault Refusal :=
  onInstance inst (readPlain odd (fun x => x.ctrl.scmd)) s

/-- Read of INTS (R117). -/
def execRInts (inst : InstId) (odd : Bool) (s : State) : Host.Outcome State Fault Refusal :=
  onInstance inst (readPlain odd (fun x => x.ctrl.ints)) s

/-- Read of PSNS (R119). -/
def execRPsns (inst : InstId) (odd : Bool) (s : State) : Host.Outcome State Fault Refusal :=
  onInstance inst (readPlain odd psns) s

/-- Read of SSTS (R122). -/
def execRSsts (inst : InstId) (odd : Bool) (s : State) : Host.Outcome State Fault Refusal :=
  onInstance inst (readPlain odd ssts) s

/-- Read of SERR (R123). -/
def execRSerr (inst : InstId) (odd : Bool) (s : State) : Host.Outcome State Fault Refusal :=
  onInstance inst (readPlain odd (fun x => x.ctrl.serr)) s

/-- Read of PCTL (R124). -/
def execRPctl (inst : InstId) (odd : Bool) (s : State) : Host.Outcome State Fault Refusal :=
  onInstance inst (readPlain odd (fun x => x.ctrl.pctl)) s

/-- Read of MBC (R125). -/
def execRMbc (inst : InstId) (odd : Bool) (s : State) : Host.Outcome State Fault Refusal :=
  onInstance inst (readPlain odd mbc) s

/-- Read of DREG (R126): it pops the FIFO. -/
def execRDreg (inst : InstId) (odd : Bool) (s : State) : Host.Outcome State Fault Refusal :=
  onInstance inst (readRegister odd readDreg) s

/-- Read of TEMP (R128). -/
def execRTemp (inst : InstId) (odd : Bool) (s : State) : Host.Outcome State Fault Refusal :=
  onInstance inst (readPlain odd (fun x => x.ctrl.temp)) s

/-- Read of TCH (R129). -/
def execRTch (inst : InstId) (odd : Bool) (s : State) : Host.Outcome State Fault Refusal :=
  onInstance inst (readPlain odd (fun x => x.ctrl.tc.extractLsb' 16 8)) s

/-- Read of TCM (R130). -/
def execRTcm (inst : InstId) (odd : Bool) (s : State) : Host.Outcome State Fault Refusal :=
  onInstance inst (readPlain odd (fun x => x.ctrl.tc.extractLsb' 8 8)) s

/-- Read of TCL (R131). -/
def execRTcl (inst : InstId) (odd : Bool) (s : State) : Host.Outcome State Fault Refusal :=
  onInstance inst (readPlain odd (fun x => x.ctrl.tc.extractLsb' 0 8)) s

end Sys2Proof.Machine
end

