-- ==== Sys2Proof/Machine/RegisterWrites.lean ====
section
/-! DEFINITION. The meanings of the host writes of the 15 registers (41_controller_registers.md). -/

namespace Sys2Proof.Machine

/-- Write of BDID (R114): only the low three bits count. -/
def execWBdid (inst : InstId) (odd : Bool) (v : Byte) (s : State) : Host.Outcome State Fault Refusal :=
  onInstance inst (writePlain odd (fun c => { c with bdid := v.extractLsb' 0 3 })) s

/-- Write of SCTL (R115): stored; bit 7 may abort. -/
def execWSctl (inst : InstId) (odd : Bool) (v : Byte) (s : State) : Host.Outcome State Fault Refusal :=
  onInstance inst (writeRegister odd (writeSctl v)) s

/-- Write of SCMD (R116): stored; RST-out; the command. -/
def execWScmd (inst : InstId) (odd : Bool) (v : Byte) (s : State) : Host.Outcome State Fault Refusal :=
  onInstance inst (writeRegister odd (writeScmd v)) s

/-- Write of INTS (R117): each 1 bit clears its flag. -/
def execWInts (inst : InstId) (odd : Bool) (v : Byte) (s : State) : Host.Outcome State Fault Refusal :=
  onInstance inst (writeRegister odd (fun _ x => clearInts v x)) s

/-- Write of SDGC (R120). -/
def execWSdgc (inst : InstId) (odd : Bool) (v : Byte) (s : State) : Host.Outcome State Fault Refusal :=
  onInstance inst (writePlain odd (fun c => { c with sdgc := v })) s

/-- Write of SSTS (R122): ignored. -/
def execWSsts (inst : InstId) (odd : Bool) (_v : Byte) (s : State) : Host.Outcome State Fault Refusal :=
  onInstance inst (writePlain odd (fun c => c)) s

/-- Write of SERR (R123): ignored. -/
def execWSerr (inst : InstId) (odd : Bool) (_v : Byte) (s : State) : Host.Outcome State Fault Refusal :=
  onInstance inst (writePlain odd (fun c => c)) s

/-- Write of PCTL (R124): bits 6:3 are forced to 0. -/
def execWPctl (inst : InstId) (odd : Bool) (v : Byte) (s : State) : Host.Outcome State Fault Refusal :=
  onInstance inst (writePlain odd (fun c => { c with pctl := v &&& 0x87 })) s

/-- Write of MBC (R125): ignored. -/
def execWMbc (inst : InstId) (odd : Bool) (_v : Byte) (s : State) : Host.Outcome State Fault Refusal :=
  onInstance inst (writePlain odd (fun c => c)) s

/-- Write of DREG (R127): pushes the FIFO. -/
def execWDreg (inst : InstId) (odd : Bool) (v : Byte) (s : State) : Host.Outcome State Fault Refusal :=
  onInstance inst (writePlain odd (writeDreg v)) s

/-- Write of TEMP (R128). -/
def execWTemp (inst : InstId) (odd : Bool) (v : Byte) (s : State) : Host.Outcome State Fault Refusal :=
  onInstance inst (writePlain odd (fun c => { c with temp := v })) s

/-- Write of TCH (R129). -/
def execWTch (inst : InstId) (odd : Bool) (v : Byte) (s : State) : Host.Outcome State Fault Refusal :=
  onInstance inst (writePlain odd (fun c => { c with tc := v ++ c.tc.extractLsb' 0 16 })) s

/-- Write of TCM (R130). -/
def execWTcm (inst : InstId) (odd : Bool) (v : Byte) (s : State) : Host.Outcome State Fault Refusal :=
  onInstance inst (writePlain odd (fun c => { c with tc := c.tc.extractLsb' 16 8 ++ v ++ c.tc.extractLsb' 0 8 })) s

/-- Write of TCL (R131). -/
def execWTcl (inst : InstId) (odd : Bool) (v : Byte) (s : State) : Host.Outcome State Fault Refusal :=
  onInstance inst (writePlain odd (fun c => { c with tc := c.tc.extractLsb' 8 16 ++ v })) s

end Sys2Proof.Machine
end

