-- ==== Sys2Proof/Machine/ScmdCommands.lean ====
section
/-! DEFINITION. The meanings of the eight Controller commands: each is the write of its byte to SCMD (R116, R150). -/

namespace Sys2Proof.Machine

/-- The command byte `BUS_RELEASE` (R116, R152). -/
def execScmdBusRelease (inst : InstId) (low : BitVec 5) (s : State) : Host.Outcome State Fault Refusal :=
  onInstance inst (issueCommand cmdBusRelease (scmdByte 0 low)) s

/-- The command byte `SELECT` (R116, R153). -/
def execScmdSelect (inst : InstId) (low : BitVec 5) (s : State) : Host.Outcome State Fault Refusal :=
  onInstance inst (issueCommand (fun _ => cmdSelect) (scmdByte 1 low)) s

/-- The command byte `RESET_ATN` (R116, R154). -/
def execScmdResetAtn (inst : InstId) (low : BitVec 5) (s : State) : Host.Outcome State Fault Refusal :=
  onInstance inst (issueCommand cmdResetAtn (scmdByte 2 low)) s

/-- The command byte `SET_ATN` (R116, R155). -/
def execScmdSetAtn (inst : InstId) (low : BitVec 5) (s : State) : Host.Outcome State Fault Refusal :=
  onInstance inst (issueCommand cmdSetAtn (scmdByte 3 low)) s

/-- The command byte `TRANSFER` (R116, R156). -/
def execScmdTransfer (inst : InstId) (low : BitVec 5) (s : State) : Host.Outcome State Fault Refusal :=
  onInstance inst (issueCommand (fun _ => cmdTransfer (scmdByte 4 low)) (scmdByte 4 low)) s

/-- The command byte `TRANSFER_PAUSE` (R116, R157). -/
def execScmdTransferPause (inst : InstId) (low : BitVec 5) (s : State) : Host.Outcome State Fault Refusal :=
  onInstance inst (issueCommand (fun _ => cmdTransferPause) (scmdByte 5 low)) s

/-- The command byte `RESET_ACKREQ` (R116, R158). -/
def execScmdResetAckreq (inst : InstId) (low : BitVec 5) (s : State) : Host.Outcome State Fault Refusal :=
  onInstance inst (issueCommand cmdResetAckreq (scmdByte 6 low)) s

/-- The command byte `SET_ACKREQ` (R116, R159). -/
def execScmdSetAckreq (inst : InstId) (low : BitVec 5) (s : State) : Host.Outcome State Fault Refusal :=
  onInstance inst (issueCommand cmdSetAckreq (scmdByte 7 low)) s

end Sys2Proof.Machine
end

