-- ==== Sys2Proof/Machine/Unmapped.lean ====
section
/-! DEFINITION. The meanings of accesses that select no register, and of the ROM region (R43, R46). -/

namespace Sys2Proof.Machine

/-- Access to register index 3, which names no register (R43): 0xFF or ignored. -/
def execRwIndex3 (inst : InstId) (_odd : Bool) (acc : Access) (s : State) : Host.Outcome State Fault Refusal :=
  onInstance inst (accessNothing acc) s

/-- Access to register index 15, which names no register (R43): 0xFF or ignored. -/
def execRwIndex15 (inst : InstId) (_odd : Bool) (acc : Access) (s : State) : Host.Outcome State Fault Refusal :=
  onInstance inst (accessNothing acc) s

/-- Access to the offset of an index whose low bit does not match the polarity (R43): 0xFF or ignored, whatever the
index. -/
def execRwWrongPolarity (inst : InstId) (_index : Fin 16) (acc : Access) (s : State) :
    Host.Outcome State Fault Refusal :=
  onInstance inst (accessNothing acc) s

/-- Read of the ROM region (R46). Beyond its end no register is selected either: 0xFF (log 14). -/
def execRRom (inst : InstId) (off : BitVec 32) (s : State) : Host.Outcome State Fault Refusal :=
  onInstance inst (fun e x =>
    let a := off.toNat - 32
    { x with ret := .byte (if a < e.p.romSize e.id then e.p.romByte e.id a else 0xFF) }) s

/-- Write of the ROM region (R46): ignored. -/
def execWRom (inst : InstId) (_off : BitVec 32) (_v : Byte) (s : State) : Host.Outcome State Fault Refusal :=
  onInstance inst (fun _ x => x) s

end Sys2Proof.Machine
end

