-- ==== Sys2Proof/Machine/Dispatch.lean ====
section
/-! DEFINITION. The dispatch: one arm per instruction, each one call of the instruction's meaning. -/

namespace Sys2Proof.Machine

def exec (i : Instr) (s : State) : Host.Outcome State Fault Refusal :=
  match i with
  | .busAttach inst id dev => Sys2Proof.Machine.execBusAttach inst id dev s
  | .busDetach inst id => Sys2Proof.Machine.execBusDetach inst id s
  | .busSetControl inst id value mask => Sys2Proof.Machine.execBusSetControl inst id value mask s
  | .busSetData inst id value => Sys2Proof.Machine.execBusSetData inst id value s
  | .busGetControl inst => Sys2Proof.Machine.execBusGetControl inst s
  | .busGetData inst => Sys2Proof.Machine.execBusGetData inst s
  | .busIsBusFree inst => Sys2Proof.Machine.execBusIsBusFree inst s
  | .envOpenImage inst id src => Sys2Proof.Machine.execEnvOpenImage inst id src s
  | .envCloseImage inst id => Sys2Proof.Machine.execEnvCloseImage inst id s
  | .envSystemReset => Sys2Proof.Machine.execEnvSystemReset s
  | .tick inst cycles => Sys2Proof.Machine.execTick inst cycles s
  | .rBdid inst odd => Sys2Proof.Machine.execRBdid inst odd s
  | .wBdid inst odd v => Sys2Proof.Machine.execWBdid inst odd v s
  | .rSctl inst odd => Sys2Proof.Machine.execRSctl inst odd s
  | .wSctl inst odd v => Sys2Proof.Machine.execWSctl inst odd v s
  | .rScmd inst odd => Sys2Proof.Machine.execRScmd inst odd s
  | .wScmd inst odd v => Sys2Proof.Machine.execWScmd inst odd v s
  | .rInts inst odd => Sys2Proof.Machine.execRInts inst odd s
  | .wInts inst odd v => Sys2Proof.Machine.execWInts inst odd v s
  | .rPsns inst odd => Sys2Proof.Machine.execRPsns inst odd s
  | .wSdgc inst odd v => Sys2Proof.Machine.execWSdgc inst odd v s
  | .rSsts inst odd => Sys2Proof.Machine.execRSsts inst odd s
  | .wSsts inst odd v => Sys2Proof.Machine.execWSsts inst odd v s
  | .rSerr inst odd => Sys2Proof.Machine.execRSerr inst odd s
  | .wSerr inst odd v => Sys2Proof.Machine.execWSerr inst odd v s
  | .rPctl inst odd => Sys2Proof.Machine.execRPctl inst odd s
  | .wPctl inst odd v => Sys2Proof.Machine.execWPctl inst odd v s
  | .rMbc inst odd => Sys2Proof.Machine.execRMbc inst odd s
  | .wMbc inst odd v => Sys2Proof.Machine.execWMbc inst odd v s
  | .rDreg inst odd => Sys2Proof.Machine.execRDreg inst odd s
  | .wDreg inst odd v => Sys2Proof.Machine.execWDreg inst odd v s
  | .rTemp inst odd => Sys2Proof.Machine.execRTemp inst odd s
  | .wTemp inst odd v => Sys2Proof.Machine.execWTemp inst odd v s
  | .rTch inst odd => Sys2Proof.Machine.execRTch inst odd s
  | .wTch inst odd v => Sys2Proof.Machine.execWTch inst odd v s
  | .rTcm inst odd => Sys2Proof.Machine.execRTcm inst odd s
  | .wTcm inst odd v => Sys2Proof.Machine.execWTcm inst odd v s
  | .rTcl inst odd => Sys2Proof.Machine.execRTcl inst odd s
  | .wTcl inst odd v => Sys2Proof.Machine.execWTcl inst odd v s
  | .rwIndex3 inst odd acc => Sys2Proof.Machine.execRwIndex3 inst odd acc s
  | .rwIndex15 inst odd acc => Sys2Proof.Machine.execRwIndex15 inst odd acc s
  | .rwWrongPolarity inst index acc => Sys2Proof.Machine.execRwWrongPolarity inst index acc s
  | .rRom inst off => Sys2Proof.Machine.execRRom inst off s
  | .wRom inst off v => Sys2Proof.Machine.execWRom inst off v s
  | .scmdBusRelease inst low => Sys2Proof.Machine.execScmdBusRelease inst low s
  | .scmdSelect inst low => Sys2Proof.Machine.execScmdSelect inst low s
  | .scmdResetAtn inst low => Sys2Proof.Machine.execScmdResetAtn inst low s
  | .scmdSetAtn inst low => Sys2Proof.Machine.execScmdSetAtn inst low s
  | .scmdTransfer inst low => Sys2Proof.Machine.execScmdTransfer inst low s
  | .scmdTransferPause inst low => Sys2Proof.Machine.execScmdTransferPause inst low s
  | .scmdResetAckreq inst low => Sys2Proof.Machine.execScmdResetAckreq inst low s
  | .scmdSetAckreq inst low => Sys2Proof.Machine.execScmdSetAckreq inst low s
  | .cdbTestUnitReady inst id c => Sys2Proof.Machine.execCdbTestUnitReady inst id c s
  | .cdbRezeroUnit inst id c => Sys2Proof.Machine.execCdbRezeroUnit inst id c s
  | .cdbRequestSense inst id c => Sys2Proof.Machine.execCdbRequestSense inst id c s
  | .cdbFormatUnit inst id c => Sys2Proof.Machine.execCdbFormatUnit inst id c s
  | .cdbRead6 inst id c => Sys2Proof.Machine.execCdbRead6 inst id c s
  | .cdbWrite6 inst id c => Sys2Proof.Machine.execCdbWrite6 inst id c s
  | .cdbSeek6 inst id c => Sys2Proof.Machine.execCdbSeek6 inst id c s
  | .cdbInquiry inst id c => Sys2Proof.Machine.execCdbInquiry inst id c s
  | .cdbModeSelect6 inst id c => Sys2Proof.Machine.execCdbModeSelect6 inst id c s
  | .cdbModeSense6 inst id c => Sys2Proof.Machine.execCdbModeSense6 inst id c s
  | .cdbStartStopUnit inst id c => Sys2Proof.Machine.execCdbStartStopUnit inst id c s
  | .cdbReadCapacity inst id c => Sys2Proof.Machine.execCdbReadCapacity inst id c s
  | .cdbRead10 inst id c => Sys2Proof.Machine.execCdbRead10 inst id c s
  | .cdbWrite10 inst id c => Sys2Proof.Machine.execCdbWrite10 inst id c s
  | .cdbVerify10 inst id c => Sys2Proof.Machine.execCdbVerify10 inst id c s
  | .cdbOther inst id opcode args => Sys2Proof.Machine.execCdbOther inst id opcode args s

end Sys2Proof.Machine
end

