-- ==== Sys2Proof/WellFormed.lean ====
section
/-! DEFINITION. The checks an instruction's operands meet beyond their types: the bounds of the model's messages
(log 22), and that an operand belongs to the row it stands in. -/

namespace Sys2Proof

/-- An image's size, or its place among the kept ones, fits its field in a message (log 22). -/
def ImageSource.wellFormed : ImageSource → Bool
  | .given bs => bs.length < 256 ^ 4
  | .kept i => i < 256 ^ 4

/-- Well-formed operands. Cycle counts, image sizes and places are bounded by their fields in a message; a ROM offset is
beyond the 32-byte window (R46); `cdbOther` holds an opcode that R75 does not list, with the bytes its group asks
for (R231). -/
def Instr.wellFormed : Instr → Bool
  | .busAttach _ _ dev => match dev.image with
    | none => true
    | some src => src.wellFormed
  | .envOpenImage _ _ src => src.wellFormed
  | .tick _ n => n < 256 ^ 8
  | .rRom _ off => 32 ≤ off.toNat
  | .wRom _ off _ => 32 ≤ off.toNat
  | .cdbOther _ _ op args => Machine.cdbOpOf op = .other ∧ args.length + 1 = Machine.cdbLen op
  | .busDetach .. | .busSetControl .. | .busSetData .. | .busGetControl .. | .busGetData .. | .busIsBusFree ..
  | .envCloseImage .. | .envSystemReset
  | .rBdid .. | .wBdid .. | .rSctl .. | .wSctl .. | .rScmd .. | .wScmd .. | .rInts .. | .wInts .. | .rPsns ..
  | .wSdgc .. | .rSsts .. | .wSsts .. | .rSerr .. | .wSerr .. | .rPctl .. | .wPctl .. | .rMbc .. | .wMbc ..
  | .rDreg .. | .wDreg .. | .rTemp .. | .wTemp .. | .rTch .. | .wTch .. | .rTcm .. | .wTcm .. | .rTcl .. | .wTcl ..
  | .rwIndex3 .. | .rwIndex15 .. | .rwWrongPolarity ..
  | .scmdBusRelease .. | .scmdSelect .. | .scmdResetAtn .. | .scmdSetAtn .. | .scmdTransfer .. | .scmdTransferPause ..
  | .scmdResetAckreq .. | .scmdSetAckreq ..
  | .cdbTestUnitReady .. | .cdbRezeroUnit .. | .cdbRequestSense .. | .cdbFormatUnit .. | .cdbRead6 .. | .cdbWrite6 ..
  | .cdbSeek6 .. | .cdbInquiry .. | .cdbModeSelect6 .. | .cdbModeSense6 .. | .cdbStartStopUnit .. | .cdbReadCapacity ..
  | .cdbRead10 .. | .cdbWrite10 .. | .cdbVerify10 .. => true

end Sys2Proof
end

