-- ==== Sys2Proof/Decode.lean ====
section
/-! DEFINITION. Decoding and encoding. The spec has no binary encoding of an event (R1; "call (no binary encoding
in source)" in the opcode table), only of its parts: the window offset (R63), the SCMD byte (R66), the CDB (R74).
The model's message (log 2) puts that part into byte 0, where the opcode table numbers it; byte 1 holds the
instance in bit 7 and the kind of the event in bits 6:0; the operands follow. A message shorter than its event is
read as if zeros followed. Kind 0 is a short form of byte 0 alone. -/

namespace Sys2Proof

/-- Why a message is no event. -/
inductive DecodeError where
  /-- The message has no byte. -/
  | empty
  /-- Byte 1 names no kind of event. -/
  | unknownKind
  /-- A byte that the kind does not use is not zero, or an operand is outside its range. -/
  | reserved
  /-- The message goes on after its event, or an image is not as long as it says. -/
  | badLength
deriving DecidableEq, Repr

/-- Byte k of a message, 0 past its end. -/
def byteAt (m : List Byte) (k : Nat) : Byte := m.getD k 0

/-- n bytes of a message from byte k, zeros past its end. -/
def bytesAt (m : List Byte) (k : Nat) : Nat → List Byte
  | 0 => []
  | n + 1 => byteAt m k :: bytesAt m (k + 1) n

/-- The host reads of the window by register index (R64), at the right or the wrong offset of a pair. -/
def regRead (inst : InstId) (odd : Bool) (index : Nat) : Instr :=
  match index with
  | 0 => .rBdid inst odd
  | 1 => .rSctl inst odd
  | 2 => .rScmd inst odd
  | 3 => .rwIndex3 inst odd .read
  | 4 => .rInts inst odd
  | 5 => .rPsns inst odd
  | 6 => .rSsts inst odd
  | 7 => .rSerr inst odd
  | 8 => .rPctl inst odd
  | 9 => .rMbc inst odd
  | 10 => .rDreg inst odd
  | 11 => .rTemp inst odd
  | 12 => .rTch inst odd
  | 13 => .rTcm inst odd
  | 14 => .rTcl inst odd
  | _ => .rwIndex15 inst odd .read

/-- The host writes of the window by register index (R64). -/
def regWrite (inst : InstId) (odd : Bool) (index : Nat) (v : Byte) : Instr :=
  match index with
  | 0 => .wBdid inst odd v
  | 1 => .wSctl inst odd v
  | 2 => .wScmd inst odd v
  | 3 => .rwIndex3 inst odd (.write v)
  | 4 => .wInts inst odd v
  | 5 => .wSdgc inst odd v
  | 6 => .wSsts inst odd v
  | 7 => .wSerr inst odd v
  | 8 => .wPctl inst odd v
  | 9 => .wMbc inst odd v
  | 10 => .wDreg inst odd v
  | 11 => .wTemp inst odd v
  | 12 => .wTch inst odd v
  | 13 => .wTcm inst odd v
  | 14 => .wTcl inst odd v
  | _ => .rwIndex15 inst odd (.write v)

/-- A host read at a window offset (R63): `off[4:1]` is the index and `off[0]` the polarity bit below 32, the ROM
region from 32 on. -/
def hostReadAt (inst : InstId) (off : BitVec 32) : Instr :=
  if off.toNat < 32 then regRead inst (off.getLsbD 0) (off.toNat / 2) else .rRom inst off

/-- A host write at a window offset (R63). -/
def hostWriteAt (inst : InstId) (off : BitVec 32) (v : Byte) : Instr :=
  if off.toNat < 32 then regWrite inst (off.getLsbD 0) (off.toNat / 2) v else .wRom inst off v

/-- A Controller command byte by its code (R66). -/
def scmdOf (inst : InstId) (v : Byte) : Instr :=
  let low := v.extractLsb' 0 5
  match (v.extractLsb' 5 3).toNat with
  | 0 => .scmdBusRelease inst low
  | 1 => .scmdSelect inst low
  | 2 => .scmdResetAtn inst low
  | 3 => .scmdSetAtn inst low
  | 4 => .scmdTransfer inst low
  | 5 => .scmdTransferPause inst low
  | 6 => .scmdResetAckreq inst low
  | _ => .scmdSetAckreq inst low

/-- The fields of a 6-byte CDB whose bytes 1 to 5 stand at k (R74). -/
def cdb6At (m : List Byte) (k : Nat) : Cdb6 :=
  { lun := (byteAt m k).extractLsb' 5 3
    lba := (byteAt m k).extractLsb' 0 5 ++ byteAt m (k + 1) ++ byteAt m (k + 2)
    len := byteAt m (k + 3)
    control := byteAt m (k + 4) }

/-- The fields of a 10-byte CDB whose bytes 1 to 9 stand at k (R74). -/
def cdb10At (m : List Byte) (k : Nat) : Cdb10 :=
  { flags := byteAt m k
    lba := byteAt m (k + 1) ++ byteAt m (k + 2) ++ byteAt m (k + 3) ++ byteAt m (k + 4)
    reserved := byteAt m (k + 5)
    len := byteAt m (k + 6) ++ byteAt m (k + 7)
    control := byteAt m (k + 8) }

/-- A CDB for the Target at a slot, its opcode and its further bytes from k on (R74, R75). -/
def cdbAt (inst : InstId) (id : Fin 7) (op : Byte) (m : List Byte) (k : Nat) : Instr :=
  match Machine.cdbOpOf op with
  | .testUnitReady => .cdbTestUnitReady inst id (cdb6At m k)
  | .rezeroUnit => .cdbRezeroUnit inst id (cdb6At m k)
  | .requestSense => .cdbRequestSense inst id (cdb6At m k)
  | .formatUnit => .cdbFormatUnit inst id (cdb6At m k)
  | .read6 => .cdbRead6 inst id (cdb6At m k)
  | .write6 => .cdbWrite6 inst id (cdb6At m k)
  | .seek6 => .cdbSeek6 inst id (cdb6At m k)
  | .inquiry => .cdbInquiry inst id (cdb6At m k)
  | .modeSelect6 => .cdbModeSelect6 inst id (cdb6At m k)
  | .modeSense6 => .cdbModeSense6 inst id (cdb6At m k)
  | .startStopUnit => .cdbStartStopUnit inst id (cdb6At m k)
  | .readCapacity => .cdbReadCapacity inst id (cdb10At m k)
  | .read10 => .cdbRead10 inst id (cdb10At m k)
  | .write10 => .cdbWrite10 inst id (cdb10At m k)
  | .verify10 => .cdbVerify10 inst id (cdb10At m k)
  | .other => .cdbOther inst id op (bytesAt m k (Machine.cdbLen op - 1))

/-- The short form (log 2): byte 0 alone, read by the table's own words. They overlap, so they are tried in the
order: a register read at an even offset, a listed CDB opcode (at slot 0, operands zero), a SCMD byte, and a
register read at an odd offset. -/
def shortForm (inst : InstId) (b : Byte) : Instr :=
  if b.toNat < 32 ∧ b.getLsbD 0 = false then regRead inst false (b.toNat / 2)
  else if Machine.cdbOpOf b ≠ .other then cdbAt inst 0 b [] 0
  else if b.toNat < 32 then regRead inst true (b.toNat / 2)
  else scmdOf inst b

/-- An image in a message from byte k: its length in four bytes, then exactly its bytes. -/
def imageAt (m : List Byte) (k : Nat) : Except DecodeError (List Byte) :=
  let content := m.drop (k + 4)
  if content.length = Machine.natOfBE (bytesAt m k 4) then .ok content else .error .badLength

/-- The slot of a Target, 0 to 6 (R6). -/
def slotOf (b : Byte) : Except DecodeError (Fin 7) :=
  if h : b.toNat < 7 then .ok ⟨b.toNat, h⟩ else .error .reserved

/-- Any bus address, 0 to 7 (R6). -/
def addressOf (b : Byte) : Except DecodeError (Fin 8) :=
  if h : b.toNat < 8 then .ok ⟨b.toNat, h⟩ else .error .reserved

/-- An event if the message is at most n bytes long and a byte that must be zero is. -/
def upTo (m : List Byte) (n : Nat) (zero : Byte) (i : Instr) : Except DecodeError Instr :=
  if n < m.length then .error .badLength else if zero = 0 then .ok i else .error .reserved

/-- The control word in two bytes from k on, low byte first, its 7 unused bits zero. -/
def ctlAt (m : List Byte) (k : Nat) : Except DecodeError Ctl :=
  if (byteAt m (k + 1)).toNat < 2 then .ok ((byteAt m (k + 1)).extractLsb' 0 1 ++ byteAt m k) else .error .reserved

/-- The kinds of event (log 2). -/
def decodeKind (kind : Nat) (inst : InstId) (m : List Byte) : Except DecodeError Instr :=
  let b0 := byteAt m 0
  match kind with
  | 0 => upTo m 2 0 (shortForm inst b0)
  | 1 => upTo m 5 0 (hostReadAt inst (byteAt m 4 ++ byteAt m 3 ++ byteAt m 2 ++ b0))
  | 2 => upTo m 6 0 (hostWriteAt inst (byteAt m 5 ++ byteAt m 4 ++ byteAt m 3 ++ b0) (byteAt m 2))
  | 3 => upTo m 2 (b0 &&& 0xE1) (.rwWrongPolarity inst (Fin.ofNat 16 (b0.toNat / 2)) .read)
  | 4 => upTo m 3 (b0 &&& 0xE1) (.rwWrongPolarity inst (Fin.ofNat 16 (b0.toNat / 2)) (.write (byteAt m 2)))
  | 5 => upTo m 2 0 (scmdOf inst b0)
  | 6 => do
    let id ← slotOf (byteAt m 2)
    upTo m (Machine.cdbLen b0 + 2) 0 (cdbAt inst id b0 m 3)
  | 7 => upTo m 10 b0 (.tick inst (Machine.natOfBE (bytesAt m 2 8)))
  | 8 => do
    let id ← slotOf b0
    match (byteAt m 2).toNat with
    | 0 => upTo m 3 0 (.busAttach inst id { ready := false, image := none })
    | 1 => upTo m 3 0 (.busAttach inst id { ready := true, image := none })
    | 2 => do
      let content ← imageAt m 3
      .ok (.busAttach inst id { ready := false, image := some (.given content) })
    | 3 => do
      let content ← imageAt m 3
      .ok (.busAttach inst id { ready := true, image := some (.given content) })
    | 4 => upTo m 7 0 (.busAttach inst id { ready := false, image := some (.kept (Machine.natOfBE (bytesAt m 3 4))) })
    | 5 => upTo m 7 0 (.busAttach inst id { ready := true, image := some (.kept (Machine.natOfBE (bytesAt m 3 4))) })
    | _ => .error .reserved
  | 9 => do
    let id ← slotOf b0
    upTo m 2 0 (.busDetach inst id)
  | 10 => do
    let id ← addressOf b0
    let value ← ctlAt m 2
    let mask ← ctlAt m 4
    upTo m 6 0 (.busSetControl inst id value mask)
  | 11 => do
    let id ← addressOf b0
    upTo m 3 0 (.busSetData inst id (byteAt m 2))
  | 12 => upTo m 2 b0 (.busGetControl inst)
  | 13 => upTo m 2 b0 (.busGetData inst)
  | 14 => upTo m 2 b0 (.busIsBusFree inst)
  | 15 => do
    let id ← slotOf b0
    let content ← imageAt m 2
    .ok (.envOpenImage inst id (.given content))
  | 16 => do
    let id ← slotOf b0
    upTo m 2 0 (.envCloseImage inst id)
  | 17 => match inst with
    | .internal => upTo m 2 b0 .envSystemReset
    | .external => .error .reserved
  | 18 => do
    let id ← slotOf b0
    upTo m 6 0 (.envOpenImage inst id (.kept (Machine.natOfBE (bytesAt m 2 4))))
  | _ => .error .unknownKind

/-- Decode a message. Total: what is no event is rejected by name. -/
def decode (m : List Byte) : Except DecodeError Instr :=
  match m with
  | [] => .error .empty
  | _ :: _ =>
    let b1 := byteAt m 1
    decodeKind (b1.extractLsb' 0 7).toNat (if b1.getLsbD 7 then .external else .internal) m

/-! ### Encoding -/

/-- Byte 1 of a message: the instance and the kind. -/
def kindByte (inst : InstId) (kind : BitVec 7) : Byte :=
  (match inst with | .internal => 0#1 | .external => 1#1) ++ kind

/-- A window offset of a register: `off[4:1]` the index, `off[0]` the polarity bit (R63). -/
def offsetByte (index : BitVec 4) (odd : Bool) : Byte := 0#3 ++ index ++ BitVec.ofBool odd

/-- The message of a register read. -/
def encodeRead (inst : InstId) (odd : Bool) (index : BitVec 4) : List Byte :=
  [offsetByte index odd, kindByte inst 1]

/-- The message of a register write. -/
def encodeWrite (inst : InstId) (odd : Bool) (index : BitVec 4) (v : Byte) : List Byte :=
  [offsetByte index odd, kindByte inst 2, v]

/-- The message of an access whose direction is an operand. -/
def encodeAccess (inst : InstId) (odd : Bool) (index : BitVec 4) : Access → List Byte
  | .read => encodeRead inst odd index
  | .write v => encodeWrite inst odd index v

/-- The message of a Controller command (R66). -/
def encodeScmd (inst : InstId) (code : BitVec 3) (low : BitVec 5) : List Byte :=
  [Machine.scmdByte code low, kindByte inst 5]

/-- The message of a CDB for the Target at a slot (R74). -/
def encodeCdb (inst : InstId) (id : Fin 7) (bytes : List Byte) : List Byte :=
  bytes.headD 0 :: kindByte inst 6 :: BitVec.ofNat 8 id :: bytes.drop 1

/-- A control word in two bytes, low byte first. -/
def ctlBytes (c : Ctl) : List Byte := [c.extractLsb' 0 8, 0#7 ++ c.extractLsb' 8 1]

/-- An image in a message. -/
def imageBytes (bs : List Byte) : List Byte := Machine.beBytes 4 bs.length ++ bs

/-- The message of a well-formed instruction. -/
def encode : Instr → List Byte
  | .busAttach inst id dev =>
    let ready : Byte := if dev.ready then 1 else 0
    BitVec.ofNat 8 id :: kindByte inst 8 ::
      (match dev.image with
        | none => [ready]
        | some (.given bs) => (2 + ready) :: imageBytes bs
        | some (.kept i) => (4 + ready) :: Machine.beBytes 4 i)
  | .busDetach inst id => [BitVec.ofNat 8 id, kindByte inst 9]
  | .busSetControl inst id value mask => BitVec.ofNat 8 id :: kindByte inst 10 :: (ctlBytes value ++ ctlBytes mask)
  | .busSetData inst id value => [BitVec.ofNat 8 id, kindByte inst 11, value]
  | .busGetControl inst => [0, kindByte inst 12]
  | .busGetData inst => [0, kindByte inst 13]
  | .busIsBusFree inst => [0, kindByte inst 14]
  | .envOpenImage inst id (.given content) => BitVec.ofNat 8 id :: kindByte inst 15 :: imageBytes content
  | .envOpenImage inst id (.kept i) => BitVec.ofNat 8 id :: kindByte inst 18 :: Machine.beBytes 4 i
  | .envCloseImage inst id => [BitVec.ofNat 8 id, kindByte inst 16]
  | .envSystemReset => [0, kindByte .internal 17]
  | .tick inst n => 0 :: kindByte inst 7 :: Machine.beBytes 8 n
  | .rBdid inst odd => encodeRead inst odd 0
  | .wBdid inst odd v => encodeWrite inst odd 0 v
  | .rSctl inst odd => encodeRead inst odd 1
  | .wSctl inst odd v => encodeWrite inst odd 1 v
  | .rScmd inst odd => encodeRead inst odd 2
  | .wScmd inst odd v => encodeWrite inst odd 2 v
  | .rInts inst odd => encodeRead inst odd 4
  | .wInts inst odd v => encodeWrite inst odd 4 v
  | .rPsns inst odd => encodeRead inst odd 5
  | .wSdgc inst odd v => encodeWrite inst odd 5 v
  | .rSsts inst odd => encodeRead inst odd 6
  | .wSsts inst odd v => encodeWrite inst odd 6 v
  | .rSerr inst odd => encodeRead inst odd 7
  | .wSerr inst odd v => encodeWrite inst odd 7 v
  | .rPctl inst odd => encodeRead inst odd 8
  | .wPctl inst odd v => encodeWrite inst odd 8 v
  | .rMbc inst odd => encodeRead inst odd 9
  | .wMbc inst odd v => encodeWrite inst odd 9 v
  | .rDreg inst odd => encodeRead inst odd 10
  | .wDreg inst odd v => encodeWrite inst odd 10 v
  | .rTemp inst odd => encodeRead inst odd 11
  | .wTemp inst odd v => encodeWrite inst odd 11 v
  | .rTch inst odd => encodeRead inst odd 12
  | .wTch inst odd v => encodeWrite inst odd 12 v
  | .rTcm inst odd => encodeRead inst odd 13
  | .wTcm inst odd v => encodeWrite inst odd 13 v
  | .rTcl inst odd => encodeRead inst odd 14
  | .wTcl inst odd v => encodeWrite inst odd 14 v
  | .rwIndex3 inst odd acc => encodeAccess inst odd 3 acc
  | .rwIndex15 inst odd acc => encodeAccess inst odd 15 acc
  | .rwWrongPolarity inst index .read => [offsetByte (BitVec.ofNat 4 index) false, kindByte inst 3]
  | .rwWrongPolarity inst index (.write v) => [offsetByte (BitVec.ofNat 4 index) false, kindByte inst 4, v]
  | .rRom inst off =>
    [off.extractLsb' 0 8, kindByte inst 1, off.extractLsb' 8 8, off.extractLsb' 16 8, off.extractLsb' 24 8]
  | .wRom inst off v =>
    [off.extractLsb' 0 8, kindByte inst 2, v, off.extractLsb' 8 8, off.extractLsb' 16 8, off.extractLsb' 24 8]
  | .scmdBusRelease inst low => encodeScmd inst 0 low
  | .scmdSelect inst low => encodeScmd inst 1 low
  | .scmdResetAtn inst low => encodeScmd inst 2 low
  | .scmdSetAtn inst low => encodeScmd inst 3 low
  | .scmdTransfer inst low => encodeScmd inst 4 low
  | .scmdTransferPause inst low => encodeScmd inst 5 low
  | .scmdResetAckreq inst low => encodeScmd inst 6 low
  | .scmdSetAckreq inst low => encodeScmd inst 7 low
  | .cdbTestUnitReady inst id c => encodeCdb inst id (Machine.cdb6Bytes 0x00 c)
  | .cdbRezeroUnit inst id c => encodeCdb inst id (Machine.cdb6Bytes 0x01 c)
  | .cdbRequestSense inst id c => encodeCdb inst id (Machine.cdb6Bytes 0x03 c)
  | .cdbFormatUnit inst id c => encodeCdb inst id (Machine.cdb6Bytes 0x04 c)
  | .cdbRead6 inst id c => encodeCdb inst id (Machine.cdb6Bytes 0x08 c)
  | .cdbWrite6 inst id c => encodeCdb inst id (Machine.cdb6Bytes 0x0A c)
  | .cdbSeek6 inst id c => encodeCdb inst id (Machine.cdb6Bytes 0x0B c)
  | .cdbInquiry inst id c => encodeCdb inst id (Machine.cdb6Bytes 0x12 c)
  | .cdbModeSelect6 inst id c => encodeCdb inst id (Machine.cdb6Bytes 0x15 c)
  | .cdbModeSense6 inst id c => encodeCdb inst id (Machine.cdb6Bytes 0x1A c)
  | .cdbStartStopUnit inst id c => encodeCdb inst id (Machine.cdb6Bytes 0x1B c)
  | .cdbReadCapacity inst id c => encodeCdb inst id (Machine.cdb10Bytes 0x25 c)
  | .cdbRead10 inst id c => encodeCdb inst id (Machine.cdb10Bytes 0x28 c)
  | .cdbWrite10 inst id c => encodeCdb inst id (Machine.cdb10Bytes 0x2A c)
  | .cdbVerify10 inst id c => encodeCdb inst id (Machine.cdb10Bytes 0x2F c)
  | .cdbOther inst id op args => encodeCdb inst id (op :: args)

/-! ### The opcode table's words -/

/-- The bytes of a word of the opcode table, bit 0 the least significant bit of the first byte. -/
def tableMessage (nbits w : Nat) : List Byte :=
  (List.range ((nbits + 7) / 8)).map fun k => BitVec.ofNat 8 (w >>> (8 * k))

/-- The instruction the decoder reads from a word of the opcode table, its bits above `nbits` zero. -/
def decodeTableWord (nbits w : Nat) : Option Instr :=
  match decode (tableMessage nbits w) with
  | .ok i => some i
  | .error _ => none

end Sys2Proof
end

