-- ==== Sys2Proof/Machine/Fetch.lean ====
section
/-! DEFINITION. Where the next event comes from: the queue of messages (log 1). -/

namespace Sys2Proof.Machine

/-- What stands first in the queue. -/
inductive Fetched where
  /-- No event has been issued: nothing steps the hardware (R8). -/
  | idle
  /-- An event, with the queue behind it. -/
  | event (i : Instr) (rest : List (List Byte))
  /-- A message that is no event. -/
  | bad

/-- Fetch the next event: the first message, decoded. -/
def fetch (s : State) : Fetched :=
  match s.events with
  | [] => .idle
  | m :: rest =>
    match decode m with
    | .ok i => .event i rest
    | .error _ => .bad

/-- Whether an event of either instance overran the model's bounds (log 9). -/
def overran (s : State) : Bool := s.internal.unsettled || s.external.unsettled

/-- The state with a message put first into the queue. -/
def issue (m : List Byte) (s : State) : State := { s with events := m :: s.events }

end Sys2Proof.Machine
end

