-- ==== Sys2Proof/Machine/Step.lean ====
section
/-! DEFINITION. One step of the machine: it takes the first external event of the queue and runs it to completion
(R8, R51). -/

namespace Sys2Proof.Machine

/-- One step. With no event issued nothing steps the hardware and the state stays (R8). -/
def step (s : State) : Host.Outcome State Fault Refusal :=
  if overran s then .fault .unsettled
  else
    match fetch s with
    | .idle => .next s
    | .event i rest => exec i { s with events := rest }
    | .bad => .refused .undecodable

/-- The state with a word of the opcode table issued as the next event (log 1, log 2). -/
def State.withFetchWord (s : State) (nbits w : Nat) : State := issue (tableMessage nbits w) s

end Sys2Proof.Machine
end

