-- ==== Sys2Proof/Safety.lean ====
section
/-! DEFINITION. The terms statements about the machine are written in: when the engine rests, what the common tail and
a bus change leave at rest, a calm instance, an undisturbed Controller, and the invariant of a state between two events. -/

namespace Sys2Proof.Machine

/-- The other instance. -/
def otherInst : InstId → InstId
  | .internal => .external
  | .external => .internal

/-- The engine has nothing to evaluate: it is idle or parked (R172, R174). -/
def Instance.engineRests (x : Instance) : Prop :=
  x.ctrl.busy = false ∧ (x.ctrl.state = .idle ∨ x.ctrl.pending ≠ none)

/-- The callbacks that the lines' levels ask for, DRQ before IRQ (R296, R300). -/
def lineEdges (c : Controller) : List Call :=
  (if drqLevel c = c.drqLine then [] else [.drq (drqLevel c)]) ++
  (if irqLevel c = c.irqLine then [] else [.irq (irqLevel c)])

/-- A callback of one of the two lines. -/
def Call.isLine : Call → Bool
  | .irq _ | .drq _ => true
  | .storeRead .. | .storeWrite .. => false

/-- What the common tail leaves where the engine rests: both lines at their levels, their edges called (R111). -/
def afterTail (x : Instance) : Instance :=
  { x with
    ctrl := { x.ctrl with renotify := false, drqLine := drqLevel x.ctrl, irqLine := irqLevel x.ctrl }
    calls := x.calls ++ lineEdges x.ctrl }

/-- No Target on the slots but, perhaps, one. -/
def Instance.noTargetsBut (k : Fin 7) (x : Instance) : Prop := ∀ j, j ≠ k → x.target? j = none

/-- No Target on any slot. -/
def Instance.noTargets (x : Instance) : Prop := ∀ j, x.target? j = none

/-- An idle Controller, not connected, bound to its Bus. -/
def Instance.ctrlCalm (x : Instance) : Prop :=
  x.bus.cb = .controller ∧ x.ctrl.busy = false ∧ x.ctrl.state = .idle ∧ x.ctrl.pending = none ∧
  x.ctrl.connected = false

/-- A calm instance: an idle Controller alone on the Bus. -/
def Instance.calm (x : Instance) : Prop := x.ctrlCalm ∧ x.noTargets

/-- The combined words are the OR of the contributions (R12). -/
def Bus.combined (b : Bus) : Prop := b.ctl = orCtl b.sig ∧ b.data = orData b.dat

/-- A notification does not run the engine: its guard is held, as in the Controller's own bus writes (R92, R174), or it
is idle or parked; and there is no RST edge for the notification to record (R207). -/
structure Instance.still (x : Instance) : Prop where
  /-- The combined words are the OR of the contributions (R12). -/
  combined : x.bus.combined
  /-- RST, if it is asserted, has been seen (R207). -/
  rst : has x.bus.ctl sigRST = true → x.ctrl.rstSeen = true
  /-- The guard is held, or the engine has nothing to evaluate (R172, R174). -/
  engine : x.ctrl.busy = true ∨ x.ctrl.state = .idle ∨ x.ctrl.pending ≠ none

/-- All that the others can do to a still Controller: restart the bus-free timer, take RST away, ask for another look,
 and, if its engine is free and the bus has been free for long enough, end the connection. Its
contributions to the bus stay (R91, R92, R206). -/
structure Undisturbed (p : Params) (x y : Instance) : Prop where
  /-- Every other field of the Controller stays. -/
  ctrl : y.ctrl = { x.ctrl with connected := y.ctrl.connected, ints := y.ctrl.ints, bfTimer := y.ctrl.bfTimer,
                                rstSeen := y.ctrl.rstSeen, renotify := y.ctrl.renotify }
  /-- The connection stays, or its end is recorded (R206). -/
  connected : (y.ctrl.connected = x.ctrl.connected ∧ y.ctrl.ints = x.ctrl.ints) ∨
    (x.ctrl.connected = true ∧ x.ctrl.engineFree = true ∧ p.busFreeCycles ≤ x.ctrl.bfTimer ∧
      y.ctrl.connected = false ∧
      y.ctrl.ints = if x.ctrl.pctl.getLsbD 7 then x.ctrl.ints ||| intDISCONNECT else x.ctrl.ints)
  /-- The bus-free timer is at most restarted. -/
  bfTimer : y.ctrl.bfTimer ≤ x.ctrl.bfTimer
  /-- The Controller's control contribution stays. -/
  sig : y.bus.sig[7] = x.bus.sig[7]
  /-- The Controller's data contribution stays. -/
  dat : y.bus.dat[7] = x.bus.dat[7]
  /-- No other participant asserts RST. -/
  rst : has y.bus.ctl sigRST = true → has x.bus.ctl sigRST = true

/-- No Target drives the lines of the slot: a Target drives those of its own record's identifier (log 21). -/
def Instance.undriven (k : Fin 7) (x : Instance) : Prop := ∀ j t, x.target? j = some t → t.id ≠ k

/-- The first line of the bus callback: the changed bus in place, and the bus-free timer restarted if it is busy (R175). -/
def Instance.onBus (x : Instance) (b : Bus) : Instance :=
  { x with bus := b, ctrl := { x.ctrl with bfTimer := if b.isFree then x.ctrl.bfTimer else 0 } }

/-- Something is in progress or connected: what a rising RST ends (R207). -/
def Controller.rstStops (c : Controller) : Bool := c.state != .idle || c.pending != none || c.connected

/-- What a rising RST makes of a Controller: RC is latched, and what is in progress or connected ends (R207, R322). -/
def Controller.afterRst (c : Controller) : Controller :=
  if c.rstStops then
    { c with
      ints := c.ints ||| 0x01
      diagSig := if c.dm then c.diagSig &&& ~~~(sigBSY ||| sigSEL ||| sigATN ||| sigACK) else c.diagSig
      fifo := { c.fifo with head := 0, tail := 0, count := 0 }
      state := .idle
      pending := none
      selTimer := none
      connected := false
      atnQueued := false
      xferDma := false
      xferTerm := false }
  else { c with ints := c.ints ||| 0x01 }

/-- The Controller of `y` has taken the RST that rose on the bus of `x`, and the Targets have done what they may: it has
its own BSY, SEL, ATN, ACK and data released, in diagnostic mode in the shadow, if something was in progress or connected,
and nothing else of it has changed (R207, R322). -/
structure RstTaken (x y : Instance) : Prop where
  /-- The Controller, but for three fields. -/
  ctrl : y.ctrl = { x.ctrl.afterRst with bfTimer := y.ctrl.bfTimer, rstSeen := y.ctrl.rstSeen,
                                         renotify := y.ctrl.renotify }
  /-- The bus-free timer is at most restarted. -/
  bfTimer : y.ctrl.bfTimer ≤ x.ctrl.bfTimer
  /-- RST that is still asserted has been seen: the edge counts once. -/
  rstSeen : has y.bus.ctl sigRST = true → y.ctrl.rstSeen = true
  /-- The Controller's control contribution. -/
  sig : y.bus.sig[7] =
    if x.ctrl.rstStops && !x.ctrl.dm then x.bus.sig[7] &&& ~~~(sigBSY ||| sigSEL ||| sigATN ||| sigACK) else x.bus.sig[7]
  /-- The Controller's data contribution. -/
  dat : y.bus.dat[7] = if x.ctrl.rstStops then (0 : Byte) else x.bus.dat[7]
  /-- The combined words are the OR of the contributions (R12). -/
  combined : y.bus.combined

/-- The idle Controller of `y` has been notified of the bus of `x`, with no RST edge, and the Targets have done what they
may: a disconnect that is due is recorded, with DISCONNECT if PCTL bit 7 asks for it, one that is not due is not, and
nothing else of it has changed (R175, R206). -/
structure IdleNotified (p : Params) (x y : Instance) : Prop where
  /-- The Controller, but for five fields. -/
  ctrl : y.ctrl = { x.ctrl with connected := y.ctrl.connected, ints := y.ctrl.ints, bfTimer := y.ctrl.bfTimer,
                                rstSeen := y.ctrl.rstSeen, renotify := y.ctrl.renotify }
  /-- The bus is free and has been for the bus-free time: the disconnect is recorded. -/
  due : x.ctrl.connected = true → x.bus.ctl &&& (sigBSY ||| sigSEL) = 0 → p.busFreeCycles ≤ x.ctrl.bfTimer →
    y.ctrl.connected = false ∧ y.ctrl.ints = if x.ctrl.pctl.getLsbD 7 then x.ctrl.ints ||| 0x20 else x.ctrl.ints
  /-- Nothing is connected, or the bus-free time is short: nothing is recorded. -/
  notDue : (x.ctrl.connected = false ∨ x.ctrl.bfTimer < p.busFreeCycles) →
    y.ctrl.connected = x.ctrl.connected ∧ y.ctrl.ints = x.ctrl.ints
  /-- The bus-free timer is at most restarted. -/
  bfTimer : y.ctrl.bfTimer ≤ x.ctrl.bfTimer
  /-- The Controller's contributions stay. -/
  own : y.bus.sig[7] = x.bus.sig[7] ∧ y.bus.dat[7] = x.bus.dat[7]
  /-- The combined words are the OR of the contributions (R12). -/
  combined : y.bus.combined

/-- A notification has been delivered on the bus of `x`, on which the control word has just changed, and `y` is what the
Controller and the Targets have made of it (R91, R92, R175). -/
structure Notified (p : Params) (x y : Instance) : Prop where
  /-- RST rises: the Controller takes it (R207). -/
  rst : has x.bus.ctl sigRST = true → x.ctrl.rstSeen = false → RstTaken x y
  /-- No RST rises, and the Controller is idle: at most the disconnect is recorded (R206). -/
  idle : (has x.bus.ctl sigRST = true → x.ctrl.rstSeen = true) → x.ctrl.state = .idle → x.ctrl.pending = none →
    IdleNotified p x y
  /-- No RST rises, and the engine does not run, because it is parked or at work already: nothing else of the Controller
  changes (R172, R174). -/
  still : x.still → Undisturbed p x y
  /-- A slot without a Target keeps what stands there. -/
  occ : ∀ k : Fin 8, (∀ t, x.bus.occ[k] ≠ some (.target t)) → y.bus.occ[k] = x.bus.occ[k]
  /-- Every Target stays on its slot, with its image of that size. -/
  target : ∀ k t, x.target? k = some t → ∃ u, y.target? k = some u ∧ u.id = t.id ∧ u.geom = t.geom ∧
    u.ready = t.ready ∧ u.mediaChanged = t.mediaChanged ∧ u.serial = t.serial ∧
    u.image.map Store.size = t.image.map Store.size
  /-- A slot whose lines no Target drives keeps its contributions. -/
  undriven : ∀ k : Fin 7, x.undriven k →
    y.bus.sig[slotAddr k] = x.bus.sig[slotAddr k] ∧ y.bus.dat[slotAddr k] = x.bus.dat[slotAddr k]
  /-- The combined words are the OR of the contributions (R12). -/
  combined : y.bus.combined
  /-- The images kept from before stay, and the value the call returns. -/
  kept : y.kept = x.kept ∧ y.ret = x.ret

/-- A guarded loop that evaluates while there is progress, and once more for every notification that came in meanwhile
(R174, R222), stops in `y` after exactly `m` rounds that went on and one that did not: `eval` says whether it made progress,
`noted` whether a notification came in, `forget` takes that note away. -/
def RepeatsTo (eval : Instance → Bool × Instance) (noted : Instance → Bool) (forget : Instance → Instance) :
    Nat → Instance → Instance → Prop
  | 0, x, y => eval x = (false, y) ∧ noted y = false
  | m + 1, x, y => ∃ z, RepeatsTo eval noted forget m z y ∧
    (eval x = (true, z) ∨ ∃ w, eval x = (false, w) ∧ noted w = true ∧ z = forget w)

/-- What a bus change leaves at a calm Controller: nothing but the bus where the control word stays (R95); else the
bus-free timer restarted on a busy bus (R175) and a rising RST latched (R207). The lines wait for the end of the event
(D33). -/
def afterChange (x : Instance) (b : Bus) : Instance :=
  if b.ctl = x.bus.ctl then { x with bus := b }
  else
    { x with
      bus := b
      ctrl := { x.ctrl with
        bfTimer := if b.isFree then x.ctrl.bfTimer else 0
        ints := if has b.ctl sigRST && !x.ctrl.rstSeen then x.ctrl.ints ||| intRC else x.ctrl.ints
        rstSeen := has b.ctl sigRST
        renotify := false } }

/-- What a Bus call from outside leaves at a calm Controller: a bus change and, where the control word changed, the two
lines at their levels at the end of the event (R175, D33). -/
def afterBusEvent (x : Instance) (b : Bus) : Instance :=
  if b.ctl = x.bus.ctl then { x with bus := b } else afterTail (afterChange x b)

/-- What `drive` leaves at a calm instance: the shadow in diagnostic mode, else a bus change of slot 7 (R112). -/
def afterDrive (value mask : Ctl) (x : Instance) : Instance :=
  if x.ctrl.dm then { x with ctrl := { x.ctrl with diagSig := merge x.ctrl.diagSig value mask } }
  else afterChange x (x.bus.writeControl 7 value mask)

/-- A calm instance after the command byte is stored and RST-out driven (R116). -/
def afterScmd (v : Byte) (x : Instance) : Instance :=
  afterDrive (onlyIf (v.getLsbD 4) sigRST) sigRST { x with ctrl := { x.ctrl with scmd := v } }

/-- The instance after the command byte is stored and RST-out driven, whatever the participants make of RST (R116). -/
def afterRstOut (e : Env) (code : BitVec 3) (low : BitVec 5) (x : Instance) : Instance :=
  drive (notify e) (if low.getLsbD 4 then sigRST else 0) sigRST { x with ctrl := { x.ctrl with scmd := code ++ low } }

/-- The Target at a slot replaced by a record, nothing else touched. -/
def Instance.withTarget (x : Instance) (k : Fin 7) (t : Target) : Instance :=
  { x with bus := { x.bus with occ := x.bus.occ.set (slotAddr k) (some (.target t)) } }

/-- The record as a CHECK CONDITION leaves it (R252). -/
def checked (key : BitVec 4) (asc ascq : Byte) (lba : Option (BitVec 32)) (t : Target) : Target :=
  { t with senseKey := key, senseAsc := asc, senseAscq := ascq, senseLba := lba.getD 0, senseLbaValid := lba.isSome,
           status := 0x02, tstate := .status }

/-- The ring of the FIFO: the tail is the count past the head (R14). -/
def Fifo.ring (f : Fifo) : Prop := f.tail.val = (f.head.val + f.count.val) % 8

/-- An image in canonical form and within its length (R50). -/
def Store.ok (st : Store) : Prop := Memory.wf st.cells = true ∧ ∀ c ∈ st.cells, c.1 < st.size

/-- What holds of a Target at slot `k` between two events. -/
structure Target.Inv (k : Fin 7) (t : Target) : Prop where
  /-- The record knows its slot (R93). -/
  atSlot : t.id = k
  /-- Its handler is not running (R222). -/
  notBusy : t.tbusy = false
  /-- Its image is in canonical form and within its length (R50). -/
  imageWf : ∀ st, t.image = some st → st.ok
  /-- Its data buffer is in canonical form. -/
  bufSorted : Memory.sorted t.buf = true
  /-- Its geometry lies within its image (R18, D50). -/
  geomFits : ∀ st, t.image = some st → 1 ≤ t.geom.bps ∧ t.geom.totalSectors * t.geom.bps ≤ st.size

/-- What holds of an instance between two events. -/
structure Instance.Inv (p : Params) (x : Instance) : Prop where
  /-- The combined words are the OR of the contributions (R12). -/
  combined : x.bus.combined
  /-- The Controller is bound to the Bus (R320). -/
  bound : x.bus.cb = .controller
  /-- The Controller occupies slot 7 (R320). -/
  controllerAt7 : x.bus.occ[7] = some .controller
  /-- The Controller occupies no other slot (R93). -/
  controllerOnly7 : ∀ k : Fin 7, x.bus.occ[slotAddr k] ≠ some .controller
  /-- Every Target is as it should be. -/
  targets : ∀ k t, x.target? k = some t → t.Inv k
  /-- The kept images are in canonical form and within their length (R50, R323). -/
  keptWf : ∀ st ∈ x.kept, st.ok
  /-- The FIFO is a ring (R14). -/
  fifoRing : x.ctrl.fifo.ring
  /-- The flags that are never raised (R67, R291). -/
  intsReserved : x.ctrl.ints &&& 0xC2 = 0
  /-- Only the overrun bit of SERR is ever set (R71, R123). -/
  serrReserved : x.ctrl.serr &&& 0xDF = 0
  /-- Bits 6:3 of PCTL are 0 (R72, R124). -/
  pctlReserved : x.ctrl.pctl &&& 0x78 = 0
  /-- The bus-free timer saturates (R211). -/
  bfTimerBound : x.ctrl.bfTimer ≤ p.busFreeCycles
  /-- The engine is not running (R174). -/
  notBusy : x.ctrl.busy = false
  /-- No cycles are left over outside a tick (R172). -/
  noBudget : x.ctrl.budget = 0

/-- The invariant of a state: both instances meet theirs. -/
def State.Inv (s : State) : Prop := ∀ i, (s.get i).Inv Config.params

end Sys2Proof.Machine

namespace Sys2Proof

/-- The instance an instruction acts on; the system reset acts on both. -/
def Instr.inst? : Instr → Option InstId
  | .envSystemReset => none
  | .busAttach i .. | .busDetach i .. | .busSetControl i .. | .busSetData i .. | .busGetControl i | .busGetData i
  | .busIsBusFree i | .envOpenImage i .. | .envCloseImage i .. | .tick i .. | .rBdid i .. | .wBdid i ..
  | .rSctl i .. | .wSctl i .. | .rScmd i .. | .wScmd i .. | .rInts i .. | .wInts i .. | .rPsns i .. | .wSdgc i ..
  | .rSsts i .. | .wSsts i .. | .rSerr i .. | .wSerr i .. | .rPctl i .. | .wPctl i .. | .rMbc i .. | .wMbc i ..
  | .rDreg i .. | .wDreg i .. | .rTemp i .. | .wTemp i .. | .rTch i .. | .wTch i .. | .rTcm i .. | .wTcm i ..
  | .rTcl i .. | .wTcl i .. | .rwIndex3 i .. | .rwIndex15 i .. | .rwWrongPolarity i .. | .rRom i .. | .wRom i ..
  | .scmdBusRelease i .. | .scmdSelect i .. | .scmdResetAtn i .. | .scmdSetAtn i .. | .scmdTransfer i ..
  | .scmdTransferPause i .. | .scmdResetAckreq i .. | .scmdSetAckreq i .. | .cdbTestUnitReady i .. | .cdbRezeroUnit i ..
  | .cdbRequestSense i .. | .cdbFormatUnit i .. | .cdbRead6 i .. | .cdbWrite6 i .. | .cdbSeek6 i .. | .cdbInquiry i ..
  | .cdbModeSelect6 i .. | .cdbModeSense6 i .. | .cdbStartStopUnit i .. | .cdbReadCapacity i .. | .cdbRead10 i ..
  | .cdbWrite10 i .. | .cdbVerify10 i .. | .cdbOther i .. => some i

end Sys2Proof
end

