-- ==== Sys2Proof/Certificates/Slice0/Obligations.lean ====
section
/-! DEFINITION. The statements about the machine. In all of them an event's own record of values returned and calls
made starts empty (`beginEvent`, log 10), and `odd` is instantiated with the instance's polarity (R42), whatever it is.
How a row of the opcode table becomes an event is the model's choice throughout: a Bus call comes from a harness
(log 13), a command byte is written at the instance's own SCMD offset (log 12), a CDB is run directly on the Target at a
slot (log 11). -/

section

open Sys2Proof Sys2Proof.Machine

/-! ### Reset, step, decoding -/

/-- The state after reset meets the invariant. Some of its clauses concern the model's own fields (log 18). -/
def Obligations.ResetMeetsInvariant : Prop := State.reset.Inv

/-- What a system reset leaves, item by item, and what the registers then read as (R320, which says it of an instance); the
bytes of every image that was open or kept persist, and nothing else (R323).
That the one event resets both instances is the model's choice (log 17). -/
def Obligations.SystemResetValues : Prop :=
  ∀ s : State, ∃ t, exec .envSystemReset s = .next t ∧ ∀ i,
    let b := (t.get i).bus
    let c := (t.get i).ctrl
    (∀ k : Fin 8, b.sig[k] = 0 ∧ b.dat[k] = 0) ∧ b.ctl = 0 ∧ b.data = 0 ∧
    (∀ k : Fin 7, b.occ[slotAddr k] = none ∧ (t.get i).target? k = none) ∧
    b.occ[7] = some .controller ∧ b.cb = .controller ∧ b.isFree = true ∧
    c.bdid = 7 ∧ c.sctl = 0 ∧ c.scmd = 0 ∧ c.ints = 0 ∧ c.sdgc = 0 ∧ c.serr = 0 ∧ c.pctl = 0 ∧ c.tc = 0 ∧
    c.temp = 0 ∧ c.dreg = 0 ∧ c.connected = false ∧
    (∀ k : Fin 8, c.fifo.buf[k] = 0) ∧ c.fifo.head = 0 ∧ c.fifo.tail = 0 ∧ c.fifo.count = 0 ∧
    c.state = .idle ∧ c.pending = none ∧ c.selTimer = none ∧ c.bfTimer = 0 ∧ c.xferPhase = 0 ∧ c.xferIn = false ∧
    c.xferDma = false ∧ c.xferTerm = false ∧ c.atnQueued = false ∧ c.diagSig = 0 ∧ c.rstSeen = false ∧
    c.busy = false ∧ c.renotify = false ∧ c.irqLine = false ∧ c.drqLine = false ∧ (t.get i).calls = [] ∧
    idBit c.bdid.toNat = 0x80 ∧ psns (t.get i) = 0 ∧ ssts (t.get i) = 0x05 ∧ mbc (t.get i) = 0 ∧
    (s.get i).kept <+: (t.get i).kept ∧
    ∀ st, st ∈ (t.get i).kept ↔ st ∈ (s.get i).kept ∨ ∃ k, ((s.get i).target? k).bind Target.image = some st

/-- The model's own machine (log 1): the first message of the queue, decoded, is run, and leaves the queue; with no
message the state stays. -/
def Obligations.StepRunsDecodedEvent : Prop :=
  ∀ s : State, overran s = false →
    (s.events = [] → step s = .next s) ∧
    ∀ m rest i, s.events = m :: rest → decode m = .ok i → step s = exec i { s with events := rest }

/-- Words written out from the encodings of the spec decode to what they stand for: the window offset (R63, R64), the
SCMD byte (R66) and the CDBs (R74, R75), in the model's messages (log 2). -/
def Obligations.SpecWordsDecode : Prop :=
  decode [0x0A, 0x01] = .ok (.rPsns .internal false) ∧
  decode [0x15, 0x82, 0x5A] = .ok (.wDreg .external true 0x5A) ∧
  decode [0x84, 0x05] = .ok (.scmdTransfer .internal 4) ∧
  decode [0x28, 0x06, 0x03, 0x00, 0x00, 0x00, 0x00, 0x0A, 0x00, 0x00, 0x02, 0x00] =
    .ok (.cdbRead10 .internal 3 { flags := 0, lba := 10, reserved := 0, len := 2, control := 0 }) ∧
  decode [0x08, 0x06, 0x00, 0xFF, 0x00, 0x0A, 0x02, 0x00] =
    .ok (.cdbRead6 .internal 0 { lun := 7, lba := 0x1F000A, len := 2, control := 0 }) ∧
  decode [0x10, 0x02] = .ok (.wPctl .internal false 0) ∧
  decode [0x20, 0x01] = .ok (.rRom .internal 32)

/-- Decode and encode agree: no bit of a well-formed instruction's message is dropped or shared. -/
def Obligations.DecodeEncodeAgree : Prop := ∀ i : Instr, i.wellFormed = true → decode (encode i) = .ok i

/-! ### Whole-machine rules -/

/-- Every event keeps the invariant, from every state that meets it. -/
def Obligations.StepKeepsInvariant : Prop := ∀ s t : State, s.Inv → step s = .next t → t.Inv

/-- Every event of the model completes, in every state. That it does so even where an event would go on beyond the
model's bounds on loops and nesting is the model's choice: the event is cut off and only the mark `unsettled` is set
(log 9). That the queue stays is the model's choice too (log 1). -/
def Obligations.EveryEventCompletes : Prop := ∀ (i : Instr) (s : State), ∃ t, exec i s = .next t ∧ t.events = s.events

/-- R10, R304: an event of one instance neither changes the other nor depends on it. -/
def Obligations.InstancesAreIndependent : Prop :=
  ∀ (i : Instr) (k : InstId) (s t : State), i.inst? = some k → exec i s = .next t →
    t.get (otherInst k) = s.get (otherInst k) ∧
    ∀ s' t', s'.get k = s.get k → exec i s' = .next t' → t'.get k = t.get k

/-- Which events can change the registers that only the host writes: whatever the engine and the Targets do, BDID,
SCTL, SDGC, PCTL and DREG change only in their own accesses and at reset, SCMD besides in an abort (R115). -/
def Obligations.HostRegistersFrame : Prop :=
  ∀ (i : Instr) (k : InstId) (s t : State), exec i s = .next t →
    let c := (s.get k).ctrl
    let d := (t.get k).ctrl
    (d.bdid = c.bdid ∨ i = .envSystemReset ∨ ∃ odd v, i = .wBdid k odd v) ∧
    (d.sctl = c.sctl ∨ i = .envSystemReset ∨ ∃ odd v, i = .wSctl k odd v) ∧
    (d.sdgc = c.sdgc ∨ i = .envSystemReset ∨ ∃ odd v, i = .wSdgc k odd v) ∧
    (d.pctl = c.pctl ∨ i = .envSystemReset ∨ ∃ odd v, i = .wPctl k odd v) ∧
    (d.dreg = c.dreg ∨ i = .envSystemReset ∨ ∃ odd v, i = .wDreg k odd v ∨ i = .rDreg k odd) ∧
    (d.scmd = c.scmd ∨ i = .envSystemReset ∨ (∃ odd v, i = .wScmd k odd v ∨ i = .wSctl k odd v) ∨
      ∃ low, i = .scmdBusRelease k low ∨ i = .scmdSelect k low ∨ i = .scmdResetAtn k low ∨ i = .scmdSetAtn k low ∨
        i = .scmdTransfer k low ∨ i = .scmdTransferPause k low ∨ i = .scmdResetAckreq k low ∨ i = .scmdSetAckreq k low)

/-- A flag of INTS falls only by the host's own write of a 1 to its bit, or by a reset; the flags that are never
raised never rise (R291, R292). -/
def Obligations.FlagsFallOnlyByHost : Prop :=
  ∀ (i : Instr) (k : InstId) (s t : State), exec i s = .next t → i ≠ .envSystemReset →
    let c := (s.get k).ctrl
    let d := (t.get k).ctrl
    (d.ints &&& 0xC2) &&& ~~~c.ints = 0 ∧
    ((∀ odd v, i ≠ .wInts k odd v) → c.ints &&& ~~~d.ints = 0) ∧
    (∀ odd v, i = .wInts k odd v → (c.ints &&& ~~~v) &&& ~~~d.ints = 0)

/-- After every register access at the instance's own polarity, every command byte and every tick the two lines are
at their levels (R294, R299). The callbacks that any event makes of the two lines are, DRQ before IRQ, one for each line
that the event leaves at another level than it found it at, and no other: "one edge per event at most; intermediate
glitches inside an event are not delivered" (R296, R300, D33; how the model reads the several bus notifications within
one event: log 19). -/
def Obligations.LinesFollowLevels : Prop :=
  ∀ (k : InstId) (i : Instr) (s t : State), exec i s = .next t →
    (i.inst? = some k →
      let c := (s.get k).ctrl
      let d := (t.get k).ctrl
      (t.get k).calls.filter Call.isLine =
        (if d.drqLine = c.drqLine then [] else [.drq d.drqLine]) ++
        (if d.irqLine = c.irqLine then [] else [.irq d.irqLine])) ∧ (
    let o := Config.params.odd k
    (i ∈ [Instr.rBdid k o, .rSctl k o, .rScmd k o, .rInts k o, .rPsns k o, .rSsts k o, .rSerr k o, .rPctl k o,
        .rMbc k o, .rDreg k o, .rTemp k o, .rTch k o, .rTcm k o, .rTcl k o] ∨
      (∃ v, i ∈ [Instr.wBdid k o v, .wSctl k o v, .wScmd k o v, .wInts k o v, .wSdgc k o v, .wSsts k o v, .wSerr k o v,
        .wPctl k o v, .wMbc k o v, .wDreg k o v, .wTemp k o v, .wTch k o v, .wTcm k o v, .wTcl k o v]) ∨
      (∃ l, i ∈ [Instr.scmdBusRelease k l, .scmdSelect k l, .scmdResetAtn k l, .scmdSetAtn k l, .scmdTransfer k l,
        .scmdTransferPause k l, .scmdResetAckreq k l, .scmdSetAckreq k l]) ∨
      ∃ n, i = .tick k n) →
    let c := (t.get k).ctrl
    c.irqLine = (c.sctl.getLsbD 0 && (c.ints != 0 || c.serr.getLsbD 5)) ∧
    c.drqLine = (c.xferDma && c.state.famXfer &&
      ((c.xferIn && c.fifo.count.val != 0) ||
       (!c.xferIn && decide (c.fifo.count.val < 8) && decide (c.fifo.count.val < c.tc.toNat)))))

/-! ### Register reads -/

/-- The 13 reads without side effects return their value in every state, whatever the engine then does, and change no
register of the host (R110, R114 to R131). -/
def Obligations.PlainReadsReturn : Prop :=
  ∀ (inst : InstId) (s : State) (i : Instr) (v : Byte),
    let o := Config.params.odd inst
    let x := s.get inst
    let c := x.ctrl
    (i, v) ∈ [(Instr.rBdid inst o, (1#8 <<< c.bdid.toNat)), (.rSctl inst o, c.sctl), (.rScmd inst o, c.scmd),
      (.rInts inst o, c.ints), (.rPsns inst o, psns x), (.rSsts inst o, ssts x), (.rSerr inst o, c.serr),
      (.rPctl inst o, c.pctl), (.rMbc inst o, (c.tc.extractLsb' 0 4).setWidth 8), (.rTemp inst o, c.temp),
      (.rTch inst o, c.tc.extractLsb' 16 8), (.rTcm inst o, c.tc.extractLsb' 8 8),
      (.rTcl inst o, c.tc.extractLsb' 0 8)] →
    ∃ t, exec i s = .next t ∧ (t.get inst).ret = .byte v ∧ t.events = s.events ∧
      t.get (otherInst inst) = s.get (otherInst inst) ∧
      (t.get inst).ctrl.bdid = c.bdid ∧ (t.get inst).ctrl.sctl = c.sctl ∧ (t.get inst).ctrl.scmd = c.scmd ∧
      (t.get inst).ctrl.sdgc = c.sdgc ∧ (t.get inst).ctrl.pctl = c.pctl ∧ (t.get inst).ctrl.dreg = c.dreg ∧
      (t.get inst).ctrl.serr = c.serr ∧ c.ints &&& ~~~(t.get inst).ctrl.ints = 0

/-- The same reads where the engine rests: nothing changes but the lines, which go to their levels (R111). -/
def Obligations.PlainReadsAtRest : Prop :=
  ∀ (inst : InstId) (s : State) (i : Instr) (v : Byte),
    let o := Config.params.odd inst
    let x := s.get inst
    let c := x.ctrl
    x.engineRests →
    (i, v) ∈ [(Instr.rBdid inst o, (1#8 <<< c.bdid.toNat)), (.rSctl inst o, c.sctl), (.rScmd inst o, c.scmd),
      (.rInts inst o, c.ints), (.rPsns inst o, psns x), (.rSsts inst o, ssts x), (.rSerr inst o, c.serr),
      (.rPctl inst o, c.pctl), (.rMbc inst o, (c.tc.extractLsb' 0 4).setWidth 8), (.rTemp inst o, c.temp),
      (.rTch inst o, c.tc.extractLsb' 16 8), (.rTcm inst o, c.tc.extractLsb' 8 8),
      (.rTcl inst o, c.tc.extractLsb' 0 8)] →
    exec i s = .next (s.put inst
      { x with
        ctrl := { c with renotify := false, drqLine := drqLevel c, irqLine := irqLevel c }
        ret := .byte v
        calls := lineEdges c })

/-- PSNS, bit by bit, and what the sensed signals are in the two modes (R112, R119). -/
def Obligations.PsnsReadsSignals : Prop :=
  ∀ (inst : InstId) (s : State),
    let x := s.get inst
    ∃ t v, exec (.rPsns inst (Config.params.odd inst)) s = .next t ∧ (t.get inst).ret = .byte v ∧
      v.getLsbD 7 = has (sense x) sigREQ ∧ v.getLsbD 6 = has (sense x) sigACK ∧ v.getLsbD 5 = has (sense x) sigATN ∧
      v.getLsbD 4 = has (sense x) sigSEL ∧ v.getLsbD 3 = has (sense x) sigBSY ∧ v.getLsbD 2 = has (sense x) sigMSG ∧
      v.getLsbD 1 = has (sense x) sigCD ∧ v.getLsbD 0 = has (sense x) sigIO ∧
      (x.ctrl.sctl.getLsbD 5 = false → sense x = x.bus.ctl) ∧
      (x.ctrl.sctl.getLsbD 5 = true →
        has (sense x) sigREQ = (has x.ctrl.diagSig sigREQ || x.ctrl.sdgc.getLsbD 7) ∧
        has (sense x) sigACK = (has x.ctrl.diagSig sigACK || x.ctrl.sdgc.getLsbD 6) ∧
        has (sense x) sigBSY = (has x.ctrl.diagSig sigBSY || x.ctrl.sdgc.getLsbD 3) ∧
        has (sense x) sigMSG = (has x.ctrl.diagSig sigMSG || x.ctrl.sdgc.getLsbD 2) ∧
        has (sense x) sigCD = (has x.ctrl.diagSig sigCD || x.ctrl.sdgc.getLsbD 1) ∧
        has (sense x) sigIO = (has x.ctrl.diagSig sigIO || x.ctrl.sdgc.getLsbD 0) ∧
        has (sense x) sigSEL = has x.bus.ctl sigSEL ∧ has (sense x) sigATN = has x.bus.ctl sigATN ∧
        has (sense x) sigRST = has x.bus.ctl sigRST)

/-- SSTS, bit by bit (R70, R122). -/
def Obligations.SstsReadsStatus : Prop :=
  ∀ (inst : InstId) (s : State),
    let x := s.get inst
    let c := x.ctrl
    ∃ t v, exec (.rSsts inst (Config.params.odd inst)) s = .next t ∧ (t.get inst).ret = .byte v ∧
      v.getLsbD 7 = c.connected ∧ v.getLsbD 6 = false ∧
      (v.getLsbD 5 = true ↔ c.state ≠ .idle ∨ c.pending ≠ none) ∧
      (v.getLsbD 4 = true ↔ c.state.famXfer = true ∨ ∃ u r, c.pending = some (u, r) ∧ u.famXfer = true) ∧
      v.getLsbD 3 = has x.bus.ctl sigRST ∧ (v.getLsbD 2 = true ↔ c.tc = 0) ∧
      (v.getLsbD 1 = true ↔ c.fifo.count = 8) ∧ (v.getLsbD 0 = true ↔ c.fifo.count = 0)

/-- R125, R129, R130: MBC and the high and middle views of the counter, read and written in every state: the body, then
the common tail; a write of MBC is ignored. -/
def Obligations.CounterViews : Prop :=
  ∀ (inst : InstId) (v : Byte) (s : State),
    let o := Config.params.odd inst
    let x := beginEvent (s.get inst)
    let c := x.ctrl
    exec (.rMbc inst o) s =
      .next (s.put inst (commonTail (envOf inst) { x with ret := .byte (BitVec.setWidth 8 (c.tc.extractLsb' 0 4)) })) ∧
    exec (.wMbc inst o v) s = .next (s.put inst (commonTail (envOf inst) x)) ∧
    exec (.rTch inst o) s = .next (s.put inst (commonTail (envOf inst) { x with ret := .byte (c.tc.extractLsb' 16 8) })) ∧
    exec (.rTcm inst o) s = .next (s.put inst (commonTail (envOf inst) { x with ret := .byte (c.tc.extractLsb' 8 8) })) ∧
    exec (.wTch inst o v) s = .next (s.put inst (commonTail (envOf inst)
      { x with ctrl := { c with tc := v ++ c.tc.extractLsb' 0 16 } })) ∧
    exec (.wTcm inst o v) s = .next (s.put inst (commonTail (envOf inst)
      { x with ctrl := { c with tc := c.tc.extractLsb' 16 8 ++ v ++ c.tc.extractLsb' 0 8 } }))

/-- A read of DREG pops the oldest byte, or gives the last one again (R126): in every state, then the common tail; in
closed form where the engine rests. -/
def Obligations.DregReadPops : Prop :=
  ∀ (inst : InstId) (s : State),
    let x := beginEvent (s.get inst)
    let c := x.ctrl
    let y : Instance :=
      if c.fifo.count = 0 then { x with ret := .byte c.dreg }
      else
        { x with
          ret := .byte c.fifo.buf[c.fifo.head]
          ctrl := { c with
            dreg := c.fifo.buf[c.fifo.head]
            fifo := { c.fifo with head := c.fifo.head + 1, count := c.fifo.count - 1 } } }
    exec (.rDreg inst (Config.params.odd inst)) s = .next (s.put inst (commonTail (envOf inst) y)) ∧
    (x.engineRests → exec (.rDreg inst (Config.params.odd inst)) s = .next (s.put inst (afterTail y)))

/-! ### Register writes -/

/-- The ten writes that store or are ignored (R114, R120, R122 to R125, R128 to R131): in every state the register takes
its bits, then the common tail runs, in which a waiting engine may go on; where the engine rests, the lines go to their
levels and nothing else changes. -/
def Obligations.PlainWritesStore : Prop :=
  ∀ (inst : InstId) (v : Byte) (s : State) (i : Instr) (d : Controller),
    let o := Config.params.odd inst
    let x := beginEvent (s.get inst)
    let c := x.ctrl
    (i, d) ∈ [(Instr.wBdid inst o v, { c with bdid := v.extractLsb' 0 3 }), (.wSdgc inst o v, { c with sdgc := v }),
      (.wSsts inst o v, c), (.wSerr inst o v, c), (.wPctl inst o v, { c with pctl := v &&& 0x87 }), (.wMbc inst o v, c),
      (.wTemp inst o v, { c with temp := v }), (.wTch inst o v, { c with tc := v ++ c.tc.extractLsb' 0 16 }),
      (.wTcm inst o v, { c with tc := c.tc.extractLsb' 16 8 ++ v ++ c.tc.extractLsb' 0 8 }),
      (.wTcl inst o v, { c with tc := c.tc.extractLsb' 8 16 ++ v })] →
    exec i s = .next (s.put inst (commonTail (envOf inst) { x with ctrl := d })) ∧
    (x.engineRests → exec i s = .next (s.put inst
      { x with
        ctrl := { d with renotify := false, drqLine := drqLevel d, irqLine := irqLevel d }
        calls := lineEdges d }))

/-- A write of INTS clears the flags whose bits are 1 (R117, R294), the return from a condition (R297): in every state,
then the common tail; in closed form, with the fall of the IRQ line, where the engine rests. -/
def Obligations.IntsWriteClears : Prop :=
  ∀ (inst : InstId) (v : Byte) (s : State),
    let x := beginEvent (s.get inst)
    let c := x.ctrl
    let y : Instance := { x with ctrl := { c with ints := c.ints &&& ~~~v } }
    exec (.wInts inst (Config.params.odd inst) v) s = .next (s.put inst (commonTail (envOf inst) y)) ∧
    (x.engineRests →
      exec (.wInts inst (Config.params.odd inst) v) s = .next (s.put inst (afterTail y)) ∧
      (c.ints &&& ~~~v = 0 → c.serr.getLsbD 5 = false → (afterTail y).ctrl.irqLine = false))

/-- A write of DREG puts the byte behind the others; for a full FIFO it is lost and the overrun latched; "a push is
accepted in any engine state" (R127): in every state, then the common tail; in closed form where the engine rests. -/
def Obligations.DregWritePushes : Prop :=
  ∀ (inst : InstId) (v : Byte) (s : State),
    let x := beginEvent (s.get inst)
    let c := x.ctrl
    let y : Instance :=
      if c.fifo.count = 8 then { x with ctrl := { c with dreg := v, serr := c.serr ||| 0x20 } }
      else
        { x with ctrl := { c with
            dreg := v
            fifo := { c.fifo with buf := c.fifo.buf.set c.fifo.tail v, tail := c.fifo.tail + 1,
                                  count := c.fifo.count + 1 } } }
    exec (.wDreg inst (Config.params.odd inst) v) s = .next (s.put inst (commonTail (envOf inst) y)) ∧
    (x.engineRests → exec (.wDreg inst (Config.params.odd inst) v) s = .next (s.put inst (afterTail y)))

/-- A write of SCTL that aborts nothing, bit 7 being clear or the engine idle, stores its byte (R113, R115): in every
state, then the common tail; in closed form where the engine rests. -/
def Obligations.SctlWriteStores : Prop :=
  ∀ (inst : InstId) (v : Byte) (s : State),
    let x := beginEvent (s.get inst)
    let c := x.ctrl
    let y : Instance := { x with ctrl := { c with sctl := v } }
    (v.getLsbD 7 = false ∨ (c.state = .idle ∧ c.pending = none)) →
    exec (.wSctl inst (Config.params.odd inst) v) s = .next (s.put inst (commonTail (envOf inst) y)) ∧
    (x.engineRests → exec (.wSctl inst (Config.params.odd inst) v) s = .next (s.put inst (afterTail y)))

/-- A write of SCTL with bit 7 set while the engine is not idle aborts everything, in every state in which no run of
the engine is under way (R115): it releases the Controller's own lines and data, what it leaves of the Controller, and
what it does not touch. Where no RST edge is to be recorded, it raises no flag, whatever the participants do: the guard
is held while the lines fall, as the model reads R115 (log 23). -/
def Obligations.SctlWriteAborts : Prop :=
  ∀ (inst : InstId) (v : Byte) (s : State),
    let x := s.get inst
    let c := x.ctrl
    c.busy = false → v.getLsbD 7 = true → (c.state ≠ .idle ∨ c.pending ≠ none) →
    ∃ t, exec (.wSctl inst (Config.params.odd inst) v) s = .next t ∧
      let d := (t.get inst).ctrl
      d.sctl = v ∧ d.scmd = c.scmd &&& ~~~0x10 ∧ d.state = .idle ∧ d.pending = none ∧ d.selTimer = none ∧
      d.connected = false ∧ d.atnQueued = false ∧ d.xferTerm = false ∧ d.xferDma = false ∧ d.serr = 0 ∧
      d.fifo.count = 0 ∧ d.diagSig = 0 ∧ (t.get inst).bus.sig[7] = 0 ∧ (t.get inst).bus.dat[7] = 0 ∧
      d.bdid = c.bdid ∧ d.pctl = c.pctl ∧ d.sdgc = c.sdgc ∧ d.dreg = c.dreg ∧ d.tc = c.tc ∧ d.temp = c.temp ∧
      (x.bus.combined → (has x.bus.ctl sigRST = true → c.rstSeen = true) → d.ints = c.ints)

/-- Accesses that select no register: the wrong polarity of any register, and indices 3 and 15 at either offset: reads
give 0xFF, writes are ignored, and not even the tail runs (R43; log 3). -/
def Obligations.NoRegisterSelected : Prop :=
  ∀ (inst : InstId) (s : State) (i : Instr) (v : Byte),
    let o := !Config.params.odd inst
    let x := beginEvent (s.get inst)
    ((i ∈ [Instr.rBdid inst o, .rSctl inst o, .rScmd inst o, .rInts inst o, .rPsns inst o, .rSsts inst o, .rSerr inst o,
        .rPctl inst o, .rMbc inst o, .rDreg inst o, .rTemp inst o, .rTch inst o, .rTcm inst o, .rTcl inst o] ∨
      (∃ odd, i = .rwIndex3 inst odd .read ∨ i = .rwIndex15 inst odd .read) ∨
      ∃ index, i = .rwWrongPolarity inst index .read) →
      exec i s = .next (s.put inst { x with ret := .byte 0xFF })) ∧
    ((i ∈ [Instr.wBdid inst o v, .wSctl inst o v, .wScmd inst o v, .wInts inst o v, .wSdgc inst o v, .wSsts inst o v,
        .wSerr inst o v, .wPctl inst o v, .wMbc inst o v, .wDreg inst o v, .wTemp inst o v, .wTch inst o v,
        .wTcm inst o v, .wTcl inst o v] ∨
      (∃ odd, i = .rwIndex3 inst odd (.write v) ∨ i = .rwIndex15 inst odd (.write v)) ∨
      ∃ index, i = .rwWrongPolarity inst index (.write v)) →
      exec i s = .next (s.put inst x))

/-- The ROM region (R46): reads give its bytes, writes are ignored; beyond its end 0xFF, the model's choice (log 14). -/
def Obligations.RomRegion : Prop :=
  ∀ (inst : InstId) (off : BitVec 32) (v : Byte) (s : State),
    let x := beginEvent (s.get inst)
    32 ≤ off.toNat →
    (∃ b, exec (.rRom inst off) s = .next (s.put inst { x with ret := .byte b }) ∧
      (off.toNat - 32 < Config.params.romSize inst → b = Config.params.romByte inst (off.toNat - 32)) ∧
      (Config.params.romSize inst ≤ off.toNat - 32 → b = 0xFF)) ∧
    exec (.wRom inst off v) s = .next (s.put inst x)

/-! ### Controller commands -/

/-- A write of SCMD completes in every state, with every byte: SCMD holds the byte, whatever the participants do meanwhile,
and "no command faults" (R116, R150). It is the command that its bits 7:5 name (R66; log 12); while SCTL bit 7 is set it
only drives RST-out before the common tail (R118). -/
def Obligations.ScmdWriteIsItsCommand : Prop :=
  ∀ (inst : InstId) (v : Byte) (s : State),
    let x := beginEvent (s.get inst)
    let e := envOf inst
    (∃ t, exec (.wScmd inst (Config.params.odd inst) v) s = .next t ∧ (t.get inst).ctrl.scmd = v ∧
      t.get (otherInst inst) = s.get (otherInst inst)) ∧
    exec (.wScmd inst (Config.params.odd inst) v) s = exec (scmdOf inst v) s ∧
    (∀ low i code, v = code ++ low →
      (i, code) ∈ [(Instr.scmdBusRelease inst low, 0#3), (.scmdSelect inst low, 1#3), (.scmdResetAtn inst low, 2#3),
        (.scmdSetAtn inst low, 3#3), (.scmdTransfer inst low, 4#3), (.scmdTransferPause inst low, 5#3),
        (.scmdResetAckreq inst low, 6#3), (.scmdSetAckreq inst low, 7#3)] → scmdOf inst v = i) ∧
    (x.ctrl.sctl.getLsbD 7 = true →
      exec (.wScmd inst (Config.params.odd inst) v) s = .next (s.put inst (commonTail e
        (drive (notify e) (if v.getLsbD 4 then sigRST else 0) sigRST { x with ctrl := { x.ctrl with scmd := v } }))))

/-- While SCTL bit 7 is set a command is stored and RST-out driven, and it is not executed (R116, R118, R160): in every
state, whatever the participants make of RST; and in closed form at a calm instance. -/
def Obligations.DisabledCommandsAreStored : Prop :=
  ∀ (inst : InstId) (low : BitVec 5) (s : State) (i : Instr) (code : BitVec 3),
    let x := beginEvent (s.get inst)
    let e := envOf inst
    x.ctrl.sctl.getLsbD 7 = true →
    (i, code) ∈ [(Instr.scmdBusRelease inst low, 0#3), (.scmdSelect inst low, 1#3), (.scmdResetAtn inst low, 2#3),
      (.scmdSetAtn inst low, 3#3), (.scmdTransfer inst low, 4#3), (.scmdTransferPause inst low, 5#3),
      (.scmdResetAckreq inst low, 6#3), (.scmdSetAckreq inst low, 7#3)] →
    exec i s = .next (s.put inst (commonTail e (drive (notify e) (if low.getLsbD 4 then sigRST else 0) sigRST
      { x with ctrl := { x.ctrl with scmd := code ++ low } }))) ∧
    (x.calm → exec i s = .next (s.put inst (afterTail (afterScmd (code ++ low) x))))

/-- The six commands that drive lines or do nothing: BUS_RELEASE, RESET_ATN, SET_ATN, TRANSFER_PAUSE, RESET_ACKREQ and
SET_ACKREQ (R116, R152, R154, R155, R157 to R159). In every state: what an accepted one drives, before the common tail;
RESET_ATN and TRANSFER_PAUSE in every state are in BusyEngineIgnoresCommands. With any participants at an idle engine,
normal mode, where bit 4 leaves RST as it is: an accepted SET_ACKREQ, RESET_ACKREQ or BUS_RELEASE changes the own lines as
it says (vector K10), and whatever the Targets then do, the Controller keeps everything else, but that R206 may record a
disconnect that is due. At a calm instance: in closed form, with RST-out for every value of bit 4. That the guard is held
while BUS_RELEASE lets the lines fall is the model's reading of R152 (log 23). -/
def Obligations.LineCommands : Prop :=
  ∀ (inst : InstId) (low : BitVec 5) (s : State),
    let x := beginEvent (s.get inst)
    let c := x.ctrl
    let e := envOf inst
    let own := sigBSY ||| sigSEL ||| sigATN ||| sigACK
    let y (code : BitVec 3) := afterRstOut e code low x
    c.sctl.getLsbD 7 = false →
    ((y 0).ctrl.state = .idle →
      let z := driveData 0 (guarded (drive (notify e) 0 own) (y 0))
      exec (.scmdBusRelease inst low) s =
        .next (s.put inst (commonTail e { z with ctrl := { z.ctrl with atnQueued := false } }))) ∧
    (let z := { y 3 with ctrl := { (y 3).ctrl with atnQueued := true } }
     exec (.scmdSetAtn inst low) s =
       .next (s.put inst (commonTail e (if z.ctrl.connected then drive (notify e) sigATN sigATN z else z)))) ∧
    ((y 6).ctrl.engineFree = true →
      exec (.scmdResetAckreq inst low) s = .next (s.put inst (commonTail e (drive (notify e) 0 sigACK (y 6))))) ∧
    ((y 7).ctrl.engineFree = true →
      exec (.scmdSetAckreq inst low) s = .next (s.put inst (commonTail e (drive (notify e) sigACK sigACK (y 7))))) ∧
    (x.bus.combined → (has x.bus.ctl sigRST = true → c.rstSeen = true) → c.busy = false → c.state = .idle →
      c.pending = none → c.sctl.getLsbD 5 = false →
      x.bus.sig[7] &&& sigRST = (if low.getLsbD 4 then sigRST else 0) →
      ∀ i code sig dat atn,
        (i, code, sig, dat, atn) ∈
          [(Instr.scmdBusRelease inst low, 0#3, x.bus.sig[7] &&& ~~~own, (0 : Byte), false),
           (.scmdResetAckreq inst low, 6#3, x.bus.sig[7] &&& ~~~sigACK, x.bus.dat[7], c.atnQueued),
           (.scmdSetAckreq inst low, 7#3, x.bus.sig[7] ||| sigACK, x.bus.dat[7], c.atnQueued)] →
        ∃ t, exec i s = .next t ∧
          let d := (t.get inst).ctrl
          (t.get inst).bus.sig[7] = sig ∧ (t.get inst).bus.dat[7] = dat ∧ (t.get inst).bus.combined ∧
          d = { c with scmd := code ++ low, atnQueued := atn, connected := d.connected, ints := d.ints,
                       bfTimer := d.bfTimer, rstSeen := d.rstSeen, irqLine := d.irqLine, drqLine := d.drqLine,
                       renotify := false } ∧
          ((d.connected = c.connected ∧ d.ints = c.ints) ∨
           (c.connected = true ∧ Config.params.busFreeCycles ≤ c.bfTimer ∧ d.connected = false ∧
             d.ints = if c.pctl.getLsbD 7 then c.ints ||| 0x20 else c.ints))) ∧
    (x.calm →
      (let y := afterDrive 0 own (afterScmd (0#3 ++ low) x)
       exec (.scmdBusRelease inst low) s = .next (s.put inst (afterTail
         { y with
           bus := { y.bus with dat := y.bus.dat.set 7 0, ctl := orCtl y.bus.sig, data := orData (y.bus.dat.set 7 0) }
           ctrl := { y.ctrl with atnQueued := false } }))) ∧
      (let y := afterScmd (2#3 ++ low) x
       exec (.scmdResetAtn inst low) s =
         .next (s.put inst (afterTail (afterDrive 0 sigATN { y with ctrl := { y.ctrl with atnQueued := false } })))) ∧
      (let y := afterScmd (3#3 ++ low) x
       exec (.scmdSetAtn inst low) s =
         .next (s.put inst (afterTail { y with ctrl := { y.ctrl with atnQueued := true } }))) ∧
      exec (.scmdTransferPause inst low) s = .next (s.put inst (afterTail (afterScmd (5#3 ++ low) x))) ∧
      exec (.scmdResetAckreq inst low) s =
        .next (s.put inst (afterTail (afterDrive 0 sigACK (afterScmd (6#3 ++ low) x)))) ∧
      exec (.scmdSetAckreq inst low) s =
        .next (s.put inst (afterTail (afterDrive sigACK sigACK (afterScmd (7#3 ++ low) x)))))

/-- SET_ATN of a connected Controller asserts ATN (R155, vector K5). In normal mode it does so on the bus, and whatever the
Targets then do, the Controller keeps everything else, but that R206 may record a disconnect that is due; where its bit 4
leaves RST as it is. In diagnostic mode it does so in the shadow, and the bus does not take part (R112). -/
def Obligations.SetAtnWhenConnected : Prop :=
  ∀ (inst : InstId) (low : BitVec 5) (s : State),
    let x := beginEvent (s.get inst)
    let c := x.ctrl
    x.engineRests → c.connected = true → c.sctl.getLsbD 7 = false →
    (c.sctl.getLsbD 5 = false → x.bus.combined → (has x.bus.ctl sigRST = true → c.rstSeen = true) →
      x.bus.sig[7] &&& sigRST = (if low.getLsbD 4 then sigRST else 0) →
      ∃ t, exec (.scmdSetAtn inst low) s = .next t ∧
        let d := (t.get inst).ctrl
        (t.get inst).bus.sig[7] = x.bus.sig[7] ||| sigATN ∧ has (t.get inst).bus.ctl sigATN = true ∧
        (t.get inst).bus.dat[7] = x.bus.dat[7] ∧
        d = { c with scmd := 3#3 ++ low, atnQueued := true, connected := d.connected, ints := d.ints,
                     bfTimer := d.bfTimer, rstSeen := d.rstSeen, irqLine := d.irqLine, drqLine := d.drqLine,
                     renotify := false } ∧
        ((d.connected = true ∧ d.ints = c.ints) ∨
         (c.pending = none ∧ Config.params.busFreeCycles ≤ c.bfTimer ∧ d.connected = false ∧
           d.ints = if c.pctl.getLsbD 7 then c.ints ||| 0x20 else c.ints))) ∧
    (c.sctl.getLsbD 5 = true →
      exec (.scmdSetAtn inst low) s = .next (s.put inst (afterTail
        { x with ctrl := { c with
            scmd := 3#3 ++ low
            atnQueued := true
            diagSig := ((c.diagSig &&& ~~~sigRST) ||| (if low.getLsbD 4 then sigRST else 0)) ||| sigATN } })))

/-- BUS_RELEASE cancels a selection, in each of its states (R152, R172). In normal mode it takes the own BSY, SEL, ATN and
ACK and the own data off the bus, whatever the participants do, where its bit 4 leaves RST as it is; where no RST edge is
to be recorded, no flag is set and nothing else of the transfer changes: the guard is held while the lines fall, as the
model reads R152 (log 23). In diagnostic mode it releases them in the shadow. -/
def Obligations.BusReleaseCancelsSelection : Prop :=
  ∀ (inst : InstId) (low : BitVec 5) (s : State),
    let x := beginEvent (s.get inst)
    let c := x.ctrl
    c.busy = false → c.state.famSel = true → c.sctl.getLsbD 7 = false →
    (c.sctl.getLsbD 5 = false → x.bus.combined → x.bus.sig[7] &&& sigRST = (if low.getLsbD 4 then sigRST else 0) →
      ∃ t, exec (.scmdBusRelease inst low) s = .next t ∧
        let d := (t.get inst).ctrl
        d.scmd = 0#3 ++ low ∧ d.state = .idle ∧ d.pending = none ∧ d.selTimer = none ∧ d.atnQueued = false ∧
        (t.get inst).bus.sig[7] = x.bus.sig[7] &&& ~~~(sigBSY ||| sigSEL ||| sigATN ||| sigACK) ∧
        (t.get inst).bus.dat[7] = 0 ∧ c.ints &&& ~~~d.ints = 0 ∧ d.tc = c.tc ∧ d.temp = c.temp ∧
        ((has x.bus.ctl sigRST = true → c.rstSeen = true) →
          d.ints = c.ints ∧ d.connected = c.connected ∧ d.fifo = c.fifo)) ∧
    (c.sctl.getLsbD 5 = true →
      exec (.scmdBusRelease inst low) s = .next (s.put inst (afterTail
        { x with
          bus := { x.bus with dat := x.bus.dat.set 7 0, ctl := orCtl x.bus.sig, data := orData (x.bus.dat.set 7 0) }
          ctrl := { c with
            scmd := 0#3 ++ low
            diagSig := ((c.diagSig &&& ~~~sigRST) ||| (if low.getLsbD 4 then sigRST else 0)) &&&
              ~~~(sigBSY ||| sigSEL ||| sigATN ||| sigACK)
            state := .idle
            pending := none
            selTimer := none
            atnQueued := false } })))

/-- An accepted SELECT, with any participants on the bus (R153): the engine enters the first state of an arbitration
or a selection and the overrun flag is cleared; in every state, then the common tail. In closed form: on a bus that is
not free, or not free for long enough yet, it waits there; on a bus free for the bus-free time, the ordinary case, it
parks towards the next state, unless that delay is within the budget (R172, R180, R185, R211). What RST-out leaves of
a calm instance is closed too (R116). -/
def Obligations.SelectStarts : Prop :=
  ∀ (inst : InstId) (low : BitVec 5) (s : State),
    let x := beginEvent (s.get inst)
    let c := x.ctrl
    let e := envOf inst
    let arbitrates := c.sctl.getLsbD 4
    let y := afterRstOut e 1#3 low x
    let d : Controller :=
      { y.ctrl with serr := 0, state := if arbitrates then .arbWaitFree else .selWaitFree }
    let ready := y.bus.ctl &&& (sigBSY ||| sigSEL) = 0 ∧ Config.params.busFreeCycles ≤ y.ctrl.bfTimer
    let delay := if arbitrates then Config.params.dArbFree else Config.params.dSelFree
    c.sctl.getLsbD 7 = false →
    (x.calm → y = afterScmd (1#3 ++ low) x ∧ y.ctrl.engineFree = true) ∧
    (y.ctrl.engineFree = true →
      exec (.scmdSelect inst low) s = .next (s.put inst (commonTail e { y with ctrl := d })) ∧
      (c.busy = false → ¬ready →
        exec (.scmdSelect inst low) s = .next (s.put inst (afterTail { y with ctrl := d }))) ∧
      (c.busy = false → ready →
        exec (.scmdSelect inst low) s = .next (s.put inst (
          if y.ctrl.budget < delay then afterTail
            { y with ctrl := { d with
                pending := some (if arbitrates then .arbAssertBsy else .selAssertId, delay - y.ctrl.budget)
                budget := 0 } }
          else commonTail e { y with ctrl := d }))))

/-- An accepted TRANSFER of nothing, with any participants on the bus: with a zero count, no termination mode and an empty
FIFO it completes at once (R156, R204). -/
def Obligations.TransferOfNothingCompletes : Prop :=
  ∀ (inst : InstId) (low : BitVec 5) (s : State),
    let x := beginEvent (s.get inst)
    let y := afterRstOut (envOf inst) 4#3 low x
    let c := y.ctrl
    x.ctrl.sctl.getLsbD 7 = false →
    (x.calm → y = afterScmd (4#3 ++ low) x ∧ c.engineFree = true) ∧
    (x.ctrl.busy = false → c.engineFree = true → c.tc = 0 → low.getLsbD 0 = false → c.fifo.count = 0 →
      exec (.scmdTransfer inst low) s = .next (s.put inst (afterTail
        { y with
          bus := { y.bus with dat := y.bus.dat.set 7 0, ctl := orCtl y.bus.sig, data := orData (y.bus.dat.set 7 0) }
          ctrl := { c with
            serr := 0
            xferPhase := c.pctl.extractLsb' 0 3
            xferIn := c.pctl.getLsbD 0
            xferDma := false
            xferTerm := false
            ints := c.ints ||| 0x10 } })))

/-- An accepted TRANSFER, with any participants on the bus, the Target it talks to among them (R156): in every state it
latches its operands, then the common tail. In closed form for something to transfer, where BSY is sensed with the
expected phase: it waits for REQ, or, with REQ up, parks towards the first byte, unless that delay is within the
budget (R172, R195). -/
def Obligations.TransferLatchesAndWaits : Prop :=
  ∀ (inst : InstId) (low : BitVec 5) (s : State),
    let x := beginEvent (s.get inst)
    let e := envOf inst
    let y := afterRstOut e 4#3 low x
    let c := y.ctrl
    let d : Controller :=
      { c with
        serr := 0
        xferPhase := c.pctl.extractLsb' 0 3
        xferIn := c.pctl.getLsbD 0
        xferDma := !low.getLsbD 2
        xferTerm := low.getLsbD 0
        state := if c.tc = 0 ∧ low.getLsbD 0 = false then .xferWaitFifoEmpty else .xferWaitReq }
    x.ctrl.sctl.getLsbD 7 = false →
    (x.calm → y = afterScmd (4#3 ++ low) x ∧ c.engineFree = true) ∧
    (c.engineFree = true →
      exec (.scmdTransfer inst low) s = .next (s.put inst (commonTail e { y with ctrl := d })) ∧
      (x.ctrl.busy = false → (c.tc ≠ 0 ∨ low.getLsbD 0 = true) →
        has (sense y) sigBSY = true → phaseOf (sense y) = c.pctl.extractLsb' 0 3 →
        (has (sense y) sigREQ = false →
          exec (.scmdTransfer inst low) s =
            .next (s.put inst (afterTail { y with ctrl := { d with state := .xferWaitReq } }))) ∧
        (has (sense y) sigREQ = true →
          exec (.scmdTransfer inst low) s = .next (s.put inst (
            if c.budget < Config.params.dHs then afterTail
              { y with ctrl := { d with
                  state := .xferWaitReq
                  pending := some (if c.pctl.getLsbD 0 then .xferRecvData else .xferSendData,
                                   Config.params.dHs - c.budget)
                  budget := 0 } }
            else commonTail e { y with ctrl := d })))))

/-- An accepted TRANSFER with no BSY sensed ends in DISCONNECT, with another phase in SR, whatever participants are on the
bus, in normal and in diagnostic mode, where the Controller holds no ACK on the bus; the bytes of a send are discarded,
the counter keeps what was not moved (R156, R195 to R197). That the reserved phases 4 and 5 end so too, without BSY and
before REQ, is how the model reads R78 and I12 beside R195 (log 26). -/
def Obligations.TransferAborts : Prop :=
  ∀ (inst : InstId) (low : BitVec 5) (s : State) (flag : Byte),
    let x := beginEvent (s.get inst)
    let y := afterRstOut (envOf inst) 4#3 low x
    let c := y.ctrl
    let dm := x.ctrl.sctl.getLsbD 5
    x.ctrl.sctl.getLsbD 7 = false →
    (x.calm → y = afterScmd (4#3 ++ low) x ∧ c.engineFree = true) ∧
    (x.ctrl.busy = false → c.engineFree = true → (c.tc ≠ 0 ∨ low.getLsbD 0 = true) →
      (dm = false → y.bus.sig[7] &&& sigACK = 0) →
      ((has (sense y) sigBSY = false ∧ flag = 0x20) ∨
       (has (sense y) sigBSY = true ∧ phaseOf (sense y) ≠ c.pctl.extractLsb' 0 3 ∧ flag = 0x08)) →
      exec (.scmdTransfer inst low) s = .next (s.put inst (afterTail
        { y with
          bus := { y.bus with dat := y.bus.dat.set 7 0, ctl := orCtl y.bus.sig, data := orData (y.bus.dat.set 7 0) }
          ctrl := { c with
            serr := 0
            xferPhase := c.pctl.extractLsb' 0 3
            xferIn := c.pctl.getLsbD 0
            xferDma := false
            xferTerm := false
            connected := if flag = 0x20 then false else c.connected
            diagSig := if dm then c.diagSig &&& ~~~sigACK else c.diagSig
            fifo := if c.pctl.getLsbD 0 then c.fifo else { c.fifo with head := 0, tail := 0, count := 0 }
            ints := c.ints ||| flag } })))

/-- What the commands make of an engine that is not free, waiting or parked, in every state and whatever the participants
make of RST-out, which bit 4 drives (R116): SELECT, TRANSFER, RESET_ACKREQ and SET_ACKREQ are stored and lost (R153,
R156, R158 to R160), so is BUS_RELEASE in the transfer family (R152), and TRANSFER_PAUSE has no function in any state
(R157), while RESET_ATN is accepted in every state (R154). Where bit 4 leaves RST as it is, driving it does nothing; and
at a parked engine there is a closed form. Where bit 4 raises RST, the Controller takes it before the command is looked at
(R116, R207, R322, vector F22): `RstTaken` says that RC is latched and what was in progress or connected has ended, its
lines and data released; TRANSFER_PAUSE then leaves it so. That no other flag comes of it is the model's reading of R207:
the guard is held while the lines fall (log 23). -/
def Obligations.BusyEngineIgnoresCommands : Prop :=
  ∀ (inst : InstId) (low : BitVec 5) (s : State) (i : Instr) (code : BitVec 3),
    let x := beginEvent (s.get inst)
    let c := x.ctrl
    let e := envOf inst
    let stored (code : BitVec 3) : Instance := { x with ctrl := { c with scmd := code ++ low } }
    let driven (code : BitVec 3) : Instance :=
      drive (notify e) (if low.getLsbD 4 then sigRST else 0) sigRST (stored code)
    let rstStays : Prop :=
      x.bus.combined ∧ c.sctl.getLsbD 5 = false ∧ x.bus.sig[7] &&& sigRST = (if low.getLsbD 4 then sigRST else 0)
    c.sctl.getLsbD 7 = false →
    ((i, code) ∈ [(Instr.scmdSelect inst low, 1#3), (.scmdTransfer inst low, 4#3), (.scmdResetAckreq inst low, 6#3),
      (.scmdSetAckreq inst low, 7#3)] →
      ((driven code).ctrl.engineFree = false → exec i s = .next (s.put inst (commonTail e (driven code)))) ∧
      (rstStays → c.busy = false → c.pending ≠ none → exec i s = .next (s.put inst (afterTail (stored code))))) ∧
    ((driven 0#3).ctrl.state.famXfer = true →
      exec (.scmdBusRelease inst low) s = .next (s.put inst (commonTail e (driven 0#3)))) ∧
    exec (.scmdTransferPause inst low) s = .next (s.put inst (commonTail e (driven 5#3))) ∧
    exec (.scmdResetAtn inst low) s = .next (s.put inst (commonTail e (drive (notify e) 0 sigATN
      { driven 2#3 with ctrl := { (driven 2#3).ctrl with atnQueued := false } }))) ∧
    (rstStays → ∀ code, driven code = stored code) ∧
    (x.bus.cb = .controller → c.sctl.getLsbD 5 = false → low.getLsbD 4 = true → has x.bus.ctl sigRST = false →
      c.rstSeen = false →
      let sig := x.bus.sig.set 7 (x.bus.sig[7] ||| sigRST)
      (∀ code, RstTaken ((stored code).onBus { x.bus with sig := sig, ctl := orCtl sig, data := orData x.bus.dat })
        (driven code)) ∧
      (c.busy = false → exec (.scmdTransferPause inst low) s = .next (s.put inst (afterTail (driven 5#3)))))

/-! ### Bus operations -/

/-- R96: `set_data` replaces one contribution and recombines, and notifies nobody. -/
def Obligations.BusSetDataNeverNotifies : Prop :=
  ∀ (inst : InstId) (id : Fin 8) (v : Byte) (s : State),
    let x := beginEvent (s.get inst)
    exec (.busSetData inst id v) s = .next (s.put inst
      { x with bus := { x.bus with
          dat := x.bus.dat.set id v
          ctl := orCtl x.bus.sig
          data := orData (x.bus.dat.set id v) } }) ∧
    (x.bus.combined → orCtl x.bus.sig = x.bus.ctl)

/-- `set_control` merges the masked bits into one contribution and recombines; where the combined word stays, nobody is
notified, in any state (R91, R95). A changed word is notified to the callback and then to the slots in ascending order
(R91; nested notifications bounded: log 9), the callback being its four steps (R175), and the lines follow at the end of
the event (log 19). What comes of it, with any participants, is `Notified`: where RST rises, `RstTaken`, whatever the
engine was doing: RC is latched, and what was in progress or connected ends, the own lines and data released (R207, R322,
vector F22). That no other flag comes of it is the model's reading of R207: the guard is held while the lines fall (log
23). Where no RST edge comes with it, an idle Controller is left as `IdleNotified` says: a disconnect is recorded where it
is due (R206), and a parked one is undisturbed. Every Target stays on its slot, and a slot whose lines no Target drives
(log 21) has the merged contribution and its data (R95). At a calm instance: in closed form. -/
def Obligations.BusSetControlMerges : Prop :=
  ∀ (inst : InstId) (id : Fin 8) (value mask : Ctl) (s : State),
    let x := beginEvent (s.get inst)
    let sig := x.bus.sig.set id ((x.bus.sig[id] &&& ~~~mask) ||| (value &&& mask))
    let b := { x.bus with sig := sig, ctl := orCtl sig, data := orData x.bus.dat }
    let e := envOf inst
    let n := notifyTo e 31
    let y := [0, 1, 2, 3, 4, 5, 6].foldl (fun z k => targetHandler e n k z)
      (runEngine e n (checkDisconnect e (checkRst n (x.onBus b))))
    (orCtl sig = x.bus.ctl → exec (.busSetControl inst id value mask) s = .next (s.put inst { x with bus := b })) ∧
    (orCtl sig ≠ x.bus.ctl → x.bus.cb = .controller →
      exec (.busSetControl inst id value mask) s = .next (s.put inst (updateLines y)) ∧
      Notified Config.params (x.onBus b) y ∧
      (∀ k : Fin 7, x.undriven k →
        y.bus.sig[slotAddr k] = sig[slotAddr k] ∧ y.bus.dat[slotAddr k] = x.bus.dat[slotAddr k])) ∧
    (x.calm → exec (.busSetControl inst id value mask) s = .next (s.put inst (afterBusEvent x b)))

/-- R97, R98: the three reads of the Bus return the combined words, each participant's own contribution in them, and the
free test, and change no state. -/
def Obligations.BusReadsCombined : Prop :=
  ∀ (inst : InstId) (s : State),
    let x := beginEvent (s.get inst)
    exec (.busGetControl inst) s = .next (s.put inst { x with ret := .word x.bus.ctl }) ∧
    exec (.busGetData inst) s = .next (s.put inst { x with ret := .byte x.bus.data }) ∧
    ∃ b, exec (.busIsBusFree inst) s = .next (s.put inst { x with ret := .flag b }) ∧
      (b = true ↔ x.bus.ctl &&& (sigBSY ||| sigSEL) = 0) ∧
    (x.bus.combined → ∀ k : Fin 8, x.bus.sig[k] &&& ~~~x.bus.ctl = 0 ∧ x.bus.dat[k] &&& ~~~x.bus.data = 0)

/-- `attach` puts a Target "created empty" on its slot (R17, R93, R321) with the image that the environment opens (R18); the
image bytes of an occupant it replaces persist (R323): where the slot drives no line, in any state. Where the word changes,
with any Controller and any other Targets: what the notification of the new bus makes of it (`Notified`: R91, R175, and the
disconnect of R206 where it is due), the new Target stands on its slot, and the images that were kept are kept. Where
nobody then drives SEL and no RST rises, and the engine does not run, the record is untouched and its slot drives nothing,
whatever the others do, if they drive their own slots (log 21). And in closed form at a calm Controller with no other
Target.
That the ready flag and the image are operands of the attach, that an image is given by its bytes or named by its place
among the closed ones, and that a place without an image gives a Target without one, is the model's choice (log 15). -/
def Obligations.AttachCreatesTarget : Prop :=
  ∀ (inst : InstId) (id : Fin 7) (dev : NewTarget) (s : State),
    let x := beginEvent (s.get inst)
    let found : Option Store × List Store := match dev.image with
      | none => (none, x.kept)
      | some (.given bs) => (some (Store.ofBytes bs), x.kept)
      | some (.kept i) => (x.kept[i]?, x.kept.eraseIdx i)
    let kept := found.2 ++ ((x.target? id).bind Target.image).toList
    let t : Target :=
      { tstate := .idle, cmd := Vector.replicate 16 0, cmdLen := 0, buf := [], cur := 0, total := 0, lba := 0,
        blocks := 0, senseKey := 0, senseAsc := 0, senseAscq := 0, senseLba := 0, senseLbaValid := false, status := 0,
        message := 0, image := found.1,
        geom := match found.1 with
          | none => ⟨0, 0, 0, 0, 0⟩
          | some st => Config.params.geometryOfSize st.size
        ready := dev.ready || found.1.isSome, mediaChanged := found.1.isSome, id := id, hs := .needReq,
        msgOut := false, tbusy := false, trenotify := false, serial := x.draws }
    let sig := x.bus.sig.set (slotAddr id) 0
    let dat := x.bus.dat.set (slotAddr id) 0
    let b := { x.bus with sig := sig, dat := dat, occ := x.bus.occ.set (slotAddr id) (some (.target t)),
                          ctl := orCtl sig, data := orData dat }
    (orCtl sig = x.bus.ctl →
      exec (.busAttach inst id dev) s = .next (s.put inst { x with bus := b, draws := x.draws + 1, kept := kept })) ∧
    (orCtl sig ≠ x.bus.ctl → x.bus.cb = .controller →
      let z : Instance := { x with draws := x.draws + 1, kept := kept }
      let y := notify (envOf inst) { z with bus := b }
      exec (.busAttach inst id dev) s = .next (s.put inst (updateLines y)) ∧
      Notified Config.params (z.onBus b) y ∧ y.kept = kept ∧
      (∃ u, y.target? id = some u ∧ u.id = id ∧ u.geom = t.geom ∧ u.ready = t.ready ∧
        u.mediaChanged = t.mediaChanged ∧ u.serial = x.draws ∧ u.image.map Store.size = found.1.map Store.size) ∧
      (has (orCtl sig) sigSEL = false → (has (orCtl sig) sigRST = true → x.ctrl.rstSeen = true) →
        (x.ctrl.busy = true ∨ x.ctrl.state = .idle ∨ x.ctrl.pending ≠ none) →
        (∀ j u, j ≠ id → x.target? j = some u → u.id = j) →
        y.target? id = some t ∧ y.bus.sig[slotAddr id] = 0 ∧ y.bus.dat[slotAddr id] = 0)) ∧
    (x.ctrlCalm → x.noTargetsBut id → has (orCtl sig) (sigSEL ||| sigRST) = false →
      exec (.busAttach inst id dev) s = .next (s.put inst (afterBusEvent { x with draws := x.draws + 1, kept := kept } b)))

/-- `detach` clears the slot and its contributions, and the image bytes of its Target persist (R94, R323): where the slot
drives no line, in any state; and, whatever the slot drove, at an idle Controller, connected or not. There a disconnect that
is due is recorded inside the notification of the detach, with DISCONNECT if PCTL bit 7 asks for it, and not while the
bus-free time is short (R175, R206, vector F23). Where the word changes, with any Controller and any other Targets: what
the notification of the new bus makes of it (`Notified`), the slot is empty, the image is among the kept ones, and the slot
drives nothing, if no other Target drives it (log 21). With no other Target in closed form, for an unconnected Controller
with an RST edge too. -/
def Obligations.DetachFreesSlot : Prop :=
  ∀ (inst : InstId) (id : Fin 7) (s : State),
    let x := beginEvent (s.get inst)
    let c := x.ctrl
    let kept := x.kept ++ ((x.target? id).bind Target.image).toList
    let sig := x.bus.sig.set (slotAddr id) 0
    let dat := x.bus.dat.set (slotAddr id) 0
    let b := { x.bus with sig := sig, dat := dat, occ := x.bus.occ.set (slotAddr id) none, ctl := orCtl sig,
                          data := orData dat }
    (orCtl sig = x.bus.ctl → exec (.busDetach inst id) s = .next (s.put inst { x with bus := b, kept := kept })) ∧
    (x.ctrlCalm → x.noTargetsBut id →
      exec (.busDetach inst id) s = .next (s.put inst (afterBusEvent { x with kept := kept } b))) ∧
    (orCtl sig ≠ x.bus.ctl → x.bus.cb = .controller →
      let z : Instance := { x with kept := kept }
      let y := notify (envOf inst) { z with bus := b }
      exec (.busDetach inst id) s = .next (s.put inst (updateLines y)) ∧
      Notified Config.params (z.onBus b) y ∧ y.bus.occ[slotAddr id] = none ∧ y.kept = kept ∧
      ((∀ j u, j ≠ id → x.target? j = some u → u.id ≠ id) →
        y.bus.sig[slotAddr id] = 0 ∧ y.bus.dat[slotAddr id] = 0) ∧
      (c.state = .idle → c.pending = none → (has (orCtl sig) sigRST = true → c.rstSeen = true) →
        c.busy = false → x.noTargetsBut id →
        let due : Prop :=
          c.connected = true ∧ orCtl sig &&& (sigBSY ||| sigSEL) = 0 ∧ Config.params.busFreeCycles ≤ c.bfTimer
        let d : Controller :=
          { c with rstSeen := has (orCtl sig) sigRST
                   bfTimer := if orCtl sig &&& (sigBSY ||| sigSEL) = 0 then c.bfTimer else 0 }
        (due → exec (.busDetach inst id) s = .next (s.put inst (afterTail { x with bus := b, kept := kept, ctrl :=
          { d with connected := false, ints := if c.pctl.getLsbD 7 then c.ints ||| 0x20 else c.ints } }))) ∧
        (¬due → exec (.busDetach inst id) s =
          .next (s.put inst (afterTail { x with bus := b, kept := kept, ctrl := d })))))

/-! ### Environment and ticks -/

/-- Opening an image on a Target gives it the store, a geometry within it, and the two flags: the bytes that the
environment gives, or an image kept from before with the bytes that it had when it was closed (R18, R50, R323). Closing
takes away the image and the ready flag and nothing else, in mid-command too, and the bytes persist among the kept ones
(R18, R234, R323). On a slot without a Target, and for an image that is not there, nothing happens, the model's choice
(log 15). -/
def Obligations.ImageOpenAndClose : Prop :=
  ∀ (inst : InstId) (id : Fin 7) (content : List Byte) (i : Nat) (s : State),
    let x := beginEvent (s.get inst)
    (x.target? id = none →
      (∀ src, exec (.envOpenImage inst id src) s = .next (s.put inst x)) ∧
      exec (.envCloseImage inst id) s = .next (s.put inst x)) ∧
    (∀ t, x.target? id = some t →
      let opened (g : Geometry) (st : Store) (kept : List Store) : Instance :=
        { x with kept := kept ++ t.image.toList }.withTarget id
          { t with image := some st, geom := g, ready := true, mediaChanged := true }
      (∃ st g, exec (.envOpenImage inst id (.given content)) s = .next (s.put inst (opened g st x.kept)) ∧
        st.size = content.length ∧ (∀ a, st.readByte a = content.getD a 0) ∧
        0 < g.bps ∧ g.totalSectors * g.bps ≤ content.length) ∧
      (∀ st, x.kept[i]? = some st →
        ∃ g, exec (.envOpenImage inst id (.kept i)) s = .next (s.put inst (opened g st (x.kept.eraseIdx i))) ∧
          0 < g.bps ∧ g.totalSectors * g.bps ≤ st.size) ∧
      (x.kept[i]? = none → exec (.envOpenImage inst id (.kept i)) s = .next (s.put inst x)) ∧
      exec (.envCloseImage inst id) s = .next (s.put inst
        ({ x with kept := x.kept ++ t.image.toList }.withTarget id { t with image := none, ready := false })))

/-- A tick at an idle, unconnected Controller only advances the bus-free timer, which saturates (R210, R211). -/
def Obligations.TickAdvancesBusFreeTimer : Prop :=
  ∀ (inst : InstId) (n : Nat) (s : State),
    let x := beginEvent (s.get inst)
    let c := x.ctrl
    c.busy = false → c.state = .idle → c.pending = none → c.connected = false → c.selTimer = none →
    exec (.tick inst n) s = .next (s.put inst (afterTail
      { x with ctrl := { c with
          budget := 0
          bfTimer := if x.bus.ctl &&& (sigBSY ||| sigSEL) = 0 then min (c.bfTimer + n) Config.params.busFreeCycles
                     else 0 } }))

/-- What a tick does to the engine. In every state it is the three steps of R210 in their order, then the checks and the
common tail: the pending transition, paid out of the budget if it is due, with the run of the engine behind it; the
selection timer, if it was armed before; the bus-free timer. What a run of the engine is, EngineSteps says (R174). That
the guard of R174 is held while a selection timeout lets the own lines fall (`guarded`, in every state) is the model's
reading of R190 (log 23). In closed form, with the timer short of its limit, so that a timeout never comes early (R190): a
pending transition that is not due is only shortened; a wait in SEL_WAIT_BSY, or the transition into it, with no answer
sensed only advances the timers (R188, vector F11); a transition into SEL_ASSERT_ID puts the IDs on the bus and, the
budget being short of its delay, parks towards SEL (R172, R186, vector F9). And a transition into SEL_ASSERT_SEL, with no
timer armed, asserts SEL and arms the timer, which this tick does not advance, whatever the Targets then do, and parks if
the budget is short of its delay (R187, vector F10). -/
def Obligations.TickRunsEngine : Prop :=
  ∀ (inst : InstId) (n : Nat) (s : State),
    let x := beginEvent (s.get inst)
    let c := x.ctrl
    let e := envOf inst
    let paid : Instance := match c.pending with
      | some (u, r) =>
        if r ≤ n then runEngine e (notify e) { x with ctrl := { c with budget := n - r, pending := none, state := u } }
        else { x with ctrl := { c with pending := some (u, r - n) } }
      | none => runEngine e (notify e) { x with ctrl := { c with budget := n } }
    let y : Instance := { paid with ctrl := { paid.ctrl with budget := 0 } }
    let released := driveData 0 (guarded (drive (notify e) 0 (sigBSY ||| sigSEL ||| sigATN ||| sigACK)) y)
    let timed : Instance := match c.selTimer, y.ctrl.selTimer with
      | some _, some (el, l) =>
        if l ≤ el + n then
          { released with ctrl := { released.ctrl with
              ints := released.ctrl.ints ||| 0x04, state := .idle, pending := none, selTimer := none
              atnQueued := false } }
        else { y with ctrl := { y.ctrl with selTimer := some (el + n, l) } }
      | _, _ => y
    let advanced (b : Bus) (t : Nat) : Nat :=
      if b.ctl &&& (sigBSY ||| sigSEL) = 0 then min (t + n) Config.params.busFreeCycles else 0
    let z : Instance := { timed with ctrl := { timed.ctrl with bfTimer := advanced timed.bus timed.ctrl.bfTimer } }
    let leaves : Bool := z.ctrl.connected && z.ctrl.state == .idle && z.ctrl.pending == none &&
      z.bus.ctl &&& (sigBSY ||| sigSEL) == 0 && Config.params.busFreeCycles ≤ z.ctrl.bfTimer
    let gone : Instance := { z with ctrl := { z.ctrl with
      connected := false, ints := if z.ctrl.pctl.getLsbD 7 then z.ctrl.ints ||| 0x20 else z.ctrl.ints } }
    let timers : Controller :=
      { c with budget := 0, selTimer := c.selTimer.map fun p => (p.1 + n, p.2), bfTimer := advanced x.bus c.bfTimer }
    let unanswered : Prop :=
      has (sense x) sigBSY = false ∨ has (sense x) (sigREQ ||| sigMSG ||| sigCD ||| sigIO) = true
    let whole := commonTail e (if leaves then gone else z)
    exec (.tick inst n) s = .next (s.put inst whole) ∧
    (c.busy = false → (∀ el l, c.selTimer = some (el, l) → el + n < l) →
      (∀ u r, c.pending = some (u, r) → n < r →
        exec (.tick inst n) s =
          .next (s.put inst (afterTail { x with ctrl := { timers with pending := some (u, r - n) } }))) ∧
      (((c.state = .selWaitBsy ∧ c.pending = none) ∨ ∃ r, c.pending = some (.selWaitBsy, r) ∧ r ≤ n) → unanswered →
        exec (.tick inst n) s =
          .next (s.put inst (afterTail { x with ctrl := { timers with state := .selWaitBsy, pending := none } }))) ∧
      (∀ r, c.pending = some (.selAssertId, r) → r ≤ n →
        let dat := x.bus.dat.set 7 (idBit c.bdid.toNat ||| c.temp)
        let b := { x.bus with dat := dat, ctl := orCtl x.bus.sig, data := orData dat }
        exec (.tick inst n) s = .next (s.put inst (
          if n - r < Config.params.dSelId then afterTail
            { x with bus := b, ctrl := { timers with
                bfTimer := advanced b c.bfTimer, state := .selAssertId
                pending := some (.selAssertSel, Config.params.dSelId - (n - r)) } }
          else whole)))) ∧
    (x.bus.combined → (has x.bus.ctl sigRST = true → c.rstSeen = true) → c.busy = false → c.selTimer = none →
      ∀ r, c.pending = some (.selAssertSel, r) → r ≤ n →
        let own (q : Ctl) : Ctl :=
          (q &&& ~~~(sigSEL ||| sigATN ||| sigBSY)) ||| (sigSEL ||| if c.atnQueued then sigATN else 0)
        ∃ t, exec (.tick inst n) s = .next t ∧
          let d := (t.get inst).ctrl
          (n - r < Config.params.dSelSel →
            (t.get inst).bus.sig[7] = (if c.sctl.getLsbD 5 then x.bus.sig[7] else own x.bus.sig[7]) ∧
            (t.get inst).bus.dat[7] = x.bus.dat[7] ∧
            d = { c with state := .selAssertSel, pending := some (.selWaitBsy, Config.params.dSelSel - (n - r)),
                         selTimer := (Config.params.selTimeout c.tc).map fun l => (0, l)
                         diagSig := if c.sctl.getLsbD 5 then own c.diagSig else c.diagSig
                         budget := 0, bfTimer := d.bfTimer, rstSeen := d.rstSeen, irqLine := d.irqLine,
                         drqLine := d.drqLine, renotify := false }))

/-- A tick that completes the bus-free time of an idle, connected Controller records the disconnect, as a flag if PCTL
bit 7 asks for it (R206, R210). -/
def Obligations.TickDetectsDisconnect : Prop :=
  ∀ (inst : InstId) (n : Nat) (s : State),
    let x := beginEvent (s.get inst)
    let c := x.ctrl
    c.busy = false → c.state = .idle → c.pending = none → c.connected = true → c.selTimer = none →
    x.bus.ctl &&& (sigBSY ||| sigSEL) = 0 → Config.params.busFreeCycles ≤ c.bfTimer + n →
    exec (.tick inst n) s = .next (s.put inst (afterTail
      { x with ctrl := { c with
          budget := 0
          bfTimer := Config.params.busFreeCycles
          connected := false
          ints := if c.pctl.getLsbD 7 then c.ints ||| 0x20 else c.ints } }))

/-- A tick that reaches the limit of an armed selection timer, the engine waiting in SEL_WAIT_BSY with no answer sensed, or
parked with its transition not due, with any participants on the bus, connected or not, in normal and in diagnostic mode:
all own signals and data are released, TO is latched, and the engine is idle (R190, R210). Whatever the Targets then do,
the Controller keeps everything else, but that R206 may record a disconnect that is due; that TO is the only other flag rests
on the model's reading of R190, that the guard is held while the lines fall (log 23). With no Target on the bus nothing else
of the bus changes. -/
def Obligations.TickTimesSelectionOut : Prop :=
  ∀ (inst : InstId) (n el l : Nat) (s : State),
    let x := beginEvent (s.get inst)
    let c := x.ctrl
    let own := sigBSY ||| sigSEL ||| sigATN ||| sigACK
    let dm := c.sctl.getLsbD 5
    x.bus.combined → (has x.bus.ctl sigRST = true → c.rstSeen = true) → c.busy = false →
    c.selTimer = some (el, l) → l ≤ el + n →
    ((c.state = .selWaitBsy ∧ c.pending = none ∧
        (has (sense x) sigBSY = false ∨ has (sense x) (sigREQ ||| sigMSG ||| sigCD ||| sigIO) = true)) ∨
      ∃ u r, c.pending = some (u, r) ∧ n < r) →
    ∃ t, exec (.tick inst n) s = .next t ∧
      let d := (t.get inst).ctrl
      let b := (t.get inst).bus
      d = { c with state := .idle, pending := none, selTimer := none, atnQueued := false, budget := 0,
                   ints := d.ints, connected := d.connected, diagSig := if dm then c.diagSig &&& ~~~own else c.diagSig
                   bfTimer := d.bfTimer, rstSeen := d.rstSeen, irqLine := d.irqLine, drqLine := d.drqLine,
                   renotify := false } ∧
      ((d.connected = c.connected ∧ d.ints = c.ints ||| 0x04) ∨
       (c.connected = true ∧ d.connected = false ∧
         d.ints = if c.pctl.getLsbD 7 then c.ints ||| 0x04 ||| 0x20 else c.ints ||| 0x04)) ∧
      b.sig[7] = (if dm then x.bus.sig[7] else x.bus.sig[7] &&& ~~~own) ∧ b.dat[7] = 0 ∧ b.combined ∧
      (x.bus.cb = .controller → x.noTargets →
        b.sig = x.bus.sig.set 7 (if dm then x.bus.sig[7] else x.bus.sig[7] &&& ~~~own) ∧
        b.dat = x.bus.dat.set 7 0 ∧ b.occ = x.bus.occ)

/-! ### Target commands -/

/-- Test Unit Ready and Rezero: GOOD with an image, else the Not Ready condition; nothing but the Target's own record
changes (R252, R253, R255, R256). -/
def Obligations.MediumTests : Prop :=
  ∀ (inst : InstId) (id : Fin 7) (c : Cdb6) (s : State) (t : Target) (i : Instr) (op : Byte),
    let x := beginEvent (s.get inst)
    let u := loadCdb (cdb6Bytes op c) t
    x.target? id = some t → (i, op) ∈ [(Instr.cdbTestUnitReady inst id c, 0x00), (.cdbRezeroUnit inst id c, 0x01)] →
    exec i s = .next (s.put inst (x.withTarget id (match t.image with
      | none => checked 0x2 0x3A 0x00 none u
      | some _ => { u with status := 0x00, tstate := .status })))

/-- R258, R267: Format Unit and Start/Stop Unit succeed, whatever their operands and the medium, and touch nothing. -/
def Obligations.NoOpCommandsSucceed : Prop :=
  ∀ (inst : InstId) (id : Fin 7) (c : Cdb6) (s : State) (t : Target),
    let x := beginEvent (s.get inst)
    x.target? id = some t →
    exec (.cdbFormatUnit inst id c) s = .next (s.put inst (x.withTarget id
      { loadCdb (cdb6Bytes 0x04 c) t with status := 0x00, tstate := .status })) ∧
    exec (.cdbStartStopUnit inst id c) s = .next (s.put inst (x.withTarget id
      { loadCdb (cdb6Bytes 0x1B c) t with status := 0x00, tstate := .status }))

/-- Request Sense puts the 18 bytes of the sense into the buffer, clears the sense, and offers as many bytes as asked
for (R257): a consuming read, and the return from a Target condition. -/
def Obligations.RequestSenseConsumes : Prop :=
  ∀ (inst : InstId) (id : Fin 7) (c : Cdb6) (s : State) (t : Target),
    let x := beginEvent (s.get inst)
    let u := loadCdb (cdb6Bytes 0x03 c) t
    let bs : List Byte :=
      [0x70 ||| (if t.senseLbaValid then 0x80 else 0x00), 0x00, t.senseKey.setWidth 8,
       t.senseLba.extractLsb' 24 8, t.senseLba.extractLsb' 16 8, t.senseLba.extractLsb' 8 8, t.senseLba.extractLsb' 0 8,
       0x0A, 0, 0, 0, 0, t.senseAsc, t.senseAscq, 0, 0, 0, 0]
    let v : Target :=
      { u with buf := bufFill u.buf 0 bs, senseKey := 0, senseAsc := 0, senseAscq := 0, senseLba := 0,
               senseLbaValid := false, cur := 0, total := if c.len = 0 then 4 else min c.len.toNat 18, status := 0x00,
               tstate := .dataIn }
    x.target? id = some t →
    exec (.cdbRequestSense inst id c) s = .next (s.put inst (x.withTarget id v)) ∧
    (∀ j, j < 18 → bufRead (envOf inst) v j = bs.getD j 0) ∧
    (∀ j, 18 ≤ j → bufRead (envOf inst) v j = bufRead (envOf inst) t j)

/-- Inquiry offers the identity payload, Mode Select takes and discards its parameter bytes; a length of 0 ends in
GOOD at once (R251, R264, R265). -/
def Obligations.InquiryAndModeSelect : Prop :=
  ∀ (inst : InstId) (id : Fin 7) (c : Cdb6) (s : State) (t : Target),
    let x := beginEvent (s.get inst)
    let u := loadCdb (cdb6Bytes 0x12 c) t
    let w := loadCdb (cdb6Bytes 0x15 c) t
    let v : Target := { u with buf := bufFill u.buf 0 Config.params.inquiryPayload.toList, status := 0x00 }
    x.target? id = some t →
    exec (.cdbInquiry inst id c) s = .next (s.put inst (x.withTarget id
      (if c.len = 0 then { v with tstate := .status }
       else { v with cur := 0, total := min c.len.toNat 36, tstate := .dataIn }))) ∧
    (∀ j : Fin 36, bufRead (envOf inst) v j = Config.params.inquiryPayload[j]) ∧
    exec (.cdbModeSelect6 inst id c) s = .next (s.put inst (x.withTarget id
      (if c.len = 0 then { w with status := 0x00, tstate := .status }
       else { w with cur := 0, total := c.len.toNat, status := 0x00, tstate := .dataOut })))

/-- Mode Sense: header, block descriptor and the pages asked for, from the geometry, which is all zero with no image, in
big-endian fields; an unknown page is an Illegal Request (R48, R266; log 25). A number too wide for its field goes out as
a free value (log 8). -/
def Obligations.ModeSenseBuildsPages : Prop :=
  ∀ (inst : InstId) (id : Fin 7) (c : Cdb6) (s : State) (t : Target),
    let p := Config.params
    let x := beginEvent (s.get inst)
    let u := loadCdb (cdb6Bytes 0x1A c) t
    let g : Geometry := match t.image with
      | none => ⟨0, 0, 0, 0, 0⟩
      | some _ => t.geom
    let page := c.lba.extractLsb' 8 6
    let format : List Byte :=
      [0x03, 0x16, 0, 0, 0, 0, 0, 0, 0, 0] ++ beField p 2 g.spt ++ beField p 2 g.bps ++ [0, 0, 0, 0, 0, 0, 0, 0, 0, 0]
    let geometry : List Byte :=
      [0x04, 0x16] ++ beField p 3 g.cylinders ++ [BitVec.ofNat 8 g.heads] ++
      [0, 0, 0, 0, 0, 0, 0, 0, 0, 0, 0, 0, 0, 0, 0, 0, 0, 0]
    let bytes (len : Byte) (pages : List Byte) : List Byte :=
      [len, 0x00, 0x00, 0x08, 0x00] ++ beField p 3 (min g.totalSectors 0xFFFFFF) ++ [0x00] ++ beField p 3 g.bps ++ pages
    let sent (n : Nat) (bs : List Byte) : Target :=
      if c.len = 0 then { u with buf := bufFill u.buf 0 bs, status := 0x00, tstate := .status }
      else { u with buf := bufFill u.buf 0 bs, cur := 0, total := min c.len.toNat n, status := 0x00, tstate := .dataIn }
    x.target? id = some t →
    exec (.cdbModeSense6 inst id c) s = .next (s.put inst (x.withTarget id (
      if page = 0x00 then sent 12 (bytes 11 [])
      else if page = 0x03 then sent 36 (bytes 35 format)
      else if page = 0x04 then sent 36 (bytes 35 geometry)
      else if page = 0x3F then sent 60 (bytes 59 (format ++ geometry))
      else checked 0x5 0x24 0x00 none u)))

/-- Seek and Verify check the medium and the range and transfer nothing; the range is checked on naturals, with no
wrap, and the offending LBA is recorded; Verify refuses the byte check first (R253, R263, R269). -/
def Obligations.RangeCommands : Prop :=
  ∀ (inst : InstId) (id : Fin 7) (c : Cdb6) (d : Cdb10) (s : State) (t : Target),
    let x := beginEvent (s.get inst)
    let u := loadCdb (cdb6Bytes 0x0B c) t
    let w := loadCdb (cdb10Bytes 0x2F d) t
    x.target? id = some t →
    exec (.cdbSeek6 inst id c) s = .next (s.put inst (x.withTarget id (
      if t.image = none then checked 0x2 0x3A 0x00 none u
      else if t.geom.totalSectors < c.lba.toNat then checked 0x5 0x21 0x00 (some (c.lba.setWidth 32)) u
      else { u with status := 0x00, tstate := .status }))) ∧
    exec (.cdbVerify10 inst id d) s = .next (s.put inst (x.withTarget id (
      if d.flags.getLsbD 1 then checked 0x5 0x24 0x00 none w
      else if t.image = none then checked 0x2 0x3A 0x00 none w
      else if t.geom.totalSectors < d.lba.toNat + d.len.toNat then checked 0x5 0x21 0x00 (some d.lba) w
      else { w with status := 0x00, tstate := .status })))

/-- Read Capacity: the last LBA and the block size, big-endian, after the medium check (R48, R268). A number too wide
for its field goes out as a free value (log 8). -/
def Obligations.ReadCapacityReportsGeometry : Prop :=
  ∀ (inst : InstId) (id : Fin 7) (d : Cdb10) (s : State) (t : Target),
    let x := beginEvent (s.get inst)
    let u := loadCdb (cdb10Bytes 0x25 d) t
    x.target? id = some t →
    exec (.cdbReadCapacity inst id d) s = .next (s.put inst (x.withTarget id (
      if t.image = none then checked 0x2 0x3A 0x00 none u
      else { u with
        buf := bufFill u.buf 0 (beField Config.params 4 (t.geom.totalSectors - 1) ++ beField Config.params 4 t.geom.bps)
        cur := 0, total := 8, status := 0x00, tstate := .dataIn })))

/-- R75, R231, R250, R270: the dispatch of `execute_cdb`, on a record with any command buffer: each of the fifteen listed
opcodes runs its command, and the row of the command is `execute_cdb` of the record that has its bytes; any other opcode
is an Illegal Request with the Invalid Command code, whatever the bytes that follow it; and the length of a CDB by the
group of its opcode. -/
def Obligations.OpcodesDispatch : Prop :=
  ∀ (inst : InstId) (id : Fin 7) (op : Byte) (args : List Byte) (c6 : Cdb6) (c10 : Cdb10) (e : Env) (y : Instance)
    (s : State) (t : Target),
    let x := beginEvent (s.get inst)
    let rows : List (Byte × List Byte × Instr × (Env → Fin 7 → Instance → Instance)) :=
      [(0x00, cdb6Bytes 0x00 c6, .cdbTestUnitReady inst id c6, fun e k z => z.modTarget k (testUnitReady e.p)),
       (0x01, cdb6Bytes 0x01 c6, .cdbRezeroUnit inst id c6, fun e k z => z.modTarget k (rezeroUnit e.p)),
       (0x03, cdb6Bytes 0x03 c6, .cdbRequestSense inst id c6, fun _ k z => z.modTarget k requestSense),
       (0x04, cdb6Bytes 0x04 c6, .cdbFormatUnit inst id c6, fun _ k z => z.modTarget k formatUnit),
       (0x08, cdb6Bytes 0x08 c6, .cdbRead6 inst id c6, read6),
       (0x0A, cdb6Bytes 0x0A c6, .cdbWrite6 inst id c6, write6),
       (0x0B, cdb6Bytes 0x0B c6, .cdbSeek6 inst id c6, fun e k z => z.modTarget k (seek6 e.p)),
       (0x12, cdb6Bytes 0x12 c6, .cdbInquiry inst id c6, fun e k z => z.modTarget k (inquiry e.p)),
       (0x15, cdb6Bytes 0x15 c6, .cdbModeSelect6 inst id c6, fun _ k z => z.modTarget k modeSelect6),
       (0x1A, cdb6Bytes 0x1A c6, .cdbModeSense6 inst id c6, fun e k z => z.modTarget k (modeSense6 e.p)),
       (0x1B, cdb6Bytes 0x1B c6, .cdbStartStopUnit inst id c6, fun _ k z => z.modTarget k startStopUnit),
       (0x25, cdb10Bytes 0x25 c10, .cdbReadCapacity inst id c10, fun e k z => z.modTarget k (readCapacity e.p)),
       (0x28, cdb10Bytes 0x28 c10, .cdbRead10 inst id c10, read10),
       (0x2A, cdb10Bytes 0x2A c10, .cdbWrite10 inst id c10, write10),
       (0x2F, cdb10Bytes 0x2F c10, .cdbVerify10 inst id c10, fun e k z => z.modTarget k (verify10 e.p))]
    (∀ r ∈ rows,
      (y.target? id = some t → t.cmd[0] = r.1 → executeCdb e id y = r.2.2.2 e id y) ∧
      exec r.2.2.1 s = .next (s.put inst (executeCdb (envOf inst) id (x.modTarget id (loadCdb r.2.1)))) ∧
      r.2.1.length = cdbLen r.1) ∧
    (y.target? id = some t → (∀ r ∈ rows, t.cmd[0] ≠ r.1) →
      executeCdb e id y = y.withTarget id (checked 0x5 0x20 0x00 none t)) ∧
    ((Instr.cdbOther inst id op args).wellFormed = true → x.target? id = some t →
      exec (.cdbOther inst id op args) s =
        .next (s.put inst (x.withTarget id (checked 0x5 0x20 0x00 none (loadCdb (op :: args) t)))) ∧
      exec (.cdbOther inst id op args) s =
        .next (s.put inst (executeCdb (envOf inst) id (x.modTarget id (loadCdb (op :: args)))))) ∧
    (let group := (op.extractLsb' 5 3).toNat
     cdbLen op = if group = 1 ∨ group = 2 then 10 else if group = 5 then 12 else 6)

/-- The checks of the four reads and writes, in their order, on naturals: a request that fails one ends in CHECK
CONDITION and never touches the store: no draw, no call (R253, R271, R272). -/
def Obligations.ReadWriteChecks : Prop :=
  ∀ (inst : InstId) (id : Fin 7) (c : Cdb6) (d : Cdb10) (s : State) (t : Target) (i : Instr) (bytes : List Byte)
    (lba : BitVec 32) (blocks : Nat),
    let x := beginEvent (s.get inst)
    let u := loadCdb bytes t
    let n := if c.len = 0 then 256 else c.len.toNat
    x.target? id = some t →
    (i, bytes, lba, blocks) ∈
      [(Instr.cdbRead6 inst id c, cdb6Bytes 0x08 c, c.lba.setWidth 32, n),
       (.cdbWrite6 inst id c, cdb6Bytes 0x0A c, c.lba.setWidth 32, n),
       (.cdbRead10 inst id d, cdb10Bytes 0x28 d, d.lba, d.len.toNat),
       (.cdbWrite10 inst id d, cdb10Bytes 0x2A d, d.lba, d.len.toNat)] →
    (t.image = none ∨ t.geom.totalSectors < lba.toNat + blocks ∨ 65536 < blocks * t.geom.bps) →
    exec i s = .next (s.put inst (x.withTarget id (
      if t.image = none then checked 0x2 0x3A 0x00 none u
      else if t.geom.totalSectors < lba.toNat + blocks then checked 0x5 0x21 0x00 (some lba) u
      else checked 0x5 0x24 0x00 none u)))

/-- Read(6) and Read(10) within the image: the sectors are staged in order; if the environment fails none, the buffer
holds exactly their bytes and is offered; else the first failing sector ends the command in a Medium Error that names
it. The store, the Bus and the Controller are untouched (R50, R251, R252, R259, R260, R271). -/
def Obligations.ReadStagesSectors : Prop :=
  ∀ (inst : InstId) (id : Fin 7) (c : Cdb6) (d : Cdb10) (s : State) (t : Target) (st : Store) (i : Instr)
    (lba : BitVec 32) (blocks : Nat),
    let x := beginEvent (s.get inst)
    let bps := t.geom.bps
    let fails (j : Nat) : Bool := Config.params.storeFails inst (x.draws + j)
    x.target? id = some t → t.image = some st → 0 < bps → t.geom.totalSectors * bps ≤ st.size →
    lba.toNat + blocks ≤ t.geom.totalSectors → blocks * bps ≤ 65536 →
    (i, lba, blocks) ∈
      [(Instr.cdbRead6 inst id c, c.lba.setWidth 32, if c.len = 0 then 256 else c.len.toNat),
       (.cdbRead10 inst id d, d.lba, d.len.toNat)] →
    ∃ r u, exec i s = .next r ∧ (r.get inst).target? id = some u ∧
      u.image = some st ∧ u.geom = t.geom ∧ (r.get inst).ctrl = x.ctrl ∧ (r.get inst).bus.sig = x.bus.sig ∧
      (r.get inst).bus.dat = x.bus.dat ∧ (r.get inst).bus.ctl = x.bus.ctl ∧ (r.get inst).bus.data = x.bus.data ∧
      (∀ j, j ≠ id → (r.get inst).target? j = x.target? j) ∧
      (match (List.range blocks).find? fails with
       | none =>
         (∀ a, a < blocks * bps → u.buf.lookup a = some (st.readByte (lba.toNat * bps + a))) ∧ u.status = 0x00 ∧
         u.senseKey = t.senseKey ∧ u.senseAsc = t.senseAsc ∧
         (if blocks = 0 then u.tstate = .status else u.tstate = .dataIn ∧ u.cur = 0 ∧ u.total = blocks * bps) ∧
         (r.get inst).calls = (List.range blocks).map fun j => Call.storeRead id ((lba.toNat + j) * bps) bps true
       | some j =>
         u.status = 0x02 ∧ u.tstate = .status ∧ u.senseKey = 0x3 ∧ u.senseAsc = 0 ∧ u.senseAscq = 0 ∧
         u.senseLbaValid = true ∧ (lba.toNat + j < 2 ^ 32 → u.senseLba.toNat = lba.toNat + j) ∧
         (r.get inst).calls =
           ((List.range j).map fun k => Call.storeRead id ((lba.toNat + k) * bps) bps true) ++
           [.storeRead id ((lba.toNat + j) * bps) bps false])

/-- Write(6) and Write(10) within the image ask for the data of the whole range; a length of 0 ends in GOOD at once
(R251, R261, R262, R272). -/
def Obligations.WriteAsksForData : Prop :=
  ∀ (inst : InstId) (id : Fin 7) (c : Cdb6) (d : Cdb10) (s : State) (t : Target) (i : Instr) (bytes : List Byte)
    (lba : BitVec 32) (blocks : Nat),
    let x := beginEvent (s.get inst)
    let u := loadCdb bytes t
    let v : Target := { u with lba := lba, blocks := blocks, status := 0x00 }
    x.target? id = some t → t.image ≠ none → 0 < t.geom.bps →
    lba.toNat + blocks ≤ t.geom.totalSectors → blocks * t.geom.bps ≤ 65536 →
    (i, bytes, lba, blocks) ∈
      [(Instr.cdbWrite6 inst id c, cdb6Bytes 0x0A c, c.lba.setWidth 32, if c.len = 0 then 256 else c.len.toNat),
       (.cdbWrite10 inst id d, cdb10Bytes 0x2A d, d.lba, d.len.toNat)] →
    exec i s = .next (s.put inst (x.withTarget id (
      if blocks = 0 then { v with tstate := .status }
      else { v with cur := 0, total := blocks * t.geom.bps, tstate := .dataOut })))

/-- A flush writes the sector just completed to the store: its bytes come from the buffer, every other byte of the
image stays, or the environment fails it and the write is truncated with a Medium Error (R50, R254). -/
def Obligations.FlushWritesOneSector : Prop :=
  ∀ (e : Env) (k : Fin 7) (x : Instance) (t : Target) (st : Store),
    let bps := t.geom.bps
    let j := t.cur / bps - 1
    let off := (t.lba.toNat + j) * bps
    x.target? k = some t → t.image = some st → st.ok → off + bps ≤ st.size →
    ∃ u st', (flushSector e k x).target? k = some u ∧ u.image = some st' ∧ st'.size = st.size ∧
      (∀ a, ¬(off ≤ a ∧ a < off + bps) → st'.readByte a = st.readByte a) ∧
      (flushSector e k x).ctrl = x.ctrl ∧ (flushSector e k x).bus.ctl = x.bus.ctl ∧
      (if e.p.storeFails e.id x.draws then
        u.senseKey = 0x3 ∧ u.senseAsc = 0 ∧ u.senseAscq = 0 ∧ u.senseLbaValid = true ∧ u.status = 0x02 ∧
        u.total = t.cur ∧ u.tstate = t.tstate ∧ (t.lba.toNat + j < 2 ^ 32 → u.senseLba.toNat = t.lba.toNat + j)
      else
        u = { t with image := some st' } ∧
        ∀ a, a < bps → st'.readByte (off + a) = bufRead e t (j * bps + a))

/-- The calls of an event on the stores are made for a Target that was there before it, and one that reaches beyond
the image fails: what succeeds stays inside (R50, R253; log 5). -/
def Obligations.StoreCallsStayInside : Prop :=
  ∀ (i : Instr) (k : InstId) (s t : State) (id : Fin 7) (off len : Nat) (bs : List Byte) (ok : Bool),
    i.inst? = some k → (∀ j dev, i ≠ .busAttach k j dev) → exec i s = .next t →
    (.storeRead id off len ok ∈ (t.get k).calls →
      ∃ d st, (s.get k).target? id = some d ∧ d.image = some st ∧ (ok = true → off + len ≤ st.size)) ∧
    (.storeWrite id off bs ok ∈ (t.get k).calls →
      ∃ d st, (s.get k).target? id = some d ∧ d.image = some st ∧ (ok = true → off + bs.length ≤ st.size))

/-- A field of w bytes holds a number that fits it, most significant byte first (R48). -/
def Obligations.BigEndianFields : Prop :=
  ∀ (p : Params) (w v : Nat), (beField p w v).length = w ∧ (v < 256 ^ w → natOfBE (beField p w v) = v)

/-! ### The engine and the Targets -/

/-- R174: a run of the engine, under its guard, is `RepeatsTo`: it evaluates while there is progress and nothing is pending,
and again after every notification that came in meanwhile; a run within a run only leaves the note. The spec sets no bound
on the loop; the model's is 4096 rounds (log 9). R172 to R204: what one evaluation does in each of the engine's states, the delays and what it waits for
included (XFER_WAIT_REQ with a reserved phase: log 26). `drives y d value mask` says that the Controller is `d` after it
has driven its own lines (in diagnostic mode its shadow) and the others have reacted, whatever they do: they leave it as
it is but for the bus-free timer, RST seen and the note to look again (R92); the IRQ and DRQ lines wait for the end of
the event (log 19). -/
def Obligations.EngineSteps : Prop :=
  (∀ (e : Env) (n : Instance → Instance) (x : Instance),
    let evaluated (z : Instance) : Bool × Instance :=
      if z.ctrl.pending = none then (decide ((engineStep e n z).1 = .progress), (engineStep e n z).2) else (false, z)
    let forgotten (z : Instance) : Instance := { z with ctrl := { z.ctrl with renotify := false } }
    (x.ctrl.busy = true → runEngine e n x = { x with ctrl := { x.ctrl with renotify := true } }) ∧
    (x.ctrl.busy = false → ∀ m y, m < 4096 →
      RepeatsTo evaluated (fun z => z.ctrl.renotify) forgotten m
        { x with ctrl := { x.ctrl with busy := true, renotify := false } } y →
      runEngine e n x = { y with ctrl := { y.ctrl with busy := false } })) ∧
  ∀ (e : Env) (x : Instance), x.still → x.ctrl.busy = true → x.ctrl.pending = none →
    let c := x.ctrl
    let s := sense x
    let r := engineStep e (notify e) x
    let wait : StepResult × Instance := (.stay, x)
    let free : Prop := x.bus.ctl &&& (sigBSY ||| sigSEL) = 0 ∧ e.p.busFreeCycles ≤ c.bfTimer
    let data (v : Byte) : Instance :=
      { x with bus := { x.bus with dat := x.bus.dat.set 7 v, ctl := orCtl x.bus.sig, data := orData (x.bus.dat.set 7 v) } }
    let drives (y : Instance) (d : Controller) (value mask : Ctl) : Prop :=
      y.ctrl = { d with
        diagSig := if c.sctl.getLsbD 5 then (c.diagSig &&& ~~~mask) ||| value else c.diagSig
        bfTimer := y.ctrl.bfTimer
        rstSeen := y.ctrl.rstSeen
        renotify := y.ctrl.renotify } ∧
      y.bus.sig[7] = (if c.sctl.getLsbD 5 then x.bus.sig[7] else (x.bus.sig[7] &&& ~~~mask) ||| value) ∧
      y.bus.combined
    let lost : Prop := ∃ k : Fin 8, c.bdid.toNat < k.val ∧ x.bus.data.getLsbD k = true
    let own := (if c.sctl.getLsbD 5 then c.diagSig else x.bus.sig[7]) &&& ~~~(sigATN ||| sigRST)
    let aborted (flag : Byte) : Controller :=
      { c with fifo := if c.xferIn then c.fifo else { c.fifo with head := 0, tail := 0, count := 0 }
               ints := c.ints ||| flag, state := .idle, pending := none, xferDma := false, xferTerm := false }
    (∀ (u : EngineState) (w : Nat) (y : Instance), goto u w y =
      if w ≤ y.ctrl.budget then (.progress, { y with ctrl := { y.ctrl with budget := y.ctrl.budget - w, state := u } })
      else (.parked, { y with ctrl := { y.ctrl with pending := some (u, w - y.ctrl.budget), budget := 0 } })) ∧
    (c.state = .idle → r = wait) ∧
    (c.state = .arbWaitFree → (free → r = goto .arbAssertBsy e.p.dArbFree x) ∧ (¬free → r = wait)) ∧
    (c.state = .arbAssertBsy → ∃ y, r = goto .arbWait e.p.dArbSettle y ∧ drives y c sigBSY sigBSY ∧
      y.bus.dat[7] = 1#8 <<< c.bdid.toNat) ∧
    (c.state = .arbWait →
      (lost → ∃ y, r = (.progress, y) ∧ drives y { c with state := .idle } 0 sigBSY ∧ y.bus.dat[7] = 0) ∧
      (¬lost → r = goto .arbAssertSel e.p.dArbWin x)) ∧
    (c.state = .arbAssertSel → ∃ y, r = goto .selAssertId e.p.dSelId y ∧ drives y c sigSEL sigSEL ∧
      y.bus.dat[7] = x.bus.dat[7]) ∧
    (c.state = .selWaitFree → (free → r = goto .selAssertId e.p.dSelFree x) ∧ (¬free → r = wait)) ∧
    (c.state = .selAssertId → r = goto .selAssertSel e.p.dSelId (data ((1#8 <<< c.bdid.toNat) ||| c.temp))) ∧
    (c.state = .selAssertSel → ∃ y, r = goto .selWaitBsy e.p.dSelSel y ∧ y.bus.dat[7] = x.bus.dat[7] ∧
      drives y { c with selTimer := (e.p.selTimeout c.tc).map fun l => (0, l) }
        (sigSEL ||| if c.atnQueued then sigATN else 0) (sigSEL ||| sigATN ||| sigBSY)) ∧
    (c.state = .selWaitBsy →
      let answered := has s sigBSY = true ∧ has s (sigREQ ||| sigMSG ||| sigCD ||| sigIO) = false
      (answered → r = goto .selSuccess e.p.dSelOk { x with ctrl := { c with selTimer := none } }) ∧
      (¬answered → r = wait)) ∧
    (c.state = .selSuccess →
      (own = sigSEL → ∃ y, r = (.progress, y) ∧ y.bus.dat[7] = 0 ∧
        drives y { c with connected := true, ints := c.ints ||| 0x10, state := .idle } 0 sigSEL) ∧
      (own ≠ sigSEL → r = wait)) ∧
    (c.state = .xferWaitReq →
      (has s sigBSY = false → ∃ y, r = (.progress, y) ∧ y.bus.dat[7] = 0 ∧
        drives y { aborted 0x20 with connected := false } 0 sigACK) ∧
      (has s sigBSY = true → s.extractLsb' 0 3 ≠ c.xferPhase → ∃ y, r = (.progress, y) ∧ y.bus.dat[7] = 0 ∧
        drives y (aborted 0x08) 0 sigACK) ∧
      (has s sigBSY = true → s.extractLsb' 0 3 = c.xferPhase →
        r = if has s sigREQ then goto (if c.xferIn then .xferRecvData else .xferSendData) e.p.dHs x else wait)) ∧
    (c.state = .xferSendData →
      (c.tc = 0 → r = goto .xferSendAck e.p.dHs (data c.temp)) ∧
      (c.tc ≠ 0 → c.fifo.count = 0 → r = wait) ∧
      (c.tc ≠ 0 → c.fifo.count ≠ 0 → r = goto .xferSendAck e.p.dHs
        { data c.fifo.buf[c.fifo.head] with
          ctrl := { c with fifo := { c.fifo with head := c.fifo.head + 1, count := c.fifo.count - 1 } } })) ∧
    (c.state = .xferRecvData →
      (c.tc = 0 → r = goto .xferSendAck e.p.dHs { x with ctrl := { c with temp := x.bus.data } }) ∧
      (c.tc ≠ 0 → c.fifo.count = 8 → r = wait) ∧
      (c.tc ≠ 0 → c.fifo.count ≠ 8 → r = goto .xferSendAck e.p.dHs
        { x with ctrl := { c with fifo := { c.fifo with
            buf := c.fifo.buf.set c.fifo.tail x.bus.data, tail := c.fifo.tail + 1, count := c.fifo.count + 1 } } })) ∧
    (c.state = .xferSendAck → ∃ y, r = goto .xferWaitDeassertReq e.p.dHs y ∧ y.bus.dat[7] = x.bus.dat[7] ∧
      if c.xferPhase = 6 ∧ c.tc.toNat ≤ 1 then drives y { c with atnQueued := false } sigACK (sigACK ||| sigATN)
      else drives y c sigACK sigACK) ∧
    (c.state = .xferWaitDeassertReq → r = if has s sigREQ then wait else goto .xferDeassertAck e.p.dHs x) ∧
    (c.state = .xferDeassertAck → ∃ y,
      r = goto (if c.tc.toNat ≤ 1 then .xferWaitFifoEmpty else .xferWaitReq) e.p.dHs y ∧
      drives y { c with tc := if c.tc = 0 then 0 else c.tc - 1 } 0 sigACK ∧
      y.bus.dat[7] = if c.xferIn then x.bus.dat[7] else 0) ∧
    (c.state = .xferWaitFifoEmpty →
      (c.fifo.count = 0 → r = (.progress, { data 0 with ctrl :=
        { c with ints := c.ints ||| 0x10, state := .idle, xferDma := false, xferTerm := false } })) ∧
      (c.fifo.count ≠ 0 → r = wait))

/-- R222: a Target's handler, under its guard, is `RepeatsTo`: it evaluates while there is progress, and again after every
notification that came in meanwhile; one that comes in at work only leaves the note. The spec sets no bound on the loop; the
model's is 4096 rounds (log 9). R223 to R230: what one evaluation of a Target does in each of its states, whatever answers the bus: RST, the claim of
a selection, waiting while SEL is up, the turn to MESSAGE-OUT, a byte presented, taken, and what follows it. A claim is
made by every addressed, idle, ready Target at once that is not in the middle of a step of its own, each with BSY as its
contribution; that the others claim in the same change of the bus is how the model reads R223 (log 24). The command that
a collected CDB runs, and the lengths of CDBs, are opened in OpcodesDispatch. -/
def Obligations.TargetSteps : Prop :=
  (∀ (e : Env) (n : Instance → Instance) (k : Fin 7) (x : Instance),
    (x.target? k = none → targetHandler e n k x = x) ∧
    ∀ t, x.target? k = some t →
      (t.tbusy = true → targetHandler e n k x = x.withTarget k { t with trenotify := true }) ∧
      (t.tbusy = false → ∀ m y u, m < 4096 → y.target? k = some u →
        RepeatsTo (targetStep e n k) (fun z => (z.target? k).any Target.trenotify)
          (fun z => z.modTarget k fun v => { v with trenotify := false }) m
          (x.withTarget k { t with tbusy := true, trenotify := false }) y →
        targetHandler e n k x = y.withTarget k { u with tbusy := false })) ∧
  ∀ (e : Env) (n : Instance → Instance) (k : Fin 7) (x : Instance) (t : Target), x.target? k = some t → t.id = k →
    let c := x.bus.ctl
    let d := x.bus.data
    let r := targetStep e n k x
    let line := slotAddr k
    let drop (y : Instance) : Instance := setControl n line 0 sigALL (setData line 0 y)
    let phase : Ctl := match t.tstate with
      | .command => sigCD
      | .dataOut => 0
      | .dataIn => sigIO
      | .status => sigCD ||| sigIO
      | .message => if t.msgOut then sigMSG ||| sigCD else sigMSG ||| sigCD ||| sigIO
      | .idle => 0
    let byte : Byte := match t.tstate with
      | .dataIn => bufRead e t t.cur
      | .status => t.status
      | .message => if t.msgOut then 0 else t.message
      | _ => 0
    let taken : Instance := match t.tstate with
      | .command => x.withTarget k { t with cmd := t.cmd.setIfInBounds t.cmdLen d, cmdLen := t.cmdLen + 1 }
      | .dataOut =>
        let y := x.withTarget k { t with buf := bufWrite t.buf t.cur d, cur := t.cur + 1 }
        if (t.cmd[0] = 0x0A ∨ t.cmd[0] = 0x2A) ∧ (t.cur + 1) % t.geom.bps = 0 then flushSector e k y else y
      | .dataIn => x.withTarget k { t with cur := t.cur + 1 }
      | .message => if t.msgOut then x.withTarget k { t with message := d } else x
      | _ => x
    let followed : Instance := match t.tstate with
      | .command => if t.cmdLen < cdbLen t.cmd[0] then x else executeCdb e k x
      | .dataOut | .dataIn => if t.total ≤ t.cur then x.withTarget k { t with tstate := .status } else x
      | .status => x.withTarget k { t with message := 0, tstate := .message, msgOut := false }
      | .message =>
        if t.msgOut = false then (drop x).modTarget k fun u => { u with tstate := .idle }
        else if has c sigATN then x
        else x.withTarget k { t with tstate := .command, msgOut := false, cmdLen := 0 }
      | .idle => x
    let turns := t.tstate = .command ∧ t.cmdLen = 0 ∧ t.hs = .needReq ∧ has c sigACK = false ∧ has c sigATN = true
    let selected := has c sigSEL = true ∧ has c sigBSY = false ∧ has c sigIO = false
    let ready (j : Fin 7) (u : Target) : Prop :=
      u.tstate = .idle ∧ d.getLsbD j = true ∧ (u.image ≠ none ∨ u.ready = true) ∧ (j = k ∨ u.tbusy = false)
    (has c sigRST = true →
      (t.tstate ≠ .idle ∨ x.bus.sig[line] ≠ 0 ∨ x.bus.dat[line] ≠ 0 →
        r = (true, (drop x).modTarget k fun u =>
          { u with tstate := .idle, hs := .needReq, msgOut := false, cmdLen := 0, cur := 0, total := 0 })) ∧
      (t.tstate = .idle → x.bus.sig[line] = 0 → x.bus.dat[line] = 0 → r = (false, x))) ∧
    (has c sigRST = false → t.tstate = .idle →
      (selected → ready k t → (∀ j u, x.target? j = some u → u.id = j) →
        ∃ b, r = (true, changeBus n x b) ∧ b.dat = x.bus.dat ∧ b.cb = x.bus.cb ∧ b.combined ∧
          b.occ[7] = x.bus.occ[7] ∧ b.sig[7] = x.bus.sig[7] ∧
          ∀ j : Fin 7,
            (∀ u, x.target? j = some u → ready j u → b.sig[slotAddr j] = sigBSY ∧
              b.occ[slotAddr j] = some (.target { u with cmdLen := 0, cur := 0, total := 0, tstate := .command,
                                                         hs := .needReq, msgOut := false })) ∧
            ((∀ u, x.target? j = some u → ¬ready j u) →
              b.sig[slotAddr j] = x.bus.sig[slotAddr j] ∧ b.occ[slotAddr j] = x.bus.occ[slotAddr j])) ∧
      (¬(selected ∧ ready k t) → r = (false, x))) ∧
    (has c sigRST = false → t.tstate ≠ .idle →
      (has c sigSEL = true → r = (false, x)) ∧
      (has c sigSEL = false →
        (turns → r = (true, x.withTarget k { t with tstate := .message, msgOut := true })) ∧
        (¬turns →
          (t.hs = .needReq → r =
            if has c sigACK then (false, x)
            else (true, (setControl n line (sigBSY ||| phase ||| sigREQ) sigALL (setData line byte x)).modTarget k
              fun u => { u with hs := .reqUp })) ∧
          (t.hs = .reqUp → r =
            if has c sigACK then (true, (setControl n line 0 sigREQ taken).modTarget k fun u => { u with hs := .reqDown })
            else (false, x)) ∧
          (t.hs = .reqDown → r =
            if has c sigACK then (false, x) else (true, followed.modTarget k fun u => { u with hs := .needReq })))))

end
end

