-- ==== Sys2Proof/Laws/State.lean ====
section
/-! SUPPORT. One lemma per field per update of the state's parts, and the laws of the accessors. -/

namespace Sys2Proof.Machine

variable (x : Instance) (s : State)

/-! ### Updates of an instance -/

@[simp] theorem Instance.modCtrl_bus (f : Controller → Controller) : (x.modCtrl f).bus = x.bus := rfl
@[simp] theorem Instance.modCtrl_ctrl (f : Controller → Controller) : (x.modCtrl f).ctrl = f x.ctrl := rfl
@[simp] theorem Instance.modCtrl_ret (f : Controller → Controller) : (x.modCtrl f).ret = x.ret := rfl
@[simp] theorem Instance.modCtrl_calls (f : Controller → Controller) : (x.modCtrl f).calls = x.calls := rfl
@[simp] theorem Instance.modCtrl_draws (f : Controller → Controller) : (x.modCtrl f).draws = x.draws := rfl
@[simp] theorem Instance.modCtrl_kept (f : Controller → Controller) : (x.modCtrl f).kept = x.kept := rfl
@[simp] theorem Instance.modCtrl_unsettled (f : Controller → Controller) : (x.modCtrl f).unsettled = x.unsettled := rfl

@[simp] theorem Instance.modBus_bus (f : Bus → Bus) : (x.modBus f).bus = f x.bus := rfl
@[simp] theorem Instance.modBus_ctrl (f : Bus → Bus) : (x.modBus f).ctrl = x.ctrl := rfl
@[simp] theorem Instance.modBus_ret (f : Bus → Bus) : (x.modBus f).ret = x.ret := rfl
@[simp] theorem Instance.modBus_calls (f : Bus → Bus) : (x.modBus f).calls = x.calls := rfl
@[simp] theorem Instance.modBus_draws (f : Bus → Bus) : (x.modBus f).draws = x.draws := rfl
@[simp] theorem Instance.modBus_kept (f : Bus → Bus) : (x.modBus f).kept = x.kept := rfl
@[simp] theorem Instance.modBus_unsettled (f : Bus → Bus) : (x.modBus f).unsettled = x.unsettled := rfl

@[simp] theorem Instance.setOccupant_bus (k : Fin 7) (o : Option Participant) : (x.setOccupant k o).bus = { x.bus with occ := x.bus.occ.set (slotAddr k) o } := rfl
@[simp] theorem Instance.setOccupant_ctrl (k : Fin 7) (o : Option Participant) : (x.setOccupant k o).ctrl = x.ctrl := rfl
@[simp] theorem Instance.setOccupant_ret (k : Fin 7) (o : Option Participant) : (x.setOccupant k o).ret = x.ret := rfl
@[simp] theorem Instance.setOccupant_calls (k : Fin 7) (o : Option Participant) : (x.setOccupant k o).calls = x.calls := rfl
@[simp] theorem Instance.setOccupant_draws (k : Fin 7) (o : Option Participant) : (x.setOccupant k o).draws = x.draws := rfl
@[simp] theorem Instance.setOccupant_kept (k : Fin 7) (o : Option Participant) : (x.setOccupant k o).kept = x.kept := rfl
@[simp] theorem Instance.setOccupant_unsettled (k : Fin 7) (o : Option Participant) : (x.setOccupant k o).unsettled = x.unsettled := rfl

@[simp] theorem Instance.logCall_bus (c : Call) : (x.logCall c).bus = x.bus := rfl
@[simp] theorem Instance.logCall_ctrl (c : Call) : (x.logCall c).ctrl = x.ctrl := rfl
@[simp] theorem Instance.logCall_ret (c : Call) : (x.logCall c).ret = x.ret := rfl
@[simp] theorem Instance.logCall_calls (c : Call) : (x.logCall c).calls = x.calls ++ [c] := rfl
@[simp] theorem Instance.logCall_draws (c : Call) : (x.logCall c).draws = x.draws := rfl
@[simp] theorem Instance.logCall_kept (c : Call) : (x.logCall c).kept = x.kept := rfl
@[simp] theorem Instance.logCall_unsettled (c : Call) : (x.logCall c).unsettled = x.unsettled := rfl

@[simp] theorem nextDraw_bus : (nextDraw x).bus = x.bus := rfl
@[simp] theorem nextDraw_ctrl : (nextDraw x).ctrl = x.ctrl := rfl
@[simp] theorem nextDraw_ret : (nextDraw x).ret = x.ret := rfl
@[simp] theorem nextDraw_calls : (nextDraw x).calls = x.calls := rfl
@[simp] theorem nextDraw_draws : (nextDraw x).draws = x.draws + 1 := rfl
@[simp] theorem nextDraw_kept : (nextDraw x).kept = x.kept := rfl
@[simp] theorem nextDraw_unsettled : (nextDraw x).unsettled = x.unsettled := rfl

@[simp] theorem beginEvent_bus : (beginEvent x).bus = x.bus := rfl
@[simp] theorem beginEvent_ctrl : (beginEvent x).ctrl = x.ctrl := rfl
@[simp] theorem beginEvent_ret : (beginEvent x).ret = .none := rfl
@[simp] theorem beginEvent_calls : (beginEvent x).calls = [] := rfl
@[simp] theorem beginEvent_draws : (beginEvent x).draws = x.draws := rfl
@[simp] theorem beginEvent_kept : (beginEvent x).kept = x.kept := rfl
@[simp] theorem beginEvent_unsettled : (beginEvent x).unsettled = x.unsettled := rfl

@[simp] theorem raiseInt_bus (flag : Byte) : (raiseInt flag x).bus = x.bus := rfl
@[simp] theorem raiseInt_ctrl (flag : Byte) : (raiseInt flag x).ctrl = { x.ctrl with ints := x.ctrl.ints ||| flag } := rfl
@[simp] theorem raiseInt_ret (flag : Byte) : (raiseInt flag x).ret = x.ret := rfl
@[simp] theorem raiseInt_calls (flag : Byte) : (raiseInt flag x).calls = x.calls := rfl
@[simp] theorem raiseInt_draws (flag : Byte) : (raiseInt flag x).draws = x.draws := rfl
@[simp] theorem raiseInt_kept (flag : Byte) : (raiseInt flag x).kept = x.kept := rfl
@[simp] theorem raiseInt_unsettled (flag : Byte) : (raiseInt flag x).unsettled = x.unsettled := rfl

@[simp] theorem clearInts_bus (v : Byte) : (clearInts v x).bus = x.bus := rfl
@[simp] theorem clearInts_ctrl (v : Byte) : (clearInts v x).ctrl = { x.ctrl with ints := x.ctrl.ints &&& ~~~v } := rfl
@[simp] theorem clearInts_ret (v : Byte) : (clearInts v x).ret = x.ret := rfl
@[simp] theorem clearInts_calls (v : Byte) : (clearInts v x).calls = x.calls := rfl
@[simp] theorem clearInts_draws (v : Byte) : (clearInts v x).draws = x.draws := rfl
@[simp] theorem clearInts_kept (v : Byte) : (clearInts v x).kept = x.kept := rfl
@[simp] theorem clearInts_unsettled (v : Byte) : (clearInts v x).unsettled = x.unsettled := rfl

@[simp] theorem toIdle_bus : (toIdle x).bus = x.bus := rfl
@[simp] theorem toIdle_ctrl : (toIdle x).ctrl = { x.ctrl with state := .idle } := rfl
@[simp] theorem toIdle_ret : (toIdle x).ret = x.ret := rfl
@[simp] theorem toIdle_calls : (toIdle x).calls = x.calls := rfl
@[simp] theorem toIdle_draws : (toIdle x).draws = x.draws := rfl
@[simp] theorem toIdle_kept : (toIdle x).kept = x.kept := rfl
@[simp] theorem toIdle_unsettled : (toIdle x).unsettled = x.unsettled := rfl

@[simp] theorem setData_bus (id : Fin 8) (v : Byte) : (setData id v x).bus = x.bus.writeData id v := rfl
@[simp] theorem setData_ctrl (id : Fin 8) (v : Byte) : (setData id v x).ctrl = x.ctrl := rfl
@[simp] theorem setData_ret (id : Fin 8) (v : Byte) : (setData id v x).ret = x.ret := rfl
@[simp] theorem setData_calls (id : Fin 8) (v : Byte) : (setData id v x).calls = x.calls := rfl
@[simp] theorem setData_draws (id : Fin 8) (v : Byte) : (setData id v x).draws = x.draws := rfl
@[simp] theorem setData_kept (id : Fin 8) (v : Byte) : (setData id v x).kept = x.kept := rfl
@[simp] theorem setData_unsettled (id : Fin 8) (v : Byte) : (setData id v x).unsettled = x.unsettled := rfl

@[simp] theorem driveData_bus (v : Byte) : (driveData v x).bus = x.bus.writeData 7 v := rfl
@[simp] theorem driveData_ctrl (v : Byte) : (driveData v x).ctrl = x.ctrl := rfl
@[simp] theorem driveData_ret (v : Byte) : (driveData v x).ret = x.ret := rfl
@[simp] theorem driveData_calls (v : Byte) : (driveData v x).calls = x.calls := rfl
@[simp] theorem driveData_draws (v : Byte) : (driveData v x).draws = x.draws := rfl
@[simp] theorem driveData_kept (v : Byte) : (driveData v x).kept = x.kept := rfl
@[simp] theorem driveData_unsettled (v : Byte) : (driveData v x).unsettled = x.unsettled := rfl

/-! ### The two instances of a state -/

@[simp] theorem State.get_put_same (i : InstId) : (s.put i x).get i = x := by cases i <;> rfl

@[simp] theorem State.get_put_other (i : InstId) (y : Instance) (j : InstId) (h : j ≠ i) :
    (s.put i y).get j = s.get j := by
  cases i <;> cases j <;> first | rfl | exact absurd rfl h

@[simp] theorem State.put_events (i : InstId) : (s.put i x).events = s.events := by cases i <;> rfl

@[simp] theorem State.put_put (i : InstId) (y : Instance) : (s.put i x).put i y = s.put i y := by cases i <;> rfl

@[simp] theorem State.put_get (i : InstId) : s.put i (s.get i) = s := by cases i <;> rfl

@[simp] theorem State.get_events (l : List (List Byte)) (i : InstId) : State.get { s with events := l } i = s.get i := by
  cases i <;> rfl

/-- Two states agree as soon as their instances and their queues do. -/
theorem State.ext_get (a b : State) (h : ∀ i, a.get i = b.get i) (he : a.events = b.events) : a = b := by
  obtain ⟨a1, a2, a3⟩ := a
  obtain ⟨b1, b2, b3⟩ := b
  have h1 := h .internal
  have h2 := h .external
  simp only [State.get] at h1 h2 he
  rw [h1, h2, he]

/-- Everything an event of one instance can do: it answers a next state, in which that instance has changed. -/
theorem onInstance_eq (i : InstId) (f : Env → Instance → Instance) :
    onInstance i f s = .next (s.put i (f (envOf i) (beginEvent (s.get i)))) := rfl

/-! ### The Targets of an instance -/

@[simp] theorem slotAddr_val (k : Fin 7) : (slotAddr k).val = k.val := rfl

theorem slotAddr_ne_7 (k : Fin 7) : slotAddr k ≠ 7 := by
  intro h
  have := congrArg Fin.val h
  simp at this
  omega

theorem slotAddr_inj {j k : Fin 7} (h : slotAddr j = slotAddr k) : j = k := by
  have := congrArg Fin.val h
  exact Fin.ext (by simpa using this)

/-- The Targets depend on the occupants alone. -/
theorem Instance.target?_congr {x y : Instance} (h : x.bus.occ = y.bus.occ) (k : Fin 7) : x.target? k = y.target? k := by
  simp only [Instance.target?, h]

@[simp] theorem Instance.modCtrl_target? (f : Controller → Controller) (k : Fin 7) :
    (x.modCtrl f).target? k = x.target? k := rfl

@[simp] theorem Instance.logCall_target? (c : Call) (k : Fin 7) : (x.logCall c).target? k = x.target? k := rfl

@[simp] theorem nextDraw_target? (k : Fin 7) : (nextDraw x).target? k = x.target? k := rfl

@[simp] theorem beginEvent_target? (k : Fin 7) : (beginEvent x).target? k = x.target? k := rfl

@[simp] theorem setData_target? (id : Fin 8) (v : Byte) (k : Fin 7) : (setData id v x).target? k = x.target? k := rfl

@[simp] theorem driveData_target? (v : Byte) (k : Fin 7) : (driveData v x).target? k = x.target? k := rfl

@[simp] theorem raiseInt_target? (f : Byte) (k : Fin 7) : (raiseInt f x).target? k = x.target? k := rfl

/-- An occupied slot, in terms of the occupants. -/
theorem Instance.target?_eq_some {x : Instance} {k : Fin 7} {t : Target} :
    x.target? k = some t ↔ x.bus.occ[slotAddr k] = some (.target t) := by
  unfold Instance.target?
  split
  · simp_all
  · rename_i h
    constructor
    · intro h'; cases h'
    · intro h'; exact absurd h' (h t)

@[simp] theorem Instance.setOccupant_target?_same (k : Fin 7) (t : Target) :
    (x.setOccupant k (some (.target t))).target? k = some t := by
  simp [Instance.target?_eq_some]

theorem Instance.setOccupant_target?_other (k j : Fin 7) (o : Option Participant) (h : j ≠ k) :
    (x.setOccupant k o).target? j = x.target? j := by
  have h' : (slotAddr k).val ≠ (slotAddr j).val := fun e => h (slotAddr_inj (Fin.ext e)).symm
  simp only [Instance.target?, Instance.setOccupant_bus, Fin.getElem_fin]
  rw [Vector.getElem_set_ne _ _ h']

/-- A change of the Target at a slot, where there is one. -/
theorem Instance.modTarget_some {x : Instance} {k : Fin 7} {t : Target} (h : x.target? k = some t)
    (f : Target → Target) : x.modTarget k f = x.withTarget k (f t) := by
  unfold Instance.modTarget
  rw [h]
  rfl

/-- A change of the Target at a slot, where there is none. -/
theorem Instance.modTarget_none {x : Instance} {k : Fin 7} (h : x.target? k = none) (f : Target → Target) :
    x.modTarget k f = x := by
  unfold Instance.modTarget
  rw [h]

@[simp] theorem Instance.withTarget_target?_same (k : Fin 7) (t : Target) : (x.withTarget k t).target? k = some t :=
  Instance.setOccupant_target?_same x k t

theorem Instance.withTarget_target?_other (k j : Fin 7) (t : Target) (h : j ≠ k) :
    (x.withTarget k t).target? j = x.target? j :=
  Instance.setOccupant_target?_other x k j _ h

/-- A record put back where it stands. -/
theorem Instance.withTarget_self {x : Instance} {k : Fin 7} {t : Target} (h : x.target? k = some t) :
    x.withTarget k t = x := by
  unfold Instance.withTarget
  rw [← Instance.target?_eq_some.1 h]
  simp only [Fin.getElem_fin, Vector.set_getElem_self]

@[simp] theorem Instance.withTarget_withTarget (k : Fin 7) (t u : Target) :
    (x.withTarget k t).withTarget k u = x.withTarget k u := by
  simp [Instance.withTarget]

@[simp] theorem Instance.withTarget_modTarget (k : Fin 7) (t : Target) (f : Target → Target) :
    (x.withTarget k t).modTarget k f = x.withTarget k (f t) := by
  rw [Instance.modTarget_some (Instance.withTarget_target?_same x k t), Instance.withTarget_withTarget]

@[simp] theorem Instance.withTarget_bus_sig (k : Fin 7) (t : Target) : (x.withTarget k t).bus.sig = x.bus.sig := rfl
@[simp] theorem Instance.withTarget_bus_dat (k : Fin 7) (t : Target) : (x.withTarget k t).bus.dat = x.bus.dat := rfl
@[simp] theorem Instance.withTarget_bus_ctl (k : Fin 7) (t : Target) : (x.withTarget k t).bus.ctl = x.bus.ctl := rfl
@[simp] theorem Instance.withTarget_bus_data (k : Fin 7) (t : Target) : (x.withTarget k t).bus.data = x.bus.data := rfl
@[simp] theorem Instance.withTarget_bus_cb (k : Fin 7) (t : Target) : (x.withTarget k t).bus.cb = x.bus.cb := rfl
@[simp] theorem Instance.withTarget_ctrl (k : Fin 7) (t : Target) : (x.withTarget k t).ctrl = x.ctrl := rfl
@[simp] theorem Instance.withTarget_ret (k : Fin 7) (t : Target) : (x.withTarget k t).ret = x.ret := rfl
@[simp] theorem Instance.withTarget_calls (k : Fin 7) (t : Target) : (x.withTarget k t).calls = x.calls := rfl
@[simp] theorem Instance.withTarget_draws (k : Fin 7) (t : Target) : (x.withTarget k t).draws = x.draws := rfl
@[simp] theorem Instance.withTarget_kept (k : Fin 7) (t : Target) : (x.withTarget k t).kept = x.kept := rfl
@[simp] theorem Instance.withTarget_unsettled (k : Fin 7) (t : Target) : (x.withTarget k t).unsettled = x.unsettled := rfl
@[simp] theorem Instance.modTarget_ctrl (k : Fin 7) (f : Target → Target) : (x.modTarget k f).ctrl = x.ctrl := by
  unfold Instance.modTarget; split <;> rfl
@[simp] theorem Instance.modTarget_ret (k : Fin 7) (f : Target → Target) : (x.modTarget k f).ret = x.ret := by
  unfold Instance.modTarget; split <;> rfl
@[simp] theorem Instance.modTarget_calls (k : Fin 7) (f : Target → Target) : (x.modTarget k f).calls = x.calls := by
  unfold Instance.modTarget; split <;> rfl
@[simp] theorem Instance.modTarget_draws (k : Fin 7) (f : Target → Target) : (x.modTarget k f).draws = x.draws := by
  unfold Instance.modTarget; split <;> rfl
@[simp] theorem Instance.modTarget_kept (k : Fin 7) (f : Target → Target) : (x.modTarget k f).kept = x.kept := by
  unfold Instance.modTarget; split <;> rfl
@[simp] theorem Instance.modTarget_unsettled (k : Fin 7) (f : Target → Target) : (x.modTarget k f).unsettled = x.unsettled := by
  unfold Instance.modTarget; split <;> rfl
@[simp] theorem Instance.modTarget_bus_sig (k : Fin 7) (f : Target → Target) :
    (x.modTarget k f).bus.sig = x.bus.sig := by
  unfold Instance.modTarget; split <;> rfl
@[simp] theorem Instance.modTarget_bus_dat (k : Fin 7) (f : Target → Target) :
    (x.modTarget k f).bus.dat = x.bus.dat := by
  unfold Instance.modTarget; split <;> rfl
@[simp] theorem Instance.modTarget_bus_ctl (k : Fin 7) (f : Target → Target) :
    (x.modTarget k f).bus.ctl = x.bus.ctl := by
  unfold Instance.modTarget; split <;> rfl
@[simp] theorem Instance.modTarget_bus_data (k : Fin 7) (f : Target → Target) :
    (x.modTarget k f).bus.data = x.bus.data := by
  unfold Instance.modTarget; split <;> rfl
@[simp] theorem Instance.modTarget_bus_cb (k : Fin 7) (f : Target → Target) :
    (x.modTarget k f).bus.cb = x.bus.cb := by
  unfold Instance.modTarget; split <;> rfl

/-! ### The images that persist (R323) -/

@[simp] theorem keepImage_bus (k : Fin 7) : (keepImage k x).bus = x.bus := rfl
@[simp] theorem keepImage_ctrl (k : Fin 7) : (keepImage k x).ctrl = x.ctrl := rfl
@[simp] theorem keepImage_ret (k : Fin 7) : (keepImage k x).ret = x.ret := rfl
@[simp] theorem keepImage_calls (k : Fin 7) : (keepImage k x).calls = x.calls := rfl
@[simp] theorem keepImage_draws (k : Fin 7) : (keepImage k x).draws = x.draws := rfl
@[simp] theorem keepImage_unsettled (k : Fin 7) : (keepImage k x).unsettled = x.unsettled := rfl
@[simp] theorem keepImage_target? (k j : Fin 7) : (keepImage k x).target? j = x.target? j := rfl
@[simp] theorem keepImage_kept (k : Fin 7) :
    (keepImage k x).kept = x.kept ++ ((x.target? k).bind Target.image).toList := rfl

/-- Taking an image changes the kept images only, and these keep all but the one taken. -/
theorem takeImage_cases (src : ImageSource) :
    (∃ bs, src = .given bs ∧ takeImage src x = (some (Store.ofBytes bs), x)) ∨
    (∃ i st, src = .kept i ∧ x.kept[i]? = some st ∧
      takeImage src x = (some st, { x with kept := x.kept.eraseIdx i })) ∨
    (∃ i, src = .kept i ∧ x.kept[i]? = none ∧ takeImage src x = (none, x)) := by
  cases src with
  | given bs => exact .inl ⟨bs, rfl, rfl⟩
  | kept i =>
    cases h : x.kept[i]? with
    | some st => exact .inr (.inl ⟨i, st, rfl, h, by simp [takeImage, h]⟩)
    | none => exact .inr (.inr ⟨i, rfl, h, by simp [takeImage, h]⟩)

end Sys2Proof.Machine
end

