-- ==== Sys2Proof/Laws/BusOps.lean ====
section
/-! SUPPORT. The laws of the Bus and of the FIFO: what each operation can do. -/

namespace Sys2Proof.Machine

/-! ### The FIFO -/

@[simp] theorem Fifo.clear_count (f : Fifo) : f.clear.count = 0 := rfl
@[simp] theorem Fifo.clear_head (f : Fifo) : f.clear.head = 0 := rfl
@[simp] theorem Fifo.clear_tail (f : Fifo) : f.clear.tail = 0 := rfl
@[simp] theorem Fifo.clear_buf (f : Fifo) : f.clear.buf = f.buf := rfl

theorem Fifo.empty_iff (f : Fifo) : f.empty = true ↔ f.count = 0 := by simp [Fifo.empty]

theorem Fifo.full_iff (f : Fifo) : f.full = true ↔ f.count.val = 8 := by
  simp [Fifo.full, Fin.ext_iff]

/-- A push below eight bytes. -/
theorem Fifo.push_of_not_full (f : Fifo) (v : Byte) (h : f.full = false) :
    f.push v = { buf := f.buf.set f.tail v, head := f.head, tail := f.tail + 1, count := f.count + 1 } := by
  have h' : ¬f.count.val = 8 := fun e => by simp [(Fifo.full_iff f).2 e] at h
  unfold Fifo.push
  rw [if_pos (by omega)]

/-- A push at eight bytes is dropped. -/
theorem Fifo.push_of_full (f : Fifo) (v : Byte) (h : f.full = true) : f.push v = f := by
  have := (Fifo.full_iff f).1 h
  unfold Fifo.push
  rw [if_neg (by omega)]

theorem Fifo.clear_ring (f : Fifo) : f.clear.ring := by simp [Fifo.ring]

theorem Fifo.push_ring (f : Fifo) (v : Byte) (h : f.ring) : (f.push v).ring := by
  unfold Fifo.push
  split
  · rename_i hc
    simp only [Fifo.ring] at h ⊢
    rw [Fin.val_add, Fin.val_add, h]
    have e1 : (1 : Fin 8).val = 1 := rfl
    have e2 : (1 : Fin 9).val = 1 := rfl
    have e3 : (f.count.val + 1) % 9 = f.count.val + 1 := Nat.mod_eq_of_lt (by omega)
    rw [e1, e2, e3]
    omega
  · exact h

theorem Fifo.pop_ring (f : Fifo) (h : f.ring) : f.pop.ring := by
  unfold Fifo.pop
  split
  · exact h
  · rename_i hc
    simp only [Fifo.ring] at h ⊢
    have hp : f.count.val ≠ 0 := fun e => hc (Fin.ext e)
    have e2 : (f.count - 1).val = f.count.val - 1 := by
      rw [Fin.val_sub]
      have : (1 : Fin 9).val = 1 := rfl
      rw [this]
      omega
    rw [e2, Fin.val_add, h]
    have e1 : (1 : Fin 8).val = 1 := rfl
    rw [e1]
    omega

/-! ### The Bus -/

@[simp] theorem Bus.recombine_sig (b : Bus) : b.recombine.sig = b.sig := rfl
@[simp] theorem Bus.recombine_dat (b : Bus) : b.recombine.dat = b.dat := rfl
@[simp] theorem Bus.recombine_occ (b : Bus) : b.recombine.occ = b.occ := rfl
@[simp] theorem Bus.recombine_cb (b : Bus) : b.recombine.cb = b.cb := rfl
@[simp] theorem Bus.recombine_ctl (b : Bus) : b.recombine.ctl = orCtl b.sig := rfl
@[simp] theorem Bus.recombine_data (b : Bus) : b.recombine.data = orData b.dat := rfl

/-- R12 holds after every recombination. -/
theorem Bus.recombine_combined (b : Bus) : b.recombine.combined := ⟨rfl, rfl⟩

@[simp] theorem Bus.writeControl_sig (b : Bus) (id : Fin 8) (v m : Ctl) :
    (b.writeControl id v m).sig = b.sig.set id (merge b.sig[id] v m) := rfl
@[simp] theorem Bus.writeControl_dat (b : Bus) (id : Fin 8) (v m : Ctl) : (b.writeControl id v m).dat = b.dat := rfl
@[simp] theorem Bus.writeControl_occ (b : Bus) (id : Fin 8) (v m : Ctl) : (b.writeControl id v m).occ = b.occ := rfl
@[simp] theorem Bus.writeControl_cb (b : Bus) (id : Fin 8) (v m : Ctl) : (b.writeControl id v m).cb = b.cb := rfl
@[simp] theorem Bus.writeControl_ctl (b : Bus) (id : Fin 8) (v m : Ctl) :
    (b.writeControl id v m).ctl = orCtl (b.sig.set id (merge b.sig[id] v m)) := rfl
@[simp] theorem Bus.writeControl_data (b : Bus) (id : Fin 8) (v m : Ctl) :
    (b.writeControl id v m).data = orData b.dat := rfl
theorem Bus.writeControl_combined (b : Bus) (id : Fin 8) (v m : Ctl) : (b.writeControl id v m).combined := ⟨rfl, rfl⟩

@[simp] theorem Bus.writeData_sig (b : Bus) (id : Fin 8) (v : Byte) : (b.writeData id v).sig = b.sig := rfl
@[simp] theorem Bus.writeData_dat (b : Bus) (id : Fin 8) (v : Byte) : (b.writeData id v).dat = b.dat.set id v := rfl
@[simp] theorem Bus.writeData_occ (b : Bus) (id : Fin 8) (v : Byte) : (b.writeData id v).occ = b.occ := rfl
@[simp] theorem Bus.writeData_cb (b : Bus) (id : Fin 8) (v : Byte) : (b.writeData id v).cb = b.cb := rfl
@[simp] theorem Bus.writeData_ctl (b : Bus) (id : Fin 8) (v : Byte) : (b.writeData id v).ctl = orCtl b.sig := rfl
@[simp] theorem Bus.writeData_data (b : Bus) (id : Fin 8) (v : Byte) :
    (b.writeData id v).data = orData (b.dat.set id v) := rfl
theorem Bus.writeData_combined (b : Bus) (id : Fin 8) (v : Byte) : (b.writeData id v).combined := ⟨rfl, rfl⟩

@[simp] theorem Bus.replace_sig (b : Bus) (id : Fin 8) (o : Option Participant) :
    (b.replace id o).sig = b.sig.set id 0 := rfl
@[simp] theorem Bus.replace_dat (b : Bus) (id : Fin 8) (o : Option Participant) :
    (b.replace id o).dat = b.dat.set id 0 := rfl
@[simp] theorem Bus.replace_occ (b : Bus) (id : Fin 8) (o : Option Participant) :
    (b.replace id o).occ = b.occ.set id o := rfl
@[simp] theorem Bus.replace_cb (b : Bus) (id : Fin 8) (o : Option Participant) : (b.replace id o).cb = b.cb := rfl
theorem Bus.replace_combined (b : Bus) (id : Fin 8) (o : Option Participant) : (b.replace id o).combined := ⟨rfl, rfl⟩

/-- Everything a bus change can do: the bus is put in place, and the notification runs where the word changed. -/
theorem changeBus_cases (n : Instance → Instance) (x : Instance) (b : Bus) :
    (b.ctl = x.bus.ctl ∧ changeBus n x b = { x with bus := b }) ∨
    (b.ctl ≠ x.bus.ctl ∧ changeBus n x b = n { x with bus := b }) := by
  unfold changeBus
  by_cases h : b.ctl = x.bus.ctl
  · exact .inl ⟨h, if_pos h⟩
  · exact .inr ⟨h, if_neg h⟩

/-- Everything `drive` can do (R112). -/
theorem drive_cases (n : Instance → Instance) (v m : Ctl) (x : Instance) :
    (x.ctrl.dm = true ∧ drive n v m x = { x with ctrl := { x.ctrl with diagSig := merge x.ctrl.diagSig v m } }) ∨
    (x.ctrl.dm = false ∧ drive n v m x = changeBus n x (x.bus.writeControl 7 v m)) := by
  unfold drive
  cases h : x.ctrl.dm with
  | true => exact .inl ⟨rfl, rfl⟩
  | false => exact .inr ⟨rfl, rfl⟩

/-! ### The lines -/

@[simp] theorem updateIrq_bus (x : Instance) : (updateIrq x).bus = x.bus := by
  simp only [updateIrq]; split <;> rfl

@[simp] theorem updateDrq_bus (x : Instance) : (updateDrq x).bus = x.bus := by
  simp only [updateDrq]; split <;> rfl

/-- Everything `update_irq` can do (R296). -/
theorem updateIrq_eq (x : Instance) :
    updateIrq x = { x with ctrl := { x.ctrl with irqLine := irqLevel x.ctrl },
                           calls := x.calls ++ if irqLevel x.ctrl = x.ctrl.irqLine then [] else [.irq (irqLevel x.ctrl)] } := by
  simp only [updateIrq]
  split
  · rename_i h
    simp [h]
  · rfl

/-- Everything `update_drq` can do (R300). -/
theorem updateDrq_eq (x : Instance) :
    updateDrq x = { x with ctrl := { x.ctrl with drqLine := drqLevel x.ctrl },
                           calls := x.calls ++ if drqLevel x.ctrl = x.ctrl.drqLine then [] else [.drq (drqLevel x.ctrl)] } := by
  simp only [updateDrq]
  split
  · rename_i h
    simp [h]
  · rfl

/-- Both lines after the tail: at their levels. -/
theorem updateLines_eq (x : Instance) :
    updateLines x =
      { x with ctrl := { x.ctrl with drqLine := drqLevel x.ctrl, irqLine := irqLevel x.ctrl },
               calls := x.calls ++ lineEdges x.ctrl } := by
  unfold updateLines
  rw [updateIrq_eq, updateDrq_eq]
  simp only [lineEdges, List.append_assoc]
  rfl

end Sys2Proof.Machine
end

