-- ==== Sys2Proof/Laws/Memory.lean ====
section
/-! SUPPORT. The laws of byte memories: a read after a write, and that every operation keeps the canonical form. -/

namespace Sys2Proof.Machine

/-! ### Order -/

theorem Memory.sorted_cons (c : Host.Cell) (m : Memory) :
    Memory.sorted (c :: m) = true ↔ (∀ d ∈ m, c.1 < d.1) ∧ Memory.sorted m = true := by
  induction m generalizing c with
  | nil => simp [Memory.sorted]
  | cons d m ih =>
    simp only [Memory.sorted, Bool.and_eq_true, decide_eq_true_eq, List.mem_cons, forall_eq_or_imp]
    constructor
    · rintro ⟨h1, h2⟩
      exact ⟨⟨h1, fun e he => lt_trans h1 (((ih d).1 h2).1 e he)⟩, h2⟩
    · rintro ⟨⟨h1, _⟩, h2⟩
      exact ⟨h1, h2⟩

theorem Memory.lookup_none {m : Memory} {a : Nat} (h : ∀ d ∈ m, a < d.1) : Memory.lookup m a = none := by
  induction m with
  | nil => rfl
  | cons c m ih =>
    have hc := h c (by simp)
    simp only [Memory.lookup]
    rw [if_neg (by omega)]
    exact ih fun d hd => h d (by simp [hd])

/-! ### Read after write -/

/-- A read after a listing: the byte listed, and every other address as before. -/
theorem Memory.lookup_insert (m : Memory) (a b : Nat) (v : Byte) :
    Memory.lookup (Memory.insert m a v) b = if b = a then some v else Memory.lookup m b := by
  induction m with
  | nil => simp only [Memory.insert, Memory.lookup, eq_comm]
  | cons c m ih =>
    simp only [Memory.insert]
    by_cases hb : b = a
    · subst hb
      split
      · simp [Memory.lookup]
      · split
        · simp [Memory.lookup]
        · have hc : ¬c.1 = b := by omega
          simp [Memory.lookup, ih, hc]
    · have hb' : ¬a = b := fun h => hb h.symm
      split
      · simp [Memory.lookup, hb']
      · split
        · rename_i hc
          have : ¬c.1 = b := by omega
          simp [Memory.lookup, hb', this]
        · simp [Memory.lookup, ih, hb]

/-- A read after a removal. -/
theorem Memory.lookup_erase (m : Memory) (a b : Nat) (h : Memory.sorted m = true) :
    Memory.lookup (Memory.erase m a) b = if b = a then none else Memory.lookup m b := by
  induction m with
  | nil => simp [Memory.erase, Memory.lookup]
  | cons c m ih =>
    obtain ⟨h1, h2⟩ := (Memory.sorted_cons c m).1 h
    simp only [Memory.erase]
    split
    · rename_i hc
      simp only [Memory.lookup]
      split
      · rename_i hb
        exact hb ▸ Memory.lookup_none (fun d hd => by have := h1 d hd; omega)
      · rw [if_neg (by omega)]
    · simp only [Memory.lookup, ih h2]
      split <;> split <;> first | rfl | omega

/-! ### The canonical form -/

theorem Memory.mem_insert {m : Memory} {a : Nat} {v : Byte} {d : Host.Cell} (h : d ∈ Memory.insert m a v) :
    d = (a, v) ∨ d ∈ m := by
  induction m with
  | nil => simpa [Memory.insert] using h
  | cons c m ih =>
    simp only [Memory.insert] at h
    split at h
    · simpa using h
    · split at h
      · simp only [List.mem_cons] at h ⊢
        tauto
      · simp only [List.mem_cons] at h ⊢
        rcases h with h | h
        · exact .inr (.inl h)
        · rcases ih h with h | h
          · exact .inl h
          · exact .inr (.inr h)

theorem Memory.mem_erase {m : Memory} {a : Nat} {d : Host.Cell} (h : d ∈ Memory.erase m a) : d ∈ m := by
  induction m with
  | nil => simp [Memory.erase] at h
  | cons c m ih =>
    simp only [Memory.erase] at h
    split at h
    · simp [h]
    · simp only [List.mem_cons] at h ⊢
      rcases h with h | h
      · exact .inl h
      · exact .inr (ih h)

theorem Memory.sorted_insert {m : Memory} (a : Nat) (v : Byte) (h : Memory.sorted m = true) :
    Memory.sorted (Memory.insert m a v) = true := by
  induction m with
  | nil => rfl
  | cons c m ih =>
    obtain ⟨h1, h2⟩ := (Memory.sorted_cons c m).1 h
    simp only [Memory.insert]
    split
    · rename_i hlt
      refine (Memory.sorted_cons _ _).2 ⟨fun d hd => ?_, h⟩
      rcases List.mem_cons.1 hd with rfl | hd
      · exact hlt
      · exact lt_trans hlt (h1 d hd)
    · split
      · rename_i _ heq
        exact (Memory.sorted_cons _ _).2 ⟨fun d hd => by have := h1 d hd; simp only; omega, h2⟩
      · refine (Memory.sorted_cons _ _).2 ⟨fun d hd => ?_, ih h2⟩
        rcases Memory.mem_insert hd with rfl | hd
        · simp only; omega
        · exact h1 d hd

theorem Memory.sorted_erase {m : Memory} (a : Nat) (h : Memory.sorted m = true) :
    Memory.sorted (Memory.erase m a) = true := by
  induction m with
  | nil => rfl
  | cons c m ih =>
    obtain ⟨h1, h2⟩ := (Memory.sorted_cons c m).1 h
    simp only [Memory.erase]
    split
    · exact h2
    · exact (Memory.sorted_cons _ _).2 ⟨fun d hd => h1 d (Memory.mem_erase hd), ih h2⟩

theorem Memory.wf_iff (m : Memory) : Memory.wf m = true ↔ Memory.sorted m = true ∧ ∀ c ∈ m, c.2 ≠ 0 := by
  simp [Memory.wf]

/-! ### The store -/

@[simp] theorem Store.writeByte_size (st : Store) (a : Nat) (v : Byte) : (st.writeByte a v).size = st.size := by
  unfold Store.writeByte; split <;> rfl

/-- A write of a byte keeps the canonical form. -/
theorem Store.writeByte_ok {st : Store} (a : Nat) (v : Byte) (h : st.ok) : (st.writeByte a v).ok := by
  obtain ⟨hw, hb⟩ := h
  obtain ⟨hs, hz⟩ := (Memory.wf_iff _).1 hw
  unfold Store.writeByte
  split
  · rename_i ha
    by_cases hv : v = 0
    · subst hv
      simp only [if_true]
      exact ⟨(Memory.wf_iff _).2 ⟨Memory.sorted_erase a hs, fun c hc => hz c (Memory.mem_erase hc)⟩,
        fun c hc => hb c (Memory.mem_erase hc)⟩
    · simp only [if_neg hv]
      refine ⟨(Memory.wf_iff _).2 ⟨Memory.sorted_insert a v hs, fun c hc => ?_⟩, fun c hc => ?_⟩
      · rcases Memory.mem_insert hc with rfl | hc
        · exact hv
        · exact hz c hc
      · rcases Memory.mem_insert hc with rfl | hc
        · exact ha
        · exact hb c hc
  · exact ⟨hw, hb⟩

/-- A read after a write of a byte. -/
theorem Store.readByte_writeByte (st : Store) (a b : Nat) (v : Byte) (h : Memory.sorted st.cells = true) :
    (st.writeByte a v).readByte b = if b = a ∧ a < st.size then v else st.readByte b := by
  unfold Store.writeByte
  by_cases ha : a < st.size
  · simp only [ha, if_true, and_true, Store.readByte]
    by_cases hv : v = 0
    · simp only [hv, if_true, Memory.lookup_erase _ _ _ h]
      split <;> simp
    · simp only [hv, if_false, Memory.lookup_insert]
      split <;> simp
  · simp [ha]

@[simp] theorem Store.writeRange_size (st : Store) (off : Nat) (bs : List Byte) :
    (st.writeRange off bs).size = st.size := by
  induction bs generalizing st off with
  | nil => rfl
  | cons v vs ih => simp [Store.writeRange, ih]

theorem Store.writeRange_ok {st : Store} (off : Nat) (bs : List Byte) (h : st.ok) : (st.writeRange off bs).ok := by
  induction bs generalizing st off with
  | nil => exact h
  | cons v vs ih => exact ih (off + 1) (Store.writeByte_ok off v h)

@[simp] theorem Store.writeMixed_size (st : Store) (off : Nat) (takes : Nat → Bool) (j : Nat) (bs : List Byte) :
    (st.writeMixed off takes j bs).size = st.size := by
  induction bs generalizing st j with
  | nil => rfl
  | cons v vs ih => rw [Store.writeMixed, ih]; split <;> simp

theorem Store.writeMixed_ok {st : Store} (off : Nat) (takes : Nat → Bool) (j : Nat) (bs : List Byte) (h : st.ok) :
    (st.writeMixed off takes j bs).ok := by
  induction bs generalizing st j with
  | nil => exact h
  | cons v vs ih =>
    refine ih (j + 1) ?_
    split
    · exact Store.writeByte_ok _ v h
    · exact h

/-- A read after a write of a range. -/
theorem Store.readByte_writeRange (st : Store) (off b : Nat) (bs : List Byte) (h : st.ok) :
    (st.writeRange off bs).readByte b =
      if off ≤ b ∧ b < off + bs.length ∧ b < st.size then bs.getD (b - off) 0 else st.readByte b := by
  induction bs generalizing st off with
  | nil => rw [if_neg (by simp; omega)]; rfl
  | cons v vs ih =>
    rw [Store.writeRange, ih _ _ (Store.writeByte_ok off v h), Store.writeByte_size,
      Store.readByte_writeByte _ _ _ _ ((Memory.wf_iff _).1 h.1).1]
    simp only [List.length_cons]
    by_cases h1 : off + 1 ≤ b ∧ b < off + 1 + vs.length ∧ b < st.size
    · rw [if_pos h1, if_pos (by omega)]
      have : b - off = (b - (off + 1)) + 1 := by omega
      rw [this, List.getD_cons_succ]
    · rw [if_neg h1]
      by_cases h2 : b = off ∧ off < st.size
      · rw [if_pos h2, if_pos (by omega)]
        have : b - off = 0 := by omega
        rw [this, List.getD_cons_zero]
      · rw [if_neg h2, if_neg (by omega)]

@[simp] theorem Store.readRange_length (st : Store) (off n : Nat) : (st.readRange off n).length = n := by
  induction n generalizing off with
  | zero => rfl
  | succ n ih => simp [Store.readRange, ih]

/-- The bytes of a range. -/
theorem Store.readRange_getD (st : Store) (off n j : Nat) (h : j < n) :
    (st.readRange off n).getD j 0 = st.readByte (off + j) := by
  induction n generalizing off j with
  | zero => omega
  | succ n ih =>
    cases j with
    | zero => simp [Store.readRange]
    | succ j =>
      rw [Store.readRange, List.getD_cons_succ, ih (off + 1) j (by omega)]
      congr 1
      omega

/-! ### An image given as bytes -/

theorem mem_cellsFrom {a : Nat} {bs : List Byte} {c : Host.Cell} (h : c ∈ cellsFrom a bs) :
    a ≤ c.1 ∧ c.1 < a + bs.length ∧ c.2 ≠ 0 := by
  induction bs generalizing a with
  | nil => simp [cellsFrom] at h
  | cons v vs ih =>
    simp only [cellsFrom] at h
    split at h
    · obtain ⟨h1, h2, h3⟩ := ih h
      exact ⟨by omega, by simp only [List.length_cons]; omega, h3⟩
    · rename_i hv
      rcases List.mem_cons.1 h with rfl | h
      · exact ⟨le_refl _, by simp only [List.length_cons]; omega, hv⟩
      · obtain ⟨h1, h2, h3⟩ := ih h
        exact ⟨by omega, by simp only [List.length_cons]; omega, h3⟩

theorem sorted_cellsFrom (a : Nat) (bs : List Byte) : Memory.sorted (cellsFrom a bs) = true := by
  induction bs generalizing a with
  | nil => rfl
  | cons v vs ih =>
    simp only [cellsFrom]
    split
    · exact ih (a + 1)
    · exact (Memory.sorted_cons _ _).2 ⟨fun d hd => (mem_cellsFrom hd).1, ih (a + 1)⟩

theorem lookup_cellsFrom (a b : Nat) (bs : List Byte) (h : a ≤ b) :
    (Memory.lookup (cellsFrom a bs) b).getD 0 = bs.getD (b - a) 0 := by
  induction bs generalizing a with
  | nil => simp [cellsFrom, Memory.lookup]
  | cons v vs ih =>
    simp only [cellsFrom]
    by_cases hb : b = a
    · subst hb
      simp only [Nat.sub_self, List.getD_cons_zero]
      split
      · rename_i hv
        rw [Memory.lookup_none fun d hd => (mem_cellsFrom hd).1]
        simp [hv]
      · simp [Memory.lookup]
    · have e : b - a = (b - (a + 1)) + 1 := by omega
      rw [e, List.getD_cons_succ]
      split
      · exact ih (a + 1) (by omega)
      · simp only [Memory.lookup]
        rw [if_neg (by omega)]
        exact ih (a + 1) (by omega)

/-- An image given as bytes is in canonical form, within its length. -/
theorem Store.ofBytes_ok (bs : List Byte) : (Store.ofBytes bs).ok := by
  refine ⟨(Memory.wf_iff _).2 ⟨sorted_cellsFrom 0 bs, fun c hc => (mem_cellsFrom hc).2.2⟩, fun c hc => ?_⟩
  have := (mem_cellsFrom hc).2.1
  simpa [Store.ofBytes] using this

/-- An image given as bytes reads as those bytes. -/
theorem Store.ofBytes_readByte (bs : List Byte) (a : Nat) : (Store.ofBytes bs).readByte a = bs.getD a 0 := by
  have := lookup_cellsFrom 0 a bs (Nat.zero_le a)
  simpa [Store.ofBytes, Store.readByte] using this

/-! ### The data buffer -/

theorem sorted_bufFill {m : Memory} (j : Nat) (bs : List Byte) (h : Memory.sorted m = true) :
    Memory.sorted (bufFill m j bs) = true := by
  induction bs generalizing m j with
  | nil => exact h
  | cons v vs ih => exact ih (j + 1) (Memory.sorted_insert j v h)

/-- A read of the buffer after consecutive bytes were put into it. -/
theorem lookup_bufFill (m : Memory) (j b : Nat) (bs : List Byte) :
    Memory.lookup (bufFill m j bs) b =
      if j ≤ b ∧ b < j + bs.length then some (bs.getD (b - j) 0) else Memory.lookup m b := by
  induction bs generalizing m j with
  | nil => rw [if_neg (by simp)]; rfl
  | cons v vs ih =>
    rw [bufFill, ih, bufWrite, Memory.lookup_insert]
    simp only [List.length_cons]
    by_cases h1 : j + 1 ≤ b ∧ b < j + 1 + vs.length
    · rw [if_pos h1, if_pos (by omega)]
      have : b - j = (b - (j + 1)) + 1 := by omega
      rw [this, List.getD_cons_succ]
    · rw [if_neg h1]
      by_cases h2 : b = j
      · subst h2
        simp
      · rw [if_neg h2, if_neg (by omega)]

@[simp] theorem bufSlice_length (e : Env) (t : Target) (j n : Nat) : (bufSlice e t j n).length = n := by
  induction n generalizing j with
  | zero => rfl
  | succ n ih => simp [bufSlice, ih]

end Sys2Proof.Machine
end

