-- ==== Sys2Proof/Laws/Reacts.lean ====
section
/-! SUPPORT. What the participants' reactions can do, said once: `Reacts x y` is a preorder that every primitive of the
engine and of the Targets respects, and so does the whole notification. Statements about registers that only the host
writes, about values an event returns, and invariants follow from it. -/

namespace Sys2Proof.Machine

/-! ### The preorder -/

/-- What a reaction may do to a Controller: the registers that only the host writes stay, flags are only raised. -/
structure CtrlReacts (c d : Controller) : Prop where
  bdid : d.bdid = c.bdid
  sctl : d.sctl = c.sctl
  scmd : d.scmd = c.scmd
  sdgc : d.sdgc = c.sdgc
  pctl : d.pctl = c.pctl
  dreg : d.dreg = c.dreg
  serr : d.serr = c.serr
  ints : ∃ f : Byte, f &&& 0xC2 = 0 ∧ d.ints = c.ints ||| f
  ring : c.fifo.ring → d.fifo.ring
  bfTimer : d.bfTimer ≤ c.bfTimer
  busy : d.busy = c.busy
  budget : d.budget ≤ c.budget
  lines : d.irqLine = c.irqLine ∧ d.drqLine = c.drqLine

/-- What a reaction may do to a Target: its identity, its geometry and the length of its image stay. -/
structure TargetReacts (t u : Target) : Prop where
  id : u.id = t.id
  geom : u.geom = t.geom
  ready : u.ready = t.ready
  mediaChanged : u.mediaChanged = t.mediaChanged
  serial : u.serial = t.serial
  tbusy : u.tbusy = t.tbusy
  imageSize : u.image.map Store.size = t.image.map Store.size
  imageOk : (∀ st, t.image = some st → st.ok) → ∀ st, u.image = some st → st.ok
  bufSorted : Memory.sorted t.buf = true → Memory.sorted u.buf = true

/-- A call that a reaction may make: on the store, for a Target with an image, within it unless it fails. The lines wait
for the end of the event (D33). -/
def Call.inBounds (x : Instance) : Call → Prop
  | .storeRead k off len ok => ∃ t st, x.target? k = some t ∧ t.image = some st ∧ (ok = true → off + len ≤ st.size)
  | .storeWrite k off bs ok =>
    ∃ t st, x.target? k = some t ∧ t.image = some st ∧ (ok = true → off + bs.length ≤ st.size)
  | .irq _ | .drq _ => False

/-- What a reaction may do to the occupant of a slot. -/
def SlotReacts (o p : Option Participant) : Prop :=
  (∃ t u, o = some (.target t) ∧ p = some (.target u) ∧ TargetReacts t u) ∨
  ((∀ t, o ≠ some (.target t)) ∧ p = o)

/-- What a reaction may do to an instance. -/
structure Reacts (x y : Instance) : Prop where
  ctrl : CtrlReacts x.ctrl y.ctrl
  ret : y.ret = x.ret
  kept : y.kept = x.kept
  calls : ∃ l, y.calls = x.calls ++ l ∧ ∀ c ∈ l, c.inBounds x
  draws : x.draws ≤ y.draws
  cb : y.bus.cb = x.bus.cb
  combined : x.bus.combined → y.bus.combined
  slots : ∀ k : Fin 8, SlotReacts x.bus.occ[k] y.bus.occ[k]
  foreign : ∀ k : Fin 7, x.undriven k →
    y.bus.sig[slotAddr k] = x.bus.sig[slotAddr k] ∧ y.bus.dat[slotAddr k] = x.bus.dat[slotAddr k]

theorem keepInts (v : Byte) : ∃ f : Byte, f &&& 0xC2 = 0 ∧ v = v ||| f := ⟨0, by decide, by simp⟩

theorem CtrlReacts.refl (c : Controller) : CtrlReacts c c :=
  ⟨rfl, rfl, rfl, rfl, rfl, rfl, rfl, keepInts _, id, le_refl _, rfl, le_refl _, rfl, rfl⟩

theorem CtrlReacts.trans {c d e : Controller} (h : CtrlReacts c d) (g : CtrlReacts d e) : CtrlReacts c e := by
  obtain ⟨f1, h1, h2⟩ := h.ints
  obtain ⟨f2, g1, g2⟩ := g.ints
  refine ⟨g.bdid.trans h.bdid, g.sctl.trans h.sctl, g.scmd.trans h.scmd, g.sdgc.trans h.sdgc, g.pctl.trans h.pctl,
    g.dreg.trans h.dreg, g.serr.trans h.serr, ⟨f1 ||| f2, ?_, by rw [g2, h2, BitVec.or_assoc]⟩,
    fun hr => g.ring (h.ring hr), le_trans g.bfTimer h.bfTimer, g.busy.trans h.busy, le_trans g.budget h.budget, g.lines.1.trans h.lines.1,
    g.lines.2.trans h.lines.2⟩
  rw [BitVec.and_comm, BitVec.and_or_distrib_left, BitVec.and_comm, h1, BitVec.and_comm, g1]
  rfl

theorem TargetReacts.refl (t : Target) : TargetReacts t t :=
  ⟨rfl, rfl, rfl, rfl, rfl, rfl, rfl, fun h => h, fun h => h⟩

theorem TargetReacts.trans {t u v : Target} (h : TargetReacts t u) (g : TargetReacts u v) : TargetReacts t v :=
  ⟨g.id.trans h.id, g.geom.trans h.geom, g.ready.trans h.ready, g.mediaChanged.trans h.mediaChanged,
    g.serial.trans h.serial, g.tbusy.trans h.tbusy, g.imageSize.trans h.imageSize,
    fun hi => g.imageOk (h.imageOk hi), fun hb => g.bufSorted (h.bufSorted hb)⟩

theorem SlotReacts.refl (o : Option Participant) : SlotReacts o o := by
  by_cases h : ∃ t, o = some (.target t)
  · obtain ⟨t, h⟩ := h
    exact .inl ⟨t, t, h, h, TargetReacts.refl t⟩
  · exact .inr ⟨fun t ht => h ⟨t, ht⟩, rfl⟩

theorem SlotReacts.trans {o p q : Option Participant} (h : SlotReacts o p) (g : SlotReacts p q) : SlotReacts o q := by
  rcases h with ⟨t, u, h1, h2, h3⟩ | ⟨h1, h2⟩
  · rcases g with ⟨u', v, g1, g2, g3⟩ | ⟨g1, g2⟩
    · rw [h2] at g1
      cases g1
      exact .inl ⟨t, v, h1, g2, h3.trans g3⟩
    · exact absurd h2 (g1 u)
  · subst h2
    exact g

/-- The Targets after a reaction. -/
theorem Reacts.target {x y : Instance} (h : Reacts x y) (k : Fin 7) :
    (x.target? k = none ∧ y.target? k = none) ∨
    ∃ t u, x.target? k = some t ∧ y.target? k = some u ∧ TargetReacts t u := by
  rcases h.slots (slotAddr k) with ⟨t, u, h1, h2, h3⟩ | ⟨h1, h2⟩
  · exact .inr ⟨t, u, Instance.target?_eq_some.2 h1, Instance.target?_eq_some.2 h2, h3⟩
  · refine .inl ⟨?_, ?_⟩
    · cases e : x.target? k with
      | none => rfl
      | some t => exact absurd (Instance.target?_eq_some.1 e) (h1 t)
    · cases e : y.target? k with
      | none => rfl
      | some t => exact absurd (h2 ▸ Instance.target?_eq_some.1 e) (h1 t)

/-- A slot that no Target drives stays so. -/
theorem Reacts.undriven {x y : Instance} (h : Reacts x y) {k : Fin 7} (hk : x.undriven k) : y.undriven k := by
  intro j u hu
  rcases h.target j with ⟨-, g⟩ | ⟨t, v, h1, h2, h3⟩
  · rw [g] at hu; cases hu
  · rw [h2] at hu
    cases hu
    rw [h3.id]
    exact hk j t h1

theorem Call.inBounds_of_reacts {x y : Instance} (h : Reacts x y) {c : Call} (hc : c.inBounds y) : c.inBounds x := by
  have key : ∀ k n (ok : Bool), (∃ t st, y.target? k = some t ∧ t.image = some st ∧ (ok = true → n ≤ st.size)) →
      ∃ t st, x.target? k = some t ∧ t.image = some st ∧ (ok = true → n ≤ st.size) := by
    rintro k n ok ⟨t, st, h1, h2, h3⟩
    rcases h.target k with ⟨_, h5⟩ | ⟨u, t', h4, h5, h6⟩
    · rw [h5] at h1; cases h1
    · rw [h5] at h1
      cases h1
      have hs := h6.imageSize
      rw [h2] at hs
      cases hu : u.image with
      | none => rw [hu] at hs; cases hs
      | some st' =>
        rw [hu] at hs
        simp only [Option.map_some, Option.some.injEq] at hs
        exact ⟨u, st', h4, hu, hs ▸ h3⟩
  cases c with
  | irq | drq => exact hc.elim
  | storeRead k off len ok => exact key k _ ok hc
  | storeWrite k off bs ok => exact key k _ ok hc

theorem Reacts.refl (x : Instance) : Reacts x x :=
  ⟨CtrlReacts.refl _, rfl, rfl, ⟨[], by simp, by simp⟩, le_refl _, rfl, id, fun _ => SlotReacts.refl _, fun _ _ => ⟨rfl, rfl⟩⟩

theorem Reacts.trans {x y z : Instance} (h : Reacts x y) (g : Reacts y z) : Reacts x z := by
  obtain ⟨l1, h1, h2⟩ := h.calls
  obtain ⟨l2, g1, g2⟩ := g.calls
  refine ⟨h.ctrl.trans g.ctrl, g.ret.trans h.ret, g.kept.trans h.kept, ⟨l1 ++ l2, by rw [g1, h1, List.append_assoc], ?_⟩,
    le_trans h.draws g.draws, g.cb.trans h.cb, fun hc => g.combined (h.combined hc),
    fun k => (h.slots k).trans (g.slots k), fun k hk => ?_⟩
  · intro c hc
    rcases List.mem_append.1 hc with hc | hc
    · exact h2 c hc
    · exact Call.inBounds_of_reacts h (g2 c hc)
  · obtain ⟨a1, a2⟩ := h.foreign k hk
    obtain ⟨b1, b2⟩ := g.foreign k (h.undriven hk)
    exact ⟨b1.trans a1, b2.trans a2⟩

/-- A reaction calls neither line (D33). -/
theorem Reacts.quiet {x y : Instance} (h : Reacts x y) : y.calls.filter Call.isLine = x.calls.filter Call.isLine := by
  obtain ⟨l, h1, h2⟩ := h.calls
  have hl : l.filter Call.isLine = [] := by
    rw [List.filter_eq_nil_iff]
    intro c hc
    have := h2 c hc
    cases c with
    | irq | drq => exact this.elim
    | storeRead | storeWrite => simp [Call.isLine]
  rw [h1, List.filter_append, hl, List.append_nil]

/-! ### Primitives -/

/-- A change of the Controller alone. -/
theorem Reacts.modCtrl {x : Instance} {f : Controller → Controller} (h : CtrlReacts x.ctrl (f x.ctrl)) :
    Reacts x (x.modCtrl f) :=
  ⟨h, rfl, rfl, ⟨[], by simp, by simp⟩, le_refl _, rfl, id, fun _ => SlotReacts.refl _, fun _ _ => ⟨rfl, rfl⟩⟩

/-- A change of the Bus that leaves the occupants, the callback and the slots that no Target drives. -/
theorem Reacts.setBus {x : Instance} {b : Bus} (ho : b.occ = x.bus.occ) (hc : b.cb = x.bus.cb) (hb : b.combined)
    (hf : ∀ k : Fin 7, x.undriven k →
      b.sig[slotAddr k] = x.bus.sig[slotAddr k] ∧ b.dat[slotAddr k] = x.bus.dat[slotAddr k]) :
    Reacts x { x with bus := b } :=
  ⟨CtrlReacts.refl _, rfl, rfl, ⟨[], by simp, by simp⟩, le_refl _, hc, fun _ => hb, fun k => ho ▸ SlotReacts.refl _, hf⟩

/-- Whose lines a slot's are: the Controller's, or those of a Target that is there. -/
def Instance.driven (x : Instance) (id : Fin 8) : Prop := ∀ k, slotAddr k = id → ¬x.undriven k

theorem driven_7 (x : Instance) : x.driven 7 := fun k h => absurd h (slotAddr_ne_7 k)

theorem driven_of {x : Instance} {j : Fin 7} {t : Target} (h : x.target? j = some t) : x.driven (slotAddr t.id) :=
  fun _ hk hu => hu j t h (slotAddr_inj hk).symm

theorem Reacts.driven {x y : Instance} (h : Reacts x y) {id : Fin 8} (hd : x.driven id) : y.driven id := by
  intro k hk hu
  refine hd k hk fun j t ht => ?_
  rcases h.target j with ⟨g, -⟩ | ⟨t', u, h1, h2, h3⟩
  · rw [g] at ht; cases ht
  · rw [h1] at ht
    cases ht
    exact h3.id ▸ hu j u h2

/-- A write to a driven slot leaves the others (R95, R96). -/
theorem driven_writes {x : Instance} {id : Fin 8} (h : x.driven id) (a : Ctl) (v : Byte) (k : Fin 7) (hk : x.undriven k) :
    (x.bus.sig.set id a)[slotAddr k] = x.bus.sig[slotAddr k] ∧ (x.bus.dat.set id v)[slotAddr k] = x.bus.dat[slotAddr k] := by
  have hne : id.val ≠ (slotAddr k).val := fun e => h k (Fin.ext e.symm) hk
  exact ⟨Vector.getElem_set_ne _ _ hne, Vector.getElem_set_ne _ _ hne⟩

/-- A change of one Target. -/
theorem Reacts.modTarget {x : Instance} {k : Fin 7} {f : Target → Target} (h : ∀ t, TargetReacts t (f t)) :
    Reacts x (x.modTarget k f) := by
  cases ht : x.target? k with
  | none => rw [Instance.modTarget_none ht]; exact Reacts.refl x
  | some t =>
    rw [Instance.modTarget_some ht]
    refine ⟨CtrlReacts.refl _, rfl, rfl, ⟨[], by simp, by simp⟩, le_refl _, rfl, id, fun j => ?_, fun _ _ => ⟨rfl, rfl⟩⟩
    by_cases hj : slotAddr k = j
    · subst hj
      refine .inl ⟨t, f t, Instance.target?_eq_some.1 ht, ?_, h t⟩
      simp [Instance.withTarget]
    · have : (x.withTarget k (f t)).bus.occ[j] = x.bus.occ[j] := by
        have hne : (slotAddr k).val ≠ j.val := fun e => hj (Fin.ext e)
        simp only [Instance.withTarget, Fin.getElem_fin]
        exact Vector.getElem_set_ne _ _ hne
      rw [this]
      exact SlotReacts.refl _

/-- A change of a Target that is there. -/
theorem Reacts.withTarget {x : Instance} {k : Fin 7} {t u : Target} (ht : x.target? k = some t) (h : TargetReacts t u) :
    Reacts x (x.withTarget k u) := by
  refine ⟨CtrlReacts.refl _, rfl, rfl, ⟨[], by simp, by simp⟩, le_refl _, rfl, id, fun j => ?_, fun _ _ => ⟨rfl, rfl⟩⟩
  by_cases hj : slotAddr k = j
  · subst hj
    refine .inl ⟨t, u, Instance.target?_eq_some.1 ht, ?_, h⟩
    simp [Instance.withTarget]
  · have : (x.withTarget k u).bus.occ[j] = x.bus.occ[j] := by
      have hne : (slotAddr k).val ≠ j.val := fun e => hj (Fin.ext e)
      simp only [Instance.withTarget, Fin.getElem_fin]
      exact Vector.getElem_set_ne _ _ hne
    rw [this]
    exact SlotReacts.refl _

theorem Reacts.unsettled (x : Instance) : Reacts x { x with unsettled := true } :=
  ⟨CtrlReacts.refl _, rfl, rfl, ⟨[], by simp, by simp⟩, le_refl _, rfl, id, fun _ => SlotReacts.refl _, fun _ _ => ⟨rfl, rfl⟩⟩

theorem Reacts.logCall {x : Instance} {c : Call} (h : c.inBounds x) : Reacts x (x.logCall c) :=
  ⟨CtrlReacts.refl _, rfl, rfl, ⟨[c], rfl, by simpa using h⟩, le_refl _, rfl, id, fun _ => SlotReacts.refl _, fun _ _ => ⟨rfl, rfl⟩⟩

theorem Reacts.nextDraw (x : Instance) : Reacts x (nextDraw x) :=
  ⟨CtrlReacts.refl _, rfl, rfl, ⟨[], by simp, by simp⟩, Nat.le_succ _, rfl, id, fun _ => SlotReacts.refl _, fun _ _ => ⟨rfl, rfl⟩⟩

/-- An operation that only reacts. -/
abbrev Reacting (f : Instance → Instance) : Prop := ∀ x, Reacts x (f x)

section
variable {n : Instance → Instance} (hn : Reacting n)
include hn

theorem changeBus_reacts {x : Instance} {b : Bus} (h : Reacts x { x with bus := b }) : Reacts x (changeBus n x b) := by
  rcases changeBus_cases n x b with ⟨_, g⟩ | ⟨_, g⟩
  · rw [g]; exact h
  · rw [g]; exact h.trans (hn _)

omit hn in
theorem writeControl_reacts (id : Fin 8) (v m : Ctl) {x : Instance} (h : x.driven id) :
    Reacts x { x with bus := x.bus.writeControl id v m } :=
  Reacts.setBus rfl rfl (Bus.writeControl_combined _ _ _ _) fun k hk => ⟨(driven_writes h _ 0 k hk).1, rfl⟩

theorem setControl_reacts (id : Fin 8) (v m : Ctl) {x : Instance} (h : x.driven id) : Reacts x (setControl n id v m x) :=
  changeBus_reacts hn (writeControl_reacts id v m h)

omit hn in
theorem setData_reacts (id : Fin 8) (v : Byte) {x : Instance} (h : x.driven id) : Reacts x (setData id v x) :=
  Reacts.setBus rfl rfl (Bus.writeData_combined _ _ _) fun k hk => ⟨rfl, (driven_writes h 0 v k hk).2⟩

omit hn in
theorem driveData_reacts (v : Byte) : Reacting (driveData v) := fun x => setData_reacts 7 v (driven_7 x)

theorem drive_reacts (v m : Ctl) : Reacting (drive n v m) := by
  intro x
  unfold drive
  split
  · exact Reacts.modCtrl
      ⟨rfl, rfl, rfl, rfl, rfl, rfl, rfl, keepInts _, id, le_refl _, rfl, le_refl _, rfl, rfl⟩
  · exact setControl_reacts hn 7 v m (driven_7 x)

omit hn in
theorem raiseInt_reacts {f : Byte} (hf : f &&& 0xC2 = 0) : Reacting (raiseInt f) :=
  fun _ => Reacts.modCtrl ⟨rfl, rfl, rfl, rfl, rfl, rfl, rfl, ⟨f, hf, rfl⟩, id, le_refl _, rfl, le_refl _, rfl, rfl⟩

omit hn in
theorem raiseCC_reacts : Reacting (raiseInt intCC) := raiseInt_reacts (by decide)

omit hn in
theorem raiseTO_reacts : Reacting (raiseInt intTO) := raiseInt_reacts (by decide)

omit hn in
theorem raiseRC_reacts : Reacting (raiseInt intRC) := raiseInt_reacts (by decide)

omit hn in
theorem raiseDISCONNECT_reacts : Reacting (raiseInt intDISCONNECT) := raiseInt_reacts (by decide)

/-! ### The engine -/

omit hn in
theorem goto_reacts (t : EngineState) (d : Nat) (x : Instance) : Reacts x (goto t d x).2 := by
  unfold goto
  split
  · exact Reacts.modCtrl (f := fun c => { c with budget := c.budget - d, state := t })
      ⟨rfl, rfl, rfl, rfl, rfl, rfl, rfl, keepInts _, id, le_refl _, rfl, Nat.sub_le _ _, rfl, rfl⟩
  · exact Reacts.modCtrl (f := fun c => { c with pending := some (t, d - c.budget), budget := 0 })
      ⟨rfl, rfl, rfl, rfl, rfl, rfl, rfl, keepInts _, id, le_refl _, rfl, Nat.zero_le _, rfl, rfl⟩

omit hn in
theorem toIdle_reacts : Reacting toIdle :=
  fun _ => Reacts.modCtrl ⟨rfl, rfl, rfl, rfl, rfl, rfl, rfl, keepInts _, id, le_refl _, rfl, le_refl _, rfl, rfl⟩

omit hn in
/-- An operation that only reacts only reacts under the guard too, and the guard is put back. -/
theorem guarded_reacts {f : Instance → Instance} (hf : Reacting f) : Reacting (guarded f) := by
  intro x
  have h := hf (x.modCtrl fun c => { c with busy := true })
  unfold guarded
  generalize f (x.modCtrl fun c => { c with busy := true }) = y at h ⊢
  have hx : ∀ c : Call, c.inBounds (x.modCtrl fun c => { c with busy := true }) → c.inBounds x :=
    fun c hc => by cases c <;> exact hc
  obtain ⟨l, g1, g2⟩ := h.calls
  exact ⟨⟨h.ctrl.bdid, h.ctrl.sctl, h.ctrl.scmd, h.ctrl.sdgc, h.ctrl.pctl, h.ctrl.dreg, h.ctrl.serr, h.ctrl.ints,
    h.ctrl.ring, h.ctrl.bfTimer, rfl, h.ctrl.budget, h.ctrl.lines⟩, h.ret, h.kept, ⟨l, g1, fun c hc => hx c (g2 c hc)⟩, h.draws, h.cb,
    h.combined, h.slots, h.foreign⟩

theorem releaseSelection_reacts : Reacting (releaseSelection n) :=
  fun x => (guarded_reacts (drive_reacts hn _ _) x).trans (driveData_reacts _ _)

theorem abortTransfer_reacts {f : Byte} (hf : f &&& 0xC2 = 0) : Reacting (abortTransfer n f) := by
  intro x
  have h1 := (drive_reacts hn 0 sigACK x).trans (driveData_reacts 0 _)
  have h2 : Reacts (driveData 0 (drive n 0 sigACK x)) ((driveData 0 (drive n 0 sigACK x)).modCtrl fun c =>
      { c with fifo := if c.xferIn then c.fifo else c.fifo.clear }) := by
    refine .modCtrl ⟨rfl, rfl, rfl, rfl, rfl, rfl, rfl, keepInts _, fun h => ?_, le_refl _, rfl,
      le_refl _, rfl, rfl⟩
    simp only
    split
    · exact h
    · exact Fifo.clear_ring _
  have h3 := (h1.trans h2).trans (raiseInt_reacts hf _)
  exact h3.trans (.modCtrl (f := fun c =>
    { c with state := .idle, pending := none, xferDma := false, xferTerm := false })
    ⟨rfl, rfl, rfl, rfl, rfl, rfl, rfl, keepInts _, id, le_refl _, rfl, le_refl _, rfl, rfl⟩)

theorem selectionTimeout_reacts : Reacting (selectionTimeout n) := fun x =>
  ((releaseSelection_reacts hn x).trans (raiseTO_reacts _)).trans (.modCtrl
    ⟨rfl, rfl, rfl, rfl, rfl, rfl, rfl, keepInts _, id, le_refl _, rfl, le_refl _, rfl, rfl⟩)

/-- Every evaluation of the engine's state only reacts (R180 to R204). -/
theorem engineStep_reacts (e : Env) (x : Instance) : Reacts x (engineStep e n x).2 := by
  unfold engineStep
  split
  · exact Reacts.refl x
  · unfold engArbWaitFree; split
    · exact goto_reacts _ _ _
    · exact Reacts.refl x
  · exact ((driveData_reacts _ x).trans (drive_reacts hn _ _ _)).trans (goto_reacts _ _ _)
  · unfold engArbWait; split
    · exact ((drive_reacts hn _ _ x).trans (driveData_reacts _ _)).trans (toIdle_reacts _)
    · exact goto_reacts _ _ _
  · exact (drive_reacts hn _ _ x).trans (goto_reacts _ _ _)
  · unfold engSelWaitFree; split
    · exact goto_reacts _ _ _
    · exact Reacts.refl x
  · exact (driveData_reacts _ x).trans (goto_reacts _ _ _)
  · refine (drive_reacts hn _ _ x).trans (.trans (.modCtrl ?_) (goto_reacts _ _ _))
    exact ⟨rfl, rfl, rfl, rfl, rfl, rfl, rfl, keepInts _, id, le_refl _, rfl, le_refl _, rfl, rfl⟩
  · unfold engSelWaitBsy; split
    · refine Reacts.trans (.modCtrl ?_) (goto_reacts _ _ _)
      exact ⟨rfl, rfl, rfl, rfl, rfl, rfl, rfl, keepInts _, id, le_refl _, rfl, le_refl _, rfl, rfl⟩
    · exact Reacts.refl x
  · simp only [engSelSuccess]
    generalize (if x.ctrl.dm = true then x.ctrl.diagSig else x.bus.sig[7]) = own
    split
    · have h1 := (drive_reacts hn 0 sigSEL x).trans (driveData_reacts 0 _)
      have h2 := h1.trans (.modCtrl (f := fun c => { c with connected := true })
        ⟨rfl, rfl, rfl, rfl, rfl, rfl, rfl, keepInts _, id, le_refl _, rfl, le_refl _, rfl, rfl⟩)
      exact (h2.trans (raiseCC_reacts _)).trans (toIdle_reacts _)
    · exact Reacts.refl x
  · simp only [engXferWaitReq]; split
    · show Reacts x (abortDisconnect n x)
      refine (abortTransfer_reacts hn (f := intDISCONNECT) (by decide) x).trans (.modCtrl ?_)
      exact ⟨rfl, rfl, rfl, rfl, rfl, rfl, rfl, keepInts _, id, le_refl _, rfl, le_refl _, rfl, rfl⟩
    · split
      · exact abortTransfer_reacts hn (f := intSR) (by decide) x
      · split
        · exact goto_reacts _ _ _
        · exact Reacts.refl x
  · unfold engXferSendData; split
    · exact (driveData_reacts _ x).trans (goto_reacts _ _ _)
    · split
      · exact Reacts.refl x
      · refine (Reacts.modCtrl (f := fun c => { c with fifo := c.fifo.pop }) ?_).trans
          ((driveData_reacts _ _).trans (goto_reacts _ _ _))
        exact ⟨rfl, rfl, rfl, rfl, rfl, rfl, rfl, keepInts _, Fifo.pop_ring _, le_refl _, rfl, le_refl _, rfl, rfl⟩
  · simp only [engXferRecvData]; split
    · refine Reacts.trans (.modCtrl ?_) (goto_reacts _ _ _)
      exact ⟨rfl, rfl, rfl, rfl, rfl, rfl, rfl, keepInts _, id, le_refl _, rfl, le_refl _, rfl, rfl⟩
    · split
      · exact Reacts.refl x
      · refine Reacts.trans (.modCtrl ?_) (goto_reacts _ _ _)
        exact ⟨rfl, rfl, rfl, rfl, rfl, rfl, rfl, keepInts _, Fifo.push_ring _ _, le_refl _, rfl,
          le_refl _, rfl, rfl⟩
  · simp only [engXferSendAck]
    refine .trans ?_ (goto_reacts _ _ _)
    split
    · refine (drive_reacts hn _ _ x).trans (.modCtrl ?_)
      exact ⟨rfl, rfl, rfl, rfl, rfl, rfl, rfl, keepInts _, id, le_refl _, rfl, le_refl _, rfl, rfl⟩
    · exact drive_reacts hn _ _ x
  · unfold engXferWaitDeassertReq; split
    · exact Reacts.refl x
    · exact goto_reacts _ _ _
  · simp only [engXferDeassertAck]
    refine .trans (.modCtrl (f := fun c => { c with tc := if c.tc = 0 then c.tc else c.tc - 1 }) ?_) (.trans ?_
      ((drive_reacts hn _ _ _).trans (goto_reacts _ _ _)))
    · exact ⟨rfl, rfl, rfl, rfl, rfl, rfl, rfl, keepInts _, id, le_refl _, rfl, le_refl _, rfl, rfl⟩
    · split
      · exact Reacts.refl _
      · exact driveData_reacts _ _
  · unfold engXferWaitFifoEmpty; split
    · exact ((driveData_reacts 0 x).trans (raiseCC_reacts _)).trans (.modCtrl
        (f := fun c => { c with state := .idle, xferDma := false, xferTerm := false })
        ⟨rfl, rfl, rfl, rfl, rfl, rfl, rfl, keepInts _, id, le_refl _, rfl, le_refl _, rfl, rfl⟩)
    · exact Reacts.refl x

theorem engineLoop_reacts (e : Env) (m : Nat) : Reacting (engineLoop e n m) := by
  induction m with
  | zero => exact fun x => Reacts.unsettled x
  | succ m ih =>
    intro x
    simp only [engineLoop]
    have h : Reacts x (if x.ctrl.pending = none then engineStep e n x else (.stay, x)).2 := by
      split
      · exact engineStep_reacts hn e x
      · exact Reacts.refl x
    generalize (if x.ctrl.pending = none then engineStep e n x else (.stay, x)) = r at h ⊢
    split
    · exact h.trans (ih _)
    · split
      · refine h.trans (.trans (.modCtrl ?_) (ih _))
        exact ⟨rfl, rfl, rfl, rfl, rfl, rfl, rfl, keepInts _, id, le_refl _, rfl, le_refl _, rfl, rfl⟩
      · exact h

/-- The guard is put back, so a run of the engine only reacts, `busy` included (R174). -/
theorem runEngine_reacts (e : Env) : Reacting (runEngine e n) := by
  intro x
  unfold runEngine
  split
  · exact Reacts.modCtrl
      ⟨rfl, rfl, rfl, rfl, rfl, rfl, rfl, keepInts _, id, le_refl _, rfl, le_refl _, rfl, rfl⟩
  · rename_i hb
    have h := engineLoop_reacts hn e loopBound (x.modCtrl fun c => { c with busy := true, renotify := false })
    obtain ⟨hc, h1, h7, h2, h3, h4, h5, h6, h8⟩ := h
    exact ⟨⟨hc.bdid, hc.sctl, hc.scmd, hc.sdgc, hc.pctl, hc.dreg, hc.serr, hc.ints, hc.ring, hc.bfTimer,
      by simpa using hb, hc.budget, hc.lines⟩, h1, h7, h2, h3, h4, h5, h6, h8⟩

omit hn in
theorem checkDisconnect_reacts (e : Env) : Reacting (checkDisconnect e) := by
  intro x
  unfold checkDisconnect
  split
  · refine Reacts.trans (.modCtrl (f := fun c => { c with connected := false }) ?_) ?_
    · exact ⟨rfl, rfl, rfl, rfl, rfl, rfl, rfl, keepInts _, id, le_refl _, rfl, le_refl _, rfl, rfl⟩
    · simp only
      split
      · exact raiseDISCONNECT_reacts _
      · exact Reacts.refl _
  · exact Reacts.refl x

theorem checkRst_reacts : Reacting (checkRst n) := by
  intro x
  simp only [checkRst]
  refine Reacts.trans ?_ (.modCtrl
    ⟨rfl, rfl, rfl, rfl, rfl, rfl, rfl, keepInts _, id, le_refl _, rfl, le_refl _, rfl, rfl⟩)
  split
  · split
    · refine (raiseRC_reacts x).trans ((releaseSelection_reacts hn _).trans (.modCtrl ?_))
      exact ⟨rfl, rfl, rfl, rfl, rfl, rfl, rfl, keepInts _, fun _ => Fifo.clear_ring _, le_refl _, rfl,
        le_refl _, rfl, rfl⟩
    · exact raiseRC_reacts x
  · exact Reacts.refl x

theorem onBusChange_reacts (e : Env) : Reacting (onBusChange e n) := by
  intro x
  simp only [onBusChange]
  refine Reacts.trans ?_ ((checkRst_reacts hn _).trans ((checkDisconnect_reacts e _).trans
    (runEngine_reacts hn e _)))
  split
  · exact Reacts.refl x
  · exact .modCtrl ⟨rfl, rfl, rfl, rfl, rfl, rfl, rfl, keepInts _, id, Nat.zero_le _, rfl, le_refl _, rfl, rfl⟩

/-- The common tail is a reaction, and then the lines follow (R111). -/
theorem tail_settles (e : Env) (x : Instance) : ∃ y, Reacts x y ∧ tail e n x = updateLines y :=
  ⟨_, runEngine_reacts hn e x, rfl⟩

end

end Sys2Proof.Machine
end

