-- ==== Sys2Proof/Laws/Notify.lean ====
section
/-! SUPPORT. The Targets' activities and the whole notification only react (`Reacts`), whatever their depth. -/

namespace Sys2Proof.Machine

/-- A change of fields of a Target that no law of `TargetReacts` speaks of. -/
theorem TargetReacts.plain {t u : Target} (h1 : u.id = t.id) (h2 : u.geom = t.geom) (h3 : u.ready = t.ready)
    (h4 : u.mediaChanged = t.mediaChanged) (h5 : u.serial = t.serial) (h6 : u.tbusy = t.tbusy)
    (h7 : u.image = t.image) (h8 : u.buf = t.buf) : TargetReacts t u :=
  ⟨h1, h2, h3, h4, h5, h6, by rw [h7], by rw [h7]; exact fun h => h, by rw [h8]; exact fun h => h⟩

/-! ### Commands -/

theorem good_reacts (t : Target) : TargetReacts t (good t) := .plain rfl rfl rfl rfl rfl rfl rfl rfl

theorem checkCondition_reacts (p : Params) (key : BitVec 4) (asc ascq : Byte) (lba : Option Nat) (t : Target) :
    TargetReacts t (checkCondition p key asc ascq lba t) := .plain rfl rfl rfl rfl rfl rfl rfl rfl

theorem dataIn_reacts (n : Nat) (t : Target) : TargetReacts t (dataIn n t) := by
  unfold dataIn
  split
  · exact good_reacts t
  · exact .plain rfl rfl rfl rfl rfl rfl rfl rfl

theorem dataOut_reacts (n : Nat) (t : Target) : TargetReacts t (dataOut n t) := by
  unfold dataOut
  split
  · exact good_reacts t
  · exact .plain rfl rfl rfl rfl rfl rfl rfl rfl

theorem fillFromStart_reacts (bs : List Byte) (t : Target) : TargetReacts t (fillFromStart bs t) :=
  ⟨rfl, rfl, rfl, rfl, rfl, rfl, rfl, fun h => h, sorted_bufFill 0 bs⟩

theorem clearSense_reacts (t : Target) : TargetReacts t (clearSense t) := .plain rfl rfl rfl rfl rfl rfl rfl rfl

theorem needMedium_cases (p : Params) (t : Target) :
    (t.image = none ∧ needMedium p t = some (checkCondition p 0x2 0x3A 0x00 none t)) ∨
    (t.image ≠ none ∧ needMedium p t = none) := by
  unfold needMedium
  cases h : t.image with
  | none => exact .inl ⟨rfl, rfl⟩
  | some st => exact .inr ⟨by simp, rfl⟩

theorem needMedium_reacts {p : Params} {t u : Target} (h : needMedium p t = some u) : TargetReacts t u := by
  unfold needMedium at h
  split at h
  · cases h; exact checkCondition_reacts _ _ _ _ _ _
  · cases h

theorem inRange_reacts {p : Params} {lba blocks : Nat} {t u : Target} (h : inRange p lba blocks t = some u) :
    TargetReacts t u := by
  unfold inRange at h
  split at h
  · cases h; exact checkCondition_reacts _ _ _ _ _ _
  · cases h

theorem fits_reacts {p : Params} {blocks : Nat} {t u : Target} (h : fits p blocks t = some u) : TargetReacts t u := by
  unfold fits at h
  split at h
  · cases h; exact checkCondition_reacts _ _ _ _ _ _
  · cases h

theorem afterChecks_reacts {checks : List Check} {t u : Target} (h : ∀ c ∈ checks, ∀ v, c = some v → TargetReacts t v)
    (hu : TargetReacts t u) : TargetReacts t (afterChecks checks u) := by
  unfold afterChecks
  cases hf : checks.findSome? id with
  | none => exact hu
  | some v =>
    obtain ⟨c, hc, hv⟩ := List.exists_of_findSome?_eq_some hf
    exact h c hc v hv

theorem rwChecks_reacts {p : Params} {lba blocks : Nat} {t u : Target} (h : rwChecks p lba blocks t = some u) :
    TargetReacts t u := by
  obtain ⟨c, hc, hv⟩ := List.exists_of_findSome?_eq_some h
  simp only [List.mem_cons, List.not_mem_nil, or_false] at hc
  rcases hc with rfl | rfl | rfl
  · exact needMedium_reacts hv
  · exact inRange_reacts hv
  · exact fits_reacts hv

theorem testUnitReady_reacts (p : Params) (t : Target) : TargetReacts t (testUnitReady p t) :=
  afterChecks_reacts (by simpa using fun v hv => needMedium_reacts hv) (good_reacts t)

theorem rezeroUnit_reacts (p : Params) (t : Target) : TargetReacts t (rezeroUnit p t) :=
  afterChecks_reacts (by simpa using fun v hv => needMedium_reacts hv) (good_reacts t)

theorem requestSense_reacts (t : Target) : TargetReacts t (requestSense t) :=
  ((fillFromStart_reacts _ t).trans (clearSense_reacts _)).trans (dataIn_reacts _ _)

theorem seek6_reacts (p : Params) (t : Target) : TargetReacts t (seek6 p t) :=
  afterChecks_reacts (by simpa using ⟨fun v hv => needMedium_reacts hv, fun v hv => inRange_reacts hv⟩) (good_reacts t)

theorem inquiry_reacts (p : Params) (t : Target) : TargetReacts t (inquiry p t) :=
  (fillFromStart_reacts _ t).trans (dataIn_reacts _ _)

theorem modeSense6_reacts (p : Params) (t : Target) : TargetReacts t (modeSense6 p t) := by
  simp only [modeSense6]
  split
  · exact checkCondition_reacts _ _ _ _ _ _
  · exact (fillFromStart_reacts _ t).trans (dataIn_reacts _ _)

theorem readCapacity_reacts (p : Params) (t : Target) : TargetReacts t (readCapacity p t) :=
  afterChecks_reacts (by simpa using fun v hv => needMedium_reacts hv)
    ((fillFromStart_reacts _ t).trans (dataIn_reacts _ _))

theorem verify10_reacts (p : Params) (t : Target) : TargetReacts t (verify10 p t) := by
  unfold verify10
  split
  · exact checkCondition_reacts _ _ _ _ _ _
  · exact afterChecks_reacts (by simpa using ⟨fun v hv => needMedium_reacts hv, fun v hv => inRange_reacts hv⟩)
      (good_reacts t)

/-! ### The store -/

theorem drawFails_storeRead (e : Env) (k : Fin 7) (off len : Nat) (x : Instance) :
    Reacts x (storeRead e k off len x).2 := by
  unfold storeRead
  cases h : (x.target? k).bind Target.image with
  | none => exact Reacts.refl x
  | some st =>
    obtain ⟨t, ht, hi⟩ := Option.bind_eq_some_iff.1 h
    refine (Reacts.logCall ?_).trans (Reacts.nextDraw _)
    refine ⟨t, st, ht, hi, fun hok => ?_⟩
    simp only [Bool.and_eq_true, decide_eq_true_eq] at hok
    exact hok.2

/-- A store read only reacts (R50). -/
theorem storeRead_reacts (e : Env) (k : Fin 7) (off len : Nat) (x : Instance) :
    Reacts x (storeRead e k off len x).2 := drawFails_storeRead e k off len x

/-- A store write only reacts: the image keeps its length and its form (R50). -/
theorem storeWrite_reacts (e : Env) (k : Fin 7) (off : Nat) (data : List Byte) (x : Instance) :
    Reacts x (storeWrite e k off data x).2 := by
  unfold storeWrite
  cases h : (x.target? k).bind Target.image with
  | none => exact Reacts.refl x
  | some st =>
    obtain ⟨t, ht, hi⟩ := Option.bind_eq_some_iff.1 h
    simp only
    generalize hw : (if (!drawFails e x && decide (off + data.length ≤ st.size)) = true then st.writeRange off data
      else st.writeMixed off (e.p.storeTakesNew e.id x.draws) 0 data) = st'
    have hs : st'.size = st.size := by rw [← hw]; split <;> simp
    have hk : st.ok → st'.ok := by
      intro hst
      rw [← hw]
      split
      · exact Store.writeRange_ok off data hst
      · exact Store.writeMixed_ok off _ 0 data hst
    have h1 : Reacts x (x.withTarget k { t with image := some st' }) := by
      refine Reacts.withTarget ht ⟨rfl, rfl, rfl, rfl, rfl, rfl, by simp [hi, hs], fun hall s' h' => ?_, fun hb => hb⟩
      cases h'
      exact hk (hall st hi)
    rw [Instance.modTarget_some ht]
    refine h1.trans ((Reacts.logCall ?_).trans (Reacts.nextDraw _))
    refine ⟨{ t with image := some st' }, st', Instance.withTarget_target?_same _ _ _, rfl, fun hok => ?_⟩
    simp only [Bool.and_eq_true, decide_eq_true_eq] at hok
    exact hs ▸ hok.2

theorem bufFill_reacts (j : Nat) (bs : List Byte) (t : Target) :
    TargetReacts t { t with buf := bufFill t.buf j bs } :=
  ⟨rfl, rfl, rfl, rfl, rfl, rfl, rfl, fun h => h, sorted_bufFill j bs⟩

theorem stageSectors_reacts (e : Env) (k : Fin 7) (lba bps blocks left : Nat) :
    Reacting (stageSectors e k lba bps blocks left) := by
  induction left with
  | zero => exact fun x => Reacts.modTarget (dataIn_reacts _)
  | succ m ih =>
    intro x
    have h := storeRead_reacts e k ((lba + (blocks - (m + 1))) * bps) bps x
    simp only [stageSectors]
    cases hr : storeRead e k ((lba + (blocks - (m + 1))) * bps) bps x with
    | mk o y =>
      rw [hr] at h
      cases o with
      | none => exact h.trans (Reacts.modTarget fun t => checkCondition_reacts _ _ _ _ _ _)
      | some bs => exact (h.trans (Reacts.modTarget fun t => bufFill_reacts _ _ t)).trans (ih _)

theorem doRead_reacts (e : Env) (k : Fin 7) (lba blocks : Nat) : Reacting (doRead e k lba blocks) := by
  intro x
  unfold doRead
  cases ht : x.target? k with
  | none => exact Reacts.refl x
  | some t =>
    simp only
    cases hc : rwChecks e.p lba blocks t with
    | some u => simp only; rw [Instance.modTarget_some ht]; exact Reacts.withTarget ht (rwChecks_reacts hc)
    | none =>
      refine (Reacts.modTarget (k := k) (f := fun t => { t with lba := BitVec.ofNat 32 lba, blocks := blocks })
        ?_).trans (stageSectors_reacts _ _ _ _ _ _ _)
      exact fun t => .plain rfl rfl rfl rfl rfl rfl rfl rfl

theorem doWrite_reacts (e : Env) (k : Fin 7) (lba blocks : Nat) : Reacting (doWrite e k lba blocks) := by
  intro x
  refine Reacts.modTarget fun t => ?_
  cases hc : rwChecks e.p lba blocks t with
  | some u => exact rwChecks_reacts hc
  | none =>
    have h : TargetReacts t { t with lba := BitVec.ofNat 32 lba, blocks := blocks } :=
      .plain rfl rfl rfl rfl rfl rfl rfl rfl
    exact h.trans (dataOut_reacts _ _)

theorem read6_reacts (e : Env) (k : Fin 7) : Reacting (read6 e k) := by
  intro x; unfold read6; split
  · exact Reacts.refl x
  · exact doRead_reacts _ _ _ _ x

theorem read10_reacts (e : Env) (k : Fin 7) : Reacting (read10 e k) := by
  intro x; unfold read10; split
  · exact Reacts.refl x
  · exact doRead_reacts _ _ _ _ x

theorem write6_reacts (e : Env) (k : Fin 7) : Reacting (write6 e k) := by
  intro x; unfold write6; split
  · exact Reacts.refl x
  · exact doWrite_reacts _ _ _ _ x

theorem write10_reacts (e : Env) (k : Fin 7) : Reacting (write10 e k) := by
  intro x; unfold write10; split
  · exact Reacts.refl x
  · exact doWrite_reacts _ _ _ _ x

/-- Every Target command only reacts: it touches neither the Bus nor the Controller (R250). -/
theorem executeCdb_reacts (e : Env) (k : Fin 7) : Reacting (executeCdb e k) := by
  intro x
  unfold executeCdb
  split
  · exact Reacts.refl x
  · split
    · exact Reacts.modTarget (testUnitReady_reacts _)
    · exact Reacts.modTarget (rezeroUnit_reacts _)
    · exact Reacts.modTarget requestSense_reacts
    · exact Reacts.modTarget good_reacts
    · exact read6_reacts e k x
    · exact write6_reacts e k x
    · exact Reacts.modTarget (seek6_reacts _)
    · exact Reacts.modTarget (inquiry_reacts _)
    · exact Reacts.modTarget fun t => dataOut_reacts _ t
    · exact Reacts.modTarget (modeSense6_reacts _)
    · exact Reacts.modTarget good_reacts
    · exact Reacts.modTarget (readCapacity_reacts _)
    · exact read10_reacts e k x
    · exact write10_reacts e k x
    · exact Reacts.modTarget (verify10_reacts _)
    · exact Reacts.modTarget fun t => checkCondition_reacts _ _ _ _ _ _

theorem flushSector_reacts (e : Env) (k : Fin 7) : Reacting (flushSector e k) := by
  intro x
  unfold flushSector
  cases ht : x.target? k with
  | none => exact Reacts.refl x
  | some t =>
    simp only
    have h := storeWrite_reacts e k ((t.lba.toNat + (t.cur / t.geom.bps - 1)) * t.geom.bps)
      (bufSlice e t ((t.cur / t.geom.bps - 1) * t.geom.bps) t.geom.bps) x
    cases hr : storeWrite e k ((t.lba.toNat + (t.cur / t.geom.bps - 1)) * t.geom.bps)
        (bufSlice e t ((t.cur / t.geom.bps - 1) * t.geom.bps) t.geom.bps) x with
    | mk b y =>
      rw [hr] at h
      cases b with
      | true => exact h
      | false => exact h.trans (Reacts.modTarget fun t => .plain rfl rfl rfl rfl rfl rfl rfl rfl)

/-! ### The responder -/

section
variable {n : Instance → Instance} (hn : Reacting n)
include hn

theorem releaseBus_reacts (id : Fin 7) {x : Instance} (h : x.driven (slotAddr id)) : Reacts x (releaseBus n id x) := by
  have h1 := setData_reacts (slotAddr id) 0 h
  exact h1.trans (setControl_reacts hn _ _ _ (h1.driven h))

omit hn in
theorem takeByte_reacts (e : Env) (k : Fin 7) (t : Target) (d : Byte) : Reacting (takeByte e k t d) := by
  intro x
  have hb : ∀ t : Target, TargetReacts t (storeDataByte d t) := fun t =>
    ⟨rfl, rfl, rfl, rfl, rfl, rfl, rfl, fun h => h, Memory.sorted_insert _ _⟩
  unfold takeByte
  split
  · exact Reacts.modTarget fun t => .plain rfl rfl rfl rfl rfl rfl rfl rfl
  · simp only
    split
    · exact (Reacts.modTarget hb).trans (flushSector_reacts e k _)
    · exact Reacts.modTarget hb
  · exact Reacts.modTarget fun t => .plain rfl rfl rfl rfl rfl rfl rfl rfl
  · exact Reacts.refl x

theorem presentByte_reacts (e : Env) (k : Fin 7) (t : Target) {x : Instance} (h : x.driven (slotAddr t.id)) :
    Reacts x (presentByte e n k t x) := by
  have h1 := setData_reacts (slotAddr t.id) (if t.outward then 0 else nextInByte e t) h
  exact (h1.trans (setControl_reacts hn _ _ _ (h1.driven h))).trans
    (Reacts.modTarget fun _ => .plain rfl rfl rfl rfl rfl rfl rfl rfl)

theorem answerAck_reacts (e : Env) (k : Fin 7) (t : Target) (d : Byte) {x : Instance} (h : x.driven (slotAddr t.id)) :
    Reacts x (answerAck e n k t d x) := by
  have key : ∀ {y}, Reacts x y →
      Reacts x ((setControl n (slotAddr t.id) 0 sigREQ y).modTarget k fun t => { t with hs := .reqDown }) := fun g =>
    g.trans ((setControl_reacts hn _ _ _ (g.driven h)).trans
      (Reacts.modTarget fun t => .plain rfl rfl rfl rfl rfl rfl rfl rfl))
  simp only [answerAck]
  refine key ?_
  split
  · exact takeByte_reacts e k t d x
  · split
    · exact Reacts.modTarget fun t => .plain rfl rfl rfl rfl rfl rfl rfl rfl
    · exact Reacts.refl x

theorem advance_reacts (e : Env) (k : Fin 7) (t : Target) (c : Ctl) {x : Instance} (h : x.driven (slotAddr t.id)) :
    Reacts x (advance e n k t c x) := by
  simp only [advance]
  refine Reacts.trans ?_ (Reacts.modTarget fun t => .plain rfl rfl rfl rfl rfl rfl rfl rfl)
  split
  · split
    · exact Reacts.refl x
    · exact executeCdb_reacts e k x
  · split
    · exact Reacts.modTarget fun t => .plain rfl rfl rfl rfl rfl rfl rfl rfl
    · exact Reacts.refl x
  · split
    · exact Reacts.modTarget fun t => .plain rfl rfl rfl rfl rfl rfl rfl rfl
    · exact Reacts.refl x
  · exact Reacts.modTarget fun t => .plain rfl rfl rfl rfl rfl rfl rfl rfl
  · split
    · split
      · exact Reacts.refl x
      · exact Reacts.modTarget fun t => .plain rfl rfl rfl rfl rfl rfl rfl rfl
    · exact (releaseBus_reacts hn _ h).trans (Reacts.modTarget fun t => .plain rfl rfl rfl rfl rfl rfl rfl rfl)
  · exact Reacts.refl x

omit hn in
/-- A claim touches the record and the contribution of one Target, nothing else (R223). -/
theorem claim_reacts (self : Fin 7) (c : Ctl) (d : Byte) (k : Fin 7) (x : Instance) (b : Bus) (h : Reacts x { x with bus := b }) :
    Reacts x { x with bus := b.claim self c d k } := by
  unfold Bus.claim
  split
  · rename_i t ht
    split
    · have h1 : Reacts { x with bus := b } (({ x with bus := b } : Instance).withTarget k t.claimed) :=
        Reacts.withTarget (Instance.target?_eq_some.2 ht) (.plain rfl rfl rfl rfl rfl rfl rfl rfl)
      refine h.trans (h1.trans ?_)
      exact writeControl_reacts (slotAddr t.id) sigBSY sigALL
        (driven_of (t := t.claimed) (Instance.withTarget_target?_same _ _ _))
    · exact h
  · exact h

omit hn in
/-- The claims of all addressed Targets only react. -/
theorem claims_reacts (self : Fin 7) (x : Instance) : Reacts x { x with bus := x.bus.claims self } := by
  unfold Bus.claims
  have : ∀ (c : Ctl) (d : Byte) (l : List (Fin 7)) (b : Bus), Reacts x { x with bus := b } →
      Reacts x { x with bus := l.foldl (Bus.claim self c d) b } := by
    intro c d l
    induction l with
    | nil => exact fun b h => h
    | cons k l ih => exact fun b h => ih _ (claim_reacts self c d k x b h)
  exact this _ _ _ _ (Reacts.refl x)

theorem claimSelection_reacts (self : Fin 7) : Reacting (claimSelection n self) := by
  intro x
  exact changeBus_reacts hn (claims_reacts self x)

/-- Every evaluation of a Target only reacts (R222 to R229). -/
theorem targetStep_reacts (e : Env) (k : Fin 7) (x : Instance) : Reacts x (targetStep e n k x).2 := by
  unfold targetStep
  split
  · exact Reacts.refl x
  · rename_i t ht
    have hd : x.driven (slotAddr t.id) := driven_of ht
    simp only
    split
    · split
      · exact (releaseBus_reacts hn _ hd).trans (Reacts.modTarget fun t => .plain rfl rfl rfl rfl rfl rfl rfl rfl)
      · exact Reacts.refl x
    · split
      · split
        · simpa only using claimSelection_reacts hn k x
        · exact Reacts.refl x
      · split
        · exact Reacts.refl x
        · split
          · exact Reacts.modTarget fun t => .plain rfl rfl rfl rfl rfl rfl rfl rfl
          · split
            · split
              · exact Reacts.refl x
              · exact presentByte_reacts hn e k t hd
            · split
              · exact answerAck_reacts hn e k t _ hd
              · exact Reacts.refl x
            · split
              · exact Reacts.refl x
              · exact advance_reacts hn e k t _ hd

theorem targetLoop_reacts (e : Env) (k : Fin 7) (m : Nat) : Reacting (targetLoop e n k m) := by
  induction m with
  | zero => exact fun x => Reacts.unsettled x
  | succ m ih =>
    intro x
    simp only [targetLoop]
    have h := targetStep_reacts hn e k x
    generalize targetStep e n k x = r at h ⊢
    split
    · exact h.trans (ih _)
    · split
      · refine h.trans (Reacts.trans (y := r.2.modTarget k fun t => { t with trenotify := false }) ?_ (ih _))
        exact Reacts.modTarget fun t => .plain rfl rfl rfl rfl rfl rfl rfl rfl
      · exact h

/-- Everything a Target's guard can do: the handler is put back as it was, so it only reacts (R222). -/
theorem targetHandler_reacts (e : Env) (k : Fin 7) : Reacting (targetHandler e n k) := by
  intro x
  unfold targetHandler
  cases ht : x.target? k with
  | none => exact Reacts.refl x
  | some t =>
    simp only
    split
    · exact Reacts.modTarget fun t => .plain rfl rfl rfl rfl rfl rfl rfl rfl
    · rename_i hb
      rw [Instance.modTarget_some ht]
      have h := targetLoop_reacts hn e k targetBound (x.withTarget k { t with tbusy := true, trenotify := false })
      generalize targetLoop e n k targetBound (x.withTarget k { t with tbusy := true, trenotify := false }) = y at h ⊢
      rcases h.target k with ⟨h1, _⟩ | ⟨t', u, h1, h2, h3⟩
      · rw [Instance.withTarget_target?_same] at h1; cases h1
      · rw [Instance.withTarget_target?_same] at h1
        cases h1
        rw [Instance.modTarget_some h2]
        have hu : TargetReacts t { u with tbusy := false } :=
          ⟨h3.id, h3.geom, h3.ready, h3.mediaChanged, h3.serial, by simpa using hb, h3.imageSize, h3.imageOk,
            h3.bufSorted⟩
        have hx : ∀ c : Call, c.inBounds (x.withTarget k { t with tbusy := true, trenotify := false }) → c.inBounds x := by
          have key : ∀ j m (ok : Bool),
              (∃ v st, (x.withTarget k { t with tbusy := true, trenotify := false }).target? j = some v ∧
                v.image = some st ∧ (ok = true → m ≤ st.size)) →
              ∃ v st, x.target? j = some v ∧ v.image = some st ∧ (ok = true → m ≤ st.size) := by
            rintro j m ok ⟨v, st, g1, g2, g3⟩
            by_cases hj : j = k
            · subst hj
              rw [Instance.withTarget_target?_same] at g1
              cases g1
              exact ⟨t, st, ht, g2, g3⟩
            · rw [Instance.withTarget_target?_other _ _ _ _ hj] at g1
              exact ⟨v, st, g1, g2, g3⟩
          intro c hc
          cases c with
          | irq | drq => exact hc.elim
          | storeRead j off len ok => exact key j _ ok hc
          | storeWrite j off bs ok => exact key j _ ok hc
        obtain ⟨l, g1, g2⟩ := h.calls
        refine ⟨h.ctrl, h.ret, h.kept, ⟨l, g1, fun c hc => hx c (g2 c hc)⟩, h.draws, h.cb, h.combined, fun j => ?_, fun j hj => h.foreign j fun i v hv => ?_⟩
        rotate_left
        · by_cases hi : i = k
          · subst hi
            rw [Instance.withTarget_target?_same] at hv
            cases hv
            exact hj i t ht
          · rw [Instance.withTarget_target?_other _ _ _ _ hi] at hv
            exact hj i v hv
        by_cases hj : slotAddr k = j
        · subst hj
          refine .inl ⟨t, { u with tbusy := false }, Instance.target?_eq_some.1 ht, ?_, hu⟩
          simp [Instance.withTarget]
        · have hne : (slotAddr k).val ≠ j.val := fun e => hj (Fin.ext e)
          have e1 : (y.withTarget k { u with tbusy := false }).bus.occ[j] = y.bus.occ[j] := by
            simp only [Instance.withTarget, Fin.getElem_fin]
            exact Vector.getElem_set_ne _ _ hne
          have e2 : (x.withTarget k { t with tbusy := true, trenotify := false }).bus.occ[j] = x.bus.occ[j] := by
            simp only [Instance.withTarget, Fin.getElem_fin]
            exact Vector.getElem_set_ne _ _ hne
          rw [e1, ← e2]
          exact h.slots j

/-! ### The notification -/

/-- One delivery only reacts (R91). -/
theorem deliver_reacts (e : Env) : Reacting (deliver e n) := by
  intro x
  have hcb : Reacts x (notifyCallback e n x) := by
    unfold notifyCallback
    split
    · exact onBusChange_reacts hn e x
    · exact Reacts.refl x
  have hf : ∀ (l : List (Fin 7)) (y : Instance), Reacts y (l.foldl (fun z k => targetHandler e n k z) y) := by
    intro l
    induction l with
    | nil => exact fun y => Reacts.refl y
    | cons k l ih => exact fun y => (targetHandler_reacts hn e k y).trans (ih _)
  exact hcb.trans (hf _ _)

end

theorem notifyTo_reacts (e : Env) (d : Nat) : Reacting (notifyTo e d) := by
  induction d with
  | zero => exact fun x => Reacts.unsettled x
  | succ d ih => exact deliver_reacts ih e

/-- Everything a change notification can do, said once: it only reacts (R91, R92). -/
theorem notify_reacts (e : Env) : Reacting (notify e) := notifyTo_reacts e nestingBound

/-- Everything the common tail can do, said once: a reaction, and then the lines follow (R111). -/
theorem commonTail_settles (e : Env) (x : Instance) : ∃ y, Reacts x y ∧ commonTail e x = updateLines y :=
  tail_settles (notify_reacts e) e x

/-- The lines are at their levels after the common tail (R294, R299). -/
theorem tail_lines (e : Env) (n : Instance → Instance) (x : Instance) :
    (tail e n x).ctrl.irqLine = irqLevel (tail e n x).ctrl ∧ (tail e n x).ctrl.drqLine = drqLevel (tail e n x).ctrl := by
  unfold tail
  rw [updateLines_eq]
  exact ⟨rfl, rfl⟩

end Sys2Proof.Machine
end

