-- ==== Sys2Proof/Laws/Rest.lean ====
section
/-! SUPPORT. Closed forms: the engine at rest, the common tail at rest, and a bus change at a calm instance. -/

namespace Sys2Proof.Machine

/-- An evaluation of a resting engine stays where it is. -/
theorem engineLoop_rest (e : Env) (n : Instance → Instance) (m : Nat) (x : Instance)
    (h : x.ctrl.state = .idle ∨ x.ctrl.pending ≠ none) (hr : x.ctrl.renotify = false) :
    engineLoop e n (m + 1) x = x := by
  simp only [engineLoop]
  have hs : (if x.ctrl.pending = none then engineStep e n x else (.stay, x)) = (.stay, x) := by
    split
    · rename_i hp
      rcases h with h | h
      · simp [engineStep, h]
      · exact absurd hp h
    · rfl
  rw [hs]
  simp [hr]

/-- A run of a resting engine only forgets a notification (R174). -/
theorem runEngine_rest (e : Env) (n : Instance → Instance) (x : Instance) (h : x.engineRests) :
    runEngine e n x = { x with ctrl := { x.ctrl with renotify := false } } := by
  obtain ⟨hb, hs⟩ := h
  unfold runEngine
  rw [if_neg (by simp [hb])]
  have : loopBound = 4095 + 1 := rfl
  rw [this, engineLoop_rest]
  · simp only [Instance.modCtrl, hb]
  · simpa using hs
  · rfl

/-- A run of the engine whose one evaluation stays where it is (R170, R174). -/
theorem runEngine_stay (e : Env) (n : Instance → Instance) (x y : Instance) (hb : x.ctrl.busy = false)
    (hy : y = { x with ctrl := { x.ctrl with busy := true, renotify := false } }) (hp : x.ctrl.pending = none)
    (h : engineStep e n y = (.stay, y)) : runEngine e n x = { x with ctrl := { x.ctrl with renotify := false } } := by
  have hm : (x.modCtrl fun c => { c with busy := true, renotify := false }) = y := hy.symm
  have hyp : y.ctrl.pending = none := by rw [hy]; exact hp
  have hyr : y.ctrl.renotify = false := by rw [hy]
  unfold runEngine
  rw [if_neg (by simp [hb]), hm, show loopBound = 4095 + 1 from rfl, engineLoop, if_pos hyp, h]
  simp only [hyr]
  rw [if_neg (by simp), if_neg (by simp), hy]
  simp only [Instance.modCtrl, hb]

/-- A run of the engine whose one evaluation makes progress to a resting state, with no notification meanwhile. -/
theorem runEngine_once (e : Env) (n : Instance → Instance) (x y z : Instance) (hb : x.ctrl.busy = false)
    (hy : y = { x with ctrl := { x.ctrl with busy := true, renotify := false } }) (hp : x.ctrl.pending = none)
    (h : engineStep e n y = (.progress, z)) (hz : z.ctrl.state = .idle ∨ z.ctrl.pending ≠ none)
    (hr : z.ctrl.renotify = false) : runEngine e n x = { z with ctrl := { z.ctrl with busy := false } } := by
  have hm : (x.modCtrl fun c => { c with busy := true, renotify := false }) = y := hy.symm
  have hyp : y.ctrl.pending = none := by rw [hy]; exact hp
  unfold runEngine
  rw [if_neg (by simp [hb]), hm, show loopBound = (4094 + 1) + 1 from rfl, engineLoop, if_pos hyp, h]
  simp only [if_true]
  rw [engineLoop_rest e n 4094 z hz hr]
  rfl

/-- The common tail at rest (R111). -/
theorem tail_rest (e : Env) (n : Instance → Instance) (x : Instance) (h : x.engineRests) :
    tail e n x = afterTail x := by
  unfold tail
  rw [runEngine_rest e n x h, updateLines_eq]
  rfl

theorem commonTail_rest (e : Env) (x : Instance) (h : x.engineRests) : commonTail e x = afterTail x :=
  tail_rest e (notify e) x h

@[simp] theorem afterTail_bus (x : Instance) : (afterTail x).bus = x.bus := rfl
@[simp] theorem afterTail_ret (x : Instance) : (afterTail x).ret = x.ret := rfl
@[simp] theorem afterTail_draws (x : Instance) : (afterTail x).draws = x.draws := rfl
@[simp] theorem afterTail_unsettled (x : Instance) : (afterTail x).unsettled = x.unsettled := rfl
@[simp] theorem afterTail_target? (x : Instance) (k : Fin 7) : (afterTail x).target? k = x.target? k := rfl

/-- The levels of the lines do not depend on the lines themselves. -/
theorem irqLevel_congr {c d : Controller} (h1 : c.sctl = d.sctl) (h2 : c.ints = d.ints) (h3 : c.serr = d.serr) :
    irqLevel c = irqLevel d := by
  simp only [irqLevel, h1, h2, h3]

theorem drqLevel_congr {c d : Controller} (h1 : c.xferDma = d.xferDma) (h2 : c.state = d.state)
    (h3 : c.xferIn = d.xferIn) (h4 : c.fifo = d.fifo) (h5 : c.tc = d.tc) : drqLevel c = drqLevel d := by
  simp only [drqLevel, h1, h2, h3, h4, h5]

/-- After the tail no edge is owed. -/
@[simp] theorem lineEdges_afterTail (x : Instance) : lineEdges (afterTail x).ctrl = [] := by
  have h1 : irqLevel (afterTail x).ctrl = (afterTail x).ctrl.irqLine := rfl
  have h2 : drqLevel (afterTail x).ctrl = (afterTail x).ctrl.drqLine := rfl
  simp [lineEdges, h1, h2]

/-- A second tail changes nothing. -/
@[simp] theorem afterTail_afterTail (x : Instance) : afterTail (afterTail x) = afterTail x := by
  conv_lhs => rw [afterTail]
  rw [lineEdges_afterTail, List.append_nil]
  rfl

/-! ### A calm instance -/

theorem Instance.ctrlCalm.rests {x : Instance} (h : x.ctrlCalm) : x.engineRests := ⟨h.2.1, .inl h.2.2.1⟩

/-- A Target handler at an empty slot. -/
theorem targetHandler_none (e : Env) (n : Instance → Instance) {k : Fin 7} {x : Instance} (h : x.target? k = none) :
    targetHandler e n k x = x := by
  unfold targetHandler
  rw [h]

/-- A notification where no Target listens is the callback alone (R91). -/
theorem deliver_noTargets (e : Env) {n : Instance → Instance} (hn : Reacting n) {x : Instance}
    (hb : x.bus.cb = .controller) (h : x.noTargets) : deliver e n x = onBusChange e n x := by
  unfold deliver notifyCallback
  rw [hb]
  simp only
  have hy : (onBusChange e n x).noTargets := by
    intro j
    rcases (onBusChange_reacts hn e x).target j with ⟨_, g⟩ | ⟨t, _, g, _⟩
    · exact g
    · rw [h j] at g; cases g
  generalize onBusChange e n x = y at hy
  have : ∀ l : List (Fin 7), l.foldl (fun z k => targetHandler e n k z) y = y := by
    intro l
    induction l with
    | nil => rfl
    | cons k l ih => rw [List.foldl_cons, targetHandler_none e n (hy k), ih]
  exact this _

/-- The callback of a calm Controller on a changed bus. -/
theorem onBusChange_calm (e : Env) (n : Instance → Instance) (x : Instance) (h : x.ctrlCalm) :
    onBusChange e n x =
      { x with ctrl := { x.ctrl with
          bfTimer := if x.bus.isFree then x.ctrl.bfTimer else 0
          ints := if has x.bus.ctl sigRST && !x.ctrl.rstSeen then x.ctrl.ints ||| intRC else x.ctrl.ints
          rstSeen := has x.bus.ctl sigRST
          renotify := false } } := by
  obtain ⟨hcb, hbusy, hstate, hpend, hconn⟩ := h
  have key : ∀ y : Instance, y.ctrl.busy = false → y.ctrl.state = .idle → y.ctrl.pending = none →
      y.ctrl.connected = false →
      runEngine e n (checkDisconnect e (checkRst n y)) =
        { y with ctrl := { y.ctrl with
            ints := if has y.bus.ctl sigRST && !y.ctrl.rstSeen then y.ctrl.ints ||| intRC else y.ctrl.ints
            rstSeen := has y.bus.ctl sigRST
            renotify := false } } := by
    intro y h1 h2 h3 h4
    have hr : checkRst n y = { y with ctrl := { y.ctrl with
        ints := if has y.bus.ctl sigRST && !y.ctrl.rstSeen then y.ctrl.ints ||| intRC else y.ctrl.ints
        rstSeen := has y.bus.ctl sigRST } } := by
      simp only [checkRst, Controller.engineFree, raiseInt_ctrl, h2, h3, h4]
      split
      · simp [raiseInt, Instance.modCtrl, h2, h3, h4]
      · simp [Instance.modCtrl, h2, h3, h4]
    rw [hr]
    generalize hz : ({ y with ctrl := _ } : Instance) = z
    have hz1 : z.ctrl.connected = false := by rw [← hz]; exact h4
    have hz2 : z.engineRests := by rw [← hz]; exact ⟨h1, .inl h2⟩
    have hd : checkDisconnect e z = z := by simp [checkDisconnect, hz1]
    rw [hd]
    rw [runEngine_rest e n z hz2, ← hz]
  simp only [onBusChange]
  by_cases hf : x.bus.isFree = true
  · rw [if_pos hf, if_pos hf]
    exact key x hbusy hstate hpend hconn
  · rw [if_neg hf, if_neg hf]
    exact key (x.modCtrl fun c => { c with bfTimer := 0 }) hbusy hstate hpend hconn

/-- A change of the bus at a calm instance (R91, R175). -/
theorem changeBus_calm (e : Env) (x : Instance) (b : Bus) (h : x.calm) (ho : b.occ = x.bus.occ)
    (hc : b.cb = x.bus.cb) : changeBus (notify e) x b = afterChange x b := by
  obtain ⟨⟨hcb, h2, h3, h4, h5⟩, ht⟩ := h
  unfold changeBus afterChange
  split
  · rfl
  · have hx : ({ x with bus := b } : Instance).noTargets := fun j => by
      rw [Instance.target?_congr (y := x) ho]; exact ht j
    have : notify e = deliver e (notifyTo e 31) := rfl
    rw [this, deliver_noTargets e (notifyTo_reacts e 31) (hc.trans hcb) hx]
    exact onBusChange_calm e _ { x with bus := b } ⟨hc.trans hcb, h2, h3, h4, h5⟩

/-- A Bus call from outside at a calm instance: the bus change, then the lines (R91, R175, D33). -/
theorem changeBus_event (e : Env) (x : Instance) (b : Bus) (h : x.calm) (ho : b.occ = x.bus.occ)
    (hc : b.cb = x.bus.cb) : changeBus (notifyEvent e) x b = afterBusEvent x b := by
  have g := changeBus_calm e x b h ho hc
  unfold afterBusEvent
  unfold changeBus at g ⊢
  split
  · rfl
  · rename_i hne
    rw [if_neg hne] at g
    have hb : (afterChange x b).bus.cb = .controller := by
      unfold afterChange
      rw [if_neg hne]
      exact hc.trans h.1.1
    unfold notifyEvent
    simp only at g ⊢
    rw [g, hb]
    simp only [updateLines_eq]
    unfold afterChange
    rw [if_neg hne]
    rfl

/-- `drive` at a calm instance (R112). -/
theorem drive_calm (e : Env) (v m : Ctl) (x : Instance) (h : x.calm) : drive (notify e) v m x = afterDrive v m x := by
  unfold drive afterDrive
  split
  · rfl
  · exact changeBus_calm e x _ h rfl rfl

/-- `set_control` from outside at a calm instance (R95). -/
theorem setControl_calm (e : Env) (id : Fin 8) (v m : Ctl) (x : Instance) (h : x.calm) :
    setControl (notifyEvent e) id v m x = afterBusEvent x (x.bus.writeControl id v m) := changeBus_event e x _ h rfl rfl

/-- A bus change leaves a calm instance calm. -/
theorem afterChange_calm {x : Instance} {b : Bus} (h : x.calm) (ho : b.occ = x.bus.occ) (hc : b.cb = x.bus.cb) :
    (afterChange x b).calm := by
  obtain ⟨⟨h1, h2, h3, h4, h5⟩, ht⟩ := h
  have hx : ∀ y : Instance, y.bus.occ = x.bus.occ → y.noTargets := fun y hy j => by
    rw [Instance.target?_congr hy]; exact ht j
  unfold afterChange
  split
  · exact ⟨⟨hc.trans h1, h2, h3, h4, h5⟩, hx _ ho⟩
  · exact ⟨⟨hc.trans h1, h2, h3, h4, h5⟩, hx _ ho⟩

theorem afterDrive_calm {x : Instance} (v m : Ctl) (h : x.calm) : (afterDrive v m x).calm := by
  unfold afterDrive
  split
  · exact h
  · exact afterChange_calm h rfl rfl

theorem afterScmd_calm {x : Instance} (v : Byte) (h : x.calm) : (afterScmd v x).calm :=
  afterDrive_calm _ _ (x := { x with ctrl := { x.ctrl with scmd := v } }) h

/-! What `afterScmd` leaves alone. -/

/-- A calm instance differs after a change of its own lines only in the bus, the shadow and four fields. -/
theorem afterDrive_ctrl (v m : Ctl) (x : Instance) : ∃ (i : Byte) (g : Ctl) (bf : Nat) (r a : Bool),
    (afterDrive v m x).ctrl = { x.ctrl with ints := i, diagSig := g, bfTimer := bf, rstSeen := r,
                                            renotify := a } := by
  unfold afterDrive afterChange
  split
  · exact ⟨_, _, _, _, _, rfl⟩
  · split
    · exact ⟨_, _, _, _, _, rfl⟩
    · exact ⟨_, _, _, _, _, rfl⟩

theorem afterScmd_ctrl (v : Byte) (x : Instance) : ∃ (i : Byte) (g : Ctl) (bf : Nat) (r a : Bool),
    (afterScmd v x).ctrl = { x.ctrl with scmd := v, ints := i, diagSig := g, bfTimer := bf, rstSeen := r,
                                         renotify := a } :=
  afterDrive_ctrl _ _ { x with ctrl := { x.ctrl with scmd := v } }

@[simp] theorem afterScmd_sctl (v : Byte) (x : Instance) : (afterScmd v x).ctrl.sctl = x.ctrl.sctl := by
  obtain ⟨_, _, _, _, _, h⟩ := afterScmd_ctrl v x
  rw [h]

@[simp] theorem afterScmd_tc (v : Byte) (x : Instance) : (afterScmd v x).ctrl.tc = x.ctrl.tc := by
  obtain ⟨_, _, _, _, _, h⟩ := afterScmd_ctrl v x
  rw [h]

@[simp] theorem afterScmd_fifo (v : Byte) (x : Instance) : (afterScmd v x).ctrl.fifo = x.ctrl.fifo := by
  obtain ⟨_, _, _, _, _, h⟩ := afterScmd_ctrl v x
  rw [h]

/-- Where the shadow is not used, the bus after SCMD is recombined with the RST contribution replaced. -/
theorem afterScmd_bus (v : Byte) (x : Instance) (h : x.ctrl.dm = false) :
    (afterScmd v x).bus = x.bus.writeControl 7 (onlyIf (v.getLsbD 4) sigRST) sigRST := by
  have hd : ({ x with ctrl := { x.ctrl with scmd := v } } : Instance).ctrl.dm = false := h
  unfold afterScmd afterDrive
  rw [hd, if_neg (by simp)]
  unfold afterChange
  split <;> rfl

/-- The write of SCMD at a calm instance: the byte stored, RST-out driven, then the command unless disabled
(R116, R118). -/
theorem writeScmdWith_calm (e : Env) (command : (Instance → Instance) → Instance → Instance) (v : Byte) (x : Instance)
    (h : x.calm) :
    writeScmdWith command v e x =
      if (afterScmd v x).ctrl.sctl.getLsbD 7 then afterScmd v x else command (notify e) (afterScmd v x) := by
  have : drive (notify e) (onlyIf (v.getLsbD 4) sigRST) sigRST (x.modCtrl fun c => { c with scmd := v }) =
      afterScmd v x := drive_calm e _ _ _ h
  simp only [writeScmdWith, this]

/-- A command byte at a calm instance that is not disabled: the command after `afterScmd`, then the tail. -/
theorem issueCommand_calm (e : Env) (command : (Instance → Instance) → Instance → Instance) (v : Byte) (x : Instance)
    (h : x.calm) (hs : x.ctrl.sctl.getLsbD 7 = false) :
    issueCommand command v e x = commonTail e (command (notify e) (afterScmd v x)) := by
  unfold issueCommand
  rw [writeScmdWith_calm e command v x h, afterScmd_sctl, hs, if_neg (by simp)]

end Sys2Proof.Machine
end

