-- ==== Sys2Proof/Laws/Others.lean ====
section
/-! SUPPORT. What a Target can do, for every way of looking at it: a relation that holds of what touches neither the
Controller nor a line, and of a change of another participant's lines without RST, holds of all that Targets do. -/

namespace Sys2Proof.Machine

/-! ### RST on the bus -/

theorem has_or (a b m : Ctl) : has (a ||| b) m = (has a m || has b m) := by
  have hd : (a ||| b) &&& m = (a &&& m) ||| (b &&& m) := by
    rw [BitVec.and_comm, BitVec.and_or_distrib_left, BitVec.and_comm m, BitVec.and_comm m]
  unfold has
  rw [hd, Bool.eq_iff_iff]
  simp only [bne_iff_ne, ne_eq, Bool.or_eq_true]
  rw [← not_and_or, not_iff_not]
  constructor
  · intro h
    have h1 : ∀ i (hi : i < 9), (a &&& m).getLsbD i = false ∧ (b &&& m).getLsbD i = false := by
      intro i hi
      have := congrArg (fun w : Ctl => w.getLsbD i) h
      simpa using this
    constructor <;> (apply BitVec.eq_of_getLsbD_eq; intro i hi; first | simpa using (h1 i hi).1 | simpa using (h1 i hi).2)
  · rintro ⟨h1, h2⟩
    rw [h1, h2]
    rfl

theorem has_merge {a v m c : Ctl} (hv : v &&& c = 0) (h : has (merge a v m) c = true) : has a c = true := by
  unfold merge at h
  rw [has_or, Bool.or_eq_true] at h
  unfold has at *
  simp only [bne_iff_ne, ne_eq] at *
  rcases h with h | h
  · intro h0
    apply h
    rw [BitVec.and_assoc, BitVec.and_comm (~~~m), ← BitVec.and_assoc, h0]
    simp
  · exfalso
    apply h
    rw [BitVec.and_assoc, BitVec.and_comm m, ← BitVec.and_assoc, hv]
    simp

/-- A contribution that asserts RST shows in the combined word. -/
theorem has_orCtl (s : Vector Ctl 8) (m : Ctl) : has (orCtl s) m = true ↔ ∃ k : Fin 8, has s[k] m = true := by
  unfold orCtl
  simp only [has_or, Bool.or_eq_true]
  constructor
  · rintro (((((((h | h) | h) | h) | h) | h) | h) | h)
    · exact ⟨0, h⟩
    · exact ⟨1, h⟩
    · exact ⟨2, h⟩
    · exact ⟨3, h⟩
    · exact ⟨4, h⟩
    · exact ⟨5, h⟩
    · exact ⟨6, h⟩
    · exact ⟨7, h⟩
  · rintro ⟨k, h⟩
    fin_cases k <;> simp_all

/-- A write that does not assert a signal asserts it nowhere (R95). -/
theorem writeControl_has {b : Bus} {id : Fin 8} {v m c : Ctl} (hv : v &&& c = 0)
    (h : has (b.writeControl id v m).ctl c = true) : has (orCtl b.sig) c = true := by
  rw [Bus.writeControl_ctl, has_orCtl] at h
  obtain ⟨k, h⟩ := h
  rw [has_orCtl]
  by_cases hk : id = k
  · subst hk
    refine ⟨id, has_merge hv (m := m) ?_⟩
    simpa using h
  · have hne : id.val ≠ k.val := fun e => hk (Fin.ext e)
    refine ⟨k, ?_⟩
    simpa [Vector.getElem_set_ne _ _ hne] using h

theorem writeControl_rst {b : Bus} {id : Fin 8} {v m : Ctl} (hv : v &&& sigRST = 0)
    (h : has (b.writeControl id v m).ctl sigRST = true) : has (orCtl b.sig) sigRST = true := writeControl_has hv h

/-! ### Operations on a Target's own record -/

/-- An operation that touches neither the Controller nor a line of the bus, and no Target's record but one. -/
structure OwnOnly (k : Fin 7) (x y : Instance) : Prop where
  ctrl : y.ctrl = x.ctrl
  sig : y.bus.sig = x.bus.sig
  dat : y.bus.dat = x.bus.dat
  ctl : y.bus.ctl = x.bus.ctl
  data : y.bus.data = x.bus.data
  others : ∀ j, j ≠ k → y.target? j = x.target? j

theorem OwnOnly.refl (k : Fin 7) (x : Instance) : OwnOnly k x x := ⟨rfl, rfl, rfl, rfl, rfl, fun _ _ => rfl⟩

theorem OwnOnly.trans {k : Fin 7} {x y z : Instance} (h : OwnOnly k x y) (g : OwnOnly k y z) : OwnOnly k x z :=
  ⟨g.ctrl.trans h.ctrl, g.sig.trans h.sig, g.dat.trans h.dat, g.ctl.trans h.ctl, g.data.trans h.data,
    fun j hj => (g.others j hj).trans (h.others j hj)⟩

theorem OwnOnly.modTarget (x : Instance) (k : Fin 7) (f : Target → Target) : OwnOnly k x (x.modTarget k f) := by
  cases ht : x.target? k with
  | none => rw [Instance.modTarget_none ht]; exact .refl k x
  | some t =>
    rw [Instance.modTarget_some ht]
    exact ⟨rfl, rfl, rfl, rfl, rfl, fun j hj => Instance.withTarget_target?_other _ _ _ _ hj⟩

theorem storeRead_ownOnly (e : Env) (k : Fin 7) (off len : Nat) (x : Instance) :
    OwnOnly k x (storeRead e k off len x).2 := by
  unfold storeRead
  split
  · exact .refl k x
  · exact ⟨rfl, rfl, rfl, rfl, rfl, fun _ _ => rfl⟩

theorem storeWrite_ownOnly (e : Env) (k : Fin 7) (off : Nat) (data : List Byte) (x : Instance) :
    OwnOnly k x (storeWrite e k off data x).2 := by
  unfold storeWrite
  split
  · exact .refl k x
  · exact (OwnOnly.modTarget x k _).trans ⟨rfl, rfl, rfl, rfl, rfl, fun _ _ => rfl⟩

theorem stageSectors_ownOnly (e : Env) (k : Fin 7) (lba bps blocks left : Nat) (x : Instance) :
    OwnOnly k x (stageSectors e k lba bps blocks left x) := by
  induction left generalizing x with
  | zero => exact .modTarget x k _
  | succ m ih =>
    have h := storeRead_ownOnly e k ((lba + (blocks - (m + 1))) * bps) bps x
    simp only [stageSectors]
    cases hr : storeRead e k ((lba + (blocks - (m + 1))) * bps) bps x with
    | mk o y =>
      rw [hr] at h
      cases o with
      | none => exact h.trans (.modTarget y k _)
      | some bs => exact (h.trans (.modTarget y k _)).trans (ih _)

theorem doRead_ownOnly (e : Env) (k : Fin 7) (lba blocks : Nat) (x : Instance) : OwnOnly k x (doRead e k lba blocks x) := by
  unfold doRead
  split
  · exact .refl k x
  · split
    · exact .modTarget x k _
    · exact (OwnOnly.modTarget x k _).trans (stageSectors_ownOnly _ _ _ _ _ _ _)

/-- A Target command touches neither the Bus nor the Controller (R250). -/
theorem executeCdb_ownOnly (e : Env) (k : Fin 7) (x : Instance) : OwnOnly k x (executeCdb e k x) := by
  unfold executeCdb read6 read10 write6 write10
  split
  · exact .refl k x
  · split <;> first
      | exact .modTarget x k _
      | (split
         · exact .refl k x
         · exact doRead_ownOnly _ _ _ _ x)

theorem flushSector_ownOnly (e : Env) (k : Fin 7) (x : Instance) : OwnOnly k x (flushSector e k x) := by
  unfold flushSector
  split
  · exact .refl k x
  · rename_i t _
    have h := storeWrite_ownOnly e k ((t.lba.toNat + (t.cur / t.geom.bps - 1)) * t.geom.bps)
      (bufSlice e t ((t.cur / t.geom.bps - 1) * t.geom.bps) t.geom.bps) x
    simp only
    split
    · rename_i hr; rw [hr] at h; exact h
    · rename_i hr; rw [hr] at h; exact h.trans (.modTarget _ k _)

theorem takeByte_ownOnly (e : Env) (k : Fin 7) (t : Target) (d : Byte) (x : Instance) :
    OwnOnly k x (takeByte e k t d x) := by
  unfold takeByte
  split
  · exact .modTarget x k _
  · simp only
    split
    · exact (OwnOnly.modTarget x k _).trans (flushSector_ownOnly e k _)
    · exact .modTarget x k _
  · exact .modTarget x k _
  · exact .refl k x

/-! ### The Targets' activities -/

/-- A way of looking at what the participants other than the Controller do. -/
structure OthersRel (R : Instance → Instance → Prop) : Prop where
  /-- It follows a sequence of operations. -/
  trans : ∀ {x y z}, R x y → R y z → R x z
  /-- It holds of what touches neither the Controller nor a line. -/
  own : ∀ {k x y}, OwnOnly k x y → R x y
  /-- It holds of a change of others' lines that asserts no RST. -/
  lines : ∀ {x b}, b.combined → b.sig[7] = x.bus.sig[7] → b.dat[7] = x.bus.dat[7] →
    (has b.ctl sigRST = true → has (orCtl x.bus.sig) sigRST = true) → R x { x with bus := b }

theorem slotAddr_val_ne_7 (k : Fin 7) : (slotAddr k).val ≠ 7 := by
  have := k.isLt
  rw [slotAddr_val]
  omega

section
variable {R : Instance → Instance → Prop} (hR : OthersRel R)
include hR

theorem others_modTarget (k : Fin 7) (f : Target → Target) (x : Instance) : R x (x.modTarget k f) :=
  hR.own (.modTarget x k f)

theorem others_refl (x : Instance) : R x x := hR.own (.refl 0 x)

/-- `set_data` of a Target (R96). -/
theorem others_setData (k : Fin 7) (v : Byte) (x : Instance) : R x (setData (slotAddr k) v x) :=
  hR.lines (Bus.writeData_combined _ _ _) rfl (Vector.getElem_set_ne (by omega) (by omega) (slotAddr_val_ne_7 k)) id

/-- The write of a Target's own control contribution, which never asserts RST. -/
theorem others_writeControl (k : Fin 7) (v m : Ctl) (hv : v &&& sigRST = 0) (x : Instance) :
    R x { x with bus := x.bus.writeControl (slotAddr k) v m } :=
  hR.lines (Bus.writeControl_combined _ _ _ _) (Vector.getElem_set_ne (by omega) (by omega) (slotAddr_val_ne_7 k)) rfl
    (writeControl_rst hv)

variable {n : Instance → Instance} (hn : ∀ x, R x (n x))
include hn

theorem others_changeBus {x : Instance} {b : Bus} (h : R x { x with bus := b }) : R x (changeBus n x b) := by
  rcases changeBus_cases n x b with ⟨_, g⟩ | ⟨_, g⟩
  · rw [g]; exact h
  · rw [g]; exact hR.trans h (hn _)

/-- `set_control` of a Target (R95). -/
theorem others_setControl (k : Fin 7) (v m : Ctl) (hv : v &&& sigRST = 0) (x : Instance) :
    R x (setControl n (slotAddr k) v m x) := others_changeBus hR hn (others_writeControl hR k v m hv x)

theorem others_releaseBus (k : Fin 7) (x : Instance) : R x (releaseBus n k x) :=
  hR.trans (others_setData hR k 0 x) (others_setControl hR hn k 0 sigALL (by decide) _)

omit hn in
theorem others_claim {x : Instance} {b : Bus} (self : Fin 7) (c : Ctl) (d : Byte) (k : Fin 7) (g : R x { x with bus := b }) :
    R x { x with bus := b.claim self c d k } := by
  unfold Bus.claim
  split
  · rename_i t ht
    split
    · refine hR.trans g (hR.trans (y := ({ x with bus := b } : Instance).withTarget k t.claimed) ?_ ?_)
      · exact hR.own (k := k) ⟨rfl, rfl, rfl, rfl, rfl, fun j hj => Instance.withTarget_target?_other _ _ _ _ hj⟩
      · exact others_writeControl hR t.id sigBSY sigALL (by decide) (({ x with bus := b } : Instance).withTarget k t.claimed)
    · exact g
  · exact g

theorem others_claimSelection (self : Fin 7) (x : Instance) : R x (claimSelection n self x) := by
  refine others_changeBus hR hn ?_
  unfold Bus.claims
  have : ∀ (c : Ctl) (d : Byte) (l : List (Fin 7)) (b : Bus), R x { x with bus := b } →
      R x { x with bus := l.foldl (Bus.claim self c d) b } := by
    intro c d l
    induction l with
    | nil => exact fun b h => h
    | cons k l ih => exact fun b g => ih _ (others_claim hR self c d k g)
  exact this _ _ _ _ (others_refl hR x)

omit hR hn in
theorem phaseLines_rst (t : Target) : (sigBSY ||| t.phaseLines ||| sigREQ) &&& sigRST = 0 := by
  unfold Target.phaseLines
  split <;> first | decide | (split <;> decide)

theorem others_presentByte (e : Env) (k : Fin 7) (t : Target) (x : Instance) : R x (presentByte e n k t x) :=
  hR.trans (hR.trans (others_setData hR _ _ x) (others_setControl hR hn _ _ _ (phaseLines_rst t) _))
    (others_modTarget hR _ _ _)

theorem others_answerAck (e : Env) (k : Fin 7) (t : Target) (d : Byte) (x : Instance) : R x (answerAck e n k t d x) := by
  simp only [answerAck]
  refine hR.trans (hR.trans ?_ (others_setControl hR hn _ 0 sigREQ (by decide) _)) (others_modTarget hR _ _ _)
  split
  · exact hR.own (takeByte_ownOnly e k t d x)
  · split
    · exact others_modTarget hR _ _ x
    · exact others_refl hR x

theorem others_advance (e : Env) (k : Fin 7) (t : Target) (c : Ctl) (x : Instance) : R x (advance e n k t c x) := by
  simp only [advance]
  refine hR.trans ?_ (others_modTarget hR k (fun t => { t with hs := .needReq }) _)
  split
  · split
    · exact others_refl hR x
    · exact hR.own (executeCdb_ownOnly e k x)
  · split
    · exact others_modTarget hR _ _ x
    · exact others_refl hR x
  · split
    · exact others_modTarget hR _ _ x
    · exact others_refl hR x
  · exact others_modTarget hR _ _ x
  · split
    · split
      · exact others_refl hR x
      · exact others_modTarget hR _ _ x
    · exact hR.trans (others_releaseBus hR hn _ x) (others_modTarget hR _ _ _)
  · exact others_refl hR x

/-- Every evaluation of a Target (R222 to R229). -/
theorem others_targetStep (e : Env) (k : Fin 7) (x : Instance) : R x (targetStep e n k x).2 := by
  unfold targetStep
  split
  · exact others_refl hR x
  · rename_i t _
    simp only
    split
    · split
      · exact hR.trans (others_releaseBus hR hn _ x) (others_modTarget hR _ _ _)
      · exact others_refl hR x
    · split
      · split
        · simpa only using others_claimSelection hR hn k x
        · exact others_refl hR x
      · split
        · exact others_refl hR x
        · split
          · exact others_modTarget hR _ _ x
          · split
            · split
              · exact others_refl hR x
              · exact others_presentByte hR hn e k t x
            · split
              · exact others_answerAck hR hn e k t _ x
              · exact others_refl hR x
            · split
              · exact others_refl hR x
              · exact others_advance hR hn e k t _ x

theorem others_targetLoop (e : Env) (k : Fin 7) (m : Nat) (x : Instance) : R x (targetLoop e n k m x) := by
  induction m generalizing x with
  | zero => exact hR.own (k := 0) ⟨rfl, rfl, rfl, rfl, rfl, fun _ _ => rfl⟩
  | succ m ih =>
    simp only [targetLoop]
    have hs := others_targetStep hR hn e k x
    generalize targetStep e n k x = r at hs ⊢
    split
    · exact hR.trans hs (ih _)
    · split
      · exact hR.trans (hR.trans hs (others_modTarget hR k (fun t => { t with trenotify := false }) _)) (ih _)
      · exact hs

/-- A Target's handler (R222). -/
theorem others_targetHandler (e : Env) (k : Fin 7) (x : Instance) : R x (targetHandler e n k x) := by
  unfold targetHandler
  split
  · exact others_refl hR x
  · split
    · exact others_modTarget hR _ _ x
    · exact hR.trans (hR.trans (others_modTarget hR k (fun t => { t with tbusy := true, trenotify := false }) x)
        (others_targetLoop hR hn e k targetBound _)) (others_modTarget hR k (fun t => { t with tbusy := false }) _)

/-- The Targets' handlers, one after the other (R91). -/
theorem others_targets (e : Env) (l : List (Fin 7)) (x : Instance) :
    R x (l.foldl (fun y k => targetHandler e n k y) x) := by
  induction l generalizing x with
  | nil => exact others_refl hR x
  | cons k l ih => exact hR.trans (others_targetHandler hR hn e k x) (ih _)

/-- One delivery, given what the Controller's callback does (R91). -/
theorem others_deliver (e : Env) (hc : ∀ x, R x (onBusChange e n x)) (x : Instance) : R x (deliver e n x) := by
  refine hR.trans ?_ (others_targets hR hn e targetSlots _)
  unfold notifyCallback
  split
  · exact hc x
  · exact others_refl hR x

omit hn in
/-- The notification to any depth, given what the callback does whatever answers it (R91). -/
theorem others_notifyTo (e : Env) (hc : ∀ n, (∀ x, R x (n x)) → ∀ x, R x (onBusChange e n x)) (d : Nat) (x : Instance) :
    R x (notifyTo e d x) := by
  induction d generalizing x with
  | zero => exact hR.own (k := 0) ⟨rfl, rfl, rfl, rfl, rfl, fun _ _ => rfl⟩
  | succ d ih => exact others_deliver hR ih e (hc _ ih) x

omit hn in
/-- The whole notification (R91). -/
theorem others_notify (e : Env) (hc : ∀ n, (∀ x, R x (n x)) → ∀ x, R x (onBusChange e n x)) (x : Instance) :
    R x (notify e x) := others_notifyTo hR e hc nestingBound x

end

end Sys2Proof.Machine
end

