-- ==== Sys2Proof/Laws/Claims.lean ====
section
/-! SUPPORT. What the claims of a selection leave of the Bus (R223, I19; log 24). -/

namespace Sys2Proof.Machine

/-- The Target at a slot that claims a selection on a bus showing `c` and `d`, if it does. -/
def Bus.claimant (self : Fin 7) (c : Ctl) (d : Byte) (b : Bus) (k : Fin 7) : Option Target :=
  match b.occ[slotAddr k] with
  | some (.target t) => if t.claims self k c d then some t else none
  | _ => none

/-- A claim, by its claimant. -/
theorem Bus.claim_eq (self : Fin 7) (c : Ctl) (d : Byte) (b : Bus) (k : Fin 7) :
    b.claim self c d k = match b.claimant self c d k with
      | some t => { b with occ := b.occ.set (slotAddr k) (some (.target t.claimed)) }.writeControl
          (slotAddr t.id) sigBSY sigALL
      | none => b := by
  unfold Bus.claim Bus.claimant
  generalize b.occ[slotAddr k] = o
  cases o with
  | none => rfl
  | some q =>
    cases q with
    | controller => rfl
    | target t => by_cases h : t.claims self k c d = true <;> simp [h]

/-- The claimant of a slot is its occupant. -/
theorem Bus.claimant_occ {self : Fin 7} {c : Ctl} {d : Byte} {b : Bus} {k : Fin 7} {t : Target} (h : b.claimant self c d k = some t) :
    b.occ[slotAddr k] = some (.target t) := by
  unfold Bus.claimant at h
  split at h
  · split at h
    · cases h; assumption
    · cases h
  · cases h

theorem Bus.claimant_congr {self : Fin 7} {c : Ctl} {d : Byte} {a b : Bus} {k : Fin 7} (h : a.occ[slotAddr k] = b.occ[slotAddr k]) :
    a.claimant self c d k = b.claimant self c d k := by
  unfold Bus.claimant
  rw [h]

theorem slotAddr_val_inj {j k : Fin 7} (h : j ≠ k) : (slotAddr j).val ≠ (slotAddr k).val := by
  intro e
  rw [slotAddr_val, slotAddr_val] at e
  exact h (Fin.ext e)

/-- One claim of a Target that knows its slot: its contribution is BSY, its record the claimed one, the rest stays. -/
theorem Bus.claim_spec {self : Fin 7} {c : Ctl} {d : Byte} {b : Bus} {k : Fin 7} (hid : ∀ t, b.claimant self c d k = some t → t.id = k) :
    let a := b.claim self c d k
    (∀ t, b.claimant self c d k = some t → a.sig[slotAddr k] = sigBSY ∧ a.occ[slotAddr k] = some (.target t.claimed)) ∧
    (∀ i : Fin 8, (i ≠ slotAddr k ∨ b.claimant self c d k = none) → a.sig[i] = b.sig[i] ∧ a.occ[i] = b.occ[i]) ∧
    a.dat = b.dat ∧ a.cb = b.cb ∧ (a = b ∨ a.combined) ∧ ((b.claimant self c d k).isSome → a.combined) := by
  intro a
  have ha : a = _ := Bus.claim_eq self c d b k
  clear_value a
  cases h : b.claimant self c d k with
  | none =>
    rw [h] at ha
    subst ha
    exact ⟨fun t ht => (by cases ht), fun i _ => ⟨rfl, rfl⟩, rfl, rfl, .inl rfl, fun hs => by cases hs⟩
  | some t =>
    have hk := hid t h
    rw [h] at ha
    simp only [hk] at ha
    subst ha
    refine ⟨fun u hu => ?_, fun i hi => ?_, rfl, rfl, .inr (Bus.writeControl_combined _ _ _ _),
      fun _ => Bus.writeControl_combined _ _ _ _⟩
    · cases hu
      refine ⟨?_, ?_⟩
      · have hm : ∀ q : Ctl, merge q sigBSY sigALL = sigBSY := by
          intro q
          unfold merge
          rw [show ~~~sigALL = 0#9 from rfl, BitVec.and_zero]
          rfl
        simp only [Bus.writeControl_sig, Fin.getElem_fin, Vector.getElem_set_self, hm]
      · simp only [Bus.writeControl_occ, Fin.getElem_fin, Vector.getElem_set_self]
    · rcases hi with hi | hi
      · have hne : (slotAddr k).val ≠ i.val := fun e => hi (Fin.ext e.symm)
        simp only [Bus.writeControl_sig, Bus.writeControl_occ, Fin.getElem_fin]
        exact ⟨Vector.getElem_set_ne _ _ hne, Vector.getElem_set_ne _ _ hne⟩
      · cases hi

/-- All the claims of a list of slots: every claimant among them claims, the rest stays. -/
theorem Bus.claims_spec (self : Fin 7) (c : Ctl) (d : Byte) (l : List (Fin 7)) (hl : l.Nodup) (b : Bus)
    (hid : ∀ k t, b.claimant self c d k = some t → t.id = k) :
    let a := l.foldl (Bus.claim self c d) b
    (∀ k ∈ l, ∀ t, b.claimant self c d k = some t →
      a.sig[slotAddr k] = sigBSY ∧ a.occ[slotAddr k] = some (.target t.claimed)) ∧
    (∀ i : Fin 8, (∀ k ∈ l, i = slotAddr k → b.claimant self c d k = none) → a.sig[i] = b.sig[i] ∧ a.occ[i] = b.occ[i]) ∧
    a.dat = b.dat ∧ a.cb = b.cb ∧ ((∃ k ∈ l, (b.claimant self c d k).isSome) → a.combined) := by
  induction l generalizing b with
  | nil => exact ⟨fun k hk => (by cases hk), fun i _ => ⟨rfl, rfl⟩, rfl, rfl, fun ⟨k, hk, _⟩ => by cases hk⟩
  | cons k l ih =>
    obtain ⟨hkl, hl'⟩ := List.nodup_cons.1 hl
    obtain ⟨s1, s2, s3, s4, s5, s6⟩ := Bus.claim_spec (hid k)
    have hcl : ∀ j, j ≠ k → (b.claim self c d k).claimant self c d j = b.claimant self c d j := fun j hj =>
      Bus.claimant_congr (s2 (slotAddr j) (.inl fun e => slotAddr_val_inj hj (congrArg Fin.val e))).2
    have hkc : ∀ t, (b.claim self c d k).claimant self c d k = some t → t.id = k := by
      intro t ht
      cases hb : b.claimant self c d k with
      | none =>
        have := (s2 (slotAddr k) (.inr hb)).2
        rw [Bus.claimant_congr this, hb] at ht
        cases ht
      | some u =>
        have h1 := Bus.claimant_occ ht
        rw [(s1 u hb).2] at h1
        cases h1
        exact hid k u hb
    have hid' : ∀ j t, (b.claim self c d k).claimant self c d j = some t → t.id = j := by
      intro j t ht
      by_cases hj : j = k
      · subst hj; exact hkc t ht
      · rw [hcl j hj] at ht; exact hid j t ht
    obtain ⟨r1, r2, r3, r4, r5⟩ := ih hl' (b.claim self c d k) hid'
    have hne : ∀ j ∈ l, j ≠ k := fun j hj e => hkl (e ▸ hj)
    refine ⟨?_, ?_, r3.trans s3, r4.trans s4, ?_⟩
    · intro j hj t ht
      rcases List.mem_cons.1 hj with rfl | hj
      · have := r2 (slotAddr j) fun m hm e => absurd (congrArg Fin.val e) (slotAddr_val_inj (hne m hm).symm)
        exact ⟨this.1.trans (s1 t ht).1, this.2.trans (s1 t ht).2⟩
      · exact r1 j hj t (by rw [hcl j (hne j hj)]; exact ht)
    · intro i hi
      have h1 := r2 i fun m hm e => by rw [hcl m (hne m hm)]; exact hi m (List.mem_cons_of_mem _ hm) e
      have h2 := s2 i (by
        by_cases e : i = slotAddr k
        · exact .inr (hi k List.mem_cons_self e)
        · exact .inl e)
      exact ⟨h1.1.trans h2.1, h1.2.trans h2.2⟩
    · rintro ⟨j, hj, hs⟩
      by_cases hlater : ∃ m ∈ l, ((b.claim self c d k).claimant self c d m).isSome
      · exact r5 hlater
      · have hjk : j = k := by
          rcases List.mem_cons.1 hj with h | h
          · exact h
          · exact absurd ⟨j, h, by rw [hcl j (hne j h)]; exact hs⟩ hlater
        subst hjk
        have hstay : ∀ (m : List (Fin 7)) (x : Bus), (∀ k ∈ m, x.claimant self c d k = none) → m.foldl (Bus.claim self c d) x = x := by
          intro m
          induction m with
          | nil => exact fun x _ => rfl
          | cons q m ihm =>
            intro x hx
            have : x.claim self c d q = x := by rw [Bus.claim_eq, hx q List.mem_cons_self]
            rw [List.foldl_cons, this]
            exact ihm x fun r hr => hx r (List.mem_cons_of_mem _ hr)
        show (l.foldl (Bus.claim self c d) (b.claim self c d j)).combined
        rw [hstay l _ fun m hm => by
          cases hm' : (b.claim self c d j).claimant self c d m with
          | none => rfl
          | some t => exact absurd ⟨m, hm, by rw [hm']; rfl⟩ hlater]
        exact s6 hs

end Sys2Proof.Machine
end

