-- ==== Sys2Proof/Laws/Still.lean ====
section
/-! SUPPORT. A notification at an engine whose guard is held, or that is at rest, leaves the Controller undisturbed,
whatever the Targets do (R91, R92, R175). -/

namespace Sys2Proof.Machine

variable {p : Params}

/-! ### A still Controller -/

/-- From a still instance to a still one, undisturbed. -/
def StillTo (p : Params) (x y : Instance) : Prop := y.still ∧ Undisturbed p x y

/-- An operation that leaves a still instance still and undisturbed. -/
def KeepsStill (p : Params) (f : Instance → Instance) : Prop := ∀ x, x.still → StillTo p x (f x)

theorem Undisturbed.refl (x : Instance) : Undisturbed p x x := ⟨rfl, .inl ⟨rfl, rfl⟩, le_refl _, rfl, rfl, id⟩

/-- What an undisturbed Controller keeps of its engine and of PCTL. -/
theorem Undisturbed.engine {x y : Instance} (h : Undisturbed p x y) :
    y.ctrl.engineFree = x.ctrl.engineFree ∧ y.ctrl.pctl = x.ctrl.pctl := by
  rw [h.ctrl]
  exact ⟨rfl, rfl⟩

theorem Undisturbed.trans {x y z : Instance} (h : Undisturbed p x y) (g : Undisturbed p y z) : Undisturbed p x z := by
  refine ⟨?_, ?_, le_trans g.bfTimer h.bfTimer, g.sig.trans h.sig, g.dat.trans h.dat, fun hr => h.rst (g.rst hr)⟩
  · have e1 := g.ctrl
    rw [h.ctrl] at e1
    exact e1
  · obtain ⟨he, hp⟩ := h.engine
    rcases h.connected with ⟨h1, h2⟩ | ⟨h1, h2, h3, h4, h5⟩
    · rcases g.connected with ⟨g1, g2⟩ | ⟨g1, g2, g3, g4, g5⟩
      · exact .inl ⟨g1.trans h1, g2.trans h2⟩
      · rw [hp, h2] at g5
        exact .inr ⟨h1 ▸ g1, he ▸ g2, le_trans g3 h.bfTimer, g4, g5⟩
    · rcases g.connected with ⟨g1, g2⟩ | ⟨g1, -⟩
      · exact .inr ⟨h1, h2, h3, g1.trans h4, g2.trans h5⟩
      · rw [h4] at g1
        cases g1

theorem StillTo.refl {x : Instance} (h : x.still) : StillTo p x x := ⟨h, .refl x⟩

theorem StillTo.trans {x y z : Instance} (h : StillTo p x y) (g : StillTo p y z) : StillTo p x z :=
  ⟨g.1, h.2.trans g.2⟩

/-- A step of an operation after a still one. -/
theorem StillTo.andThen {x y : Instance} {f : Instance → Instance} (h : StillTo p x y) (hf : KeepsStill p f) :
    StillTo p x (f y) := h.trans (hf y h.1)

/-- Another bus under a still instance: combined, with the own contributions as they are and no new RST. -/
theorem StillTo.setBus {x : Instance} {b : Bus} (h : x.still) (hb : b.combined) (h1 : b.sig[7] = x.bus.sig[7])
    (h2 : b.dat[7] = x.bus.dat[7]) (hr : has b.ctl sigRST = true → has x.bus.ctl sigRST = true) :
    StillTo p x { x with bus := b } :=
  ⟨⟨hb, fun hh => h.rst (hr hh), h.engine⟩, ⟨rfl, .inl ⟨rfl, rfl⟩, le_refl _, h1, h2, hr⟩⟩

theorem OwnOnly.stillTo {k : Fin 7} {x y : Instance} (g : OwnOnly k x y) (h : x.still) : StillTo p x y := by
  refine ⟨⟨?_, ?_, ?_⟩, ⟨?_, .inl ⟨?_, ?_⟩, ?_, ?_, ?_, ?_⟩⟩
  · unfold Bus.combined; rw [g.sig, g.dat, g.ctl, g.data]; exact h.combined
  · rw [g.ctl, g.ctrl]; exact h.rst
  · rw [g.ctrl]; exact h.engine
  · rw [g.ctrl]
  · rw [g.ctrl]
  · rw [g.ctrl]
  · rw [g.ctrl]
  · rw [g.sig]
  · rw [g.dat]
  · rw [g.ctl]; exact id

/-- Seen from a still Controller (R91, R92). -/
theorem stillTo_othersRel (p : Params) : OthersRel fun x y => x.still → StillTo p x y where
  trans h g hx := (h hx).trans (g (h hx).1)
  own h hx := h.stillTo hx
  lines h1 h2 h3 h4 hx := StillTo.setBus hx h1 h2 h3 fun hr => by rw [hx.combined.1]; exact h4 hr

/-- A change of the three fields that may change. -/
theorem StillTo.ctrl {x : Instance} {bf : Nat} {r a : Bool} (h : x.still) (hb : bf ≤ x.ctrl.bfTimer)
    (hr : has x.bus.ctl sigRST = true → r = true) :
    StillTo p x { x with ctrl := { x.ctrl with bfTimer := bf, rstSeen := r, renotify := a } } :=
  ⟨⟨h.combined, hr, h.engine⟩, ⟨rfl, .inl ⟨rfl, rfl⟩, hb, rfl, rfl, id⟩⟩

theorem runEngine_keepsStill (e : Env) (n : Instance → Instance) : KeepsStill p (runEngine e n) := by
  intro x h
  by_cases hb : x.ctrl.busy = true
  · unfold runEngine
    rw [if_pos hb]
    exact StillTo.ctrl h (le_refl _) h.rst
  · have hr : x.engineRests := ⟨by simpa using hb, by rcases h.engine with g | g; exact absurd g hb; exact g⟩
    rw [runEngine_rest e n x hr]
    exact StillTo.ctrl h (le_refl _) h.rst

/-- Without an edge `check_rst` only looks (R207). -/
theorem checkRst_seen (n : Instance → Instance) (x : Instance)
    (h : has x.bus.ctl sigRST = true → x.ctrl.rstSeen = true) :
    checkRst n x = x.modCtrl fun c => { c with rstSeen := has x.bus.ctl sigRST } := by
  have : ¬((has x.bus.ctl sigRST && !x.ctrl.rstSeen) = true) := by
    simp only [Bool.and_eq_true, Bool.not_eq_true', not_and, Bool.not_eq_false]
    exact h
  simp only [checkRst, if_neg this]

theorem checkRst_keepsStill (n : Instance → Instance) : KeepsStill p (checkRst n) := by
  intro y hy
  rw [checkRst_seen n y hy.rst]
  exact StillTo.ctrl hy (le_refl _) id

theorem checkDisconnect_keepsStill (e : Env) : KeepsStill e.p (checkDisconnect e) := by
  intro y hy
  simp only [checkDisconnect]
  split
  · rename_i hc
    simp only [Bool.and_eq_true, busFreeDetected, decide_eq_true_eq] at hc
    obtain ⟨⟨a, b⟩, _, c⟩ := hc
    split
    · rename_i h7
      exact ⟨⟨hy.combined, hy.rst, hy.engine⟩, ⟨rfl, .inr ⟨a, b, c, rfl, (if_pos h7).symm⟩, le_refl _, rfl, rfl, id⟩⟩
    · rename_i h7
      exact ⟨⟨hy.combined, hy.rst, hy.engine⟩, ⟨rfl, .inr ⟨a, b, c, rfl, (if_neg h7).symm⟩, le_refl _, rfl, rfl, id⟩⟩
  · exact .refl hy

/-- The callback leaves a still Controller undisturbed (R175, R206, R207). -/
theorem onBusChange_keepsStill (e : Env) (he : e.p = p) (n : Instance → Instance) : KeepsStill p (onBusChange e n) := by
  subst he
  intro x h
  have h0 : StillTo e.p x (if x.bus.isFree then x else x.modCtrl fun c => { c with bfTimer := 0 }) := by
    split
    · exact .refl h
    · exact StillTo.ctrl h (Nat.zero_le _) h.rst
  exact ((h0.andThen (checkRst_keepsStill n)).andThen (checkDisconnect_keepsStill e)).andThen (runEngine_keepsStill e n)

/-- Everything a notification to any depth can do to a still Controller, said once: it leaves it undisturbed (R91, R92,
R175). -/
theorem notifyTo_keepsStill (e : Env) (d : Nat) : KeepsStill e.p (notifyTo e d) :=
  others_notifyTo (stillTo_othersRel e.p) e (fun n _ => onBusChange_keepsStill e rfl n) d

theorem notify_keepsStill (e : Env) : KeepsStill e.p (notify e) := notifyTo_keepsStill e nestingBound

/-- The Targets' handlers leave a still Controller undisturbed (R91). -/
theorem targets_keepStill (e : Env) (d : Nat) (l : List (Fin 7)) :
    KeepsStill e.p (l.foldl fun y k => targetHandler e (notifyTo e d) k y) :=
  others_targets (stillTo_othersRel e.p) (notifyTo_keepsStill e d) e l

/-- An undisturbed Controller that is not connected keeps everything but the three fields. -/
theorem Undisturbed.unconnected {x y : Instance} (h : Undisturbed p x y) (hc : x.ctrl.connected = false) :
    y.ctrl = { x.ctrl with bfTimer := y.ctrl.bfTimer, rstSeen := y.ctrl.rstSeen, renotify := y.ctrl.renotify } := by
  rcases h.connected with ⟨h1, h2⟩ | ⟨h1, -⟩
  · have := h.ctrl
    rw [h1, h2] at this
    exact this
  · rw [hc] at h1
    cases h1

/-! ### The Controller's own lines -/

/-- A change of the own lines in normal mode, without asserting RST: the contribution is the merged one, and the
notification leaves the rest of the Controller undisturbed (R112). -/
theorem setControl7_still (e : Env) (v m : Ctl) (x : Instance) (h : x.still) (hv : v &&& sigRST = 0) :
    let y := setControl (notify e) 7 v m x
    let w := { x with bus := x.bus.writeControl 7 v m }
    StillTo e.p w y ∧ y.bus.sig[7] = merge x.bus.sig[7] v m ∧ y.bus.dat[7] = x.bus.dat[7] ∧
      (has y.bus.ctl sigRST = true → has x.bus.ctl sigRST = true) := by
  have hr : has (x.bus.writeControl 7 v m).ctl sigRST = true → has x.bus.ctl sigRST = true := fun hr => by
    rw [h.combined.1]; exact writeControl_rst hv hr
  have hw : ({ x with bus := x.bus.writeControl 7 v m } : Instance).still :=
    ⟨Bus.writeControl_combined _ _ _ _, fun hh => h.rst (hr hh), h.engine⟩
  have key : StillTo e.p { x with bus := x.bus.writeControl 7 v m } (setControl (notify e) 7 v m x) := by
    unfold setControl
    rcases changeBus_cases (notify e) x (x.bus.writeControl 7 v m) with ⟨_, g⟩ | ⟨_, g⟩
    · rw [g]; exact .refl hw
    · rw [g]; exact notify_keepsStill e _ hw
  have hs : (x.bus.writeControl 7 v m).sig[7] = merge x.bus.sig[7] v m := by
    rw [Bus.writeControl_sig]
    exact Vector.getElem_set_self _
  exact ⟨key, key.2.sig.trans hs, key.2.dat, fun hh => hr (key.2.rst hh)⟩

/-- What `drive` leaves of a still Controller in normal mode (R112). -/
theorem drive_still (e : Env) (v m : Ctl) (x : Instance) (h : x.still) (hv : v &&& sigRST = 0)
    (hd : x.ctrl.dm = false) :
    let y := drive (notify e) v m x
    StillTo e.p { x with bus := x.bus.writeControl 7 v m } y ∧
    y.bus.sig[7] = merge x.bus.sig[7] v m ∧ y.bus.dat[7] = x.bus.dat[7] ∧
    (has y.bus.ctl sigRST = true → has x.bus.ctl sigRST = true) := by
  unfold drive
  rw [if_neg (by simp [hd])]
  exact setControl7_still e v m x h hv

/-- The own signals released under the guard, in normal mode: the rest of the Controller is undisturbed, whatever the
Targets do (R152, R190; log 23). -/
theorem releaseSelection_still (e : Env) (x : Instance) (hc : x.bus.combined)
    (hr : has x.bus.ctl sigRST = true → x.ctrl.rstSeen = true) (hd : x.ctrl.dm = false) :
    let y := releaseSelection (notify e) x
    ∃ w : Instance, w.bus.sig[7] = merge x.bus.sig[7] 0 (sigBSY ||| sigSEL ||| sigATN ||| sigACK) ∧ w.bus.dat[7] = 0 ∧
      w.ctrl = x.ctrl ∧ Undisturbed e.p w y ∧ y.bus.combined ∧ (has y.bus.ctl sigRST = true → y.ctrl.rstSeen = true) := by
  have hs : (x.modCtrl fun c => { c with busy := true }).still := ⟨hc, hr, .inl rfl⟩
  obtain ⟨h1, h2, h3, -⟩ := drive_still e 0 (sigBSY ||| sigSEL ||| sigATN ||| sigACK) _ hs (by simp) hd
  unfold releaseSelection guarded
  generalize drive (notify e) 0 (sigBSY ||| sigSEL ||| sigATN ||| sigACK) (x.modCtrl fun c => { c with busy := true }) = y
    at h1 h2 h3 ⊢
  refine ⟨{ x with bus := (x.bus.writeControl 7 0 (sigBSY ||| sigSEL ||| sigATN ||| sigACK)).writeData 7 0 },
    Vector.getElem_set_self _, Vector.getElem_set_self _, rfl, ⟨?_, ?_, h1.2.bfTimer, ?_, ?_, ?_⟩, ?_, ?_⟩
  · have := h1.2.ctrl
    simp only [driveData_ctrl, Instance.modCtrl_ctrl] at this ⊢
    rw [this]
  · exact h1.2.connected
  · exact h2.trans (Vector.getElem_set_self _).symm
  · exact (Vector.getElem_set_self _).trans (Vector.getElem_set_self _).symm
  · intro hh
    refine h1.2.rst ?_
    rw [h1.1.combined.1]
    exact hh
  · exact Bus.writeData_combined _ _ _
  · intro hh
    refine h1.1.rst ?_
    rw [h1.1.combined.1]
    exact hh

/-- `abort_all` under the guard (R115; log 23): the own contributions are gone, and of what the write of SCTL does not
name nothing but the three fields has changed, whatever the Targets do. -/
theorem abortAll_still (e : Env) (x : Instance) (hc : x.bus.combined)
    (hr : has x.bus.ctl sigRST = true → x.ctrl.rstSeen = true) (hf : x.ctrl.engineFree = false) :
    let y := abortAll (notify e) x
    y.ctrl.ints = x.ctrl.ints ∧ y.ctrl.tc = x.ctrl.tc ∧ y.ctrl.temp = x.ctrl.temp ∧ y.ctrl.busy = x.ctrl.busy ∧
    y.bus.sig[7] = 0 ∧ y.bus.dat[7] = 0 := by
  have hs : (x.modCtrl fun c => { c with busy := true }).still := ⟨hc, hr, .inl rfl⟩
  obtain ⟨h1, h2, -, -⟩ := setControl7_still e 0 sigALL _ hs (by simp)
  unfold abortAll guarded
  have hm : ∀ a : Ctl, merge a 0 sigALL = 0 := by decide
  rw [hm] at h2
  have h3 := h1.2.ctrl
  have h4 : (setControl (notify e) 7 0 sigALL (x.modCtrl fun c => { c with busy := true })).ctrl.ints = x.ctrl.ints := by
    rcases h1.2.connected with g | ⟨-, g, -⟩
    · exact g.2
    · exact absurd (hf.symm.trans g) (by simp)
  simp only at h3
  generalize setControl (notify e) 7 0 sigALL (x.modCtrl fun c => { c with busy := true }) = y at h1 h2 h3 h4 ⊢
  refine ⟨h4, ?_, ?_, rfl, h2, Vector.getElem_set_self _⟩ <;>
    simp only [Instance.modCtrl_ctrl, setData_ctrl] <;> rw [h3] <;> rfl

/-! ### The guard at a calm instance -/

/-- The tail does not look at the note that another notification came in. -/
theorem afterTail_renotify (x : Instance) (r : Bool) :
    afterTail { x with ctrl := { x.ctrl with renotify := r } } = afterTail x := rfl

/-- The callback on a changed bus while the guard of an otherwise calm Controller is held. -/
theorem onBusChange_guarded (e : Env) (n : Instance → Instance) (x : Instance) (hb : x.ctrl.busy = true)
    (hs : x.ctrl.state = .idle) (hp : x.ctrl.pending = none) (hc : x.ctrl.connected = false) :
    onBusChange e n x =
      { x with ctrl := { x.ctrl with
          bfTimer := if x.bus.isFree then x.ctrl.bfTimer else 0
          ints := if has x.bus.ctl sigRST && !x.ctrl.rstSeen then x.ctrl.ints ||| intRC else x.ctrl.ints
          rstSeen := has x.bus.ctl sigRST
          renotify := true } } := by
  have key : ∀ y : Instance, y.ctrl.busy = true → y.ctrl.state = .idle → y.ctrl.pending = none →
      y.ctrl.connected = false →
      runEngine e n (checkDisconnect e (checkRst n y)) =
        { y with ctrl := { y.ctrl with
            ints := if has y.bus.ctl sigRST && !y.ctrl.rstSeen then y.ctrl.ints ||| intRC else y.ctrl.ints
            rstSeen := has y.bus.ctl sigRST
            renotify := true } } := by
    intro y h1 h2 h3 h4
    have hr : checkRst n y = { y with ctrl := { y.ctrl with
        ints := if has y.bus.ctl sigRST && !y.ctrl.rstSeen then y.ctrl.ints ||| intRC else y.ctrl.ints
        rstSeen := has y.bus.ctl sigRST } } := by
      simp only [checkRst, Controller.engineFree, raiseInt_ctrl, h2, h3, h4]
      split
      · simp [raiseInt, Instance.modCtrl, h2, h3, h4]
      · simp [Instance.modCtrl, h2, h3, h4]
    rw [hr]
    generalize hz : ({ y with ctrl := _ } : Instance) = z
    have hz1 : z.ctrl.connected = false := by rw [← hz]; exact h4
    have hz2 : z.ctrl.busy = true := by rw [← hz]; exact h1
    have hd : checkDisconnect e z = z := by simp [checkDisconnect, hz1]
    rw [hd, show runEngine e n z = z.modCtrl fun c => { c with renotify := true } from if_pos hz2, ← hz]
    rfl
  simp only [onBusChange]
  by_cases hf : x.bus.isFree = true
  · rw [if_pos hf, if_pos hf]
    exact key x hb hs hp hc
  · rw [if_neg hf, if_neg hf]
    exact key (x.modCtrl fun c => { c with bfTimer := 0 }) hb hs hp hc

/-- A bus change with a new control word. -/
theorem afterChange_ne (x : Instance) (b : Bus) (h : b.ctl ≠ x.bus.ctl) :
    afterChange x b =
      { x with
        bus := b
        ctrl := { x.ctrl with
          bfTimer := if b.isFree then x.ctrl.bfTimer else 0
          ints := if has b.ctl sigRST && !x.ctrl.rstSeen then x.ctrl.ints ||| intRC else x.ctrl.ints
          rstSeen := has b.ctl sigRST
          renotify := false } } := if_neg h

/-- `drive` under the guard at a calm instance: as without it, but for the note that a notification came in. -/
theorem guarded_drive_calm (e : Env) (v m : Ctl) (x : Instance) (h : x.calm) :
    ∃ r, guarded (drive (notify e) v m) x =
      { afterDrive v m x with ctrl := { (afterDrive v m x).ctrl with renotify := r } } := by
  obtain ⟨⟨hcb, hb, hs, hp, hc⟩, ht⟩ := h
  have hg : ∀ w : Instance, (∃ r, drive (notify e) v m (x.modCtrl fun c => { c with busy := true }) =
      { w with ctrl := { w.ctrl with busy := true, renotify := r } }) → w.ctrl.busy = false →
      ∃ r, guarded (drive (notify e) v m) x = { w with ctrl := { w.ctrl with renotify := r } } := by
    rintro w ⟨r, hr⟩ hw
    refine ⟨r, ?_⟩
    unfold guarded
    rw [hr, hb]
    simp only [Instance.modCtrl, ← hw]
  rcases drive_cases (notify e) v m (x.modCtrl fun c => { c with busy := true }) with ⟨hd, g⟩ | ⟨hd, g⟩
  · have hA : afterDrive v m x = { x with ctrl := { x.ctrl with diagSig := merge x.ctrl.diagSig v m } } := if_pos hd
    rw [hA]
    exact hg _ ⟨x.ctrl.renotify, g⟩ hb
  · have hA : afterDrive v m x = afterChange x (x.bus.writeControl 7 v m) :=
      if_neg (by rw [show x.ctrl.dm = false from hd]; simp)
    rw [hA]
    simp only [Instance.modCtrl_bus] at g
    rcases changeBus_cases (notify e) (x.modCtrl fun c => { c with busy := true }) (x.bus.writeControl 7 v m) with
      ⟨h1, h2⟩ | ⟨h1, h2⟩
    · have hB : afterChange x (x.bus.writeControl 7 v m) = { x with bus := x.bus.writeControl 7 v m } := if_pos h1
      rw [hB]
      exact hg _ ⟨x.ctrl.renotify, g.trans h2⟩ hb
    · have hB := afterChange_ne x (x.bus.writeControl 7 v m) h1
      rw [hB]
      refine hg _ ⟨true, (g.trans h2).trans ?_⟩ hb
      have hx : ({ x.modCtrl fun c => { c with busy := true } with bus := x.bus.writeControl 7 v m } :
          Instance).noTargets := fun j => (Instance.target?_congr (y := x) rfl j).trans (ht j)
      have hn := deliver_noTargets e (notifyTo_reacts e 31) (x := { x.modCtrl fun c => { c with busy := true } with
        bus := x.bus.writeControl 7 v m }) hcb hx
      exact (hn.trans (onBusChange_guarded e _ _ rfl hs hp hc)).trans rfl

/-- The release of the own signals at a calm instance (R152). -/
theorem releaseSelection_calm (e : Env) (x : Instance) (h : x.calm) :
    ∃ r, releaseSelection (notify e) x =
      let y := afterDrive 0 (sigBSY ||| sigSEL ||| sigATN ||| sigACK) x
      { y with bus := y.bus.writeData 7 0, ctrl := { y.ctrl with renotify := r } } := by
  obtain ⟨r, hr⟩ := guarded_drive_calm e 0 (sigBSY ||| sigSEL ||| sigATN ||| sigACK) x h
  exact ⟨r, by unfold releaseSelection; rw [hr]; rfl⟩

/-! ### The guard in every state -/

/-- What stays while the guard is held, in every state: the counter, TEMP and SCTL; of the own contributions only the
abort of R207 takes some away. -/
structure Held (x y : Instance) : Prop where
  busy : y.ctrl.busy = true
  tc : y.ctrl.tc = x.ctrl.tc
  temp : y.ctrl.temp = x.ctrl.temp
  sctl : y.ctrl.sctl = x.ctrl.sctl
  sig : y.bus.sig[7] = x.bus.sig[7] ∨
    y.bus.sig[7] = x.bus.sig[7] &&& ~~~(sigBSY ||| sigSEL ||| sigATN ||| sigACK)
  dat : y.bus.dat[7] = x.bus.dat[7] ∨ y.bus.dat[7] = 0

theorem Held.refl {x : Instance} (h : x.ctrl.busy = true) : Held x x := ⟨h, rfl, rfl, rfl, .inl rfl, .inl rfl⟩

theorem Held.trans {x y z : Instance} (h : Held x y) (g : Held y z) : Held x z := by
  refine ⟨g.busy, g.tc.trans h.tc, g.temp.trans h.temp, g.sctl.trans h.sctl, ?_, ?_⟩
  · rcases g.sig with g1 | g1 <;> rcases h.sig with h1 | h1
    · exact .inl (g1.trans h1)
    · exact .inr (g1.trans h1)
    · exact .inr (by rw [g1, h1])
    · exact .inr (by rw [g1, h1, BitVec.and_assoc, BitVec.and_self])
  · rcases g.dat with g1 | g1
    · rcases h.dat with h1 | h1
      · exact .inl (g1.trans h1)
      · exact .inr (g1.trans h1)
    · exact .inr g1

/-- Seen from a Controller whose guard is held. -/
theorem held_othersRel : OthersRel fun x y => x.ctrl.busy = true → Held x y where
  trans h g hx := (h hx).trans (g (h hx).busy)
  own {_ x y} h hx := by
    refine ⟨by rw [h.ctrl]; exact hx, by rw [h.ctrl], by rw [h.ctrl], by rw [h.ctrl], .inl ?_, .inl ?_⟩
    · rw [h.sig]
    · rw [h.dat]
  lines _ h2 h3 _ hx := ⟨hx, rfl, rfl, rfl, .inl h2, .inl h3⟩

/-- A change of the Controller that leaves the guard, the counter, TEMP and SCTL. -/
theorem Held.modCtrl {x : Instance} (f : Controller → Controller) (h : x.ctrl.busy = true)
    (h1 : (f x.ctrl).busy = x.ctrl.busy := by rfl) (h2 : (f x.ctrl).tc = x.ctrl.tc := by rfl)
    (h3 : (f x.ctrl).temp = x.ctrl.temp := by rfl) (h4 : (f x.ctrl).sctl = x.ctrl.sctl := by rfl) :
    Held x (x.modCtrl f) := ⟨h1.trans h, h2, h3, h4, .inl rfl, .inl rfl⟩

/-- A merge of nothing takes the masked bits away. -/
theorem merge_zero (q m : Ctl) : merge q 0 m = q &&& ~~~m := by simp [merge]

/-- A change of the own contribution while the guard is held. -/
theorem setControl7_held {n : Instance → Instance} (hn : ∀ x, x.ctrl.busy = true → Held x (n x)) (v m : Ctl)
    (x : Instance) (h : x.ctrl.busy = true) :
    Held { x with bus := x.bus.writeControl 7 v m } (setControl n 7 v m x) := by
  unfold setControl
  rcases changeBus_cases n x (x.bus.writeControl 7 v m) with ⟨-, g⟩ | ⟨-, g⟩
  · rw [g]; exact .refl h
  · rw [g]; exact hn _ h

/-- The release of the own signals, whatever answers it, in every state (R152, R190, R207; log 23). -/
theorem releaseSelection_held {n : Instance → Instance} (hn : ∀ x, x.ctrl.busy = true → Held x (n x)) (x : Instance) :
    let y := releaseSelection n x
    y.ctrl.tc = x.ctrl.tc ∧ y.ctrl.temp = x.ctrl.temp ∧ y.ctrl.sctl = x.ctrl.sctl ∧ y.ctrl.busy = x.ctrl.busy ∧
    y.bus.sig[7] = (if x.ctrl.dm then x.bus.sig[7]
                    else x.bus.sig[7] &&& ~~~(sigBSY ||| sigSEL ||| sigATN ||| sigACK)) ∧
    y.bus.dat[7] = 0 := by
  unfold releaseSelection guarded drive
  generalize hm : sigBSY ||| sigSEL ||| sigATN ||| sigACK = m
  by_cases hd : x.ctrl.dm = true
  · rw [if_pos (show (x.modCtrl fun c => { c with busy := true }).ctrl.dm = true from hd), if_pos hd]
    exact ⟨rfl, rfl, rfl, rfl, rfl, Vector.getElem_set_self _⟩
  · rw [if_neg (show ¬(x.modCtrl fun c => { c with busy := true }).ctrl.dm = true from hd), if_neg hd]
    have h := setControl7_held hn 0 m (x.modCtrl fun c => { c with busy := true }) rfl
    have hs : (x.bus.writeControl 7 0 m).sig[7] = x.bus.sig[7] &&& ~~~m :=
      (Vector.getElem_set_self _).trans (merge_zero _ _)
    generalize setControl n 7 0 m (x.modCtrl fun c => { c with busy := true }) = y at h ⊢
    refine ⟨h.tc, h.temp, h.sctl, rfl, ?_, Vector.getElem_set_self _⟩
    rcases h.sig with g | g
    · exact g.trans hs
    · refine g.trans ?_
      rw [hm]
      exact (congrArg (· &&& ~~~m) hs).trans (by rw [BitVec.and_assoc, BitVec.and_self])

/-- `abort_all`, whatever answers it, in every state (R115; log 23). -/
theorem abortAll_held {n : Instance → Instance} (hn : ∀ x, x.ctrl.busy = true → Held x (n x)) (x : Instance) :
    let y := abortAll n x
    y.ctrl.tc = x.ctrl.tc ∧ y.ctrl.temp = x.ctrl.temp ∧ y.ctrl.busy = x.ctrl.busy ∧
    y.bus.sig[7] = 0 ∧ y.bus.dat[7] = 0 := by
  unfold abortAll guarded
  have h := setControl7_held hn 0 sigALL (x.modCtrl fun c => { c with busy := true }) rfl
  have hs : (x.bus.writeControl 7 0 sigALL).sig[7] = 0 :=
    (Vector.getElem_set_self _).trans (by rw [merge_zero]; exact BitVec.and_zero)
  generalize setControl n 7 0 sigALL (x.modCtrl fun c => { c with busy := true }) = y at h ⊢
  refine ⟨h.tc, h.temp, rfl, ?_, Vector.getElem_set_self _⟩
  rcases h.sig with g | g
  · exact g.trans hs
  · exact g.trans ((congrArg (· &&& _) hs).trans BitVec.zero_and)

/-- The callback while the guard is held (R175, R207). -/
theorem onBusChange_held (e : Env) (n : Instance → Instance) (hn : ∀ x, x.ctrl.busy = true → Held x (n x))
    (x : Instance) (h : x.ctrl.busy = true) : Held x (onBusChange e n x) := by
  have h0 : Held x (if x.bus.isFree then x else x.modCtrl fun c => { c with bfTimer := 0 }) := by
    split
    · exact .refl h
    · exact .modCtrl _ h
  have hrel : ∀ y : Instance, y.ctrl.busy = true → Held y (releaseSelection n y) := by
    intro y hy
    obtain ⟨h1, h2, h3, h4, h5, h6⟩ := releaseSelection_held hn y
    refine ⟨h4.trans hy, h1, h2, h3, ?_, .inr h6⟩
    rw [h5]
    split
    · exact .inl rfl
    · exact .inr rfl
  have h1 : ∀ y : Instance, y.ctrl.busy = true → Held y (checkRst n y) := by
    intro y hy
    simp only [checkRst]
    split
    · split
      · have a := (Held.modCtrl (fun c => { c with ints := c.ints ||| intRC }) hy).trans
          (hrel (raiseInt intRC y) hy)
        refine a.trans (Held.trans (y := rstAbort n (raiseInt intRC y)) ?_ (.modCtrl _ ?_))
        · exact .modCtrl _ a.busy
        · exact a.busy
      · exact (Held.modCtrl (fun c => { c with ints := c.ints ||| intRC }) hy).trans (.modCtrl _ hy)
    · exact .modCtrl _ hy
  have h2 : ∀ y : Instance, y.ctrl.busy = true → Held y (checkDisconnect e y) := by
    intro y hy
    simp only [checkDisconnect]
    split
    · split
      · exact (Held.modCtrl (fun c => { c with connected := false }) hy).trans (.modCtrl _ hy)
      · exact .modCtrl _ hy
    · exact .refl hy
  have h3 : ∀ y : Instance, y.ctrl.busy = true → Held y (runEngine e n y) := by
    intro y hy
    unfold runEngine
    rw [if_pos hy]
    exact ⟨hy, rfl, rfl, rfl, .inl rfl, .inl rfl⟩
  have a := h0.trans (h1 _ h0.busy)
  have b := a.trans (h2 _ a.busy)
  exact b.trans (h3 _ b.busy)

/-- Everything a notification can do while the guard is held, in every state (R92, R175). -/
theorem notify_held (e : Env) (x : Instance) (h : x.ctrl.busy = true) : Held x (notify e x) :=
  others_notify held_othersRel e (fun n hn => onBusChange_held e n hn) x h

/-! ### A running engine -/

/-- `drive` of an engine that is not free, at a still instance, in either mode: the shadow or the own contribution takes
the masked bits, and the notification leaves the rest of the Controller (R92, R112). -/
theorem drive_running (e : Env) (v m : Ctl) (x : Instance) (h : x.still) (hs : x.ctrl.engineFree = false)
    (hv : v &&& sigRST = 0) (hm : v &&& m = v) :
    let y := drive (notify e) v m x
    y.ctrl = { x.ctrl with
        diagSig := if x.ctrl.dm then (x.ctrl.diagSig &&& ~~~m) ||| v else x.ctrl.diagSig
        bfTimer := y.ctrl.bfTimer, rstSeen := y.ctrl.rstSeen, renotify := y.ctrl.renotify } ∧
    y.bus.sig[7] = (if x.ctrl.dm then x.bus.sig[7] else (x.bus.sig[7] &&& ~~~m) ||| v) ∧
    y.bus.dat[7] = x.bus.dat[7] ∧ y.still := by
  have hmm : ∀ a, merge a v m = (a &&& ~~~m) ||| v := fun a => by unfold merge; rw [hm]
  intro y
  by_cases hd : x.ctrl.dm = true
  · have hy : y = x.modCtrl fun c => { c with diagSig := merge c.diagSig v m } := if_pos hd
    rw [hy, if_pos hd, if_pos hd]
    simp only [Instance.modCtrl_ctrl, Instance.modCtrl_bus, hmm]
    exact ⟨trivial, trivial, trivial, h.combined, h.rst, h.engine⟩
  · obtain ⟨h1, h2, h3, -⟩ := drive_still e v m x h hv (by simpa using hd)
    have h4 : y.ctrl = _ := h1.2.ctrl
    have h5 : y.ctrl.connected = x.ctrl.connected ∧ y.ctrl.ints = x.ctrl.ints := by
      rcases h1.2.connected with g | ⟨-, g, -⟩
      · exact g
      · exact absurd (hs.symm.trans g) (by simp)
    rw [if_neg hd, if_neg hd]
    refine ⟨?_, h2.trans (hmm _), h3, h1.1⟩
    rw [h4]
    exact congrArg₂ (fun (c : Bool) (i : Byte) => ({ x.ctrl with
      connected := c, ints := i, bfTimer := y.ctrl.bfTimer, rstSeen := y.ctrl.rstSeen
      renotify := y.ctrl.renotify } : Controller)) h5.1 h5.2

/-- The own data byte, driven at a still instance (R112). -/
theorem driveData_still (v : Byte) (x : Instance) (h : x.still) :
    (driveData v x).still ∧ (driveData v x).bus.dat[7] = v ∧ (driveData v x).bus.sig[7] = x.bus.sig[7] :=
  ⟨⟨Bus.writeData_combined _ _ _, fun hh => h.rst (by rw [h.combined.1]; exact hh), h.engine⟩,
    Vector.getElem_set_self _, rfl⟩

/-! ### A command byte that leaves RST as it is (R116) -/

/-- A write of a contribution that changes nothing in it changes nothing on a combined bus. -/
theorem writeControl_same {b : Bus} (hc : b.combined) {id : Fin 8} {v m : Ctl} (h : merge b.sig[id] v m = b.sig[id]) :
    b.writeControl id v m = b := by
  have hs : b.sig.set id (merge b.sig[id] v m) = b.sig := by rw [h]; exact Vector.set_getElem_self _
  have e1 : b.writeControl id v m =
      { b with sig := b.sig.set id (merge b.sig[id] v m), ctl := orCtl (b.sig.set id (merge b.sig[id] v m)),
               data := orData b.dat } := rfl
  rw [e1, hs, ← hc.1, ← hc.2]

/-- A drive that changes nothing in the own contribution does nothing, in normal mode (R95, R112). -/
theorem drive_same (n : Instance → Instance) (v m : Ctl) (x : Instance) (hc : x.bus.combined) (hd : x.ctrl.dm = false)
    (h : merge x.bus.sig[7] v m = x.bus.sig[7]) : drive n v m x = x := by
  unfold drive
  rw [if_neg (by simp [hd])]
  unfold setControl
  have h' : merge x.bus.sig[(7 : Fin 8)] v m = x.bus.sig[(7 : Fin 8)] := h
  rw [writeControl_same hc h']
  unfold changeBus
  rw [if_pos rfl]

/-- The bit of RST-out in a command byte. -/
theorem scmdByte_rst (code : BitVec 3) (low : BitVec 5) : (scmdByte code low).getLsbD 4 = low.getLsbD 4 := by
  unfold scmdByte
  rw [BitVec.getLsbD_append]
  simp

/-- A command byte in normal mode whose bit 4 leaves RST as it is: the byte is stored and the command run. -/
theorem issueCommand_sameRst (e : Env) (command : (Instance → Instance) → Instance → Instance) (code : BitVec 3)
    (low : BitVec 5) (x : Instance) (hc : x.bus.combined) (hd : x.ctrl.sctl.getLsbD 5 = false)
    (h7 : x.ctrl.sctl.getLsbD 7 = false) (h : x.bus.sig[7] &&& sigRST = (if low.getLsbD 4 then sigRST else 0)) :
    issueCommand command (scmdByte code low) e x =
      commonTail e (command (notify e) { x with ctrl := { x.ctrl with scmd := scmdByte code low } }) := by
  have hm : merge x.bus.sig[7] (onlyIf (low.getLsbD 4) sigRST) sigRST = x.bus.sig[7] := by
    unfold onlyIf
    rw [← h]
    generalize x.bus.sig[7] = w
    revert w
    decide
  generalize hx : ({ x with ctrl := { x.ctrl with scmd := scmdByte code low } } : Instance) = w
  have hdr : drive (notify e) (onlyIf (low.getLsbD 4) sigRST) sigRST w = w := by
    subst hx
    exact drive_same _ _ _ _ hc hd hm
  have hz : (x.modCtrl fun c => { c with scmd := scmdByte code low }) = w := hx
  have h7' : w.ctrl.sctl.getLsbD 7 = false := by rw [← hx]; exact h7
  unfold issueCommand writeScmdWith
  simp only [scmdByte_rst, hz, hdr, h7']
  rfl

/-- A command byte in diagnostic mode: RST-out goes to the shadow, and the command is run. -/
theorem issueCommand_dm (e : Env) (command : (Instance → Instance) → Instance → Instance) (code : BitVec 3)
    (low : BitVec 5) (x : Instance) (hd : x.ctrl.dm = true) (h7 : x.ctrl.sctl.getLsbD 7 = false) :
    issueCommand command (scmdByte code low) e x =
      commonTail e (command (notify e) { x with ctrl := { x.ctrl with
        scmd := scmdByte code low, diagSig := merge x.ctrl.diagSig (onlyIf (low.getLsbD 4) sigRST) sigRST } }) := by
  have hdr : drive (notify e) (onlyIf (low.getLsbD 4) sigRST) sigRST
      (x.modCtrl fun c => { c with scmd := scmdByte code low }) = { x with ctrl := { x.ctrl with
        scmd := scmdByte code low, diagSig := merge x.ctrl.diagSig (onlyIf (low.getLsbD 4) sigRST) sigRST } } := if_pos hd
  unfold issueCommand writeScmdWith
  simp only [scmdByte_rst, hdr, h7]
  rfl

/-! ### A command byte, whatever becomes of RST-out (R116) -/

theorem afterRstOut_reacts (e : Env) (code : BitVec 3) (low : BitVec 5) (x : Instance) :
    Reacts { x with ctrl := { x.ctrl with scmd := code ++ low } } (afterRstOut e code low x) :=
  drive_reacts (notify_reacts e) _ _ _

@[simp] theorem afterRstOut_sctl (e : Env) (code : BitVec 3) (low : BitVec 5) (x : Instance) :
    (afterRstOut e code low x).ctrl.sctl = x.ctrl.sctl := (afterRstOut_reacts e code low x).ctrl.sctl

@[simp] theorem afterRstOut_busy (e : Env) (code : BitVec 3) (low : BitVec 5) (x : Instance) :
    (afterRstOut e code low x).ctrl.busy = x.ctrl.busy := (afterRstOut_reacts e code low x).ctrl.busy

/-- RST-out at a calm instance (R116). -/
theorem afterRstOut_calm (e : Env) (code : BitVec 3) (low : BitVec 5) (x : Instance) (h : x.calm) :
    afterRstOut e code low x = afterScmd (code ++ low) x := by
  have hb : (code ++ low).getLsbD 4 = low.getLsbD 4 := scmdByte_rst code low
  have hx : ({ x with ctrl := { x.ctrl with scmd := code ++ low } } : Instance).calm := h
  unfold afterRstOut afterScmd
  rw [drive_calm e _ _ _ hx, hb]
  rfl

/-- RST-out in normal mode that leaves RST as it is (R116). -/
theorem afterRstOut_same (e : Env) (code : BitVec 3) (low : BitVec 5) (x : Instance) (hc : x.bus.combined)
    (hd : x.ctrl.sctl.getLsbD 5 = false) (h : x.bus.sig[7] &&& sigRST = (if low.getLsbD 4 then sigRST else 0)) :
    afterRstOut e code low x = { x with ctrl := { x.ctrl with scmd := code ++ low } } := by
  have hm : merge x.bus.sig[7] (if low.getLsbD 4 then sigRST else 0) sigRST = x.bus.sig[7] := by
    rw [← h]
    generalize x.bus.sig[7] = w
    revert w
    decide
  generalize hx : ({ x with ctrl := { x.ctrl with scmd := code ++ low } } : Instance) = w
  unfold afterRstOut
  rw [hx]
  subst hx
  exact drive_same _ _ _ _ hc hd hm

/-- In normal mode the words are combined after RST-out, even if they were not before. -/
theorem afterRstOut_combined (e : Env) (code : BitVec 3) (low : BitVec 5) (x : Instance)
    (hd : x.ctrl.sctl.getLsbD 5 = false) : (afterRstOut e code low x).bus.combined := by
  unfold afterRstOut drive
  rw [if_neg (by rw [show ({ x with ctrl := { x.ctrl with scmd := code ++ low } } : Instance).ctrl.dm = false from hd]; simp)]
  unfold setControl
  rcases changeBus_cases (notify e) { x with ctrl := { x.ctrl with scmd := code ++ low } }
    (x.bus.writeControl 7 (if low.getLsbD 4 then sigRST else 0) sigRST) with ⟨-, g⟩ | ⟨-, g⟩
  · rw [g]; exact Bus.writeControl_combined _ _ _ _
  · rw [g]; exact (notify_reacts e _).combined (Bus.writeControl_combined _ _ _ _)

/-- A command that is not disabled, in every state: RST-out, the command, the common tail (R116, R150). -/
theorem issueCommand_rstOut (e : Env) (command : (Instance → Instance) → Instance → Instance) (code : BitVec 3)
    (low : BitVec 5) (x : Instance) (h : x.ctrl.sctl.getLsbD 7 = false) :
    issueCommand command (scmdByte code low) e x =
      commonTail e (command (notify e) (afterRstOut e code low x)) := by
  have hz : (x.modCtrl fun c => { c with scmd := scmdByte code low }) =
      { x with ctrl := { x.ctrl with scmd := code ++ low } } := rfl
  unfold issueCommand writeScmdWith
  simp only [scmdByte_rst, hz]
  rw [show drive (notify e) (onlyIf (low.getLsbD 4) sigRST) sigRST { x with ctrl := { x.ctrl with scmd := code ++ low } } =
    afterRstOut e code low x from rfl, if_neg (by rw [afterRstOut_sctl, h]; simp)]

/-- A run of the engine whose one evaluation ends at rest: it parks, or makes progress to IDLE, with or without
notifications meanwhile (R172, R174). -/
theorem runEngine_settles (e : Env) (n : Instance → Instance) (x y z : Instance) (r : StepResult)
    (hb : x.ctrl.busy = false) (hy : y = { x with ctrl := { x.ctrl with busy := true, renotify := false } })
    (hp : x.ctrl.pending = none) (h : engineStep e n y = (r, z)) (hz : z.ctrl.state = .idle ∨ z.ctrl.pending ≠ none) :
    runEngine e n x = { z with ctrl := { z.ctrl with busy := false, renotify := false } } := by
  have key : ∀ (m : Nat) (w : Instance), (w.ctrl.state = .idle ∨ w.ctrl.pending ≠ none) →
      engineLoop e n (m + 2) w = { w with ctrl := { w.ctrl with renotify := false } } := by
    intro m w hw
    by_cases hr : w.ctrl.renotify = false
    · rw [engineLoop_rest e n (m + 1) w hw hr, ← hr]
    · have hs : (if w.ctrl.pending = none then engineStep e n w else (.stay, w)) = (.stay, w) := by
        split
        · rename_i hp
          rcases hw with g | g
          · simp [engineStep, g]
          · exact absurd hp g
        · rfl
      have hr' : w.ctrl.renotify = true := by simpa using hr
      unfold engineLoop
      simp only [hs, hr']
      rw [if_neg (by simp), if_pos trivial, engineLoop_rest]
      · rfl
      · exact hw
      · rfl
  have hyp : y.ctrl.pending = none := by rw [hy]; exact hp
  unfold runEngine
  rw [if_neg (by simp [hb]),
    show (x.modCtrl fun c => { c with busy := true, renotify := false }) = y from hy.symm,
    show loopBound = (4093 + 2) + 1 from rfl, engineLoop, if_pos hyp, h]
  simp only
  by_cases hr : r = .progress
  · rw [if_pos hr, key 4093 z hz]
    rfl
  · rw [if_neg hr]
    split
    · rw [key 4093 (z.modCtrl fun c => { c with renotify := false }) hz]
      rfl
    · rename_i hn
      simp only [Instance.modCtrl]
      simp only [show z.ctrl.renotify = false by simpa using hn]

end Sys2Proof.Machine
end

