-- ==== Sys2Proof/Laws/Edges.lean ====
section
/-! SUPPORT. What a notification can do to a Controller that is not left as it is: the abort of a rising RST (R207), and
a disconnect that is due at an idle Controller (R206), whatever the Targets do. -/

namespace Sys2Proof.Machine

/-! ### What a rising RST ends -/

/-- The condition of `check_rst` (R207). -/
theorem rstStops_eq (c : Controller) : (!c.engineFree || c.connected) = c.rstStops := by
  unfold Controller.engineFree Controller.rstStops
  simp [bne]

theorem afterRst_of_stops {c : Controller} (h : c.rstStops = true) :
    c.afterRst =
      { c with
        ints := c.ints ||| intRC
        diagSig := if c.dm then c.diagSig &&& ~~~(sigBSY ||| sigSEL ||| sigATN ||| sigACK) else c.diagSig
        fifo := c.fifo.clear, state := .idle, pending := none, selTimer := none, connected := false
        atnQueued := false, xferDma := false, xferTerm := false } := if_pos h

theorem afterRst_of_calm {c : Controller} (h : c.rstStops = false) : c.afterRst = { c with ints := c.ints ||| intRC } :=
  if_neg (by simp [h])

/-- Nothing is in progress or connected after a rising RST. -/
theorem afterRst_rstStops (c : Controller) : c.afterRst.rstStops = false := by
  cases h : c.rstStops
  · rw [afterRst_of_calm h]; exact h
  · rw [afterRst_of_stops h]; rfl

theorem afterRst_connected (c : Controller) : c.afterRst.connected = false := by
  have h := afterRst_rstStops c
  simp only [Controller.rstStops, Bool.or_eq_false_iff] at h
  exact h.2

theorem afterRst_state (c : Controller) : c.afterRst.state = .idle := by
  have h := afterRst_rstStops c
  simp only [Controller.rstStops, Bool.or_eq_false_iff, bne_eq_false_iff_eq] at h
  exact h.1.1

@[simp] theorem afterRst_busy (c : Controller) : c.afterRst.busy = c.busy := by
  unfold Controller.afterRst; split <;> rfl

@[simp] theorem afterRst_restart (c : Controller) (t : Nat) :
    Controller.afterRst { c with bfTimer := t } = { c.afterRst with bfTimer := t } := by
  cases h : c.rstStops
  · rw [afterRst_of_calm h, afterRst_of_calm (c := { c with bfTimer := t }) h]
  · rw [afterRst_of_stops h, afterRst_of_stops (c := { c with bfTimer := t }) h]
    rfl

/-! ### After the edge -/

/-- Where RST has been taken, another notification leaves the Controller undisturbed. -/
theorem RstTaken.still {x y : Instance} (h : RstTaken x y) : y.still :=
  ⟨h.combined, h.rstSeen, .inr (.inl (by rw [h.ctrl]; exact afterRst_state _))⟩

theorem RstTaken.andThen {p : Params} {x y : Instance} {f : Instance → Instance} (h : RstTaken x y)
    (hf : KeepsStill p f) : RstTaken x (f y) := by
  have g := hf y h.still
  have e1 := g.2.unconnected (by rw [h.ctrl]; exact afterRst_connected _)
  refine ⟨?_, le_trans g.2.bfTimer h.bfTimer, g.1.rst, g.2.sig.trans h.sig, g.2.dat.trans h.dat, g.1.combined⟩
  rw [h.ctrl] at e1
  exact e1

/-- The bus-free timer restarted before RST is taken (R175). -/
theorem RstTaken.ofRestart {x y : Instance} {t : Nat} (h : RstTaken { x with ctrl := { x.ctrl with bfTimer := t } } y)
    (ht : t ≤ x.ctrl.bfTimer) : RstTaken x y := by
  refine ⟨?_, le_trans h.bfTimer ht, h.rstSeen, h.sig, h.dat, h.combined⟩
  have e1 := h.ctrl
  simp only [afterRst_restart] at e1
  exact e1

/-! ### The own signals released -/

/-- The release of the own signals leaves RST (R207). -/
theorem releaseOwn_rst {b : Bus} (hc : b.combined) (h : has b.ctl sigRST = true) :
    has (b.writeControl 7 0 (sigBSY ||| sigSEL ||| sigATN ||| sigACK)).ctl sigRST = true := by
  rw [hc.1, has_orCtl] at h
  rw [Bus.writeControl_ctl, has_orCtl]
  obtain ⟨k, h⟩ := h
  refine ⟨k, ?_⟩
  by_cases hk : k = 7
  · subst hk
    have hm : ∀ a : Ctl, has a sigRST = true →
        has (merge a 0 (sigBSY ||| sigSEL ||| sigATN ||| sigACK)) sigRST = true := by decide
    simpa using hm _ h
  · have g := Vector.getElem_set_ne (x := merge b.sig[(7 : Fin 8)] 0 (sigBSY ||| sigSEL ||| sigATN ||| sigACK))
      (xs := b.sig) (7 : Fin 8).isLt k.isLt fun e => hk (Fin.ext e.symm)
    exact (congrArg (has · sigRST) g).trans h

/-- What has been released is not released again. -/
theorem releaseOwn_twice (b : Bus) :
    let r := b.writeControl 7 0 (sigBSY ||| sigSEL ||| sigATN ||| sigACK)
    (r.writeControl 7 0 (sigBSY ||| sigSEL ||| sigATN ||| sigACK)).ctl = r.ctl := by
  intro r
  have hr : r.sig[(7 : Fin 8)] = b.sig[7] &&& ~~~(sigBSY ||| sigSEL ||| sigATN ||| sigACK) :=
    (Vector.getElem_set_self _).trans (merge_zero _ _)
  rw [writeControl_same (Bus.writeControl_combined _ _ _ _)
    (by rw [hr, merge_zero, BitVec.and_assoc, BitVec.and_self])]

/-- The release of the own signals where it changes no line. -/
theorem releaseSelection_quiet (n : Instance → Instance) (x : Instance)
    (h : x.ctrl.dm = true ∨ (x.bus.writeControl 7 0 (sigBSY ||| sigSEL ||| sigATN ||| sigACK)).ctl = x.bus.ctl) :
    releaseSelection n x =
      { x with
        bus := (if x.ctrl.dm then x.bus
                else x.bus.writeControl 7 0 (sigBSY ||| sigSEL ||| sigATN ||| sigACK)).writeData 7 0
        ctrl := { x.ctrl with
          diagSig := if x.ctrl.dm then x.ctrl.diagSig &&& ~~~(sigBSY ||| sigSEL ||| sigATN ||| sigACK)
                     else x.ctrl.diagSig } } := by
  unfold releaseSelection guarded drive
  by_cases hd : x.ctrl.dm = true
  · rw [if_pos (show (x.modCtrl fun c => { c with busy := true }).ctrl.dm = true from hd), if_pos hd, if_pos hd]
    simp only [Instance.modCtrl, merge_zero]
    rfl
  · rw [if_neg (show ¬(x.modCtrl fun c => { c with busy := true }).ctrl.dm = true from hd), if_neg hd, if_neg hd]
    unfold setControl
    rcases changeBus_cases n (x.modCtrl fun c => { c with busy := true })
      (x.bus.writeControl 7 0 (sigBSY ||| sigSEL ||| sigATN ||| sigACK)) with ⟨-, g⟩ | ⟨g, -⟩
    · simp only [Instance.modCtrl_bus]
      rw [g]
      rfl
    · exact absurd (h.resolve_left hd) g

/-- The release of the own signals where it changes the lines: the others react while the guard is held (log 23). -/
theorem releaseSelection_loud (n : Instance → Instance) (x w : Instance) (hd : x.ctrl.dm = false)
    (h : (x.bus.writeControl 7 0 (sigBSY ||| sigSEL ||| sigATN ||| sigACK)).ctl ≠ x.bus.ctl)
    (hw : w = { x with bus := x.bus.writeControl 7 0 (sigBSY ||| sigSEL ||| sigATN ||| sigACK)
                       ctrl := { x.ctrl with busy := true } }) :
    releaseSelection n x = driveData 0 ((n w).modCtrl fun c => { c with busy := x.ctrl.busy }) := by
  subst hw
  unfold releaseSelection guarded drive
  rw [if_neg (show ¬(x.modCtrl fun c => { c with busy := true }).ctrl.dm = true from by
    rw [show (x.modCtrl fun c => { c with busy := true }).ctrl.dm = false from hd]; simp)]
  unfold setControl
  rcases changeBus_cases n (x.modCtrl fun c => { c with busy := true })
    (x.bus.writeControl 7 0 (sigBSY ||| sigSEL ||| sigATN ||| sigACK)) with ⟨g, -⟩ | ⟨-, g⟩
  · exact absurd g h
  · exact congrArg (fun z : Instance => driveData 0 (z.modCtrl fun c => { c with busy := x.ctrl.busy })) g

/-! ### `check_rst` on a rising RST (R207) -/

theorem checkRst_calm (n : Instance → Instance) (x : Instance) (hs : x.ctrl.rstStops = false)
    (hr : has x.bus.ctl sigRST = true) (hn : x.ctrl.rstSeen = false) :
    checkRst n x = { x with ctrl := { x.ctrl.afterRst with rstSeen := true } } := by
  rw [afterRst_of_calm hs]
  unfold checkRst
  simp only [hr, hn, Bool.not_false, Bool.and_true, if_true, rstStops_eq]
  rw [show (raiseInt intRC x).ctrl.rstStops = false from hs, if_neg (by simp)]
  rfl

theorem checkRst_stops (n : Instance → Instance) (x : Instance) (hs : x.ctrl.rstStops = true)
    (hr : has x.bus.ctl sigRST = true) (hn : x.ctrl.rstSeen = false) :
    checkRst n x = (releaseSelection n (raiseInt intRC x)).modCtrl fun c =>
      { c with fifo := c.fifo.clear, state := .idle, pending := none, selTimer := none, connected := false,
               atnQueued := false, xferDma := false, xferTerm := false, rstSeen := true } := by
  unfold checkRst
  simp only [hr, hn, Bool.not_false, Bool.and_true, if_true, rstStops_eq]
  rw [show (raiseInt intRC x).ctrl.rstStops = true from hs, if_pos rfl]
  rfl

theorem checkRst_quiet (n : Instance → Instance) (x : Instance) (hs : x.ctrl.rstStops = true)
    (hr : has x.bus.ctl sigRST = true) (hn : x.ctrl.rstSeen = false)
    (h : x.ctrl.dm = true ∨ (x.bus.writeControl 7 0 (sigBSY ||| sigSEL ||| sigATN ||| sigACK)).ctl = x.bus.ctl) :
    checkRst n x =
      { x with
        bus := (if x.ctrl.dm then x.bus
                else x.bus.writeControl 7 0 (sigBSY ||| sigSEL ||| sigATN ||| sigACK)).writeData 7 0
        ctrl := { x.ctrl.afterRst with rstSeen := true } } := by
  rw [checkRst_stops n x hs hr hn, releaseSelection_quiet n (raiseInt intRC x) h, afterRst_of_stops hs]
  rfl

/-- RST taken where the release changes no line. -/
theorem rstTaken_quiet (x : Instance) (hs : x.ctrl.rstStops = true) (t : Nat) (a : Bool) (ht : t ≤ x.ctrl.bfTimer) :
    RstTaken x
      { x with
        bus := (if x.ctrl.dm then x.bus
                else x.bus.writeControl 7 0 (sigBSY ||| sigSEL ||| sigATN ||| sigACK)).writeData 7 0
        ctrl := { x.ctrl.afterRst with bfTimer := t, rstSeen := true, renotify := a } } := by
  refine ⟨rfl, ht, fun _ => rfl, ?_, ?_, Bus.writeData_combined _ _ _⟩
  · rw [hs]
    cases hd : x.ctrl.dm
    · exact (Vector.getElem_set_self _).trans (merge_zero _ _)
    · rfl
  · rw [hs]
    exact Vector.getElem_set_self _

theorem checkDisconnect_unconnected {e : Env} {x : Instance} (h : x.ctrl.connected = false) :
    checkDisconnect e x = x := by simp [checkDisconnect, h]

/-- The callback that the release itself causes, in which RST is taken once more with nothing left to release. -/
theorem onBusChange_rstHeld (e : Env) (n : Instance → Instance) (x : Instance) (hb : x.ctrl.busy = true)
    (hs : x.ctrl.rstStops = true) (hr : has x.bus.ctl sigRST = true) (hn : x.ctrl.rstSeen = false)
    (h : (x.bus.writeControl 7 0 (sigBSY ||| sigSEL ||| sigATN ||| sigACK)).ctl = x.bus.ctl) :
    RstTaken x (onBusChange e n x) := by
  have key : ∀ t, t ≤ x.ctrl.bfTimer →
      RstTaken x (runEngine e n (checkDisconnect e (checkRst n { x with ctrl := { x.ctrl with bfTimer := t } }))) := by
    intro t ht
    rw [checkRst_quiet n { x with ctrl := { x.ctrl with bfTimer := t } } hs hr hn (.inr h)]
    simp only [afterRst_restart]
    rw [checkDisconnect_unconnected (by exact afterRst_connected _)]
    unfold runEngine
    rw [if_pos (by exact (afterRst_busy _).trans hb)]
    exact rstTaken_quiet x hs t true ht
  unfold onBusChange
  split
  · exact key _ (le_refl _)
  · exact key 0 (Nat.zero_le _)

/-- A delivery to the Controller and then to the Targets (R91). -/
theorem deliver_eq (e : Env) (n : Instance → Instance) (x : Instance) (h : x.bus.cb = .controller) :
    deliver e n x = targetSlots.foldl (fun y k => targetHandler e n k y) (onBusChange e n x) := by
  unfold deliver notifyCallback
  rw [h]

theorem notifyTo_succ (e : Env) (d : Nat) (x : Instance) (h : x.bus.cb = .controller) :
    notifyTo e (d + 1) x = targetSlots.foldl (fun y k => targetHandler e (notifyTo e d) k y) (onBusChange e (notifyTo e d) x) :=
  deliver_eq e (notifyTo e d) x h

/-- RST taken by what answers the release, under the guard, is RST taken. -/
theorem RstTaken.ofRelease {x w y : Instance} (hs : x.ctrl.rstStops = true) (hd : x.ctrl.dm = false)
    (hc : w.ctrl = { x.ctrl with ints := x.ctrl.ints ||| intRC, busy := true })
    (hb : w.bus = x.bus.writeControl 7 0 (sigBSY ||| sigSEL ||| sigATN ||| sigACK)) (h : RstTaken w y) :
    RstTaken x ((driveData 0 (y.modCtrl fun c => { c with busy := x.ctrl.busy })).modCtrl fun c =>
      { c with fifo := c.fifo.clear, state := .idle, pending := none, selTimer := none, connected := false,
               atnQueued := false, xferDma := false, xferTerm := false, rstSeen := true }) := by
  have hws : w.ctrl.rstStops = true := by rw [hc]; exact hs
  have hwd : w.ctrl.dm = false := by rw [hc]; exact hd
  have hws' : w.bus.sig[7] = x.bus.sig[7] &&& ~~~(sigBSY ||| sigSEL ||| sigATN ||| sigACK) := by
    rw [hb]; exact (Vector.getElem_set_self _).trans (merge_zero _ _)
  obtain ⟨t, r, a, hctrl⟩ : ∃ t r a, y.ctrl =
      { x.ctrl.afterRst with bfTimer := t, rstSeen := r, renotify := a, busy := true } := by
    refine ⟨y.ctrl.bfTimer, y.ctrl.rstSeen, y.ctrl.renotify, h.ctrl.trans ?_⟩
    rw [afterRst_of_stops hws, afterRst_of_stops hs, hwd, hd, hc]
    simp only [BitVec.or_assoc, BitVec.or_self]
  refine ⟨?_, le_of_le_of_eq h.bfTimer (by rw [hc]), fun _ => rfl, ?_, ?_, Bus.writeData_combined _ _ _⟩
  · simp only [Instance.modCtrl_ctrl, driveData_ctrl]
    rw [hctrl, afterRst_of_stops hs]
    rfl
  · refine h.sig.trans ?_
    simp only [hws, hs, hwd, hd, Bool.not_false, Bool.and_self, if_true, hws', BitVec.and_assoc, BitVec.and_self]
  · rw [hs]
    exact Vector.getElem_set_self _

/-- Everything `check_rst` can do on a rising RST, whatever the Targets do meanwhile (R207; log 23). -/
theorem checkRst_taken (e : Env) (d : Nat) (x : Instance) (hcb : x.bus.cb = .controller) (hc : x.bus.combined)
    (hr : has x.bus.ctl sigRST = true) (hn : x.ctrl.rstSeen = false) : RstTaken x (checkRst (notifyTo e (d + 1)) x) := by
  cases hs : x.ctrl.rstStops
  · rw [checkRst_calm _ x hs hr hn]
    refine ⟨rfl, ?_, fun _ => rfl, by rw [hs]; rfl, by rw [hs]; rfl, hc⟩
    rw [afterRst_of_calm hs]
  · by_cases h : x.ctrl.dm = true ∨ (x.bus.writeControl 7 0 (sigBSY ||| sigSEL ||| sigATN ||| sigACK)).ctl = x.bus.ctl
    · rw [checkRst_quiet _ x hs hr hn h]
      have g := rstTaken_quiet x hs x.ctrl.bfTimer x.ctrl.afterRst.renotify (le_refl _)
      rw [← show x.ctrl.afterRst.bfTimer = x.ctrl.bfTimer by rw [afterRst_of_stops hs]] at g
      exact g
    · obtain ⟨hd, hne⟩ := not_or.1 h
      have hd' : x.ctrl.dm = false := by simpa using hd
      obtain ⟨w, hw⟩ : ∃ w : Instance, w = { x with
          bus := x.bus.writeControl 7 0 (sigBSY ||| sigSEL ||| sigATN ||| sigACK)
          ctrl := { x.ctrl with ints := x.ctrl.ints ||| intRC, busy := true } } := ⟨_, rfl⟩
      rw [checkRst_stops _ x hs hr hn, releaseSelection_loud (notifyTo e (d + 1)) (raiseInt intRC x) w hd' hne hw]
      refine RstTaken.ofRelease hs hd' (by rw [hw]) (by rw [hw]) (w := w) ?_
      rw [notifyTo_succ e d w (by rw [hw]; exact hcb)]
      have hy := (onBusChange_rstHeld e (notifyTo e d) w (by rw [hw]) (by rw [hw]; exact hs) (by rw [hw]; exact releaseOwn_rst hc hr)
        (by rw [hw]; exact hn) (by rw [hw]; exact releaseOwn_twice _)).andThen (targets_keepStill e d targetSlots)
      exact hy

/-! ### The whole notification -/

/-- The callback, from the instance after its first line (R175). -/
theorem onBusChange_eq (e : Env) (n : Instance → Instance) (x : Instance) (b : Bus) :
    onBusChange e n { x with bus := b } = runEngine e n (checkDisconnect e (checkRst n (x.onBus b))) := by
  unfold onBusChange Instance.onBus
  simp only
  by_cases hf : b.isFree = true
  · rw [if_pos hf, if_pos hf]
  · rw [if_neg hf, if_neg hf]
    rfl

/-- Everything a notification of a rising RST can do to a Controller, whatever it was doing and whatever the Targets do
(R91, R175, R207; log 23). -/
theorem notifyTo_rst (e : Env) (d : Nat) (x : Instance) (b : Bus) (hcb : b.cb = .controller) (hc : b.combined)
    (hr : has b.ctl sigRST = true) (hn : x.ctrl.rstSeen = false) :
    RstTaken (x.onBus b) (notifyTo e (d + 2) { x with bus := b }) := by
  have h := checkRst_taken e d (x.onBus b) hcb hc hr hn
  rw [notifyTo_succ e (d + 1) { x with bus := b } hcb, onBusChange_eq]
  rw [checkDisconnect_unconnected (by rw [h.ctrl]; exact afterRst_connected _)]
  have h1 := h.andThen (runEngine_keepsStill (p := e.p) e (notifyTo e (d + 1)))
  have h2 := h1.andThen (targets_keepStill e (d + 1) targetSlots)
  exact h2

theorem notify_rst (e : Env) (x : Instance) (b : Bus) (hcb : b.cb = .controller) (hc : b.combined)
    (hr : has b.ctl sigRST = true) (hn : x.ctrl.rstSeen = false) : RstTaken (x.onBus b) (notify e { x with bus := b }) :=
  notifyTo_rst e 30 x b hcb hc hr hn

/-- A disconnect that is due is recorded (R206). -/
theorem checkDisconnect_due (e : Env) (x : Instance) (hc : x.ctrl.connected = true) (hs : x.ctrl.state = .idle)
    (hp : x.ctrl.pending = none) (hf : x.bus.ctl &&& (sigBSY ||| sigSEL) = 0) (hb : e.p.busFreeCycles ≤ x.ctrl.bfTimer) :
    checkDisconnect e x = x.modCtrl fun c =>
      { c with connected := false, ints := if c.pctl.getLsbD 7 then c.ints ||| intDISCONNECT else c.ints } := by
  have h : (x.ctrl.connected && x.ctrl.engineFree && busFreeDetected e x) = true := by
    simp only [Controller.engineFree, busFreeDetected, Bus.isFree, hc, hs, hp, hf, hb, beq_self_eq_true, Bool.and_self,
      decide_true, Option.isNone_none]
  unfold checkDisconnect
  rw [if_pos h]
  by_cases h7 : x.ctrl.pctl.getLsbD 7 = true
  · simp only [Instance.modCtrl, if_pos h7]
    rfl
  · simp only [Instance.modCtrl, if_neg h7]

/-- Everything a notification can do to a Controller whose engine it does not run, from the first line of the callback on
(R91, R175). -/
theorem notifyTo_stillTo (e : Env) (d : Nat) (x : Instance) (b : Bus) (hcb : b.cb = .controller) (h0 : (x.onBus b).still) :
    let w := checkDisconnect e (checkRst (notifyTo e d) (x.onBus b))
    let y := notifyTo e (d + 1) { x with bus := b }
    StillTo e.p (x.onBus b) y ∧ StillTo e.p w y := by
  intro w y
  have h1 : StillTo e.p (x.onBus b) (checkRst (notifyTo e d) (x.onBus b)) := checkRst_keepsStill _ _ h0
  have h2 : StillTo e.p (x.onBus b) w := h1.andThen (checkDisconnect_keepsStill e)
  have h3 : StillTo e.p w y := by
    have g := (runEngine_keepsStill (p := e.p) e (notifyTo e d) w h2.1).andThen (targets_keepStill e d targetSlots)
    have hy : y = targetSlots.foldl (fun y k => targetHandler e (notifyTo e d) k y) (runEngine e (notifyTo e d) w) := by
      show notifyTo e (d + 1) { x with bus := b } = _
      rw [notifyTo_succ e d { x with bus := b } hcb, onBusChange_eq]
    exact hy ▸ g
  exact ⟨h2.trans h3, h3⟩

/-- Everything a notification without an RST edge can do to an idle Controller, whatever the Targets do (R91, R175, R206). -/
theorem notifyTo_idle (e : Env) (d : Nat) (x : Instance) (b : Bus) (hcb : b.cb = .controller) (hc : b.combined)
    (hr : has b.ctl sigRST = true → x.ctrl.rstSeen = true) (hs : x.ctrl.state = .idle) (hp : x.ctrl.pending = none) :
    IdleNotified e.p (x.onBus b) (notifyTo e (d + 1) { x with bus := b }) := by
  obtain ⟨h4, h3⟩ := notifyTo_stillTo e d x b hcb ⟨hc, hr, .inr (.inl hs)⟩
  have h1c := checkRst_seen (notifyTo e d) (x.onBus b) hr
  refine ⟨h4.2.ctrl, ?_, ?_, h4.2.bfTimer, ⟨h4.2.sig, h4.2.dat⟩, h4.1.combined⟩
  · intro hcon hfree hlim
    have hd := checkDisconnect_due e (checkRst (notifyTo e d) (x.onBus b)) (by rw [h1c]; exact hcon) (by rw [h1c]; exact hs)
      (by rw [h1c]; exact hp) (by rw [h1c]; exact hfree) (by rw [h1c]; exact hlim)
    have hcc : (checkDisconnect e (checkRst (notifyTo e d) (x.onBus b))).ctrl.connected = false := by rw [hd]; rfl
    have g := h3.2.unconnected hcc
    refine ⟨by rw [g]; exact hcc, ?_⟩
    rw [g, hd, h1c]
    rfl
  · intro hn
    rcases h4.2.connected with g | ⟨g1, -, g3, -⟩
    · exact g
    · rcases hn with hn | hn
      · rw [hn] at g1; cases g1
      · exact absurd g3 (not_le.2 hn)

theorem notify_idle (e : Env) (x : Instance) (b : Bus) (hcb : b.cb = .controller) (hc : b.combined)
    (hr : has b.ctl sigRST = true → x.ctrl.rstSeen = true) (hs : x.ctrl.state = .idle) (hp : x.ctrl.pending = none) :
    IdleNotified e.p (x.onBus b) (notify e { x with bus := b }) := notifyTo_idle e 31 x b hcb hc hr hs hp

/-- The callback at an idle Controller, connected or not, without an RST edge, in closed form (R175, R206). -/
theorem onBusChange_idle (e : Env) (n : Instance → Instance) (x : Instance) (b : Bus)
    (hr : has b.ctl sigRST = true → x.ctrl.rstSeen = true) (hb : x.ctrl.busy = false) (hs : x.ctrl.state = .idle)
    (hp : x.ctrl.pending = none) :
    let due : Prop := x.ctrl.connected = true ∧ b.ctl &&& (sigBSY ||| sigSEL) = 0 ∧ e.p.busFreeCycles ≤ x.ctrl.bfTimer
    let d : Controller :=
      { x.ctrl with rstSeen := has b.ctl sigRST, bfTimer := if b.isFree then x.ctrl.bfTimer else 0, renotify := false }
    (due → onBusChange e n { x with bus := b } = { x with bus := b, ctrl := { d with
      connected := false, ints := if x.ctrl.pctl.getLsbD 7 then x.ctrl.ints ||| intDISCONNECT else x.ctrl.ints } }) ∧
    (¬due → onBusChange e n { x with bus := b } = { x with bus := b, ctrl := d }) := by
  intro due d
  obtain ⟨w, hw⟩ : ∃ w, w = (x.onBus b).modCtrl fun c => { c with rstSeen := has b.ctl sigRST } := ⟨_, rfl⟩
  have hwc : w.ctrl =
      { x.ctrl with bfTimer := if b.isFree then x.ctrl.bfTimer else 0, rstSeen := has b.ctl sigRST } := by rw [hw]; rfl
  have hwb : w.bus = b := by rw [hw]; rfl
  have hck : checkRst n (x.onBus b) = w := (checkRst_seen n (x.onBus b) hr).trans hw.symm
  have hfi : b.isFree = true ↔ b.ctl &&& (sigBSY ||| sigSEL) = 0 := by unfold Bus.isFree; rw [beq_iff_eq]
  rw [onBusChange_eq, hck]
  constructor
  · rintro ⟨h1, h2, h3⟩
    have hf : b.isFree = true := hfi.2 h2
    rw [checkDisconnect_due e w (by rw [hwc]; exact h1) (by rw [hwc]; exact hs) (by rw [hwc]; exact hp)
      (by rw [hwb]; exact h2) (by rw [hwc]; simp only [if_pos hf]; exact h3),
      runEngine_rest e n _ ⟨by rw [Instance.modCtrl_ctrl, hwc]; exact hb,
        .inl (by rw [Instance.modCtrl_ctrl, hwc]; exact hs)⟩, hw]
    rfl
  · intro hd
    have : checkDisconnect e w = w := by
      unfold checkDisconnect
      rw [if_neg]
      intro h
      apply hd
      simp only [Bool.and_eq_true, busFreeDetected, decide_eq_true_eq, hwb, hwc] at h
      obtain ⟨⟨h1, h2⟩, h3, h4⟩ := h
      exact ⟨h1, hfi.1 h3, le_of_le_of_eq h4 (if_pos h3)⟩
    rw [this, runEngine_rest e n w ⟨by rw [hwc]; exact hb, .inl (by rw [hwc]; exact hs)⟩, hw]
    rfl

/-- The end of a Bus call from outside that changed the word (R175, D33). -/
theorem notifyEvent_eq (e : Env) (x : Instance) (h : x.bus.cb = .controller) :
    notifyEvent e x = updateLines (notify e x) := by
  unfold notifyEvent
  rw [(notify_reacts e x).cb, h]

/-- Everything the notification of a changed word can do, said once (R91, R92, R175). -/
theorem notify_notified (e : Env) (x : Instance) (b : Bus) (hcb : b.cb = .controller) (hc : b.combined) :
    Notified e.p (x.onBus b) (notify e { x with bus := b }) := by
  have r := notify_reacts e { x with bus := b }
  refine ⟨notify_rst e x b hcb hc, notify_idle e x b hcb hc, fun h => (notifyTo_stillTo e 31 x b hcb h).1.2,
    fun k hk => ?_, fun k t ht => ?_, r.foreign, r.combined hc, r.kept, r.ret⟩
  · rcases r.slots k with ⟨t, -, h, -, -⟩ | ⟨-, h⟩
    · exact absurd h (hk t)
    · exact h
  · rcases r.target k with ⟨h, -⟩ | ⟨v, u, h1, h2, h3⟩
    · exact absurd (h.symm.trans ht) (by simp)
    · cases h1.symm.trans ht
      exact ⟨u, h2, h3.id, h3.geom, h3.ready, h3.mediaChanged, h3.serial, h3.imageSize⟩

/-- A Bus call from outside that changes the word (R95, D33). -/
theorem changeBus_notified (e : Env) (x : Instance) (b : Bus) (h : b.ctl ≠ x.bus.ctl) (hcb : b.cb = .controller) :
    changeBus (notifyEvent e) x b = updateLines (notify e { x with bus := b }) := by
  unfold changeBus
  rw [if_neg h, notifyEvent_eq _ _ hcb]

end Sys2Proof.Machine
end

