-- ==== Sys2Proof/Laws/Aside.lean ====
section
/-! SUPPORT. An idle Target that drives nothing stays aside in a notification at a Controller at rest, whatever the other
Targets do, as long as nobody drives SEL (R93, R223). -/

namespace Sys2Proof.Machine

/-- At the slot stands exactly this record, idle and driving nothing, on a bus without SEL, beside a Controller at rest;
every Target drives its own slot. -/
structure Aside (id : Fin 7) (t : Target) (x : Instance) : Prop where
  still : x.still
  noSel : has x.bus.ctl sigSEL = false
  ids : ∀ j u, x.target? j = some u → u.id = j
  target : x.target? id = some t
  sig : x.bus.sig[slotAddr id] = 0
  dat : x.bus.dat[slotAddr id] = 0

/-- A record that looks at nothing. -/
structure Target.atRest (t : Target) : Prop where
  idle : t.tstate = .idle
  notBusy : t.tbusy = false
  noNote : t.trenotify = false

variable {id : Fin 7} {t : Target}

theorem Target.atRest.back (h : t.atRest) :
    ({ ({ t with tbusy := true, trenotify := false } : Target) with tbusy := false } : Target) = t := by
  obtain ⟨-, h1, h2⟩ := h
  cases t
  simp only at h1 h2
  rw [h1, h2]

theorem Reacts.ids {x y : Instance} (r : Reacts x y) (h : ∀ j u, x.target? j = some u → u.id = j) :
    ∀ j u, y.target? j = some u → u.id = j := by
  intro j u hu
  rcases r.target j with ⟨-, g⟩ | ⟨v, w, h1, h2, h3⟩
  · rw [g] at hu; cases hu
  · rw [h2] at hu
    cases hu
    exact h3.id.trans (h j v h1)

/-- Another Target's work on its own record. -/
theorem Aside.own {k : Fin 7} {x y : Instance} (h : Aside id t x) (hk : k ≠ id) (g : OwnOnly k x y) (r : Reacts x y) :
    Aside id t y :=
  ⟨(g.stillTo (p := Config.params) h.still).1, by rw [g.ctl]; exact h.noSel, r.ids h.ids,
    (g.others id (Ne.symm hk)).trans h.target, by rw [g.sig]; exact h.sig, by rw [g.dat]; exact h.dat⟩

theorem Aside.modTarget {k : Fin 7} {x : Instance} {f : Target → Target} (h : Aside id t x) (hk : k ≠ id)
    (hf : ∀ u, TargetReacts u (f u)) : Aside id t (x.modTarget k f) := h.own hk (.modTarget x k f) (.modTarget hf)

theorem Aside.unsettled {x : Instance} (h : Aside id t x) : Aside id t { x with unsettled := true } :=
  ⟨⟨h.still.combined, h.still.rst, h.still.engine⟩, h.noSel, h.ids, h.target, h.sig, h.dat⟩

/-- Another bus beside the record, without SEL and without a new RST. -/
theorem Aside.setBus {x : Instance} {b : Bus} (h : Aside id t x) (ho : b.occ = x.bus.occ) (hc : b.combined)
    (hs : has b.ctl sigSEL = false) (hr : has b.ctl sigRST = true → has x.bus.ctl sigRST = true)
    (h1 : b.sig[slotAddr id] = x.bus.sig[slotAddr id]) (h2 : b.dat[slotAddr id] = x.bus.dat[slotAddr id]) :
    Aside id t { x with bus := b } := by
  have ht : ∀ j, ({ x with bus := b } : Instance).target? j = x.target? j := fun j => Instance.target?_congr ho j
  exact ⟨⟨hc, fun hh => h.still.rst (hr hh), h.still.engine⟩, hs, fun j u hu => h.ids j u ((ht j).symm.trans hu),
    (ht id).trans h.target, h1.trans h.sig, h2.trans h.dat⟩

theorem Aside.setData {k : Fin 7} {x : Instance} (h : Aside id t x) (hk : k ≠ id) (v : Byte) :
    Aside id t (Machine.setData (slotAddr k) v x) := by
  have hw : (x.bus.writeData (slotAddr k) v).ctl = x.bus.ctl := h.still.combined.1.symm
  exact h.setBus rfl (Bus.writeData_combined _ _ _) (by rw [hw]; exact h.noSel) (fun hh => hw ▸ hh) rfl
    (Vector.getElem_set_ne (by omega) (by omega) (slotAddr_val_inj hk))

section
variable {n : Instance → Instance} (hn : ∀ x, Aside id t x → Aside id t (n x))
include hn

theorem Aside.setControl {k : Fin 7} {x : Instance} (h : Aside id t x) (hk : k ≠ id) (v m : Ctl)
    (hv : v &&& sigSEL = 0) (hr : v &&& sigRST = 0) : Aside id t (Machine.setControl n (slotAddr k) v m x) := by
  have hw : Aside id t { x with bus := x.bus.writeControl (slotAddr k) v m } := by
    refine h.setBus rfl (Bus.writeControl_combined _ _ _ _) ?_ (fun hh => ?_)
      (Vector.getElem_set_ne (by omega) (by omega) (slotAddr_val_inj hk)) rfl
    · rw [← Bool.not_eq_true]
      intro hh
      have := writeControl_has hv hh
      rw [← h.still.combined.1, h.noSel] at this
      cases this
    · rw [h.still.combined.1]
      exact writeControl_rst hr hh
  unfold Machine.setControl
  rcases changeBus_cases n x (x.bus.writeControl (slotAddr k) v m) with ⟨_, g⟩ | ⟨_, g⟩
  · rw [g]; exact hw
  · rw [g]; exact hn _ hw

theorem Aside.releaseBus {k : Fin 7} {x : Instance} (h : Aside id t x) (hk : k ≠ id) :
    Aside id t (Machine.releaseBus n k x) :=
  (h.setData hk 0).setControl hn hk 0 sigALL (by decide) (by decide)

omit hn in
theorem phaseLines_sel (u : Target) : (sigBSY ||| u.phaseLines ||| sigREQ) &&& sigSEL = 0 := by
  unfold Target.phaseLines
  split <;> first | decide | (split <;> decide)

/-- Every evaluation of another Target (R222 to R229). -/
theorem Aside.targetStep {k : Fin 7} {x : Instance} (e : Env) (h : Aside id t x) (hk : k ≠ id) :
    Aside id t (Machine.targetStep e n k x).2 := by
  unfold Machine.targetStep
  split
  · exact h
  · rename_i u hu
    have hid : u.id = k := h.ids k u hu
    have hm : ∀ {y : Instance} (f : Target → Target), Aside id t y → (∀ u, TargetReacts u (f u)) →
        Aside id t (y.modTarget k f) := fun f g hf => g.modTarget hk hf
    simp only
    split
    · split
      · unfold targetReset
        rw [hid]
        exact hm _ (h.releaseBus hn hk) fun _ => .plain rfl rfl rfl rfl rfl rfl rfl rfl
      · exact h
    · split
      · rw [if_neg]
        · exact h
        · unfold selectionGate
          rw [h.noSel]
          simp
      · split
        · exact h
        · split
          · exact hm _ h fun _ => .plain rfl rfl rfl rfl rfl rfl rfl rfl
          · split
            · split
              · exact h
              · unfold presentByte
                rw [hid]
                exact hm _ ((h.setData hk _).setControl hn hk _ _ (phaseLines_sel u) (phaseLines_rst u))
                  fun _ => .plain rfl rfl rfl rfl rfl rfl rfl rfl
            · split
              · have key : ∀ y, Aside id t y → Aside id t ((Machine.setControl n (slotAddr u.id) 0 sigREQ y).modTarget k
                    fun t => { t with hs := .reqDown }) := by
                  intro y hy
                  rw [hid]
                  exact hm _ (hy.setControl hn hk 0 sigREQ (by decide) (by decide))
                    fun _ => .plain rfl rfl rfl rfl rfl rfl rfl rfl
                simp only [answerAck]
                refine key _ ?_
                split
                · exact h.own hk (takeByte_ownOnly e k u _ x) (takeByte_reacts e k u _ x)
                · split
                  · exact hm _ h fun _ => .plain rfl rfl rfl rfl rfl rfl rfl rfl
                  · exact h
              · exact h
            · split
              · exact h
              · simp only [advance]
                refine hm (fun t => { t with hs := .needReq }) ?_ fun _ => .plain rfl rfl rfl rfl rfl rfl rfl rfl
                split
                · split
                  · exact h
                  · exact h.own hk (executeCdb_ownOnly e k x) (executeCdb_reacts e k x)
                · split
                  · exact hm _ h fun _ => .plain rfl rfl rfl rfl rfl rfl rfl rfl
                  · exact h
                · split
                  · exact hm _ h fun _ => .plain rfl rfl rfl rfl rfl rfl rfl rfl
                  · exact h
                · exact hm _ h fun _ => .plain rfl rfl rfl rfl rfl rfl rfl rfl
                · split
                  · split
                    · exact h
                    · exact hm _ h fun _ => .plain rfl rfl rfl rfl rfl rfl rfl rfl
                  · rw [hid]
                    exact hm _ (h.releaseBus hn hk) fun _ => .plain rfl rfl rfl rfl rfl rfl rfl rfl
                · exact h

/-- The handler of another Target (R222). -/
theorem Aside.handlerOther {k : Fin 7} {x : Instance} (e : Env) (h : Aside id t x) (hk : k ≠ id) :
    Aside id t (targetHandler e n k x) := by
  have hm : ∀ {y : Instance} (f : Target → Target), (∀ u, (f u).id = u.id) → Aside id t y → Aside id t (y.modTarget k f) := by
    intro y f hf g
    have o := OwnOnly.modTarget y k f
    refine ⟨(o.stillTo (p := Config.params) g.still).1, by rw [o.ctl]; exact g.noSel, ?_,
      (o.others id (Ne.symm hk)).trans g.target, by rw [o.sig]; exact g.sig, by rw [o.dat]; exact g.dat⟩
    intro j v hv
    by_cases hj : j = k
    · subst hj
      cases ht : y.target? j with
      | none => rw [Instance.modTarget_none ht, ht] at hv; cases hv
      | some w =>
        rw [Instance.modTarget_some ht, Instance.withTarget_target?_same] at hv
        cases hv
        exact (hf w).trans (g.ids j w ht)
    · rw [o.others j hj] at hv
      exact g.ids j v hv
  have hl : ∀ m y, Aside id t y → Aside id t (targetLoop e n k m y) := by
    intro m
    induction m with
    | zero => exact fun y g => g.unsettled
    | succ m ih =>
      intro y g
      simp only [targetLoop]
      have hs := g.targetStep hn e hk
      generalize Machine.targetStep e n k y = r at hs ⊢
      split
      · exact ih _ hs
      · split
        · exact ih _ (hm (fun t => { t with trenotify := false }) (fun _ => rfl) hs)
        · exact hs
  unfold targetHandler
  split
  · exact h
  · split
    · exact hm _ (fun _ => rfl) h
    · exact hm (fun t => { t with tbusy := false }) (fun _ => rfl)
        (hl _ _ (hm (fun t => { t with tbusy := true, trenotify := false }) (fun _ => rfl) h))

omit hn in
/-- The handler of the idle Target itself looks and stays (R222, R223). -/
theorem Aside.handlerSelf {x : Instance} (e : Env) (h : Aside id t x) (ht : t.atRest) : targetHandler e n id x = x := by
  have hid : t.id = id := h.ids id t h.target
  have hx : x.withTarget id t = x := Instance.withTarget_self h.target
  obtain ⟨u, hu⟩ : ∃ u : Target, u = { t with tbusy := true, trenotify := false } := ⟨_, rfl⟩
  have hs : Machine.targetStep e n id (x.withTarget id u) = (false, x.withTarget id u) := by
    unfold Machine.targetStep
    rw [Instance.withTarget_target?_same]
    have hid' : u.id = id := by rw [hu]; exact hid
    have h1 : u.tstate = .idle := by rw [hu]; exact ht.idle
    have h2 : selectionGate u (x.withTarget id u).bus.ctl (x.withTarget id u).bus.data = false := by
      unfold selectionGate
      rw [show has (x.withTarget id u).bus.ctl sigSEL = false from h.noSel]
      simp
    have h3 : (x.withTarget id u).bus.sig[slotAddr u.id] = 0 := by simp only [hid']; exact h.sig
    have h4 : (x.withTarget id u).bus.dat[slotAddr u.id] = 0 := by simp only [hid']; exact h.dat
    simp only [h1, h2, h3, h4]
    simp
  unfold targetHandler
  rw [h.target]
  simp only [ht.notBusy]
  rw [if_neg (by simp), Instance.modTarget_some h.target, ← hu, show targetBound = 4095 + 1 from rfl, targetLoop, hs]
  simp only [Instance.withTarget_target?_same]
  rw [if_neg (by simp), if_neg (by rw [hu]; simp), Instance.modTarget_some (Instance.withTarget_target?_same _ _ _),
    Instance.withTarget_withTarget, hu]
  rw [ht.back]
  exact hx

theorem Aside.targets (e : Env) (ht : t.atRest) (l : List (Fin 7)) {x : Instance} (h : Aside id t x) :
    Aside id t (l.foldl (fun y k => targetHandler e n k y) x) := by
  induction l generalizing x with
  | nil => exact h
  | cons k l ih =>
    refine ih ?_
    by_cases hk : k = id
    · subst hk
      show Aside k t (targetHandler e n k x)
      rw [h.handlerSelf e ht]
      exact h
    · exact h.handlerOther hn e hk

end

/-- The callback at a Controller at rest leaves the bus (R175). -/
theorem onBusChange_still_bus (e : Env) (n : Instance → Instance) (x : Instance) (h : x.still) :
    (onBusChange e n x).bus = x.bus := by
  have hb : onBusChange e n x = runEngine e n (checkDisconnect e (checkRst n (x.onBus x.bus))) := onBusChange_eq e n x x.bus
  have h0 : (x.onBus x.bus).still := ⟨h.combined, h.rst, h.engine⟩
  rw [hb, checkRst_seen n _ h0.rst]
  have h1 : ((x.onBus x.bus).modCtrl fun c => { c with rstSeen := has (x.onBus x.bus).bus.ctl sigRST }).still :=
    ⟨h0.combined, id, h0.engine⟩
  have hd : ∀ y : Instance, (checkDisconnect e y).bus = y.bus := by
    intro y
    simp only [checkDisconnect]
    split
    · split <;> rfl
    · rfl
  have h2 := (checkDisconnect_keepsStill e _ h1).1
  have hr : ∀ y : Instance, y.still → (runEngine e n y).bus = y.bus := by
    intro y hy
    by_cases hbz : y.ctrl.busy = true
    · unfold runEngine; rw [if_pos hbz]; rfl
    · rw [runEngine_rest e n y ⟨by simpa using hbz, hy.engine.resolve_left hbz⟩]
  rw [hr _ h2, hd]
  rfl

/-- The callback leaves an idle Target aside. -/
theorem Aside.onBusChange {x : Instance} (e : Env) (n : Instance → Instance) (h : Aside id t x) :
    Aside id t (Machine.onBusChange e n x) := by
  have hb := onBusChange_still_bus e n x h.still
  have ht : ∀ j, (Machine.onBusChange e n x).target? j = x.target? j := fun j => Instance.target?_congr (by rw [hb]) j
  exact ⟨(onBusChange_keepsStill e (p := e.p) rfl n x h.still).1, by rw [hb]; exact h.noSel,
    fun j u hu => h.ids j u ((ht j).symm.trans hu), (ht id).trans h.target, by rw [hb]; exact h.sig, by rw [hb]; exact h.dat⟩

/-- Everything a notification can do to an idle Target that nobody selects: nothing (R91, R223). -/
theorem Aside.notifyTo (e : Env) (ht : t.atRest) (d : Nat) {x : Instance} (h : Aside id t x) :
    Aside id t (Machine.notifyTo e d x) := by
  induction d generalizing x with
  | zero => exact h.unsettled
  | succ d ih =>
    have hcb : Aside id t (notifyCallback e (Machine.notifyTo e d) x) := by
      unfold notifyCallback
      split
      · exact h.onBusChange e _
      · exact h
    exact hcb.targets (fun _ g => ih g) e ht targetSlots

theorem Aside.notify (e : Env) (ht : t.atRest) {x : Instance} (h : Aside id t x) : Aside id t (Machine.notify e x) :=
  h.notifyTo e ht nestingBound

end Sys2Proof.Machine
end

