-- ==== Sys2Proof/Laws/Exec.lean ====
section
/-! SUPPORT. What an access at the instance's own polarity and at the other one comes to, and the shape of `exec`. -/

namespace Sys2Proof.Machine

variable (inst : InstId) (x : Instance)

theorem envOf_odd : (envOf inst).p.odd (envOf inst).id = Config.params.odd inst := rfl

/-- A read at the instance's polarity: the body, then the tail (R43, R110). -/
theorem readRegister_own (body : Instance → Byte × Instance) :
    readRegister (Config.params.odd inst) body (envOf inst) x =
      commonTail (envOf inst) { (body x).2 with ret := .byte (body x).1 } := by
  unfold readRegister
  rw [envOf_odd, if_pos rfl]

/-- A read at the other polarity (R43). -/
theorem readRegister_other (body : Instance → Byte × Instance) :
    readRegister (!Config.params.odd inst) body (envOf inst) x = { x with ret := .byte 0xFF } := by
  unfold readRegister
  rw [envOf_odd, if_neg (by simp)]
  rfl

theorem readPlain_own (value : Instance → Byte) :
    readPlain (Config.params.odd inst) value (envOf inst) x =
      commonTail (envOf inst) { x with ret := .byte (value x) } :=
  readRegister_own inst x _

theorem readPlain_other (value : Instance → Byte) :
    readPlain (!Config.params.odd inst) value (envOf inst) x = { x with ret := .byte 0xFF } :=
  readRegister_other inst x _

/-- A write at the instance's polarity: the body, then the tail (R43, R110). -/
theorem writeRegister_own (body : Env → Instance → Instance) :
    writeRegister (Config.params.odd inst) body (envOf inst) x = commonTail (envOf inst) (body (envOf inst) x) := by
  unfold writeRegister
  rw [envOf_odd, if_pos rfl]

/-- A write at the other polarity (R43). -/
theorem writeRegister_other (body : Env → Instance → Instance) :
    writeRegister (!Config.params.odd inst) body (envOf inst) x = x := by
  unfold writeRegister
  rw [envOf_odd, if_neg (by simp)]

theorem writePlain_own (f : Controller → Controller) :
    writePlain (Config.params.odd inst) f (envOf inst) x = commonTail (envOf inst) (x.modCtrl f) :=
  writeRegister_own inst x _

theorem writePlain_other (f : Controller → Controller) :
    writePlain (!Config.params.odd inst) f (envOf inst) x = x := writeRegister_other inst x _

/-- Every instruction but the system reset is an event of its instance. -/
theorem exec_onInstance (i : Instr) (k : InstId) (h : i.inst? = some k) :
    ∃ f : Env → Instance → Instance, ∀ s, exec i s = onInstance k f s := by
  cases i
  case envSystemReset => cases h
  all_goals
    cases h
    first
    | exact ⟨_, fun _ => rfl⟩
    | apply Exists.intro
      intro s
      simp only [exec, execBusAttach, execBusDetach, execBusSetControl, execBusSetData, execBusGetControl,
        execBusGetData, execBusIsBusFree, execEnvOpenImage, execEnvCloseImage, execTick, execRRom, execWRom]
      rfl

/-- The system reset is the one instruction without an instance. -/
theorem inst?_eq_none (i : Instr) (h : i.inst? = none) : i = .envSystemReset := by
  cases i <;> first | rfl | cases h

/-- Opening an image either does nothing, or gives the Target the image taken and keeps the one it had. -/
theorem openAt_cases (p : Params) (k : Fin 7) (src : ImageSource) :
    openAt p k src x = x ∨
    ∃ t st, x.target? k = some t ∧ (takeImage src x).1 = some st ∧
      openAt p k src x = (keepImage k (takeImage src x).2).modTarget k (openImage p st) := by
  unfold openAt
  split
  · next t st y ht h => exact .inr ⟨t, st, ht, by rw [h], by rw [h]⟩
  · exact .inl rfl

/-- Keeping the images of a list of slots adds exactly these. -/
theorem keepImages_kept (l : List (Fin 7)) :
    x.kept <+: (l.foldl (fun y k => keepImage k y) x).kept ∧
    ∀ st, st ∈ (l.foldl (fun y k => keepImage k y) x).kept ↔
      st ∈ x.kept ∨ ∃ k ∈ l, (x.target? k).bind Target.image = some st := by
  induction l generalizing x with
  | nil => simp
  | cons a l ih =>
    have h := ih (keepImage a x)
    simp only [List.foldl_cons]
    refine ⟨(List.prefix_append _ _).trans h.1, fun st => (h.2 st).trans ?_⟩
    simp only [keepImage_target?, keepImage_kept, List.mem_append, Option.mem_toList, List.mem_cons, exists_eq_or_imp]
    exact or_assoc

end Sys2Proof.Machine
end

