-- ==== Sys2Proof/Laws/Commands.lean ====
section
/-! SUPPORT. The Target's commands as operations on the Target at a slot: what a CDB leaves in the command buffer, and
closed forms of the bodies. -/

namespace Sys2Proof.Machine

variable (inst : InstId) (id : Fin 7) (s : State)

/-- A CDB for a Target, with a body that only changes its record. -/
theorem runCdb_own (bytes : List Byte) (f : Env → Target → Target) (t : Target)
    (h : (beginEvent (s.get inst)).target? id = some t) :
    onInstance inst (runCdb id bytes fun e k x => x.modTarget k (f e)) s =
      .next (s.put inst ((beginEvent (s.get inst)).withTarget id (f (envOf inst) (loadCdb bytes t)))) := by
  have hm : ∀ (x : Instance) (u : Target) (g : Target → Target), x.target? id = some u →
      x.modTarget id g = x.withTarget id (g u) := fun x u g hu => Instance.modTarget_some hu g
  rw [onInstance_eq]
  unfold runCdb
  rw [hm _ _ _ h]
  simp only [hm _ _ _ (Instance.withTarget_target?_same _ id _), Instance.withTarget_withTarget]

/-- A CDB for a Target, with any body. -/
theorem runCdb_any (bytes : List Byte) (f : Env → Fin 7 → Instance → Instance) (t : Target)
    (h : (beginEvent (s.get inst)).target? id = some t) :
    onInstance inst (runCdb id bytes f) s =
      .next (s.put inst (f (envOf inst) id ((beginEvent (s.get inst)).withTarget id (loadCdb bytes t)))) := by
  rw [onInstance_eq]
  unfold runCdb
  rw [show (beginEvent (s.get inst)).modTarget id (loadCdb bytes) = _ from Instance.modTarget_some h _]

/-- A CDB for an empty slot does nothing (log 11). -/
theorem runCdb_none (bytes : List Byte) (f : Env → Target → Target)
    (h : (beginEvent (s.get inst)).target? id = none) :
    onInstance inst (runCdb id bytes fun e k x => x.modTarget k (f e)) s =
      .next (s.put inst (beginEvent (s.get inst))) := by
  rw [onInstance_eq]
  unfold runCdb
  rw [Instance.modTarget_none h]
  exact congrArg (fun y => Host.Outcome.next (s.put inst y)) (Instance.modTarget_none h _)

/-! ### The command buffer (R74) -/

/-- The bytes of a 6-byte CDB in the command buffer. -/
theorem loadCdb6_cmd (op : Byte) (c : Cdb6) (t : Target) :
    let u := loadCdb (cdb6Bytes op c) t
    u.cmd[0] = op ∧ u.cmd[1] = c.lun ++ c.lba.extractLsb' 16 5 ∧ u.cmd[2] = c.lba.extractLsb' 8 8 ∧
    u.cmd[3] = c.lba.extractLsb' 0 8 ∧ u.cmd[4] = c.len := by
  simp [loadCdb, cdb6Bytes, fillCmd]

/-- The bytes of a 10-byte CDB in the command buffer. -/
theorem loadCdb10_cmd (op : Byte) (c : Cdb10) (t : Target) :
    let u := loadCdb (cdb10Bytes op c) t
    u.cmd[0] = op ∧ u.cmd[1] = c.flags ∧ u.cmd[2] = c.lba.extractLsb' 24 8 ∧ u.cmd[3] = c.lba.extractLsb' 16 8 ∧
    u.cmd[4] = c.lba.extractLsb' 8 8 ∧ u.cmd[5] = c.lba.extractLsb' 0 8 ∧ u.cmd[7] = c.len.extractLsb' 8 8 ∧
    u.cmd[8] = c.len.extractLsb' 0 8 := by
  simp [loadCdb, cdb10Bytes, fillCmd]

theorem lba6_aux (lun : BitVec 3) (lba : BitVec 21) :
    ((lun ++ lba.extractLsb' 16 5) &&& 0x1F#8).toNat * 65536 + (lba.extractLsb' 8 8).toNat * 256 +
      (lba.extractLsb' 0 8).toNat = lba.toNat := by
  have h1 : ∀ (l : BitVec 3) (w : BitVec 5), (l ++ w) &&& 0x1F#8 = w.setWidth 8 := by decide
  rw [h1]
  have := lba.isLt
  simp only [BitVec.toNat_setWidth, BitVec.extractLsb'_toNat, Nat.shiftRight_eq_div_pow]
  omega

/-- The LBA operand that a 6-byte CDB leaves is the one it was given (R259). -/
theorem lba6_loadCdb (op : Byte) (c : Cdb6) (t : Target) : lba6 (loadCdb (cdb6Bytes op c) t).cmd = c.lba.toNat := by
  obtain ⟨-, h1, h2, h3, -⟩ := loadCdb6_cmd op c t
  unfold lba6
  rw [h1, h2, h3]
  exact lba6_aux c.lun c.lba

/-- The block count that a 6-byte CDB leaves (R259). -/
theorem blocks6_loadCdb (op : Byte) (c : Cdb6) (t : Target) :
    blocks6 (loadCdb (cdb6Bytes op c) t).cmd = if c.len = 0 then 256 else c.len.toNat := by
  obtain ⟨-, -, -, -, h4⟩ := loadCdb6_cmd op c t
  unfold blocks6
  rw [h4]

/-- The LBA operand that a 10-byte CDB leaves (R260). -/
theorem lba10_loadCdb (op : Byte) (c : Cdb10) (t : Target) :
    lba10 (loadCdb (cdb10Bytes op c) t).cmd = c.lba.toNat := by
  obtain ⟨-, -, h2, h3, h4, h5, -⟩ := loadCdb10_cmd op c t
  unfold lba10
  rw [h2, h3, h4, h5]
  have := c.lba.isLt
  simp only [natOfBE, List.foldl, BitVec.extractLsb'_toNat, Nat.shiftRight_eq_div_pow]
  omega

/-- The block count that a 10-byte CDB leaves (R260). -/
theorem blocks10_loadCdb (op : Byte) (c : Cdb10) (t : Target) :
    blocks10 (loadCdb (cdb10Bytes op c) t).cmd = c.len.toNat := by
  obtain ⟨-, -, -, -, -, -, h7, h8⟩ := loadCdb10_cmd op c t
  unfold blocks10
  rw [h7, h8]
  have := c.len.isLt
  simp only [natOfBE, List.foldl, BitVec.extractLsb'_toNat, Nat.shiftRight_eq_div_pow]
  omega

/-! ### Bodies -/

/-- A length byte that is not 0 is not 0 as a number. -/
theorem toNat_ne_zero {b : Byte} (h : ¬b = 0) : b.toNat ≠ 0 := fun h0 => h (BitVec.eq_of_toNat_eq h0)

/-- The error exit, with an LBA that fits its field (R252). -/
theorem checkCondition_eq (p : Params) (key : BitVec 4) (asc ascq : Byte) (lba : Option (BitVec 32)) (t : Target) :
    checkCondition p key asc ascq (lba.map BitVec.toNat) t = checked key asc ascq lba t := by
  cases lba with
  | none => rfl
  | some l =>
    have : narrow p 4 l.toNat = l.toNat := if_pos (by have := l.isLt; omega)
    simp only [checkCondition, checked, Option.map_some, this, BitVec.ofNat_toNat, BitVec.setWidth_eq, Option.getD_some,
      Option.isSome_some]

/-- Request Sense (R257). -/
theorem requestSense_eq (u : Target) :
    requestSense u = { u with buf := bufFill u.buf 0 (senseBytes u), senseKey := 0, senseAsc := 0, senseAscq := 0,
                              senseLba := 0, senseLbaValid := false, cur := 0,
                              total := if u.cmd[4] = 0 then 4 else min u.cmd[4].toNat 18, status := 0x00,
                              tstate := .dataIn } := by
  have : (if u.cmd[4] = 0 then 4 else min u.cmd[4].toNat 18) ≠ 0 := by
    split
    · decide
    · have := toNat_ne_zero ‹_›
      omega
  unfold requestSense
  simp only [dataIn, clearSense, fillFromStart]
  rw [if_neg this]

/-- Whether the three checks of a read or write pass (R271, R272). -/
theorem rwChecks_eq_none (p : Params) (lba blocks : Nat) (t : Target) :
    rwChecks p lba blocks t = none ↔
      t.image ≠ none ∧ lba + blocks ≤ t.geom.totalSectors ∧ blocks * t.geom.bps ≤ 65536 := by
  unfold rwChecks needMedium inRange fits
  cases t.image <;> by_cases h1 : t.geom.totalSectors < lba + blocks <;> by_cases h2 : 65536 < blocks * t.geom.bps <;>
    (simp [h1, h2]; try omega)

end Sys2Proof.Machine
end

