-- ==== Sys2Proof/Laws/Lines.lean ====
section
/-! SUPPORT. The two lines: nothing but the end of an event moves them or makes their callbacks (D33). -/

namespace Sys2Proof.Machine

/-- From one instance to the other neither line moves and neither is called. -/
structure Quiet (x y : Instance) : Prop where
  irq : y.ctrl.irqLine = x.ctrl.irqLine
  drq : y.ctrl.drqLine = x.ctrl.drqLine
  calls : y.calls.filter Call.isLine = x.calls.filter Call.isLine

theorem Quiet.refl (x : Instance) : Quiet x x := ⟨rfl, rfl, rfl⟩

theorem Quiet.trans {x y z : Instance} (h : Quiet x y) (g : Quiet y z) : Quiet x z :=
  ⟨g.irq.trans h.irq, g.drq.trans h.drq, g.calls.trans h.calls⟩

/-- A reaction is quiet. -/
theorem Reacts.toQuiet {x y : Instance} (h : Reacts x y) : Quiet x y := ⟨h.ctrl.lines.1, h.ctrl.lines.2, h.quiet⟩

/-- A change of the Controller that leaves the two lines. -/
theorem Quiet.modCtrl {x : Instance} (f : Controller → Controller) (h1 : (f x.ctrl).irqLine = x.ctrl.irqLine := by rfl)
    (h2 : (f x.ctrl).drqLine = x.ctrl.drqLine := by rfl) : Quiet x (x.modCtrl f) := ⟨h1, h2, rfl⟩

/-- The callbacks of an event: one for each line that it leaves at another level, DRQ before IRQ (R296, R300). -/
def Edges (x y : Instance) : Prop :=
  y.calls.filter Call.isLine =
    x.calls.filter Call.isLine ++
      ((if y.ctrl.drqLine = x.ctrl.drqLine then [] else [.drq y.ctrl.drqLine]) ++
       (if y.ctrl.irqLine = x.ctrl.irqLine then [] else [.irq y.ctrl.irqLine]))

/-- What is quiet to the end has no edge. -/
theorem Quiet.edges {x y : Instance} (h : Quiet x y) : Edges x y := by
  unfold Edges
  rw [if_pos h.drq, if_pos h.irq, h.calls]
  simp

/-- What is quiet until the lines follow makes the edges that they then have, and no other (R111, D33). -/
theorem Quiet.settled {x y : Instance} (h : Quiet x y) : Edges x (updateLines y) := by
  unfold Edges
  rw [updateLines_eq]
  simp only [List.filter_append, h.calls, lineEdges, ← h.irq, ← h.drq]
  split <;> split <;> rfl

/-- The common tail after a quiet body (R111). -/
theorem commonTail_edges {x y : Instance} (e : Env) (h : Quiet x y) : Edges x (commonTail e y) := by
  obtain ⟨z, h1, h2⟩ := commonTail_settles e y
  rw [h2]
  exact (h.trans h1.toQuiet).settled

/-- A Bus call from outside (R91, R175). -/
theorem changeBus_edges (e : Env) (x : Instance) (b : Bus) : Edges x (changeBus (notifyEvent e) x b) := by
  unfold changeBus
  split
  · exact Quiet.edges ⟨rfl, rfl, rfl⟩
  · have h : Quiet x (notify e { x with bus := b }) :=
      Quiet.trans (y := { x with bus := b }) ⟨rfl, rfl, rfl⟩ (notify_reacts e _).toQuiet
    unfold notifyEvent
    simp only
    split
    · exact h.settled
    · exact h.edges

end Sys2Proof.Machine
end

