-- ==== Sys2Proof/Laws/Loops.lean ====
section
/-! SUPPORT. The two guarded loops, opened once: the engine's and a Target's repeat their evaluation while there is progress,
and once more for every notification that came in meanwhile (R174, R222). -/

namespace Sys2Proof.Machine

/-- One round of `run_engine` (R174): whether it made progress, and the instance after it. A parked engine makes none. -/
def engineRound (e : Env) (n : Instance → Instance) (x : Instance) : Bool × Instance :=
  if x.ctrl.pending = none then (decide ((engineStep e n x).1 = .progress), (engineStep e n x).2) else (false, x)

theorem engineLoop_repeats (e : Env) (n : Instance → Instance) (m : Nat) :
    ∀ fuel x y, m < fuel → RepeatsTo (engineRound e n) (fun z => z.ctrl.renotify)
      (fun z => { z with ctrl := { z.ctrl with renotify := false } }) m x y → engineLoop e n fuel x = y := by
  have round : ∀ x, engineRound e n x =
      (decide ((if x.ctrl.pending = none then engineStep e n x else (.stay, x)).1 = .progress),
        (if x.ctrl.pending = none then engineStep e n x else (.stay, x)).2) := by
    intro x
    unfold engineRound
    split <;> rfl
  induction m with
  | zero =>
    intro fuel x y hf ⟨h1, h2⟩
    obtain ⟨f, rfl⟩ : ∃ f, fuel = f + 1 := ⟨fuel - 1, by omega⟩
    rw [round] at h1
    simp only [Prod.mk.injEq, decide_eq_false_iff_not] at h1
    simp only [engineLoop]
    have h2' : y.ctrl.renotify = false := h2
    rw [if_neg h1.1, h1.2, h2']
    rfl
  | succ m ih =>
    intro fuel x y hf ⟨z, hz, h⟩
    obtain ⟨f, rfl⟩ : ∃ f, fuel = f + 1 := ⟨fuel - 1, by omega⟩
    simp only [round, Prod.mk.injEq, decide_eq_true_eq, decide_eq_false_iff_not] at h
    simp only [engineLoop]
    rcases h with ⟨h1, h2⟩ | ⟨w, ⟨h1, h2⟩, h3, rfl⟩
    · rw [if_pos h1, h2]
      exact ih f z y (by omega) hz
    · have h3' : w.ctrl.renotify = true := h3
      rw [if_neg h1, h2, h3']
      exact ih f _ y (by omega) hz

theorem targetLoop_repeats (e : Env) (n : Instance → Instance) (k : Fin 7) (m : Nat) :
    ∀ fuel x y, m < fuel → RepeatsTo (targetStep e n k) (fun z => (z.target? k).any Target.trenotify)
      (fun z => z.modTarget k fun t => { t with trenotify := false }) m x y → targetLoop e n k fuel x = y := by
  induction m with
  | zero =>
    intro fuel x y hf ⟨h1, h2⟩
    obtain ⟨f, rfl⟩ : ∃ f, fuel = f + 1 := ⟨fuel - 1, by omega⟩
    simp only [targetLoop]
    have h2' : (y.target? k).any Target.trenotify = false := h2
    rw [h1]
    simp only [h2']
    rfl
  | succ m ih =>
    intro fuel x y hf ⟨z, hz, h⟩
    obtain ⟨f, rfl⟩ : ∃ f, fuel = f + 1 := ⟨fuel - 1, by omega⟩
    simp only [targetLoop]
    rcases h with h | ⟨w, h, h3, rfl⟩
    · rw [h]
      exact ih f z y (by omega) hz
    · have h3' : (w.target? k).any Target.trenotify = true := h3
      rw [h]
      simp only [h3']
      exact ih f _ y (by omega) hz

end Sys2Proof.Machine
end

