-- ==== Sys2Proof/Laws/PerInstr.lean ====
section
/-! SUPPORT. The families of laws that hold of every instruction, one lemma per constructor. -/

namespace Sys2Proof.Laws

/-- The header of a message (log 2): it has two bytes, and bit 7 of the second tells the instance. -/
def HeaderTells.Statement (i : Instr) : Prop :=
  2 ≤ (encode i).length ∧ ((byteAt (encode i) 1).getLsbD 7 = true ↔ i.inst? = some .external)

namespace HeaderTells

theorem kindByte_inst (inst : InstId) (k : BitVec 7) : (kindByte inst k).getLsbD 7 = true ↔ inst = .external := by
  cases inst <;> revert k <;> decide

theorem of_cons (inst : InstId) (k : BitVec 7) (b : Byte) (l : List Byte) :
    2 ≤ (b :: kindByte inst k :: l).length ∧
      ((byteAt (b :: kindByte inst k :: l) 1).getLsbD 7 = true ↔ some inst = some InstId.external) := by
  refine ⟨by simp, ?_⟩
  rw [show byteAt (b :: kindByte inst k :: l) 1 = kindByte inst k from rfl, kindByte_inst]
  simp

theorem busAttach (inst : InstId) (id : Fin 7) (dev : NewTarget) : Statement (.busAttach inst id dev) := of_cons _ _ _ _

theorem busDetach (inst : InstId) (id : Fin 7) : Statement (.busDetach inst id) := of_cons _ _ _ _

theorem busSetControl (inst : InstId) (id : Fin 8) (value mask : Ctl) : Statement (.busSetControl inst id value mask) := of_cons _ _ _ _

theorem busSetData (inst : InstId) (id : Fin 8) (value : Byte) : Statement (.busSetData inst id value) := of_cons _ _ _ _

theorem busGetControl (inst : InstId) : Statement (.busGetControl inst) := of_cons _ _ _ _

theorem busGetData (inst : InstId) : Statement (.busGetData inst) := of_cons _ _ _ _

theorem busIsBusFree (inst : InstId) : Statement (.busIsBusFree inst) := of_cons _ _ _ _

theorem envOpenImage (inst : InstId) (id : Fin 7) (src : ImageSource) : Statement (.envOpenImage inst id src) := by
  cases src <;> exact of_cons _ _ _ _

theorem envCloseImage (inst : InstId) (id : Fin 7) : Statement (.envCloseImage inst id) := of_cons _ _ _ _

theorem envSystemReset : Statement .envSystemReset := ⟨by decide, by decide⟩

theorem tick (inst : InstId) (cycles : Nat) : Statement (.tick inst cycles) := of_cons _ _ _ _

theorem rBdid (inst : InstId) (odd : Bool) : Statement (.rBdid inst odd) := of_cons _ _ _ _

theorem wBdid (inst : InstId) (odd : Bool) (v : Byte) : Statement (.wBdid inst odd v) := of_cons _ _ _ _

theorem rSctl (inst : InstId) (odd : Bool) : Statement (.rSctl inst odd) := of_cons _ _ _ _

theorem wSctl (inst : InstId) (odd : Bool) (v : Byte) : Statement (.wSctl inst odd v) := of_cons _ _ _ _

theorem rScmd (inst : InstId) (odd : Bool) : Statement (.rScmd inst odd) := of_cons _ _ _ _

theorem wScmd (inst : InstId) (odd : Bool) (v : Byte) : Statement (.wScmd inst odd v) := of_cons _ _ _ _

theorem rInts (inst : InstId) (odd : Bool) : Statement (.rInts inst odd) := of_cons _ _ _ _

theorem wInts (inst : InstId) (odd : Bool) (v : Byte) : Statement (.wInts inst odd v) := of_cons _ _ _ _

theorem rPsns (inst : InstId) (odd : Bool) : Statement (.rPsns inst odd) := of_cons _ _ _ _

theorem wSdgc (inst : InstId) (odd : Bool) (v : Byte) : Statement (.wSdgc inst odd v) := of_cons _ _ _ _

theorem rSsts (inst : InstId) (odd : Bool) : Statement (.rSsts inst odd) := of_cons _ _ _ _

theorem wSsts (inst : InstId) (odd : Bool) (v : Byte) : Statement (.wSsts inst odd v) := of_cons _ _ _ _

theorem rSerr (inst : InstId) (odd : Bool) : Statement (.rSerr inst odd) := of_cons _ _ _ _

theorem wSerr (inst : InstId) (odd : Bool) (v : Byte) : Statement (.wSerr inst odd v) := of_cons _ _ _ _

theorem rPctl (inst : InstId) (odd : Bool) : Statement (.rPctl inst odd) := of_cons _ _ _ _

theorem wPctl (inst : InstId) (odd : Bool) (v : Byte) : Statement (.wPctl inst odd v) := of_cons _ _ _ _

theorem rMbc (inst : InstId) (odd : Bool) : Statement (.rMbc inst odd) := of_cons _ _ _ _

theorem wMbc (inst : InstId) (odd : Bool) (v : Byte) : Statement (.wMbc inst odd v) := of_cons _ _ _ _

theorem rDreg (inst : InstId) (odd : Bool) : Statement (.rDreg inst odd) := of_cons _ _ _ _

theorem wDreg (inst : InstId) (odd : Bool) (v : Byte) : Statement (.wDreg inst odd v) := of_cons _ _ _ _

theorem rTemp (inst : InstId) (odd : Bool) : Statement (.rTemp inst odd) := of_cons _ _ _ _

theorem wTemp (inst : InstId) (odd : Bool) (v : Byte) : Statement (.wTemp inst odd v) := of_cons _ _ _ _

theorem rTch (inst : InstId) (odd : Bool) : Statement (.rTch inst odd) := of_cons _ _ _ _

theorem wTch (inst : InstId) (odd : Bool) (v : Byte) : Statement (.wTch inst odd v) := of_cons _ _ _ _

theorem rTcm (inst : InstId) (odd : Bool) : Statement (.rTcm inst odd) := of_cons _ _ _ _

theorem wTcm (inst : InstId) (odd : Bool) (v : Byte) : Statement (.wTcm inst odd v) := of_cons _ _ _ _

theorem rTcl (inst : InstId) (odd : Bool) : Statement (.rTcl inst odd) := of_cons _ _ _ _

theorem wTcl (inst : InstId) (odd : Bool) (v : Byte) : Statement (.wTcl inst odd v) := of_cons _ _ _ _

theorem rwIndex3 (inst : InstId) (odd : Bool) (acc : Access) : Statement (.rwIndex3 inst odd acc) := by
  cases acc <;> exact of_cons _ _ _ _

theorem rwIndex15 (inst : InstId) (odd : Bool) (acc : Access) : Statement (.rwIndex15 inst odd acc) := by
  cases acc <;> exact of_cons _ _ _ _

theorem rwWrongPolarity (inst : InstId) (index : Fin 16) (acc : Access) : Statement (.rwWrongPolarity inst index acc) := by
  cases acc <;> exact of_cons _ _ _ _

theorem rRom (inst : InstId) (off : BitVec 32) : Statement (.rRom inst off) := of_cons _ _ _ _

theorem wRom (inst : InstId) (off : BitVec 32) (v : Byte) : Statement (.wRom inst off v) := of_cons _ _ _ _

theorem scmdBusRelease (inst : InstId) (low : BitVec 5) : Statement (.scmdBusRelease inst low) := of_cons _ _ _ _

theorem scmdSelect (inst : InstId) (low : BitVec 5) : Statement (.scmdSelect inst low) := of_cons _ _ _ _

theorem scmdResetAtn (inst : InstId) (low : BitVec 5) : Statement (.scmdResetAtn inst low) := of_cons _ _ _ _

theorem scmdSetAtn (inst : InstId) (low : BitVec 5) : Statement (.scmdSetAtn inst low) := of_cons _ _ _ _

theorem scmdTransfer (inst : InstId) (low : BitVec 5) : Statement (.scmdTransfer inst low) := of_cons _ _ _ _

theorem scmdTransferPause (inst : InstId) (low : BitVec 5) : Statement (.scmdTransferPause inst low) := of_cons _ _ _ _

theorem scmdResetAckreq (inst : InstId) (low : BitVec 5) : Statement (.scmdResetAckreq inst low) := of_cons _ _ _ _

theorem scmdSetAckreq (inst : InstId) (low : BitVec 5) : Statement (.scmdSetAckreq inst low) := of_cons _ _ _ _

theorem cdbTestUnitReady (inst : InstId) (id : Fin 7) (c : Cdb6) : Statement (.cdbTestUnitReady inst id c) := of_cons _ _ _ _

theorem cdbRezeroUnit (inst : InstId) (id : Fin 7) (c : Cdb6) : Statement (.cdbRezeroUnit inst id c) := of_cons _ _ _ _

theorem cdbRequestSense (inst : InstId) (id : Fin 7) (c : Cdb6) : Statement (.cdbRequestSense inst id c) := of_cons _ _ _ _

theorem cdbFormatUnit (inst : InstId) (id : Fin 7) (c : Cdb6) : Statement (.cdbFormatUnit inst id c) := of_cons _ _ _ _

theorem cdbRead6 (inst : InstId) (id : Fin 7) (c : Cdb6) : Statement (.cdbRead6 inst id c) := of_cons _ _ _ _

theorem cdbWrite6 (inst : InstId) (id : Fin 7) (c : Cdb6) : Statement (.cdbWrite6 inst id c) := of_cons _ _ _ _

theorem cdbSeek6 (inst : InstId) (id : Fin 7) (c : Cdb6) : Statement (.cdbSeek6 inst id c) := of_cons _ _ _ _

theorem cdbInquiry (inst : InstId) (id : Fin 7) (c : Cdb6) : Statement (.cdbInquiry inst id c) := of_cons _ _ _ _

theorem cdbModeSelect6 (inst : InstId) (id : Fin 7) (c : Cdb6) : Statement (.cdbModeSelect6 inst id c) := of_cons _ _ _ _

theorem cdbModeSense6 (inst : InstId) (id : Fin 7) (c : Cdb6) : Statement (.cdbModeSense6 inst id c) := of_cons _ _ _ _

theorem cdbStartStopUnit (inst : InstId) (id : Fin 7) (c : Cdb6) : Statement (.cdbStartStopUnit inst id c) := of_cons _ _ _ _

theorem cdbReadCapacity (inst : InstId) (id : Fin 7) (c : Cdb10) : Statement (.cdbReadCapacity inst id c) := of_cons _ _ _ _

theorem cdbRead10 (inst : InstId) (id : Fin 7) (c : Cdb10) : Statement (.cdbRead10 inst id c) := of_cons _ _ _ _

theorem cdbWrite10 (inst : InstId) (id : Fin 7) (c : Cdb10) : Statement (.cdbWrite10 inst id c) := of_cons _ _ _ _

theorem cdbVerify10 (inst : InstId) (id : Fin 7) (c : Cdb10) : Statement (.cdbVerify10 inst id c) := of_cons _ _ _ _

theorem cdbOther (inst : InstId) (id : Fin 7) (opcode : Byte) (args : List Byte) : Statement (.cdbOther inst id opcode args) := of_cons _ _ _ _

end HeaderTells

end Sys2Proof.Laws
end

