-- ==== Sys2Proof/Tests/Slice0.lean ====
section
/-! SUPPORT. Tests: ill-formed terms refused, every constructor decoded from a word written out, single steps with
results from the spec's own examples, and for every statement with hypotheses a state that meets them. -/

namespace Sys2Proof.Tests

open Machine

/-! ### Well-formedness: one ill-formed term for each check -/

theorem test_illFormed_attachImageTooLong :
    (Instr.busAttach .internal 0 ⟨true, some (.given (List.replicate (256 ^ 4) 0))⟩).wellFormed = false := by
  simp only [Instr.wellFormed, ImageSource.wellFormed, List.length_replicate]
  decide

theorem test_illFormed_openImageTooLong :
    (Instr.envOpenImage .internal 0 (.given (List.replicate (256 ^ 4) 0))).wellFormed = false := by
  simp only [Instr.wellFormed, ImageSource.wellFormed, List.length_replicate]
  decide

theorem test_illFormed_keptImageTooFar :
    (Instr.envOpenImage .internal 0 (.kept (256 ^ 4))).wellFormed = false ∧
    (Instr.busAttach .internal 0 ⟨true, some (.kept (256 ^ 4))⟩).wellFormed = false := by decide

theorem test_illFormed_tickTooLong : (Instr.tick .internal (256 ^ 8)).wellFormed = false := by decide

theorem test_illFormed_romInsideWindow :
    (Instr.rRom .internal 31).wellFormed = false ∧ (Instr.wRom .internal 31 0).wellFormed = false := by decide

theorem test_illFormed_cdbListedOpcode :
    (Instr.cdbOther .internal 0 0x12 [0, 0, 0, 0, 0]).wellFormed = false := by decide

theorem test_illFormed_cdbWrongLength :
    (Instr.cdbOther .internal 0 0x02 [0, 0, 0, 0]).wellFormed = false ∧
    (Instr.cdbOther .internal 0 0xA0 [0, 0, 0, 0, 0]).wellFormed = false := by decide

theorem test_wellFormed_atTheBounds :
    (Instr.tick .external (256 ^ 8 - 1)).wellFormed = true ∧ (Instr.rRom .internal 32).wellFormed = true ∧
    (Instr.cdbOther .internal 6 0xA0 (List.replicate 11 0)).wellFormed = true := by decide

/-! ### Decoding: every constructor, from words written out by the spec's encodings (R63, R64, R66, R74, R75) -/

theorem test_decode_busCalls : ∀ p ∈ ([
    ([0x03, 0x08, 0x01], .busAttach .internal 3 ⟨true, none⟩),
    ([0x00, 0x88, 0x02, 0, 0, 0, 2, 0xAA, 0xBB], .busAttach .external 0 ⟨false, some (.given [0xAA, 0xBB])⟩),
    ([0x01, 0x08, 0x05, 0, 0, 0, 3], .busAttach .internal 1 ⟨true, some (.kept 3)⟩),
    ([0x06, 0x89], .busDetach .external 6),
    ([0x07, 0x0A, 0x10, 0x00, 0x90, 0x01], .busSetControl .internal 7 0x010 0x190),
    ([0x02, 0x8B, 0x5A], .busSetData .external 2 0x5A),
    ([0x00, 0x0C], .busGetControl .internal), ([0x00, 0x8D], .busGetData .external),
    ([0x00, 0x0E], .busIsBusFree .internal)] : List (List Byte × Instr)), decode p.1 = .ok p.2 := by decide

theorem test_decode_environment : ∀ p ∈ ([
    ([0x05, 0x0F, 0, 0, 0, 1, 0x77], .envOpenImage .internal 5 (.given [0x77])),
    ([0x05, 0x12, 0, 0, 1, 0], .envOpenImage .internal 5 (.kept 256)), ([0x05, 0x90], .envCloseImage .external 5),
    ([0x00, 0x11], .envSystemReset), ([0x00, 0x07, 0, 0, 0, 0, 0, 1, 0, 2], .tick .internal 65538)] :
    List (List Byte × Instr)), decode p.1 = .ok p.2 := by decide

/-- The window offset of a read is `2 * index + polarity` (R63, R64). -/
theorem test_decode_registerReads : ∀ p ∈ ([
    ([0x00, 0x01], .rBdid .internal false), ([0x03, 0x81], .rSctl .external true), ([0x04, 0x01], .rScmd .internal false),
    ([0x09, 0x01], .rInts .internal true), ([0x0A, 0x81], .rPsns .external false), ([0x0C, 0x01], .rSsts .internal false),
    ([0x0F, 0x01], .rSerr .internal true), ([0x10, 0x01], .rPctl .internal false), ([0x13, 0x81], .rMbc .external true),
    ([0x14, 0x01], .rDreg .internal false), ([0x16, 0x01], .rTemp .internal false), ([0x19, 0x01], .rTch .internal true),
    ([0x1A, 0x01], .rTcm .internal false), ([0x1C, 0x81], .rTcl .external false)] : List (List Byte × Instr)),
    decode p.1 = .ok p.2 := by decide

theorem test_decode_registerWrites : ∀ p ∈ ([
    ([0x00, 0x02, 5], .wBdid .internal false 5), ([0x03, 0x82, 0x81], .wSctl .external true 0x81),
    ([0x04, 0x02, 0x20], .wScmd .internal false 0x20), ([0x09, 0x02, 0xFF], .wInts .internal true 0xFF),
    ([0x0A, 0x82, 0x88], .wSdgc .external false 0x88), ([0x0C, 0x02, 1], .wSsts .internal false 1),
    ([0x0F, 0x02, 2], .wSerr .internal true 2), ([0x10, 0x02, 3], .wPctl .internal false 3),
    ([0x13, 0x82, 4], .wMbc .external true 4), ([0x14, 0x02, 6], .wDreg .internal false 6),
    ([0x16, 0x02, 7], .wTemp .internal false 7), ([0x19, 0x02, 8], .wTch .internal true 8),
    ([0x1A, 0x02, 9], .wTcm .internal false 9), ([0x1C, 0x82, 10], .wTcl .external false 10)] :
    List (List Byte × Instr)), decode p.1 = .ok p.2 := by decide

theorem test_decode_noRegister : ∀ p ∈ ([
    ([0x06, 0x01], .rwIndex3 .internal false .read), ([0x07, 0x02, 0x55], .rwIndex3 .internal true (.write 0x55)),
    ([0x1E, 0x01], .rwIndex15 .internal false .read), ([0x1F, 0x82, 0x55], .rwIndex15 .external true (.write 0x55)),
    ([0x14, 0x03], .rwWrongPolarity .internal 10 .read), ([0x1E, 0x84, 0x55], .rwWrongPolarity .external 15 (.write 0x55)),
    ([0x20, 0x01], .rRom .internal 0x20), ([0x34, 0x82, 0x99, 0x12], .wRom .external 0x1234 0x99)] :
    List (List Byte × Instr)), decode p.1 = .ok p.2 := by decide

/-- The code stands in bits 7:5 of the SCMD byte (R66). -/
theorem test_decode_commands : ∀ p ∈ ([
    ([0x00, 0x05], .scmdBusRelease .internal 0), ([0x21, 0x85], .scmdSelect .external 1),
    ([0x40, 0x05], .scmdResetAtn .internal 0), ([0x70, 0x05], .scmdSetAtn .internal 0x10),
    ([0x85, 0x05], .scmdTransfer .internal 5), ([0xA0, 0x05], .scmdTransferPause .internal 0),
    ([0xDF, 0x05], .scmdResetAckreq .internal 0x1F), ([0xE0, 0x05], .scmdSetAckreq .internal 0)] :
    List (List Byte × Instr)), decode p.1 = .ok p.2 := by decide

/-- 6-byte CDBs: LUN and LBA high in byte 1, length in byte 4 (R74). Byte 0 is the opcode, byte 2 of the message the
slot. -/
theorem test_decode_cdb6 : ∀ p ∈ ([
    ([0x00, 0x06, 0, 0, 0, 0, 0, 0], .cdbTestUnitReady .internal 0 ⟨0, 0, 0, 0⟩),
    ([0x01, 0x06, 1, 0x20, 0, 0, 0, 0], .cdbRezeroUnit .internal 1 ⟨1, 0, 0, 0⟩),
    ([0x03, 0x86, 2, 0, 0, 0, 18, 0], .cdbRequestSense .external 2 ⟨0, 0, 18, 0⟩),
    ([0x04, 0x06, 3, 0x10, 0, 0, 0, 0], .cdbFormatUnit .internal 3 ⟨0, 0x100000, 0, 0⟩),
    ([0x08, 0x06, 4, 0, 0, 0x0A, 2, 0], .cdbRead6 .internal 4 ⟨0, 10, 2, 0⟩),
    ([0x0A, 0x06, 5, 0x1F, 0xFF, 0xFF, 1, 0], .cdbWrite6 .internal 5 ⟨0, 0x1FFFFF, 1, 0⟩),
    ([0x0B, 0x06, 6, 0, 1, 0, 0, 0], .cdbSeek6 .internal 6 ⟨0, 256, 0, 0⟩),
    ([0x12, 0x06, 0, 0, 0, 0, 36, 0], .cdbInquiry .internal 0 ⟨0, 0, 36, 0⟩),
    ([0x15, 0x06, 0, 0, 0, 0, 12, 0], .cdbModeSelect6 .internal 0 ⟨0, 0, 12, 0⟩),
    ([0x1A, 0x06, 0, 0, 0x3F, 0, 60, 0], .cdbModeSense6 .internal 0 ⟨0, 0x3F00, 60, 0⟩),
    ([0x1B, 0x06, 0, 0, 0, 0, 1, 0x80], .cdbStartStopUnit .internal 0 ⟨0, 0, 1, 0x80⟩),
    ([0x02, 0x06, 0, 9, 8, 7, 6, 5], .cdbOther .internal 0 0x02 [9, 8, 7, 6, 5])] : List (List Byte × Instr)),
    decode p.1 = .ok p.2 := by decide

/-- 10-byte CDBs: LBA in bytes 2 to 5, length in bytes 7 and 8 (R74). -/
theorem test_decode_cdb10 : ∀ p ∈ ([
    ([0x25, 0x06, 0, 0, 0, 0, 0, 0, 0, 0, 0, 0], .cdbReadCapacity .internal 0 ⟨0, 0, 0, 0, 0⟩),
    ([0x28, 0x06, 0, 0, 0, 0, 0, 0x0A, 0, 0, 2, 0], .cdbRead10 .internal 0 ⟨0, 10, 0, 2, 0⟩),
    ([0x2A, 0x86, 6, 1, 0x12, 0x34, 0x56, 0x78, 2, 0x9A, 0xBC, 3],
      .cdbWrite10 .external 6 ⟨1, 0x12345678, 2, 0x9ABC, 3⟩),
    ([0x2F, 0x06, 0, 2, 0, 0, 0, 1, 0, 0, 1, 0], .cdbVerify10 .internal 0 ⟨2, 1, 0, 1, 0⟩),
    ([0xA8, 0x06, 0, 1, 2, 3, 4, 5, 6, 7, 8, 9, 10, 11], .cdbOther .internal 0 0xA8 [1, 2, 3, 4, 5, 6, 7, 8, 9, 10, 11])] :
    List (List Byte × Instr)), decode p.1 = .ok p.2 := by decide

/-- What is no event is rejected by name. -/
theorem test_decode_rejected :
    decode [] = .error .empty ∧ decode [0x00, 0x7F] = .error .unknownKind ∧ decode [0x07, 0x09] = .error .reserved ∧
    decode [0x00, 0x91] = .error .reserved ∧ decode [0x00, 0x0C, 0x00] = .error .badLength ∧
    decode [0x00, 0x0F, 0, 0, 0, 2, 0x77] = .error .badLength := by decide

/-- A word of the opcode table: the byte the table numbers, no operands (log 2). -/
theorem test_decodeTableWord :
    decodeTableWord 8 0x0B = some (.cdbSeek6 .internal 0 ⟨0, 0, 0, 0⟩) ∧
    decodeTableWord 8 0x0C = some (.rSsts .internal false) ∧
    decodeTableWord 8 0xE0 = some (.scmdSetAckreq .internal 0) ∧
    decodeTableWord 8 0x2F = some (.cdbVerify10 .internal 0 ⟨0, 0, 0, 0, 0⟩) := by decide

/-! ### Single steps, with the configuration and the results of 95_test_vectors.md -/

/-- The example configuration: every delay 0, the internal instance even, 4-byte sectors. -/
def exampleParams : Params :=
  { (default : Params) with
    selTimeout := Params.selTimeoutDefault
    geometryBand := fun n => ⟨n / 32, 2, 4, 4, n / 4⟩ }

/-- The surroundings of an operation under the example configuration. -/
def exampleEnv (i : InstId) : Env := { p := exampleParams, id := i }

/-- The instance just reset with a Controller changed. -/
def resetWith (f : Controller → Controller) : Instance := (Instance.reset 0).modCtrl f

/-- A 64-byte image of 16 sectors of 4 bytes, with one byte that is not 0. -/
def store64 : Store := ⟨64, [(41, 0xAA)]⟩

/-- A Target at slot 3 with that image. -/
def disk : Target :=
  { createTarget exampleParams 3 0 true none with image := some store64, geom := ⟨2, 2, 4, 4, 16⟩ }

/-- The instance just reset with the Target at slot 3. -/
def diskInstance : Instance := (Instance.reset 0).withTarget 3 disk

/-- The machine just reset with such an internal instance. -/
def withInternal (x : Instance) : State := State.reset.put .internal x

/-- What a next state holds; none for a fault or a refusal. -/
def after {α : Type} (o : Host.Outcome State Fault Refusal) (f : Instance → α) : Option α :=
  match o with
  | .next t => some (f t.internal)
  | _ => none

/-- B1, B2, B4: a call of `set_control` through the queue and the decoder. -/
theorem test_step_setControl :
    after (step ((withInternal diskInstance).withFetchWord 48 0x000800080A02)) (fun x => x.bus.sig[2]) = some 0x008 ∧
    after (step ((withInternal diskInstance).withFetchWord 48 0x000800080A02)) (fun x => x.bus.ctl) = some 0x008 := by
  decide

/-- B6. -/
theorem test_step_setData :
    after (exec (.busSetData .internal 7 0x81) (withInternal diskInstance)) (fun x => x.bus.data) = some 0x81 := by decide

/-- B8. -/
theorem test_isBusFree :
    let bus (c : Ctl) : Bus := { Bus.reset with ctl := c }
    (bus 0x020).isFree = true ∧ (bus 0x010).isFree = false ∧ (bus 0x008).isFree = false ∧
    (bus 0x1E7).isFree = true := by decide

/-- G1, G3, G4. -/
theorem test_read_bdid :
    (readPlain false (fun x => idBit x.ctrl.bdid.toNat) (exampleEnv .internal) (Instance.reset 0)).ret = .byte 0x80 ∧
    (readPlain true (fun x => idBit x.ctrl.bdid.toNat) (exampleEnv .internal) (Instance.reset 0)).ret = .byte 0xFF ∧
    (readPlain true (fun x => idBit x.ctrl.bdid.toNat) (exampleEnv .external) (Instance.reset 0)).ret = .byte 0x80 := by
  decide

/-- G2. -/
theorem test_read_ssts : (readPlain false ssts (exampleEnv .internal) (Instance.reset 0)).ret = .byte 0x05 := by decide

/-- G10: the views of the counter 0x123456. -/
theorem test_read_counter :
    mbc (resetWith fun c => { c with tc := 0x123456 }) = 0x06 ∧
    ssts (resetWith fun c => { c with tc := 0x123456 }) = 0x01 := by decide

/-- The example of R120: the diagnostic signals in PSNS. -/
theorem test_read_psns : psns (resetWith fun c => { c with sctl := 0x20, sdgc := 0x88 }) = 0x88 := by decide

/-- Q1 and S6: after eight pushes the ninth byte is lost and latched. -/
theorem test_write_dreg_overrun :
    let c := writeDreg 8 { Controller.reset with fifo := ⟨#v[1, 2, 3, 4, 5, 6, 7, 0], 0, 7, 7⟩ }
    let d := writeDreg 9 c
    c.fifo.count = 8 ∧ c.serr = 0 ∧ d.fifo = c.fifo ∧ d.serr = 0x20 ∧ d.dreg = 9 ∧ d.fifo.front = 1 := by decide

/-- The example of R182: priority at `bdid = 5`, and no loss at 7. -/
theorem test_arbitration :
    let at5 (d : Byte) := { resetWith fun c => { c with bdid := 5, state := .arbWait } with
                            bus := Bus.reset.writeData 0 d }
    (engineStep (exampleEnv .internal) id (at5 0x40)).2.ctrl.state = .idle ∧
    (engineStep (exampleEnv .internal) id (at5 0x10)).2.ctrl.state = .arbAssertSel ∧
    (engineStep (exampleEnv .internal) id
      { resetWith fun c => { c with state := .arbWait } with bus := Bus.reset.writeData 0 0xFF }).2.ctrl.state =
      .arbAssertSel := by decide

/-- The example of R257: the sense of an out-of-range read, then No Sense. -/
theorem test_request_sense :
    senseBytes { disk with senseKey := 5, senseAsc := 0x21, senseLba := 0x1000, senseLbaValid := true } =
      [0xF0, 0x00, 0x05, 0x00, 0x00, 0x10, 0x00, 0x0A, 0, 0, 0, 0, 0x21, 0, 0, 0, 0, 0] ∧
    senseBytes disk = [0x70, 0x00, 0x00, 0x00, 0x00, 0x00, 0x00, 0x0A, 0, 0, 0, 0, 0, 0, 0, 0, 0, 0] := by decide

/-- The example of R259: `08 00 00 0A 02 00` reads sectors 10 and 11, bytes 40 to 47. -/
theorem test_read6 :
    let y := runCdb 3 [0x08, 0x00, 0x00, 0x0A, 0x02, 0x00] read6 (exampleEnv .internal) diskInstance
    (y.target? 3).map (fun t => (t.total, t.status, t.buf.lookup 1, t.buf.lookup 7)) = some (8, 0, some 0xAA, some 0) ∧
    y.calls = [.storeRead 3 40 4 true, .storeRead 3 44 4 true] := by decide

/-- T5 to T8: a range that ends one sector too late is refused without a call. -/
theorem test_out_of_range :
    let y := runCdb 3 [0x28, 0, 0, 0, 0, 15, 0, 0, 2, 0] read10 (exampleEnv .internal) diskInstance
    (y.target? 3).map (fun t => (t.senseKey, t.senseAsc, t.senseLba, t.status)) = some (5, 0x21, 15, 2) ∧
    y.calls = [] := by decide

/-- A tick on a bus in use restarts the bus-free timer (R210). -/
theorem test_tick :
    after (exec (.tick .internal 5) (withInternal { resetWith fun c => { c with bfTimer := 3 } with
      bus := Bus.reset.writeControl 0 sigBSY sigBSY })) (fun x => x.ctrl.bfTimer) = some 0 := by decide

/-- A command byte with bit 4 drives RST, which is latched (R116, R207). -/
theorem test_rst_out :
    after (exec (.scmdTransferPause .internal 0x10) State.reset) (fun x => (x.bus.ctl, x.ctrl.ints)) =
      some (sigRST, intRC) := by decide

/-- Vector F22: RST in the middle of a send, with a Target in DATA-OUT: "ints gains 0x01 only (no SR, no CC); state = IDLE,
FIFO cleared, connected = false; Target releases the bus". -/
theorem test_rst_in_transfer :
    let x := { resetWith fun c => { c with state := .xferSendData, connected := true, tc := 4, fifo := c.fifo.push 0x11 } with
               bus := ((Bus.reset.replace 3 (some (.target { disk with tstate := .dataOut, hs := .reqUp }))).writeControl 3
                 (sigBSY ||| sigREQ) sigALL) }
    let y := setControl (notify (exampleEnv .internal)) 0 sigRST sigRST x
    y.ctrl.ints = 0x01 ∧ y.ctrl.state = .idle ∧ y.ctrl.fifo.count = 0 ∧ y.ctrl.connected = false ∧ y.ctrl.tc = 4 ∧
    y.bus.sig[3] = 0 ∧ y.bus.ctl = sigRST := by decide

/-- Vector F23: the detach of the connected Target, which holds BSY, records the disconnect inside its notification. -/
theorem test_detach_disconnects :
    let x (pctl : Byte) := { resetWith fun c => { c with connected := true, pctl := pctl,
                                                         bfTimer := exampleParams.busFreeCycles } with
               bus := (Bus.reset.replace 3 (some (.target disk))).writeControl 3 sigBSY sigALL }
    let y (pctl : Byte) := detach (notifyEvent (exampleEnv .internal)) 3 (x pctl)
    (y 0x80).ctrl.connected = false ∧ (y 0x80).ctrl.ints = 0x20 ∧ (y 0).ctrl.connected = false ∧ (y 0).ctrl.ints = 0 := by
  decide

/-- R115: "raises no interrupt and leaves ints, tc, temp": a waiting TRANSFER in diagnostic mode, with ACK on the bus from
before, is aborted and does not go on while ACK falls (log 23). -/
theorem test_abort_goes_nowhere :
    let x := { resetWith fun c => { c with sctl := 0x20, sdgc := 0x08, tc := 1, state := .xferWaitReq } with
               bus := Bus.reset.writeControl 7 sigACK sigACK }
    let y := writeSctl 0x80 (exampleEnv .internal) x
    y.ctrl.ints = 0 ∧ y.ctrl.tc = 1 ∧ y.ctrl.state = .idle ∧ y.bus.sig[7] = 0 ∧ y.bus.ctl = 0 := by decide

/-- R296, D33: "intermediate glitches inside an event are not delivered": the write of SCTL that sets bit 0 and aborts
passes through a state with a latched overrun, which the abort clears; at its end there is no edge. -/
theorem test_no_glitch :
    let x := { resetWith fun c => { c with serr := 0x20, state := .selWaitBsy } with
               bus := Bus.reset.writeControl 7 sigSEL sigSEL }
    let y := updateLines (writeSctl 0x81 (exampleEnv .internal) x)
    y.ctrl.sctl = 0x81 ∧ y.ctrl.serr = 0 ∧ y.bus.ctl = 0 ∧ y.ctrl.irqLine = false ∧ y.calls = [] := by decide

/-- R223, I19: with two target bits both Targets claim, and their contributions are ORed; one that is not addressed keeps
silent (log 24). -/
theorem test_two_targets_claim :
    let t (k : Fin 7) := createTarget exampleParams k 0 true none
    let x := (((Instance.reset 0).withTarget 0 (t 0)).withTarget 2 (t 2)).withTarget 3 (t 3)
    let b := ((x.bus.writeControl 7 sigSEL sigSEL).writeData 7 0x85).claims 0
    b.sig[0] = sigBSY ∧ b.sig[2] = sigBSY ∧ b.sig[3] = 0 ∧ b.ctl = (sigSEL ||| sigBSY) := by decide

/-- R223, R232: a Target in the middle of a step of its own is not claimed by another's step, which then leaves it driving
nothing; its own step claims (log 24). -/
theorem test_stepping_target_is_not_claimed :
    let t (k : Fin 7) := createTarget exampleParams k 0 true none
    let x := ((Instance.reset 0).withTarget 0 { t 0 with tbusy := true }).withTarget 2 (t 2)
    let b := (x.bus.writeControl 7 sigSEL sigSEL).writeData 7 0x85
    (b.claims 2).sig[0] = 0 ∧ (b.claims 2).sig[2] = sigBSY ∧ (b.claims 0).sig[0] = sigBSY := by decide

/-- R323: the bytes of a closed image persist through a reset, and can be opened again. -/
theorem test_image_bytes_persist :
    let x := (keepImage 3 diskInstance).modTarget 3 closeImage
    let y := (rebuild x).withTarget 5 (createTarget exampleParams 5 0 false none)
    let z := openAt exampleParams 5 (.kept 0) y
    x.kept = [store64] ∧ (z.target? 5).bind Target.image = some store64 ∧ z.kept = [] := by decide

/-- R266: with no image the geometry that Mode Sense sends is all zero, the record's own one notwithstanding (log 25). -/
theorem test_mode_sense_without_image :
    let t := modeSense6 exampleParams (loadCdb (cdb6Bytes 0x1A ⟨0, 0x0400, 36, 0⟩) (closeImage disk))
    t.buf.lookup 7 = some 0 ∧ t.buf.lookup 11 = some 0 ∧ t.buf.lookup 17 = some 0 ∧ t.total = 36 := by decide

/-! ### For every statement with hypotheses, a state and operands that meet them -/

/-- The instance just reset. -/
def x0 : Instance := Instance.reset 0

/-- An engine parked in a selection. -/
def parkedX : Instance := resetWith fun c => { c with state := .selAssertId, pending := some (.selAssertSel, 5) }

/-- A bus on which slot 0 drives a word. -/
def drivenX (w : Ctl) : Instance := { x0 with bus := Bus.reset.writeControl 0 w w }

/-- An instance with the occupants of the reset has no Target. -/
theorem noTargets_reset (x : Instance) (h : x.bus.occ = Bus.reset.occ) : x.noTargets := by
  intro j
  have : ∀ j : Fin 7, x0.target? j = none := by decide
  rw [Instance.target?_congr (y := x0) h]
  exact this j

theorem calm_x0 : x0.calm := ⟨⟨rfl, rfl, rfl, rfl, rfl⟩, noTargets_reset _ rfl⟩

theorem calm_reset (f : Controller → Controller) (h1 : (f Controller.reset).busy = false)
    (h2 : (f Controller.reset).state = .idle) (h3 : (f Controller.reset).pending = none)
    (h4 : (f Controller.reset).connected = false) : (resetWith f).calm :=
  ⟨⟨rfl, h1, h2, h3, h4⟩, noTargets_reset _ rfl⟩

theorem rests_x0 : x0.engineRests ∧ parkedX.engineRests := ⟨⟨rfl, .inl rfl⟩, ⟨rfl, .inr (by decide)⟩⟩

theorem witness_StepRunsDecodedEvent :
    overran State.reset = false ∧ State.reset.events = [] ∧
    (State.reset.withFetchWord 8 0x0C).events = [[0x0C]] ∧ decode [0x0C] = .ok (.rSsts .internal false) := by decide

theorem witness_DecodeEncodeAgree :
    (Instr.tick .external (256 ^ 8 - 1)).wellFormed = true ∧
    (Instr.cdbOther .external 6 0xFF [1, 2, 3, 4, 5]).wellFormed = true := by decide

theorem inv_diskInstance : diskInstance.Inv Config.params where
  combined := by constructor <;> decide
  bound := rfl
  controllerAt7 := by decide
  controllerOnly7 := by decide
  targets := by
    intro k t h
    have h3 : diskInstance.target? 3 = some disk := Instance.withTarget_target?_same _ _ _
    have hn : ∀ j : Fin 7, j ≠ 3 → diskInstance.target? j = none := by decide
    by_cases hk : k = 3
    · subst hk
      rw [h3] at h
      cases h
      refine ⟨rfl, rfl, fun st hs => ?_, rfl, fun st hs => ?_⟩
      · cases hs
        exact ⟨by decide, by decide⟩
      · cases hs
        exact ⟨by decide, by decide⟩
    · rw [hn k hk] at h
      cases h
  keptWf := by intro st h; cases h
  fifoRing := by unfold Fifo.ring; decide
  intsReserved := by decide
  serrReserved := by decide
  pctlReserved := by decide
  bfTimerBound := Nat.zero_le _
  notBusy := rfl
  noBudget := rfl

/-- A state with a Target on both instances and an event issued. -/
def runningState : State := { internal := diskInstance, external := diskInstance, events := [[0x00, 0x0C]] }

theorem witness_StepKeepsInvariant : runningState.Inv ∧ ∃ t, step runningState = .next t :=
  ⟨fun i => by cases i <;> exact inv_diskInstance, ⟨_, rfl⟩⟩

theorem witness_InstancesAreIndependent :
    (Instr.rDreg .internal false).inst? = some .internal ∧ runningState.get .internal = (withInternal diskInstance).get .internal ∧
    runningState ≠ withInternal diskInstance ∧ (∃ t, exec (.rDreg .internal false) runningState = .next t) ∧
    ∃ t, exec (.rDreg .internal false) (withInternal diskInstance) = .next t :=
  ⟨rfl, rfl, by decide, ⟨_, rfl⟩, ⟨_, rfl⟩⟩

theorem witness_HostRegistersFrame : ∃ t, exec (.wTemp .external true 0x81) runningState = .next t := ⟨_, rfl⟩

theorem witness_FlagsFallOnlyByHost :
    (∃ t, exec (.wInts .internal false 0x10) (withInternal (resetWith fun c => { c with ints := 0x34 })) = .next t) ∧
    Instr.wInts .internal false 0x10 ≠ .envSystemReset ∧
    (∃ t, exec (.rInts .internal false) (withInternal (resetWith fun c => { c with ints := 0x34 })) = .next t) ∧
    ∀ odd v, Instr.rInts .internal false ≠ .wInts .internal odd v :=
  ⟨⟨_, rfl⟩, by decide, ⟨_, rfl⟩, fun _ _ h => by cases h⟩

theorem witness_LinesFollowLevels :
    let o := Config.params.odd .internal
    (∃ t, exec (.rTcl .internal o) runningState = .next t) ∧ (Instr.tick .internal 0).inst? = some .internal ∧
    (Instr.busSetControl .internal 3 0 0).inst? = some .internal ∧ (∃ t, exec (.wSctl .internal o 1) runningState = .next t) ∧
    (∃ t, exec (.scmdSetAckreq .internal 0) runningState = .next t) ∧ ∃ t, exec (.tick .internal 0) runningState = .next t :=
  ⟨⟨_, rfl⟩, rfl, rfl, ⟨_, rfl⟩, ⟨_, rfl⟩, ⟨_, rfl⟩⟩

/-- PlainReadsReturn needs one of the 13 reads; PlainReadsAtRest also an engine at rest, idle or parked. -/
theorem witness_PlainReads :
    let o := Config.params.odd .internal
    (Instr.rTemp .internal o, (0x00 : Byte)) ∈ [(Instr.rScmd .internal o, x0.ctrl.scmd), (.rTemp .internal o, x0.ctrl.temp)] ∧
    x0.engineRests ∧ parkedX.engineRests :=
  ⟨by simp [x0, Instance.reset, Controller.reset], rests_x0⟩

/-- PsnsReadsSignals: both modes. -/
theorem witness_PsnsReadsSignals :
    x0.ctrl.sctl.getLsbD 5 = false ∧ (resetWith fun c => { c with sctl := 0x20 }).ctrl.sctl.getLsbD 5 = true := by decide

/-- DregReadPops and DregWritePushes: an engine at rest. -/
theorem witness_Dreg : x0.engineRests := rests_x0.1

/-- PlainWritesStore and IntsWriteClears: an engine at rest; a write that clears every flag, with no overrun latched. -/
theorem witness_IntsWriteClears :
    let x := resetWith fun c => { c with ints := 0x30, sctl := 1, irqLine := true }
    x.engineRests ∧ x.ctrl.ints &&& ~~~(0x30 : Byte) = 0 ∧ x.ctrl.serr.getLsbD 5 = false :=
  ⟨⟨rfl, .inl rfl⟩, by decide, by decide⟩

/-- SctlWriteStores: bit 7 clear with a parked engine, and bit 7 set with an idle one. -/
theorem witness_SctlWriteStores :
    parkedX.engineRests ∧ (0x7F : Byte).getLsbD 7 = false ∧
    x0.engineRests ∧ (0x80 : Byte).getLsbD 7 = true ∧ x0.ctrl.state = .idle ∧ x0.ctrl.pending = none :=
  ⟨rests_x0.2, by decide, rests_x0.1, by decide, rfl, rfl⟩

/-- SctlWriteAborts: a state that is not idle, and an idle one with a transition pending; no RST, and RST seen. -/
theorem witness_SctlWriteAborts :
    let y := { parkedX with bus := Bus.reset.writeControl 0 sigRST sigRST, ctrl := { parkedX.ctrl with rstSeen := true } }
    parkedX.ctrl.busy = false ∧ (0x80 : Byte).getLsbD 7 = true ∧ parkedX.ctrl.state ≠ .idle ∧
    (resetWith fun c => { c with pending := some (.arbWait, 0) }).ctrl.pending ≠ none ∧
    parkedX.bus.combined ∧ has parkedX.bus.ctl sigRST = false ∧
    y.bus.combined ∧ has y.bus.ctl sigRST = true ∧ y.ctrl.rstSeen = true :=
  ⟨by decide, by decide, by decide, by decide, by constructor <;> decide, by decide, by constructor <;> decide, by decide,
    rfl⟩

theorem witness_NoRegisterSelected :
    let o := !Config.params.odd .external
    Instr.rTcl .external o ∈ [Instr.rBdid .external o, .rTcl .external o] ∧
    Instr.wTcl .external o 5 ∈ [Instr.wBdid .external o 5, .wTcl .external o 5] ∧
    (∃ odd, Instr.rwIndex15 .external true .read = .rwIndex15 .external odd .read) ∧
    ∃ k, Instr.rwWrongPolarity .external 15 (.write 5) = .rwWrongPolarity .external k (.write 5) :=
  ⟨by simp, by simp, ⟨_, rfl⟩, ⟨_, rfl⟩⟩

/-- RomRegion: the first offset of the region; whatever ROM_SIZE is, it is one of the two cases. -/
theorem witness_RomRegion :
    32 ≤ (32 : BitVec 32).toNat ∧
    ((32 : BitVec 32).toNat - 32 < Config.params.romSize .internal ∨
     Config.params.romSize .internal ≤ (32 : BitVec 32).toNat - 32) := ⟨by decide, by omega⟩

/-- DisabledCommandsAreStored: a calm instance, and one with a Target and a connection. -/
theorem witness_DisabledCommandsAreStored :
    let y := diskInstance.modCtrl fun c => { c with sctl := 0x80, connected := true }
    (resetWith fun c => { c with sctl := 0x80 }).calm ∧
    (resetWith fun c => { c with sctl := 0x80 }).ctrl.sctl.getLsbD 7 = true ∧ y.ctrl.sctl.getLsbD 7 = true :=
  ⟨calm_reset _ rfl rfl rfl rfl, by decide, by decide⟩

/-- A command byte without RST at an idle engine that drives no RST: it is only stored. -/
theorem rstOut_idle (code : BitVec 3) (x : Instance) (hc : x.bus.combined) (h5 : x.ctrl.sctl.getLsbD 5 = false)
    (hs : x.bus.sig[7] &&& sigRST = 0) :
    afterRstOut (envOf .internal) code 0 x = { x with ctrl := { x.ctrl with scmd := code ++ 0#5 } } :=
  afterRstOut_same _ code 0 x hc h5 hs

/-- LineCommands: a calm instance that is not disabled; and one with a Target that holds BSY and a connection. -/
theorem witness_LineCommands :
    let x := diskInstance.modCtrl fun c => { c with connected := true }
    let y := { x with bus := x.bus.writeControl 3 sigBSY sigALL }
    x0.calm ∧ x0.ctrl.sctl.getLsbD 7 = false ∧ y.bus.combined ∧ has y.bus.ctl sigRST = false ∧ y.ctrl.busy = false ∧
    y.ctrl.state = .idle ∧ y.ctrl.pending = none ∧ y.ctrl.sctl.getLsbD 5 = false ∧ y.ctrl.sctl.getLsbD 7 = false ∧
    y.bus.sig[7] &&& sigRST = (if (0 : BitVec 5).getLsbD 4 then sigRST else 0) ∧
    ∀ code, (afterRstOut (envOf .internal) code 0 y).ctrl.state = .idle ∧
      (afterRstOut (envOf .internal) code 0 y).ctrl.engineFree = true :=
  ⟨calm_x0, by decide, by constructor <;> decide, by decide, rfl, rfl, rfl, by decide, by decide, by decide,
    fun code => by rw [rstOut_idle code _ (by constructor <;> decide) (by decide) (by decide)]; exact ⟨rfl, rfl⟩⟩

/-- SetAtnWhenConnected: normal mode, with a Target that holds BSY, and RST kept by the command byte; a parked engine;
diagnostic mode. -/
theorem witness_SetAtnWhenConnected :
    let x := diskInstance.modCtrl fun c => { c with connected := true }
    let y := { x with bus := (x.bus.writeControl 3 sigBSY sigALL).writeControl 7 sigRST sigRST,
                      ctrl := { x.ctrl with rstSeen := true, pending := some (.arbWait, 1) } }
    let z := resetWith fun c => { c with connected := true, sctl := 0x20 }
    x.engineRests ∧ x.ctrl.connected = true ∧ x.ctrl.sctl.getLsbD 5 = false ∧ x.ctrl.sctl.getLsbD 7 = false ∧
    x.bus.combined ∧ has x.bus.ctl sigRST = false ∧
    x.bus.sig[7] &&& sigRST = (if (0x0F : BitVec 5).getLsbD 4 then sigRST else 0) ∧
    y.engineRests ∧ y.bus.combined ∧ y.ctrl.rstSeen = true ∧
    y.bus.sig[7] &&& sigRST = (if (0x10 : BitVec 5).getLsbD 4 then sigRST else 0) ∧
    z.engineRests ∧ z.ctrl.connected = true ∧ z.ctrl.sctl.getLsbD 5 = true ∧ z.ctrl.sctl.getLsbD 7 = false :=
  ⟨⟨rfl, .inl rfl⟩, rfl, by decide, by decide, by constructor <;> decide, by decide, by decide, ⟨rfl, .inl rfl⟩,
    by constructor <;> decide, rfl, by decide, ⟨rfl, .inl rfl⟩, rfl, by decide, by decide⟩

/-- BusReleaseCancelsSelection: a parked selection in normal mode, without RST; and in diagnostic mode. -/
theorem witness_BusReleaseCancelsSelection :
    let y := { parkedX with ctrl := { parkedX.ctrl with sctl := 0x20 } }
    parkedX.bus.combined ∧ parkedX.ctrl.busy = false ∧ parkedX.ctrl.state.famSel = true ∧
    parkedX.ctrl.sctl.getLsbD 7 = false ∧ parkedX.ctrl.sctl.getLsbD 5 = false ∧ has parkedX.bus.ctl sigRST = false ∧
    parkedX.bus.sig[7] &&& sigRST = (if (0x0F : BitVec 5).getLsbD 4 then sigRST else 0) ∧
    y.ctrl.busy = false ∧ y.ctrl.state.famSel = true ∧ y.ctrl.sctl.getLsbD 7 = false ∧ y.ctrl.sctl.getLsbD 5 = true :=
  ⟨by constructor <;> decide, by decide, by decide, by decide, by decide, by decide, by decide, by decide, by decide,
    by decide, by decide⟩

/-- SelectStarts: slot 0 holds BSY at a calm instance; and a bus that has been free for the bus-free time, with a Target on
it. -/
theorem witness_SelectStarts :
    let x := diskInstance.modCtrl fun c => { c with bfTimer := Config.params.busFreeCycles }
    let y := afterRstOut (envOf .internal) 1 0 x
    ((drivenX sigBSY).calm ∧ (drivenX sigBSY).ctrl.sctl.getLsbD 7 = false ∧
      ¬(afterScmd (1#3 ++ 0#5) (drivenX sigBSY)).bus.ctl &&& (sigBSY ||| sigSEL) = 0) ∧
    x.ctrl.sctl.getLsbD 7 = false ∧ x.ctrl.busy = false ∧ y.ctrl.engineFree = true ∧
    y.bus.ctl &&& (sigBSY ||| sigSEL) = 0 ∧ Config.params.busFreeCycles ≤ y.ctrl.bfTimer := by
  intro x y
  have hy : y = _ := rstOut_idle 1 x (by constructor <;> decide) (by decide) (by decide)
  rw [hy]
  exact ⟨⟨⟨⟨rfl, rfl, rfl, rfl, rfl⟩, noTargets_reset _ rfl⟩, by decide, by decide⟩, by decide, rfl, rfl, by decide, le_refl _⟩

/-- TransferOfNothingCompletes: a calm instance; and one with a Target and a connection. -/
theorem witness_TransferOfNothingCompletes :
    let x := diskInstance.modCtrl fun c => { c with connected := true }
    let c := (afterRstOut (envOf .internal) 4 0 x).ctrl
    x0.calm ∧ x.ctrl.sctl.getLsbD 7 = false ∧ x.ctrl.busy = false ∧ c.engineFree = true ∧ c.tc = 0 ∧
    (0 : BitVec 5).getLsbD 0 = false ∧ c.fifo.count = 0 := by
  intro x c
  have hc : c = _ := congrArg Instance.ctrl (rstOut_idle 4 x (by constructor <;> decide) (by decide) (by decide))
  rw [hc]
  exact ⟨calm_x0, by decide, rfl, rfl, rfl, by decide, rfl⟩

/-- A connected engine with a count of 1 and the Target at slot 3, which drives a word. -/
def targetDrives (w : Ctl) : Instance :=
  { diskInstance with bus := diskInstance.bus.writeControl 3 w sigALL
                      ctrl := { Controller.reset with connected := true, tc := 1 } }

/-- The same after a command byte that leaves RST as it is. -/
theorem rstOut_targetDrives (code : BitVec 3) (w : Ctl) : afterRstOut (envOf .internal) code 0 (targetDrives w) =
    { targetDrives w with ctrl := { (targetDrives w).ctrl with scmd := code ++ 0#5 } } :=
  rstOut_idle code _ (Bus.writeControl_combined _ _ _ _) (show Controller.reset.sctl.getLsbD 5 = false by decide) (by
    show (diskInstance.bus.writeControl 3 w sigALL).sig[7] &&& sigRST = 0
    rw [Bus.writeControl_sig, Vector.getElem_set_ne _ _ (by decide)]
    decide)

/-- TransferLatchesAndWaits: the Target holds BSY and the DATA-OUT phase, without REQ and with it; a calm instance. -/
theorem witness_TransferLatchesAndWaits :
    let y (w : Ctl) := afterRstOut (envOf .internal) 4 0 (targetDrives w)
    x0.calm ∧ ∀ w ∈ [sigBSY, sigBSY ||| sigREQ],
      (targetDrives w).ctrl.sctl.getLsbD 7 = false ∧ (targetDrives w).ctrl.busy = false ∧
      (y w).ctrl.engineFree = true ∧ (y w).ctrl.tc ≠ 0 ∧ has (sense (y w)) sigBSY = true ∧
      phaseOf (sense (y w)) = (y w).ctrl.pctl.extractLsb' 0 3 ∧
      has (sense (y w)) sigREQ = (w == (sigBSY ||| sigREQ)) := by
  simp only [rstOut_targetDrives]
  exact ⟨calm_x0, by decide⟩

/-- TransferAborts: the Target holds another phase, or no BSY; a calm instance. -/
theorem witness_TransferAborts :
    let y (w : Ctl) := afterRstOut (envOf .internal) 4 0 (targetDrives w)
    x0.calm ∧ ∀ w ∈ [sigBSY ||| sigCD, 0],
      (targetDrives w).ctrl.sctl.getLsbD 7 = false ∧ (targetDrives w).ctrl.busy = false ∧
      (y w).ctrl.engineFree = true ∧ (y w).ctrl.tc ≠ 0 ∧ (y w).bus.sig[7] &&& sigACK = 0 ∧
      has (sense (y w)) sigBSY = (w != 0) ∧ (w ≠ 0 → phaseOf (sense (y w)) ≠ (y w).ctrl.pctl.extractLsb' 0 3) := by
  simp only [rstOut_targetDrives]
  exact ⟨calm_x0, by decide⟩

/-- A Target on slot 3 that holds BSY, and a Controller connected to it whose bus-free time is over. -/
def connectedX (st : EngineState) : Instance :=
  { diskInstance with
    bus := diskInstance.bus.writeControl 3 sigBSY sigALL
    ctrl := { Controller.reset with connected := true, state := st, bfTimer := Config.params.busFreeCycles } }

/-- ScmdWriteIsItsCommand: a byte and its command; a Controller that is disabled. -/
theorem witness_ScmdWriteIsItsCommand :
    (0x25 : Byte) = (1#3 ++ 5#5 : BitVec 8) ∧ (resetWith fun c => { c with sctl := 0x80 }).ctrl.sctl.getLsbD 7 = true := by
  decide

/-- BusyEngineIgnoresCommands: a parked engine, whose RST stays; a transfer that waits for REQ; and one with a Target in
the middle of a byte, with RST not asserted (vector F22). -/
theorem witness_BusyEngineIgnoresCommands :
    (parkedX.bus.combined ∧ parkedX.ctrl.busy = false ∧ parkedX.ctrl.pending ≠ none ∧
      parkedX.ctrl.sctl.getLsbD 5 = false ∧ parkedX.ctrl.sctl.getLsbD 7 = false ∧
      parkedX.bus.sig[7] &&& sigRST = (if (0 : BitVec 5).getLsbD 4 then sigRST else 0)) ∧
    (let x := resetWith fun c => { c with state := .xferWaitReq }
     let driven (code : BitVec 3) := drive (notify (envOf .internal)) 0 sigRST { x with ctrl := { x.ctrl with scmd := code ++ 0#5 } }
     x.ctrl.sctl.getLsbD 7 = false ∧ (driven 1).ctrl.engineFree = false ∧ (driven 0).ctrl.state.famXfer = true) ∧
    (let x := connectedX .xferSendData
     x.bus.cb = .controller ∧ x.ctrl.sctl.getLsbD 7 = false ∧ x.ctrl.sctl.getLsbD 5 = false ∧
      (0x10 : BitVec 5).getLsbD 4 = true ∧ has x.bus.ctl sigRST = false ∧ x.ctrl.rstSeen = false ∧ x.ctrl.busy = false ∧
      x.ctrl.rstStops = true) :=
  ⟨⟨by constructor <;> decide, by decide, by decide, by decide, by decide, by decide⟩, ⟨by decide, by decide, by decide⟩,
    rfl, by decide, by decide, by decide, by decide, rfl, rfl, rfl⟩

/-- BusSetDataNeverNotifies and BusReadsCombined: combined words. -/
theorem witness_combined : (drivenX sigBSY).bus.combined := by constructor <;> decide

/-- BusSetControlMerges: a bit another slot holds too; RST raised at slot 0 in the middle of a transfer (vector F22); the BSY
of the connected Target dropped at an idle engine; and a calm instance. -/
theorem witness_BusSetControlMerges :
    let x := connectedX .xferSendData
    let y := connectedX .idle
    orCtl ((drivenX sigBSY).bus.sig.set 2 sigBSY) = (drivenX sigBSY).bus.ctl ∧
    (orCtl (x.bus.sig.set 0 sigRST) ≠ x.bus.ctl ∧ x.bus.cb = .controller ∧ x.ctrl.rstSeen = false ∧
      has (orCtl (x.bus.sig.set 0 sigRST)) sigRST = true ∧ x.ctrl.rstStops = true) ∧
    (orCtl (y.bus.sig.set 3 0) ≠ y.bus.ctl ∧ y.bus.cb = .controller ∧ has (orCtl (y.bus.sig.set 3 0)) sigRST = false ∧
      y.ctrl.state = .idle ∧ y.ctrl.pending = none ∧ y.ctrl.connected = true) ∧
    (drivenX sigBSY).calm :=
  ⟨by decide, ⟨by decide, rfl, rfl, by decide, rfl⟩, ⟨by decide, rfl, by decide, rfl, rfl, rfl⟩,
    ⟨⟨rfl, rfl, rfl, rfl, rfl⟩, noTargets_reset _ rfl⟩⟩

/-- AttachCreatesTarget and DetachFreesSlot: a slot that drives nothing, and one that drives REQ at a calm Controller;
the slot's own Target stands there. And the detach of the connected Target, whose disconnect is due (vector F23). -/
theorem witness_AttachAndDetach :
    let y := { diskInstance with bus := diskInstance.bus.writeControl 3 sigREQ sigREQ }
    let z := connectedX .idle
    orCtl (diskInstance.bus.sig.set 3 0) = diskInstance.bus.ctl ∧
    (orCtl (y.bus.sig.set 3 0) ≠ y.bus.ctl ∧ y.ctrlCalm ∧ y.noTargetsBut 3 ∧ y.target? 3 = some disk ∧
      has (orCtl (y.bus.sig.set 3 0)) (sigSEL ||| sigRST) = false) ∧
    orCtl (z.bus.sig.set 3 0) ≠ z.bus.ctl ∧ z.bus.cb = .controller ∧ z.ctrl.state = .idle ∧ z.ctrl.pending = none ∧
    z.ctrl.busy = false ∧ has (orCtl (z.bus.sig.set 3 0)) sigRST = false ∧ z.noTargetsBut 3 ∧ z.ctrl.connected = true ∧
    orCtl (z.bus.sig.set 3 0) &&& (sigBSY ||| sigSEL) = 0 ∧ Config.params.busFreeCycles ≤ z.ctrl.bfTimer :=
  ⟨by decide, ⟨by decide, ⟨rfl, rfl, rfl, rfl, rfl⟩, by unfold Instance.noTargetsBut; decide, by decide, by decide⟩,
    by decide, rfl, rfl, rfl, rfl, by decide, by unfold Instance.noTargetsBut; decide, rfl, by decide, le_refl _⟩

/-- What holds of every Target, slot by slot. -/
theorem of_targets {x : Instance} {p : Fin 7 → Target → Bool} (h : ∀ j, (x.target? j).all (p j) = true) :
    ∀ j u, x.target? j = some u → p j u = true := by
  intro j u hu
  have := h j
  rw [hu] at this
  exact this

/-- The connected Target of `connectedX` beside an idle one on slot 5. -/
def twoTargets (st : EngineState) : Instance := (connectedX st).withTarget 5 (createTarget exampleParams 5 0 true none)

/-- AttachCreatesTarget, DetachFreesSlot and BusSetControlMerges with another Target, at a connected Controller: slot 3 loses
its BSY and the word changes, with nobody driving SEL or RST; every Target drives its own slot, none drives slot 0 or 6; and
in the middle of a transfer. -/
theorem witness_OtherTargets (st : EngineState) :
    let x := twoTargets .idle
    let y := twoTargets st
    (orCtl (y.bus.sig.set 3 0) ≠ y.bus.ctl ∧ y.bus.cb = .controller ∧ y.ctrl.state = st) ∧
    has (orCtl (x.bus.sig.set 3 0)) sigSEL = false ∧ has (orCtl (x.bus.sig.set 3 0)) sigRST = false ∧
    x.ctrl.state = .idle ∧ x.ctrl.connected = true ∧ ¬x.noTargetsBut 3 ∧
    (∀ j u, j ≠ 3 → x.target? j = some u → u.id = j ∧ u.id ≠ 3) ∧ x.undriven 0 ∧ x.undriven 6 := by
  refine ⟨⟨?_, rfl, rfl⟩, by decide, by decide, rfl, rfl, fun h => absurd (h 5 (by decide)) (by decide), ?_, ?_, ?_⟩
  · have h : orCtl ((twoTargets .idle).bus.sig.set 3 0) ≠ (twoTargets .idle).bus.ctl := by decide
    exact h
  · intro j u hj hu
    have h := of_targets (p := fun j u => decide (j ≠ 3 → u.id = j ∧ u.id ≠ 3)) (by decide) j u hu
    exact of_decide_eq_true h hj
  · exact fun j u hu => of_decide_eq_true (of_targets (p := fun _ u => decide (u.id ≠ 0)) (by decide) j u hu)
  · exact fun j u hu => of_decide_eq_true (of_targets (p := fun _ u => decide (u.id ≠ 6)) (by decide) j u hu)

/-- ImageOpenAndClose: an empty slot and one with a Target; an image kept, and none. -/
theorem witness_ImageOpenAndClose :
    let x := keepImage 3 diskInstance
    x.target? 0 = none ∧ x.target? 3 = some disk ∧ x.kept[0]? = some store64 ∧ x.kept[1]? = none := by decide

theorem witness_TickAdvancesBusFreeTimer :
    x0.ctrl.busy = false ∧ x0.ctrl.state = .idle ∧ x0.ctrl.pending = none ∧ x0.ctrl.connected = false ∧
    x0.ctrl.selTimer = none := by decide

/-- TickRunsEngine: one cycle short of the transition and of the limit; in SEL_WAIT_BSY, or on the way into it, one cycle
short of the limit, without BSY, and with BSY and REQ; transitions into SEL_ASSERT_ID and SEL_ASSERT_SEL that are due. -/
theorem witness_TickRunsEngine :
    let x := { parkedX with ctrl := { parkedX.ctrl with selTimer := some (0, 5) } }
    let y (w : Ctl) := { drivenX w with ctrl := { Controller.reset with state := .selWaitBsy, selTimer := some (540, 542) } }
    let into (u : EngineState) := diskInstance.modCtrl fun c => { c with state := .selWaitFree, pending := some (u, 5) }
    x.ctrl.busy = false ∧ x.ctrl.pending = some (.selAssertSel, 5) ∧ 4 < 5 ∧
    (∀ el l, x.ctrl.selTimer = some (el, l) → el + 4 < l) ∧
    (y 0).ctrl.busy = false ∧ (y 0).ctrl.state = .selWaitBsy ∧ (y 0).ctrl.pending = none ∧
    (∀ el l, (y 0).ctrl.selTimer = some (el, l) → el + 1 < l) ∧ has (sense (y 0)) sigBSY = false ∧
    has (sense (y (sigBSY ||| sigREQ))) (sigREQ ||| sigMSG ||| sigCD ||| sigIO) = true ∧
    ∀ u, (into u).ctrl.busy = false ∧ (into u).ctrl.pending = some (u, 5) ∧ 5 ≤ 5 ∧ (into u).ctrl.selTimer = none ∧
      (into u).bus.combined ∧ has (into u).bus.ctl sigRST = false ∧ has (sense (into u)) sigBSY = false :=
  ⟨rfl, rfl, by decide, fun el l h => by cases h; decide, rfl, rfl, rfl, fun el l h => by cases h; decide, by decide,
    by decide, fun _ => ⟨rfl, rfl, le_refl _, rfl, (show diskInstance.bus.combined by constructor <;> decide),
      (show has diskInstance.bus.ctl sigRST = false by decide), (show has (sense diskInstance) sigBSY = false by decide)⟩⟩

/-- TickDetectsDisconnect: a tick of the whole bus-free time. -/
theorem witness_TickDetectsDisconnect :
    let x := resetWith fun c => { c with connected := true }
    x.ctrl.busy = false ∧ x.ctrl.state = .idle ∧ x.ctrl.pending = none ∧ x.ctrl.connected = true ∧
    x.ctrl.selTimer = none ∧ x.bus.ctl &&& (sigBSY ||| sigSEL) = 0 ∧
    Config.params.busFreeCycles ≤ x.ctrl.bfTimer + Config.params.busFreeCycles :=
  ⟨rfl, rfl, rfl, rfl, rfl, by decide, Nat.le_add_left _ _⟩

/-- TickTimesSelectionOut: the Controller holds SEL, the timer is one cycle short of its limit; with a Target on the bus
and a connection, in SEL_WAIT_BSY and parked; and with no Target. -/
theorem witness_TickTimesSelectionOut :
    let b (b : Bus) := (b.writeControl 7 sigSEL sigSEL).writeData 7 0x81
    let x := { diskInstance with bus := b diskInstance.bus, ctrl := { Controller.reset with
                                   state := .selWaitBsy, selTimer := some (541, 542), connected := true } }
    let y := x.modCtrl fun c => { c with state := .selAssertSel, pending := some (.selWaitBsy, 2) }
    let z := { x with bus := b Bus.reset }
    (x.bus.combined ∧ has x.bus.ctl sigRST = false ∧ x.ctrl.busy = false ∧ x.ctrl.selTimer = some (541, 542) ∧
      542 ≤ 541 + 1 ∧ x.ctrl.state = .selWaitBsy ∧ x.ctrl.pending = none ∧ has (sense x) sigBSY = false) ∧
    (y.ctrl.selTimer = some (541, 542) ∧ y.ctrl.pending = some (.selWaitBsy, 2) ∧ 1 < 2) ∧
    z.bus.combined ∧ has z.bus.ctl sigRST = false ∧ has (sense z) sigBSY = false ∧ z.bus.cb = .controller ∧ z.noTargets :=
  ⟨⟨by constructor <;> decide, by decide, rfl, rfl, by decide, rfl, rfl, by decide⟩, ⟨rfl, rfl, by decide⟩,
    by constructor <;> decide, by decide, by decide, rfl, noTargets_reset _ rfl⟩

/-- MediumTests, NoOpCommandsSucceed, RequestSenseConsumes, InquiryAndModeSelect, ModeSenseBuildsPages, RangeCommands,
ReadCapacityReportsGeometry and OpcodesDispatch: a Target at the slot, with an image and without. -/
theorem witness_TargetCommands :
    (beginEvent diskInstance).target? 3 = some disk ∧ disk.image ≠ none ∧
    (beginEvent (diskInstance.withTarget 3 (closeImage disk))).target? 3 = some (closeImage disk) ∧
    (closeImage disk).image = none ∧ (Instr.cdbOther .internal 3 0x02 [0, 0, 0, 0, 0]).wellFormed = true ∧
    (Instr.cdbOther .external 3 0xBF (List.replicate 11 0xFF)).wellFormed = true ∧
    ({ disk with cmd := disk.cmd.set 0 0x28 } : Target).cmd[0] = 0x28 := by decide

/-- ReadWriteChecks: no medium; one sector too many; a buffer one sector too small for 16 sectors of 4112 bytes. -/
theorem witness_ReadWriteChecks :
    (closeImage disk).image = none ∧ disk.geom.totalSectors < 16 + 1 ∧
    65536 < 16 * ({ disk with geom := { disk.geom with bps := 4112 } } : Target).geom.bps := by decide

/-- ReadStagesSectors and WriteAsksForData: the last sector of the image, and all sixteen. -/
theorem witness_ReadStagesSectors :
    disk.image = some store64 ∧ 0 < disk.geom.bps ∧ disk.geom.totalSectors * disk.geom.bps ≤ store64.size ∧
    15 + 1 ≤ disk.geom.totalSectors ∧ 0 + 16 ≤ disk.geom.totalSectors ∧ 16 * disk.geom.bps ≤ 65536 := by decide

/-- FlushWritesOneSector: the last sector of a write just completed. -/
theorem witness_FlushWritesOneSector :
    let t := { disk with lba := 15, cur := 4 }
    (diskInstance.withTarget 3 t).target? 3 = some t ∧ t.image = some store64 ∧ store64.ok ∧
    (t.lba.toNat + (t.cur / t.geom.bps - 1)) * t.geom.bps + t.geom.bps ≤ store64.size :=
  ⟨Instance.withTarget_target?_same _ _ _, rfl, ⟨by decide, by decide⟩, by decide⟩

/-- Staging one sector calls the store once. -/
theorem stage_calls (e : Env) (z : Instance) (st : Store) (h : (z.target? 3).bind Target.image = some st) :
    ∃ ok, .storeRead 3 40 4 ok ∈ (stageSectors e 3 10 4 1 1 z).calls := by
  refine ⟨!drawFails e z && decide ((10 + (1 - (0 + 1))) * 4 + 4 ≤ st.size), ?_⟩
  simp only [stageSectors, storeRead, h]
  cases hok : (!drawFails e z && decide ((10 + (1 - (0 + 1))) * 4 + 4 ≤ st.size)) <;>
    simp [nextDraw, Instance.logCall]

/-- StoreCallsStayInside: a read of one sector calls the store, whatever the environment answers. -/
theorem witness_StoreCallsStayInside :
    (Instr.cdbRead6 .internal 3 ⟨0, 10, 1, 0⟩).inst? = some .internal ∧
    ∃ t ok, exec (.cdbRead6 .internal 3 ⟨0, 10, 1, 0⟩) (withInternal diskInstance) = .next t ∧
      .storeRead 3 40 4 ok ∈ t.internal.calls := by
  refine ⟨rfl, ?_⟩
  obtain ⟨ok, h⟩ := stage_calls (envOf .internal)
    (((beginEvent diskInstance).modTarget 3 (loadCdb (cdb6Bytes 8 ⟨0, 10, 1, 0⟩))).modTarget 3
      fun t => { t with lba := 10, blocks := 1 }) store64 rfl
  exact ⟨_, ok, rfl, h⟩

theorem witness_BigEndianFields : 0xFFFFFF < 256 ^ 3 := by decide

/-- A running engine in a state, on a bus, with a Controller changed. -/
def runX (st : EngineState) (b : Bus) (f : Controller → Controller) : Instance :=
  { resetWith fun c => { f c with state := st, busy := true } with bus := b }

/-- The bus after reset with words of slot 0 and of slot 7. -/
def busWith (w own : Ctl) : Bus := (Bus.reset.writeControl 0 w sigALL).writeControl 7 own sigALL

/-- EngineSteps: in every state a running engine that is still, with nothing pending. -/
theorem witness_EngineSteps (st : EngineState) :
    (runX st (busWith sigBSY sigSEL) id).still ∧ (runX st (busWith sigBSY sigSEL) id).ctrl.busy = true ∧
    (runX st (busWith sigBSY sigSEL) id).ctrl.pending = none ∧ (runX st (busWith sigBSY sigSEL) id).ctrl.state = st :=
  have hc : (busWith sigBSY sigSEL).combined := by constructor <;> decide
  have hr : has (busWith sigBSY sigSEL).ctl sigRST = false := by decide
  ⟨⟨hc, fun h => absurd (hr.symm.trans h) (by decide), .inl rfl⟩, rfl, rfl, rfl⟩

/-- One round of the engine's loop, as EngineSteps writes it. -/
def engineRoundOf (e : Env) (n : Instance → Instance) (z : Instance) : Bool × Instance :=
  if z.ctrl.pending = none then (decide ((engineStep e n z).1 = .progress), (engineStep e n z).2) else (false, z)

/-- EngineSteps: a run that makes no round, parked; and one of two rounds, in which arbitration is lost, the release of BSY is
notified to the engine at work, and it looks once more. -/
theorem witness_EngineSteps_run :
    let noted (z : Instance) : Bool := z.ctrl.renotify
    let forgotten (z : Instance) : Instance := { z with ctrl := { z.ctrl with renotify := false } }
    let n (z : Instance) : Instance := { z with ctrl := { z.ctrl with renotify := true } }
    let begun (x : Instance) : Instance := { x with ctrl := { x.ctrl with busy := true, renotify := false } }
    let x := { resetWith fun c => { c with state := .arbWait, bdid := 5 } with
               bus := (Bus.reset.writeData 0 0x40).writeControl 7 sigBSY sigALL }
    (parkedX.ctrl.busy = false ∧
      RepeatsTo (engineRoundOf (exampleEnv .internal) n) noted forgotten 0 (begun parkedX) (begun parkedX)) ∧
    x.ctrl.busy = false ∧
    ∃ y, RepeatsTo (engineRoundOf (exampleEnv .internal) n) noted forgotten 2 (begun x) y ∧ y.ctrl.state = .idle :=
  ⟨⟨rfl, rfl, rfl⟩, rfl, _, ⟨_, ⟨_, ⟨rfl, rfl⟩, .inr ⟨_, rfl, rfl, rfl⟩⟩, .inl rfl⟩, rfl⟩

/-- TargetSteps: a handler at rest, one at work; and a run of three rounds: after STATUS the turn to MESSAGE-IN, the byte
presented, whose change of the bus is notified to the Target at work, and one look more. -/
theorem witness_TargetSteps_run :
    let e := exampleEnv .internal
    let noted (z : Instance) : Bool := (z.target? 3).any Target.trenotify
    let forgotten (z : Instance) : Instance := z.modTarget 3 fun v => { v with trenotify := false }
    let n (z : Instance) : Instance := z.modTarget 3 fun v => { v with trenotify := true }
    let begun (t : Target) : Instance := diskInstance.withTarget 3 { t with tbusy := true, trenotify := false }
    let t : Target := { disk with tstate := .status, hs := .reqDown }
    disk.tbusy = false ∧ RepeatsTo (targetStep e n 3) noted forgotten 0 (begun disk) (begun disk) ∧
    ({ disk with tbusy := true } : Target).tbusy = true ∧
    ∃ y, RepeatsTo (targetStep e n 3) noted forgotten 3 (begun t) y ∧
      (y.target? 3).map (fun u => (u.tstate, u.hs)) = some (.message, .reqUp) :=
  ⟨rfl, ⟨rfl, rfl⟩, rfl, _, ⟨_, ⟨_, ⟨_, ⟨rfl, rfl⟩, .inr ⟨_, rfl, rfl, rfl⟩⟩, .inl rfl⟩, .inl rfl⟩, rfl⟩

/-- EngineSteps: both cases of what ARB_WAIT_FREE and SEL_WAIT_FREE wait for; arbitration lost to the nearest higher bit,
and won; SEL_WAIT_BSY answered, and not; SEL_SUCCESS with SEL alone, ATN left out, and with ACK. -/
theorem witness_EngineSteps_selection :
    let at5 (d : Byte) := runX .arbWait (Bus.reset.writeData 0 d) fun c => { c with bdid := 5 }
    (busWith 0 0).ctl &&& (sigBSY ||| sigSEL) = 0 ∧ (exampleEnv .internal).p.busFreeCycles ≤ Controller.reset.bfTimer ∧
    (busWith sigBSY 0).ctl &&& (sigBSY ||| sigSEL) ≠ 0 ∧
    (∃ k : Fin 8, (at5 0x40).ctrl.bdid.toNat < k.val ∧ (at5 0x40).bus.data.getLsbD k = true) ∧
    (¬∃ k : Fin 8, (at5 0x3F).ctrl.bdid.toNat < k.val ∧ (at5 0x3F).bus.data.getLsbD k = true) ∧
    has (sense (runX .selWaitBsy (busWith sigBSY sigSEL) id)) sigBSY = true ∧
    has (sense (runX .selWaitBsy (busWith sigBSY sigSEL) id)) (sigREQ ||| sigMSG ||| sigCD ||| sigIO) = false ∧
    has (sense (runX .selWaitBsy (busWith 0 sigSEL) id)) sigBSY = false ∧
    (busWith sigBSY (sigSEL ||| sigATN)).sig[7] &&& ~~~(sigATN ||| sigRST) = sigSEL ∧
    (busWith sigBSY (sigSEL ||| sigACK)).sig[7] &&& ~~~(sigATN ||| sigRST) ≠ sigSEL := by decide

/-- EngineSteps: XFER_WAIT_REQ without BSY, in another phase, in the phase with and without REQ; counters of 0, 1 and 2;
FIFOs with 0, 1, 7 and 8 bytes; the last byte of a MESSAGE-OUT; REQ up and down. -/
theorem witness_EngineSteps_transfer :
    let s (w : Ctl) := sense (runX .xferWaitReq (busWith w 0) id)
    let f (n : Fin 9) : Fifo := { Fifo.reset with count := n }
    has (s 0) sigBSY = false ∧ has (s sigBSY) sigBSY = true ∧ (s (sigBSY ||| sigCD)).extractLsb' 0 3 ≠ 0 ∧
    (s (sigBSY ||| sigREQ)).extractLsb' 0 3 = 0 ∧ has (s (sigBSY ||| sigREQ)) sigREQ = true ∧ has (s sigBSY) sigREQ = false ∧
    (0 : Count24) = 0 ∧ (1 : Count24) ≠ 0 ∧ (1 : Count24).toNat ≤ 1 ∧ ¬(2 : Count24).toNat ≤ 1 ∧
    (f 0).count = 0 ∧ (f 1).count ≠ 0 ∧ (f 7).count ≠ 8 ∧ (f 8).count = 8 ∧
    ((6 : BitVec 3) = 6 ∧ (1 : Count24).toNat ≤ 1) ∧ ¬((5 : BitVec 3) = 6 ∧ (1 : Count24).toNat ≤ 1) := by decide

/-- TargetSteps: a Target that knows its slot; RST at work in progress and at rest; selected and ready, alone; not
selected. -/
theorem witness_TargetSteps_selection :
    let x (w : Ctl) (d : Byte) := { diskInstance with bus := (diskInstance.bus.writeControl 7 w w).writeData 7 d }
    (x 0 0).target? 3 = some disk ∧ disk.id = 3 ∧ has (x sigRST 0).bus.ctl sigRST = true ∧
    ({ disk with tstate := .command } : Target).tstate ≠ .idle ∧
    disk.tstate = .idle ∧ (x sigRST 0).bus.sig[slotAddr 3] = 0 ∧ (x sigRST 0).bus.dat[slotAddr 3] = 0 ∧
    has (x sigSEL 0x88).bus.ctl sigRST = false ∧ has (x sigSEL 0x88).bus.ctl sigSEL = true ∧
    has (x sigSEL 0x88).bus.ctl sigBSY = false ∧ has (x sigSEL 0x88).bus.ctl sigIO = false ∧
    (x sigSEL 0x88).bus.data.getLsbD 3 = true ∧ disk.image ≠ none ∧
    (∀ j : Fin 7, ((x sigSEL 0x88).target? j).all fun u => u.id == j && !u.tbusy) ∧
    (x sigSEL 0x84).bus.data.getLsbD 3 = false := by decide

/-- TargetSteps: SEL held and released; the turn to MESSAGE-OUT with ATN; each handshake state with ACK low and high. -/
theorem witness_TargetSteps_handshake :
    let t : Target := { disk with tstate := .command }
    let c (w : Ctl) : Ctl := (diskInstance.bus.writeControl 7 w w).ctl
    t.tstate ≠ .idle ∧ t.id = 3 ∧ has (c sigSEL) sigRST = false ∧ has (c sigSEL) sigSEL = true ∧ has (c 0) sigSEL = false ∧
    (t.tstate = .command ∧ t.cmdLen = 0 ∧ t.hs = .needReq ∧ has (c sigATN) sigACK = false ∧ has (c sigATN) sigATN = true) ∧
    has (c 0) sigATN = false ∧ has (c 0) sigACK = false ∧ has (c sigACK) sigACK = true ∧
    ({ t with hs := .reqUp } : Target).hs = .reqUp ∧ ({ t with hs := .reqDown } : Target).hs = .reqDown := by decide

end Sys2Proof.Tests
end

section
/-! SUPPORT. The Bus operations that notify nobody: `set_data` and the three reads (40_bus_ops.md, R96 to R98). -/

namespace Sys2Proof.Machine

/-! ### The combined words -/

/-- Each of eight words lies within their OR: the fact behind both combined words (R12, R90). -/
theorem and_not_or_eight {w : Nat} (v : Vector (BitVec w) 8) (k : Fin 8) :
    v[k] &&& ~~~(v[0] ||| v[1] ||| v[2] ||| v[3] ||| v[4] ||| v[5] ||| v[6] ||| v[7]) = 0 := by
  apply BitVec.eq_of_getElem_eq
  intro i hi
  match k with
  | 0 | 1 | 2 | 3 | 4 | 5 | 6 | 7 => simp +contextual

theorem and_not_orCtl (s : Vector Ctl 8) (k : Fin 8) : s[k] &&& ~~~orCtl s = 0 := and_not_or_eight s k

theorem and_not_orData (d : Vector Byte 8) (k : Fin 8) : d[k] &&& ~~~orData d = 0 := and_not_or_eight d k

/-- On a combined bus every participant's contribution shows in the combined words (R97). -/
theorem Bus.combined.contribution_shows {b : Bus} (h : b.combined) (k : Fin 8) :
    b.sig[k] &&& ~~~b.ctl = 0 ∧ b.dat[k] &&& ~~~b.data = 0 := by
  obtain ⟨hctl, hdata⟩ := h
  rw [hctl, hdata]
  exact ⟨and_not_orCtl b.sig k, and_not_orData b.dat k⟩

/-- R98: the bus is free iff neither BSY nor SEL shows in the combined word. -/
theorem Bus.isFree_iff (b : Bus) : b.isFree = true ↔ b.ctl &&& (sigBSY ||| sigSEL) = 0 := beq_iff_eq

/-! ### The operations as events -/

variable (inst : InstId) (s : State)

theorem exec_busSetData (id : Fin 8) (v : Byte) :
    exec (.busSetData inst id v) s = .next (s.put inst (setData id v (beginEvent (s.get inst)))) := rfl

theorem exec_busGetControl :
    exec (.busGetControl inst) s =
      .next (s.put inst { beginEvent (s.get inst) with ret := .word (s.get inst).bus.ctl }) := rfl

theorem exec_busGetData :
    exec (.busGetData inst) s =
      .next (s.put inst { beginEvent (s.get inst) with ret := .byte (s.get inst).bus.data }) := rfl

theorem exec_busIsBusFree :
    exec (.busIsBusFree inst) s =
      .next (s.put inst { beginEvent (s.get inst) with ret := .flag (s.get inst).bus.isFree }) := rfl

end Sys2Proof.Machine

namespace Sys2Proof.Proofs
open Machine

/-- Settles O35: `set_data` is the write of one data contribution, which calls no notification; on a combined bus the
recombined control word is the old one, so there is no edge to notify. -/
theorem busSetDataNeverNotifies : Obligations.BusSetDataNeverNotifies := by
  intro inst id v s x
  have hrun : exec (.busSetData inst id v) s = .next (s.put inst { x with bus := x.bus.writeData id v }) :=
    exec_busSetData inst s id v
  exact ⟨hrun, fun ⟨hctl, _⟩ => hctl.symm⟩

/-- Settles O37: each read returns what the Bus holds; a contribution lies within the OR of all eight. -/
theorem busReadsCombined : Obligations.BusReadsCombined := by
  intro inst s x
  refine ⟨exec_busGetControl inst s, exec_busGetData inst s, x.bus.isFree, exec_busIsBusFree inst s, ?_, ?_⟩
  · exact x.bus.isFree_iff
  · exact fun hcombined => hcombined.contribution_shows

end Sys2Proof.Proofs
end

section
/-! SUPPORT. An access without side effects as an event: at the instance's own polarity, the body and then the common
tail (41_controller_registers.md, R110, R111). -/

namespace Sys2Proof.Machine

variable (inst : InstId) (s : State)

/-- A plain read as an event: the value is taken from the state before the tail runs. -/
theorem onInstance_readPlain_own (value : Instance → Byte) :
    onInstance inst (readPlain (Config.params.odd inst) value) s =
      .next (s.put inst (commonTail (envOf inst)
        { beginEvent (s.get inst) with ret := .byte (value (beginEvent (s.get inst))) })) := by
  rw [onInstance_eq, readPlain_own]

/-- A plain write as an event: the Controller takes the byte, then the tail runs. -/
theorem onInstance_writePlain_own (f : Controller → Controller) :
    onInstance inst (writePlain (Config.params.odd inst) f) s =
      .next (s.put inst (commonTail (envOf inst) ((beginEvent (s.get inst)).modCtrl f))) := by
  rw [onInstance_eq, writePlain_own]

/-- A write whose body changes no register (R122, R123, R125). -/
theorem onInstance_writePlain_ignored :
    onInstance inst (writePlain (Config.params.odd inst) fun c => c) s =
      .next (s.put inst (commonTail (envOf inst) (beginEvent (s.get inst)))) :=
  onInstance_writePlain_own inst s _

end Sys2Proof.Machine

namespace Sys2Proof.Proofs
open Machine

/-- Settles O16: all six accesses are plain ones, whose bodies are the views of `tc` that R125, R129 and R130 name; the
body of the write of MBC is the identity. -/
theorem counterViews : Obligations.CounterViews := by
  intro inst v s o x c
  have readMbc := onInstance_readPlain_own inst s mbc
  have writeMbc := onInstance_writePlain_ignored inst s
  have readTch := onInstance_readPlain_own inst s fun y => y.ctrl.tc.extractLsb' 16 8
  have readTcm := onInstance_readPlain_own inst s fun y => y.ctrl.tc.extractLsb' 8 8
  have writeTch := onInstance_writePlain_own inst s fun d => { d with tc := v ++ d.tc.extractLsb' 0 16 }
  have writeTcm := onInstance_writePlain_own inst s fun d =>
    { d with tc := d.tc.extractLsb' 16 8 ++ v ++ d.tc.extractLsb' 0 8 }
  exact ⟨readMbc, writeMbc, readTch, readTcm, writeTch, writeTcm⟩

end Sys2Proof.Proofs
end

section
/-! SUPPORT. The round trip of a message (log 2): what each kind of event decodes to from the message that `encode` writes
for it, one lemma per kind, and the big-endian fields in it (R48, R63, R66, R74). -/

namespace Sys2Proof.Machine

/-! ### Big-endian numbers (R48) -/

@[simp] theorem beBytes_length (w v : Nat) : (beBytes w v).length = w := by
  induction w with
  | zero => rfl
  | succ w ih => simp [beBytes, ih]

/-- The bytes of a field, read behind a number `n`: the number shifted up by the field's width, and what of `v` the field
holds. -/
theorem foldl_beBytes (w v n : Nat) :
    (beBytes w v).foldl (fun n b => n * 256 + b.toNat) n = n * 256 ^ w + v % 256 ^ w := by
  induction w generalizing n with
  | zero => simp [beBytes, Nat.mod_one]
  | succ w ih =>
    have hsplit : v % 256 ^ (w + 1) = v % 256 ^ w + 256 ^ w * (v / 256 ^ w % 256) := by
      rw [Nat.pow_succ, Nat.mod_mul]
    rw [beBytes, List.foldl_cons, ih, BitVec.toNat_ofNat, hsplit]
    ring

/-- A number that fits its field is what the field's bytes say. -/
theorem natOfBE_beBytes {w v : Nat} (h : v < 256 ^ w) : natOfBE (beBytes w v) = v := by
  unfold natOfBE
  rw [foldl_beBytes, Nat.zero_mul, Nat.zero_add, Nat.mod_eq_of_lt h]

end Sys2Proof.Machine

namespace Sys2Proof

/-! ### The frame of a message -/

/-- Byte 1 of a message names the kind and the instance, and nothing else is in it. -/
theorem kindByte_fields (inst : InstId) (k : BitVec 7) :
    (kindByte inst k).extractLsb' 0 7 = k ∧
      (if (kindByte inst k).getLsbD 7 then InstId.external else .internal) = inst := by
  cases inst <;> revert k <;> decide

/-- A message is decoded by the kind in its byte 1. -/
theorem decode_cons (b : Byte) (inst : InstId) (k : BitVec 7) (l : List Byte) :
    decode (b :: kindByte inst k :: l) = decodeKind k.toNat inst (b :: kindByte inst k :: l) := by
  obtain ⟨hkind, hinst⟩ := kindByte_fields inst k
  have hb : byteAt (b :: kindByte inst k :: l) 1 = kindByte inst k := rfl
  simp only [decode, hb, hkind, hinst]

theorem upTo_ok {m : List Byte} {n : Nat} (h : m.length ≤ n) {z : Byte} (hz : z = 0) (i : Instr) :
    upTo m n z i = .ok i := by
  unfold upTo
  rw [if_neg (by omega), if_pos hz]

theorem slotOf_ofNat (id : Fin 7) : slotOf (BitVec.ofNat 8 id) = .ok id := by revert id; decide

theorem addressOf_ofNat (id : Fin 8) : addressOf (BitVec.ofNat 8 id) = .ok id := by revert id; decide

/-- The bytes that stand behind the first `a` of a message. -/
theorem bytesAt_append (a l r : List Byte) : bytesAt (a ++ (l ++ r)) a.length l.length = l := by
  induction l generalizing a with
  | nil => rfl
  | cons v l ih =>
    have h := ih (a ++ [v])
    simp only [List.append_assoc, List.cons_append, List.nil_append, List.length_append, List.length_cons,
      List.length_nil] at h
    simp only [List.length_cons, List.cons_append, bytesAt, h]
    simp [byteAt, List.getD_eq_getElem?_getD]

/-- The bytes that stand behind the first `a` of a message, to its end. -/
theorem bytesAt_end (a l : List Byte) : bytesAt (a ++ l) a.length l.length = l := by
  simpa using bytesAt_append a l []

/-! ### Host accesses (R63, R64) -/

/-- An offset of the window, widened to that of an access. -/
theorem windowOffset (index : BitVec 4) (odd : Bool) :
    let off : BitVec 32 := 0#8 ++ 0#8 ++ 0#8 ++ offsetByte index odd
    off.toNat < 32 ∧ off.getLsbD 0 = odd ∧ off.toNat / 2 = index.toNat := by
  cases odd <;> revert index <;> decide

theorem decode_encodeRead (inst : InstId) (odd : Bool) (index : BitVec 4) :
    decode (encodeRead inst odd index) = .ok (regRead inst odd index.toNat) := by
  obtain ⟨hwin, hodd, hindex⟩ := windowOffset index odd
  unfold encodeRead
  rw [decode_cons]
  refine (upTo_ok (by simp) rfl _).trans (congrArg _ ?_)
  refine (if_pos hwin).trans ?_
  exact congrArg₂ _ hodd hindex

theorem decode_encodeWrite (inst : InstId) (odd : Bool) (index : BitVec 4) (v : Byte) :
    decode (encodeWrite inst odd index v) = .ok (regWrite inst odd index.toNat v) := by
  obtain ⟨hwin, hodd, hindex⟩ := windowOffset index odd
  unfold encodeWrite
  rw [decode_cons]
  refine (upTo_ok (by simp) rfl _).trans (congrArg _ ?_)
  refine (if_pos hwin).trans ?_
  exact congrArg₂ (fun o k => regWrite inst o k v) hodd hindex

/-- The four bytes of an offset put together again. -/
theorem offset_bytes (off : BitVec 32) :
    (off.extractLsb' 24 8 ++ off.extractLsb' 16 8 ++ off.extractLsb' 8 8 ++ off.extractLsb' 0 8 : BitVec 32) = off := by
  rw [BitVec.extractLsb'_append_extractLsb'_eq_extractLsb' (by rfl),
    BitVec.extractLsb'_append_extractLsb'_eq_extractLsb' (by rfl), BitVec.extractLsb'_append_extractLsb'_eq_extractLsb' (by rfl)]
  exact BitVec.extractLsb'_eq_self

theorem decode_encode_rRom (inst : InstId) (off : BitVec 32) (h : 32 ≤ off.toNat) :
    decode (encode (.rRom inst off)) = .ok (.rRom inst off) := by
  unfold encode
  rw [decode_cons]
  refine (upTo_ok (by simp) rfl _).trans (congrArg _ ?_)
  refine (congrArg (hostReadAt inst) (offset_bytes off)).trans ?_
  exact if_neg (by omega)

theorem decode_encode_wRom (inst : InstId) (off : BitVec 32) (v : Byte) (h : 32 ≤ off.toNat) :
    decode (encode (.wRom inst off v)) = .ok (.wRom inst off v) := by
  unfold encode
  rw [decode_cons]
  refine (upTo_ok (by simp) rfl _).trans (congrArg _ ?_)
  refine (congrArg (fun o => hostWriteAt inst o v) (offset_bytes off)).trans ?_
  exact if_neg (by omega)

/-- The byte of a wrong-polarity access holds the index in bits 4:1 and zeros beside it. -/
theorem wrongPolarityByte (index : Fin 16) :
    offsetByte (BitVec.ofNat 4 index) false &&& 0xE1 = 0 ∧
      Fin.ofNat 16 ((offsetByte (BitVec.ofNat 4 index) false).toNat / 2) = index := by
  revert index; decide

theorem decode_encode_rwWrongPolarity (inst : InstId) (index : Fin 16) (acc : Access) :
    decode (encode (.rwWrongPolarity inst index acc)) = .ok (.rwWrongPolarity inst index acc) := by
  obtain ⟨hzero, hindex⟩ := wrongPolarityByte index
  cases acc with
  | read =>
    unfold encode
    rw [decode_cons]
    refine (upTo_ok (by simp) hzero _).trans (congrArg _ ?_)
    exact congrArg (Instr.rwWrongPolarity inst · .read) hindex
  | write v =>
    unfold encode
    rw [decode_cons]
    refine (upTo_ok (by simp) hzero _).trans (congrArg _ ?_)
    exact congrArg (Instr.rwWrongPolarity inst · (.write v)) hindex

/-! ### Commands (R66, R74) -/

/-- A command byte holds its code and the bits below. -/
theorem scmdByte_fields (code : BitVec 3) (low : BitVec 5) :
    (Machine.scmdByte code low).extractLsb' 0 5 = low ∧ (Machine.scmdByte code low).extractLsb' 5 3 = code := by
  revert code low; decide

theorem decode_encodeScmd (inst : InstId) (code : BitVec 3) (low : BitVec 5) :
    decode (encodeScmd inst code low) = .ok (scmdOf inst (Machine.scmdByte code low)) := by
  unfold encodeScmd
  rw [decode_cons]
  exact upTo_ok (by simp) rfl _

/-- What a command byte stands for, by its code. -/
theorem scmdOf_scmdByte (inst : InstId) (code : BitVec 3) (low : BitVec 5) :
    scmdOf inst (Machine.scmdByte code low) =
      match code.toNat with
      | 0 => .scmdBusRelease inst low
      | 1 => .scmdSelect inst low
      | 2 => .scmdResetAtn inst low
      | 3 => .scmdSetAtn inst low
      | 4 => .scmdTransfer inst low
      | 5 => .scmdTransferPause inst low
      | 6 => .scmdResetAckreq inst low
      | _ => .scmdSetAckreq inst low := by
  obtain ⟨hlow, hcode⟩ := scmdByte_fields code low
  simp only [scmdOf, hlow, hcode] <;> rfl

/-- A CDB whose bytes are as many as its opcode asks for. -/
theorem decode_encodeCdb (inst : InstId) (id : Fin 7) (op : Byte) (args : List Byte)
    (h : args.length + 1 = Machine.cdbLen op) :
    decode (encodeCdb inst id (op :: args)) =
      .ok (cdbAt inst id op (op :: kindByte inst 6 :: BitVec.ofNat 8 id :: args) 3) := by
  have hslot : slotOf (byteAt (op :: kindByte inst 6 :: BitVec.ofNat 8 id :: args) 2) = .ok id := slotOf_ofNat id
  refine (decode_cons op inst 6 (BitVec.ofNat 8 id :: args)).trans ?_
  have hkind : ∀ m : List Byte, decodeKind 6 inst m = (slotOf (byteAt m 2)).bind fun id =>
      upTo m (Machine.cdbLen (byteAt m 0) + 2) 0 (cdbAt inst id (byteAt m 0) m 3) := fun _ => rfl
  refine (hkind _).trans ?_
  rw [hslot]
  refine upTo_ok ?_ rfl _
  have hop : byteAt (op :: kindByte inst 6 :: BitVec.ofNat 8 id :: args) 0 = op := rfl
  simp only [hop, List.length_cons]
  omega

/-- Fields of a 6-byte CDB read back from its bytes (R74). -/
theorem cdb6At_bytes (a b d op : Byte) (c : Cdb6) : cdb6At (a :: b :: d :: (Machine.cdb6Bytes op c).drop 1) 3 = c := by
  obtain ⟨lun, lba, len, control⟩ := c
  have hlun : (lun ++ lba.extractLsb' 16 5 : Byte).extractLsb' 5 3 = lun := by ext i hi; simp; grind
  have htop : (lun ++ lba.extractLsb' 16 5 : Byte).extractLsb' 0 5 = lba.extractLsb' 16 5 := by ext i hi; simp; grind
  have hlba : (lba.extractLsb' 16 5 ++ lba.extractLsb' 8 8 ++ lba.extractLsb' 0 8 : BitVec 21) = lba := by
    rw [BitVec.extractLsb'_append_extractLsb'_eq_extractLsb' (by rfl),
      BitVec.extractLsb'_append_extractLsb'_eq_extractLsb' (by rfl)]
    exact BitVec.extractLsb'_eq_self
  simp only [cdb6At, Machine.cdb6Bytes, byteAt, List.drop, List.getD_cons_succ, List.getD_cons_zero, hlun, htop]
  exact congrArg (fun l => Cdb6.mk lun l len control) hlba

/-- Fields of a 10-byte CDB read back from its bytes (R74). -/
theorem cdb10At_bytes (a b d op : Byte) (c : Cdb10) :
    cdb10At (a :: b :: d :: (Machine.cdb10Bytes op c).drop 1) 3 = c := by
  obtain ⟨flags, lba, reserved, len, control⟩ := c
  have hlen : (len.extractLsb' 8 8 ++ len.extractLsb' 0 8 : BitVec 16) = len := by
    rw [BitVec.extractLsb'_append_extractLsb'_eq_extractLsb' (by rfl)]
    exact BitVec.extractLsb'_eq_self
  simp only [cdb10At, Machine.cdb10Bytes, byteAt, List.drop, List.getD_cons_succ, List.getD_cons_zero]
  exact congrArg₂ (fun l n => Cdb10.mk flags l reserved n control) (offset_bytes lba) hlen

/-- A 6-byte CDB decodes to the instruction that its opcode makes of its fields. -/
theorem decode_encodeCdb6 (inst : InstId) (id : Fin 7) (op : Byte) (c : Cdb6) (mk : Cdb6 → Instr)
    (hlen : Machine.cdbLen op = 6)
    (hmk : ∀ m, cdbAt inst id op m 3 = mk (cdb6At m 3)) :
    decode (encodeCdb inst id (Machine.cdb6Bytes op c)) = .ok (mk c) := by
  refine (decode_encodeCdb inst id op ((Machine.cdb6Bytes op c).drop 1) (by rw [hlen]; rfl)).trans ?_
  rw [hmk, cdb6At_bytes]

/-- A 10-byte CDB decodes to the instruction that its opcode makes of its fields. -/
theorem decode_encodeCdb10 (inst : InstId) (id : Fin 7) (op : Byte) (c : Cdb10) (mk : Cdb10 → Instr)
    (hlen : Machine.cdbLen op = 10)
    (hmk : ∀ m, cdbAt inst id op m 3 = mk (cdb10At m 3)) :
    decode (encodeCdb inst id (Machine.cdb10Bytes op c)) = .ok (mk c) := by
  refine (decode_encodeCdb inst id op ((Machine.cdb10Bytes op c).drop 1) (by rw [hlen]; rfl)).trans ?_
  rw [hmk, cdb10At_bytes]

theorem decode_encode_cdbOther (inst : InstId) (id : Fin 7) (op : Byte) (args : List Byte)
    (hop : Machine.cdbOpOf op = .other) (hlen : args.length + 1 = Machine.cdbLen op) :
    decode (encode (.cdbOther inst id op args)) = .ok (.cdbOther inst id op args) := by
  refine (decode_encodeCdb inst id op args hlen).trans (congrArg _ ?_)
  have hbytes : bytesAt (op :: kindByte inst 6 :: BitVec.ofNat 8 id :: args) 3 (Machine.cdbLen op - 1) = args := by
    rw [← hlen]
    exact bytesAt_end [op, kindByte inst 6, BitVec.ofNat 8 id] args
  simp only [cdbAt, hop, hbytes]

/-! ### Bus and environment calls -/

/-- A control word read back from its two bytes. -/
theorem ctlAt_ctlBytes (a r : List Byte) (c : Ctl) : ctlAt (a ++ (ctlBytes c ++ r)) a.length = .ok c := by
  have hlow : byteAt (a ++ (ctlBytes c ++ r)) a.length = c.extractLsb' 0 8 := by
    simp [byteAt, ctlBytes, List.getD_eq_getElem?_getD]
  have hhigh : byteAt (a ++ (ctlBytes c ++ r)) (a.length + 1) = 0#7 ++ c.extractLsb' 8 1 := by
    simp [byteAt, ctlBytes, List.getD_eq_getElem?_getD]
  have hbit : ∀ b : BitVec 1, (0#7 ++ b : Byte).toNat < 2 ∧ (0#7 ++ b : Byte).extractLsb' 0 1 = b := by decide
  unfold ctlAt
  rw [hlow, hhigh, if_pos (hbit _).1, (hbit _).2, BitVec.extractLsb'_append_extractLsb'_eq_extractLsb' (by rfl)]
  exact congrArg _ BitVec.extractLsb'_eq_self

/-- An image read back from its length and its bytes. -/
theorem imageAt_imageBytes (a bs : List Byte) (h : bs.length < 256 ^ 4) :
    imageAt (a ++ imageBytes bs) a.length = .ok bs := by
  have hlen : bytesAt (a ++ imageBytes bs) a.length 4 = Machine.beBytes 4 bs.length := by
    simpa [imageBytes] using bytesAt_append a (Machine.beBytes 4 bs.length) bs
  have hcontent : (a ++ imageBytes bs).drop (a.length + 4) = bs := by
    rw [← List.drop_drop, List.drop_left]
    exact List.drop_left' (Machine.beBytes_length _ _)
  unfold imageAt
  simp only [hcontent, hlen, Machine.natOfBE_beBytes h, if_pos]

/-- A place among the kept images, read back from its four bytes. -/
theorem place_bytes (a : List Byte) {i : Nat} (h : i < 256 ^ 4) :
    Machine.natOfBE (bytesAt (a ++ Machine.beBytes 4 i) a.length 4) = i := by
  have := bytesAt_end a (Machine.beBytes 4 i)
  rw [Machine.beBytes_length] at this
  rw [this, Machine.natOfBE_beBytes h]

/-- A field that is read goes into the rest of the message's reading. -/
theorem bind_of_ok {α β : Type} {r : Except DecodeError α} {v : α} (h : r = .ok v) (f : α → Except DecodeError β) :
    r.bind f = f v := by rw [h]; rfl

/-- An event whose byte 0 is a slot. -/
theorem bind_slotOf (id : Fin 7) (f : Fin 7 → Except DecodeError Instr) :
    (slotOf (BitVec.ofNat 8 id)).bind f = f id := bind_of_ok (slotOf_ofNat id) f

/-- An event whose byte 0 is a bus address. -/
theorem bind_addressOf (id : Fin 8) (f : Fin 8 → Except DecodeError Instr) :
    (addressOf (BitVec.ofNat 8 id)).bind f = f id := bind_of_ok (addressOf_ofNat id) f

theorem decode_encode_busAttach (inst : InstId) (id : Fin 7) (dev : NewTarget)
    (h : ∀ src, dev.image = some src → src.wellFormed = true) :
    decode (encode (.busAttach inst id dev)) = .ok (.busAttach inst id dev) := by
  have hkind : ∀ l : List Byte, decode (BitVec.ofNat 8 id :: kindByte inst 8 :: l) = _ := fun l =>
    (decode_cons (BitVec.ofNat 8 id) inst 8 l).trans (bind_slotOf id _)
  obtain ⟨ready, image⟩ := dev
  unfold encode
  rw [hkind]
  match image, h with
  | none, _ => cases ready <;> exact upTo_ok (by simp) rfl _
  | some (.given bs), h =>
    have hbs : bs.length < 256 ^ 4 := by simpa [ImageSource.wellFormed] using h _ rfl
    have himage (b : Byte) := imageAt_imageBytes [BitVec.ofNat 8 id, kindByte inst 8, b] bs hbs
    cases ready
    · exact bind_of_ok (himage 2) _
    · exact bind_of_ok (himage 3) _
  | some (.kept i), h =>
    have hi : i < 256 ^ 4 := by simpa [ImageSource.wellFormed] using h _ rfl
    have hplace (b : Byte) := place_bytes [BitVec.ofNat 8 id, kindByte inst 8, b] hi
    cases ready
    · exact (upTo_ok (by simp) rfl _).trans
        (congrArg (fun j => Except.ok (Instr.busAttach inst id ⟨false, some (.kept j)⟩)) (hplace 4))
    · exact (upTo_ok (by simp) rfl _).trans
        (congrArg (fun j => Except.ok (Instr.busAttach inst id ⟨true, some (.kept j)⟩)) (hplace 5))

theorem decode_encode_envOpenImage (inst : InstId) (id : Fin 7) (src : ImageSource) (h : src.wellFormed = true) :
    decode (encode (.envOpenImage inst id src)) = .ok (.envOpenImage inst id src) := by
  cases src with
  | given bs =>
    have hbs : bs.length < 256 ^ 4 := by simpa [ImageSource.wellFormed] using h
    refine ((decode_cons _ inst 15 _).trans (bind_slotOf id _)).trans ?_
    exact bind_of_ok (imageAt_imageBytes [BitVec.ofNat 8 id, kindByte inst 15] bs hbs) _
  | kept i =>
    have hi : i < 256 ^ 4 := by simpa [ImageSource.wellFormed] using h
    refine ((decode_cons _ inst 18 _).trans (bind_slotOf id _)).trans ?_
    exact (upTo_ok (by simp) rfl _).trans
      (congrArg (fun j => Except.ok (Instr.envOpenImage inst id (.kept j)))
        (place_bytes [BitVec.ofNat 8 id, kindByte inst 18] hi))

theorem decode_encode_busSetControl (inst : InstId) (id : Fin 8) (value mask : Ctl) :
    decode (encode (.busSetControl inst id value mask)) = .ok (.busSetControl inst id value mask) := by
  refine ((decode_cons _ inst 10 _).trans (bind_addressOf id _)).trans ?_
  have hvalue := ctlAt_ctlBytes [BitVec.ofNat 8 id, kindByte inst 10] (ctlBytes mask) value
  have hmask := ctlAt_ctlBytes (BitVec.ofNat 8 id :: kindByte inst 10 :: ctlBytes value) [] mask
  rw [List.append_nil] at hmask
  refine (bind_of_ok hvalue _).trans ?_
  refine (bind_of_ok hmask _).trans ?_
  exact upTo_ok (by simp [ctlBytes]) rfl _

theorem decode_encode_tick (inst : InstId) (n : Nat) (h : n < 256 ^ 8) :
    decode (encode (.tick inst n)) = .ok (.tick inst n) := by
  have hn := bytesAt_end [0, kindByte inst 7] (Machine.beBytes 8 n)
  rw [Machine.beBytes_length] at hn
  refine (decode_cons 0 inst 7 _).trans ((upTo_ok (by simp) rfl _).trans (congrArg _ ?_))
  exact congrArg (Instr.tick inst) ((congrArg Machine.natOfBE hn).trans (Machine.natOfBE_beBytes h))

end Sys2Proof

namespace Sys2Proof.Proofs

/-- Settles O5, by cases on the instruction: its message is of one of the kinds above, and the lemma of the kind reads it
back. -/
theorem decodeEncodeAgree : Obligations.DecodeEncodeAgree := by
  intro i h
  cases i with
  | busAttach inst id dev =>
    refine decode_encode_busAttach inst id dev fun src hsrc => ?_
    simpa [Instr.wellFormed, hsrc] using h
  | busDetach inst id => exact ((decode_cons _ inst 9 _).trans (bind_slotOf id _)).trans (upTo_ok (by simp) rfl _)
  | busSetControl inst id value mask => exact decode_encode_busSetControl inst id value mask
  | busSetData inst id v =>
    exact ((decode_cons _ inst 11 _).trans (bind_addressOf id _)).trans (upTo_ok (by simp) rfl _)
  | busGetControl inst => exact (decode_cons _ inst 12 _).trans (upTo_ok (by simp) rfl _)
  | busGetData inst => exact (decode_cons _ inst 13 _).trans (upTo_ok (by simp) rfl _)
  | busIsBusFree inst => exact (decode_cons _ inst 14 _).trans (upTo_ok (by simp) rfl _)
  | envOpenImage inst id src => exact decode_encode_envOpenImage inst id src h
  | envCloseImage inst id =>
    exact ((decode_cons _ inst 16 _).trans (bind_slotOf id _)).trans (upTo_ok (by simp) rfl _)
  | envSystemReset => decide
  | tick inst n => exact decode_encode_tick inst n (by simpa [Instr.wellFormed] using h)
  | rBdid inst odd | rSctl inst odd | rScmd inst odd | rInts inst odd | rPsns inst odd | rSsts inst odd
  | rSerr inst odd | rPctl inst odd | rMbc inst odd | rDreg inst odd | rTemp inst odd | rTch inst odd
  | rTcm inst odd | rTcl inst odd => exact decode_encodeRead inst odd _
  | wBdid inst odd v | wSctl inst odd v | wScmd inst odd v | wInts inst odd v | wSdgc inst odd v | wSsts inst odd v
  | wSerr inst odd v | wPctl inst odd v | wMbc inst odd v | wDreg inst odd v | wTemp inst odd v | wTch inst odd v
  | wTcm inst odd v | wTcl inst odd v => exact decode_encodeWrite inst odd _ v
  | rwIndex3 inst odd acc | rwIndex15 inst odd acc =>
    cases acc with
    | read => exact decode_encodeRead inst odd _
    | write v => exact decode_encodeWrite inst odd _ v
  | rwWrongPolarity inst index acc => exact decode_encode_rwWrongPolarity inst index acc
  | rRom inst off => exact decode_encode_rRom inst off (by simpa [Instr.wellFormed] using h)
  | wRom inst off v => exact decode_encode_wRom inst off v (by simpa [Instr.wellFormed] using h)
  | scmdBusRelease inst low | scmdSelect inst low | scmdResetAtn inst low | scmdSetAtn inst low
  | scmdTransfer inst low | scmdTransferPause inst low | scmdResetAckreq inst low | scmdSetAckreq inst low =>
    exact (decode_encodeScmd inst _ low).trans (congrArg _ (scmdOf_scmdByte inst _ low))
  | cdbTestUnitReady inst id c | cdbRezeroUnit inst id c | cdbRequestSense inst id c | cdbFormatUnit inst id c
  | cdbRead6 inst id c | cdbWrite6 inst id c | cdbSeek6 inst id c | cdbInquiry inst id c | cdbModeSelect6 inst id c
  | cdbModeSense6 inst id c | cdbStartStopUnit inst id c =>
    exact decode_encodeCdb6 inst id _ c _ rfl fun _ => rfl
  | cdbReadCapacity inst id c | cdbRead10 inst id c | cdbWrite10 inst id c | cdbVerify10 inst id c =>
    exact decode_encodeCdb10 inst id _ c _ rfl fun _ => rfl
  | cdbOther inst id op args =>
    obtain ⟨hop, hlen⟩ : Machine.cdbOpOf op = .other ∧ args.length + 1 = Machine.cdbLen op := by
      simpa [Instr.wellFormed] using h
    exact decode_encode_cdbOther inst id op args hop hlen

/-- Settles O4: each message is written out, so its decoding is a closed computation. -/
theorem specWordsDecode : Obligations.SpecWordsDecode := by
  unfold Obligations.SpecWordsDecode
  decide

/-- Settles O58: the field's bytes are those of a number below `256 ^ w`, the given one where it fits. -/
theorem bigEndianFields : Obligations.BigEndianFields := by
  intro p w v
  refine ⟨Machine.beBytes_length w _, fun h => ?_⟩
  unfold Machine.beField Machine.narrow
  rw [if_pos h, Machine.natOfBE_beBytes h]

end Sys2Proof.Proofs
end

section
/-! SUPPORT. What an event can do, said once for all instructions (R10, R111): `Does` is a preorder that holds of every
reaction of the participants and of every body of an instruction; at the end of the event the two lines may follow. -/

namespace Sys2Proof.Machine

/-! ### Entries of the bus, and bits of a byte -/

theorem set_getElem_same {α : Type} (v : Vector α 8) (j : Fin 8) (a : α) : (v.set j a)[j] = a := Vector.getElem_set_self _

theorem set_getElem_ne {α : Type} (v : Vector α 8) (a : α) {j l : Fin 8} (h : j ≠ l) : (v.set j a)[l] = v[l] :=
  Vector.getElem_set_ne _ _ fun e => h (Fin.ext e)

/-- Masked bits of one byte that are all in another, followed through a third. -/
theorem and_not_trans {a b c m : Byte} (h1 : (a &&& m) &&& ~~~b = 0) (h2 : (b &&& m) &&& ~~~c = 0) :
    (a &&& m) &&& ~~~c = 0 := by
  apply BitVec.eq_of_getElem_eq
  intro j hj
  have g1 := congrArg (fun v : Byte => v[j]) h1
  have g2 := congrArg (fun v : Byte => v[j]) h2
  simp only [BitVec.getElem_and, BitVec.getElem_not] at g1 g2 ⊢
  cases ha : a[j] <;> cases hb : b[j] <;> simp_all

theorem and_allOnes (a : Byte) : a &&& 0xFF = a := BitVec.and_allOnes

theorem and_not_or (a f m : Byte) : (a &&& m) &&& ~~~(a ||| f) = 0 := by
  apply BitVec.eq_of_getElem_eq
  intro j hj
  simp only [BitVec.getElem_and, BitVec.getElem_not, BitVec.getElem_or]
  cases a[j] <;> simp

theorem and_not_same (a m : Byte) : (a &&& m) &&& ~~~a = 0 := by simpa using and_not_or a 0 m

theorem or_and_not {f m : Byte} (hf : f &&& m = 0) (a : Byte) : ((a ||| f) &&& m) &&& ~~~a = 0 := by
  rw [BitVec.and_comm (a ||| f), BitVec.and_or_distrib_left, BitVec.and_comm m f, hf, BitVec.and_comm m a]
  simpa using and_not_same a m

/-- Flags that keep clear of some bits (R67, R291). -/
theorem or_and_eq_zero {a f m : Byte} (ha : a &&& m = 0) (hf : f &&& m = 0) : (a ||| f) &&& m = 0 := by
  rw [BitVec.and_comm, BitVec.and_or_distrib_left, BitVec.and_comm, ha, BitVec.and_comm, hf]
  rfl

/-! ### The invariant between two operations of an event -/

/-- What the invariant says of the Controller, but for the budget, which a tick fills and empties again (R172). -/
structure Controller.Sound (c : Controller) : Prop where
  ring : c.fifo.ring
  ints : c.ints &&& 0xC2 = 0
  serr : c.serr &&& 0xDF = 0
  pctl : c.pctl &&& 0x78 = 0
  bfTimer : c.bfTimer ≤ Config.params.busFreeCycles
  busy : c.busy = false

/-- What the invariant says of an instance, but for the budget. -/
structure Instance.Sound (x : Instance) : Prop where
  combined : x.bus.combined
  bound : x.bus.cb = .controller
  controllerAt7 : x.bus.occ[7] = some .controller
  controllerOnly7 : ∀ k : Fin 7, x.bus.occ[slotAddr k] ≠ some .controller
  targets : ∀ k t, x.target? k = some t → t.Inv k
  kept : ∀ st ∈ x.kept, st.ok
  ctrl : x.ctrl.Sound

theorem inv_iff (x : Instance) : x.Inv Config.params ↔ x.Sound ∧ x.ctrl.budget = 0 where
  mp h := ⟨⟨h.combined, h.bound, h.controllerAt7, h.controllerOnly7, h.targets, h.keptWf,
    h.fifoRing, h.intsReserved, h.serrReserved, h.pctlReserved, h.bfTimerBound, h.notBusy⟩, h.noBudget⟩
  mpr h := ⟨h.1.combined, h.1.bound, h.1.controllerAt7, h.1.controllerOnly7, h.1.targets, h.1.kept, h.1.ctrl.ring,
    h.1.ctrl.ints, h.1.ctrl.serr, h.1.ctrl.pctl, h.1.ctrl.bfTimer, h.1.ctrl.busy, h.2⟩

theorem CtrlReacts.sound {c d : Controller} (h : CtrlReacts c d) (hc : c.Sound) : d.Sound := by
  obtain ⟨f, hf, hints⟩ := h.ints
  exact ⟨h.ring hc.ring, hints ▸ or_and_eq_zero hc.ints hf, h.serr ▸ hc.serr, h.pctl ▸ hc.pctl,
    le_trans h.bfTimer hc.bfTimer, h.busy.trans hc.busy⟩

theorem TargetReacts.inv {t u : Target} {k : Fin 7} (h : TargetReacts t u) (ht : t.Inv k) : u.Inv k := by
  refine ⟨h.id.trans ht.atSlot, h.tbusy.trans ht.notBusy, h.imageOk ht.imageWf, h.bufSorted ht.bufSorted, ?_⟩
  intro st hst
  have hsize := h.imageSize
  rw [hst] at hsize
  obtain ⟨st', hst', heq⟩ := Option.map_eq_some_iff.1 hsize.symm
  rw [h.geom, ← heq]
  exact ht.geomFits st' hst'

theorem Reacts.sound {x y : Instance} (h : Reacts x y) (hx : x.Sound) : y.Sound := by
  refine ⟨h.combined hx.combined, h.cb.trans hx.bound, ?_, fun k => ?_, fun k u hu => ?_, h.kept ▸ hx.kept,
    h.ctrl.sound hx.ctrl⟩
  · rcases h.slots 7 with ⟨t, u, h1, -, -⟩ | ⟨-, h2⟩
    · cases hx.controllerAt7.symm.trans h1
    · exact h2.trans hx.controllerAt7
  · rcases h.slots (slotAddr k) with ⟨t, u, -, h2, -⟩ | ⟨-, h2⟩
    · rw [h2]; exact fun e => by cases e
    · exact h2 ▸ hx.controllerOnly7 k
  · rcases h.target k with ⟨-, g⟩ | ⟨t, v, h1, h2, h3⟩
    · rw [g] at hu; cases hu
    · rw [h2] at hu
      cases hu
      exact h3.inv (hx.targets k t h1)

/-- A change of the Controller alone. -/
theorem Instance.Sound.setCtrl {x y : Instance} (hx : x.Sound) (hb : y.bus = x.bus) (hk : y.kept = x.kept)
    (hc : y.ctrl.Sound) : y.Sound :=
  ⟨hb ▸ hx.combined, hb ▸ hx.bound, hb ▸ hx.controllerAt7, hb ▸ hx.controllerOnly7,
    fun k t ht => hx.targets k t (by rwa [Instance.target?_congr (y := x) (by rw [hb])] at ht), hk ▸ hx.kept, hc⟩

/-- Another bus under the instance, with the same occupants. -/
theorem Instance.Sound.setBus {x : Instance} {b : Bus} (hx : x.Sound) (hc : b.combined) (ho : b.occ = x.bus.occ)
    (hcb : b.cb = x.bus.cb) : Instance.Sound { x with bus := b } :=
  ⟨hc, hcb.trans hx.bound, ho ▸ hx.controllerAt7, ho ▸ hx.controllerOnly7,
    fun k t ht => hx.targets k t (by rwa [Instance.target?_congr (y := x) ho] at ht), hx.kept, hx.ctrl⟩

/-- Another occupant of a Target's slot: a Target that is as it should be, or none (R93, R94). -/
theorem Instance.Sound.replace {x : Instance} (hx : x.Sound) (k : Fin 7) (o : Option Participant)
    (hne : o ≠ some .controller) (ho : ∀ t, o = some (.target t) → t.Inv k) :
    Instance.Sound { x with bus := x.bus.replace (slotAddr k) o } := by
  have hother : ∀ j : Fin 8, j ≠ slotAddr k → (x.bus.replace (slotAddr k) o).occ[j] = x.bus.occ[j] := fun j hj =>
    set_getElem_ne _ _ (Ne.symm hj)
  have hsame : (x.bus.replace (slotAddr k) o).occ[slotAddr k] = o := set_getElem_same _ _ _
  refine ⟨Bus.replace_combined _ _ _, hx.bound, ?_, fun j => ?_, fun j t ht => ?_, hx.kept, hx.ctrl⟩
  · exact (hother 7 fun e => slotAddr_ne_7 k e.symm).trans hx.controllerAt7
  · by_cases hj : j = k
    · subst hj
      exact fun e => hne (hsame.symm.trans e)
    · exact hother (slotAddr j) (fun e => hj (slotAddr_inj e)) ▸ hx.controllerOnly7 j
  · have ht' : (x.bus.replace (slotAddr k) o).occ[slotAddr j] = some (.target t) := Instance.target?_eq_some.1 ht
    by_cases hj : j = k
    · subst hj
      exact ho t (hsame ▸ ht')
    · rw [hother (slotAddr j) fun e => hj (slotAddr_inj e)] at ht'
      exact hx.targets j t (Instance.target?_eq_some.2 ht')

/-- The images that a slot's Target leaves behind are in order (R323). -/
theorem Instance.Sound.keepImage {x : Instance} (hx : x.Sound) (k : Fin 7) : (keepImage k x).Sound := by
  refine ⟨hx.combined, hx.bound, hx.controllerAt7, hx.controllerOnly7, hx.targets, fun st hst => ?_, hx.ctrl⟩
  rcases List.mem_append.1 hst with hst | hst
  · exact hx.kept st hst
  · obtain ⟨t, ht, hi⟩ := Option.bind_eq_some_iff.1 (Option.mem_toList.1 hst)
    exact (hx.targets k t ht).imageWf st hi

/-- An image that an open finds is in order, and so are the ones that stay behind (R18, R323). -/
theorem Instance.Sound.takeImage {x : Instance} (hx : x.Sound) (src : ImageSource) :
    (takeImage src x).2.Sound ∧ ∀ st, (takeImage src x).1 = some st → st.ok := by
  rcases takeImage_cases x src with ⟨bs, -, h⟩ | ⟨i, st, -, hi, h⟩ | ⟨i, -, -, h⟩ <;> rw [h]
  · exact ⟨hx, fun st hst => by cases hst; exact Store.ofBytes_ok bs⟩
  · refine ⟨⟨hx.combined, hx.bound, hx.controllerAt7, hx.controllerOnly7, hx.targets, fun u hu => ?_, hx.ctrl⟩,
      fun u hu => ?_⟩
    · exact hx.kept u (List.mem_of_mem_eraseIdx hu)
    · cases hu
      exact hx.kept st (List.mem_of_getElem? hi)
  · exact ⟨hx, fun st hst => by cases hst⟩

/-- `GEOMETRY_OF_SIZE` stays within the image (R18, D50). -/
theorem geometryOfSize_fits (p : Params) (n : Nat) :
    1 ≤ (p.geometryOfSize n).bps ∧ (p.geometryOfSize n).totalSectors * (p.geometryOfSize n).bps ≤ n := by
  refine ⟨le_max_right _ _, ?_⟩
  exact (Nat.mul_le_mul_right _ (min_le_right _ _)).trans (Nat.div_mul_le_self _ _)

theorem createTarget_inv (p : Params) (k : Fin 7) (serial : Nat) (ready : Bool) (image : Option Store)
    (h : ∀ st, image = some st → st.ok) : (createTarget p k serial ready image).Inv k := by
  refine ⟨rfl, rfl, h, rfl, fun st hst => ?_⟩
  cases (show image = some st from hst)
  exact geometryOfSize_fits p st.size

theorem openImage_inv (p : Params) {st : Store} {t : Target} {k : Fin 7} (ht : t.Inv k) (hst : st.ok) :
    (openImage p st t).Inv k := by
  refine ⟨ht.atSlot, ht.notBusy, fun u hu => ?_, ht.bufSorted, fun u hu => ?_⟩
  · cases hu
    exact hst
  · cases hu
    exact geometryOfSize_fits p st.size

theorem closeImage_inv {t : Target} {k : Fin 7} (ht : t.Inv k) : (closeImage t).Inv k where
  atSlot := ht.atSlot
  notBusy := ht.notBusy
  imageWf _ h := nomatch h
  bufSorted := ht.bufSorted
  geomFits _ h := nomatch h

/-- A change of one Target's record that keeps it in order. -/
theorem Instance.Sound.modTarget {x : Instance} (hx : x.Sound) (k : Fin 7) (f : Target → Target)
    (hf : ∀ t, x.target? k = some t → (f t).Inv k) : (x.modTarget k f).Sound := by
  cases ht : x.target? k with
  | none => rw [Instance.modTarget_none ht]; exact hx
  | some t =>
    rw [Instance.modTarget_some ht]
    have hother : ∀ j : Fin 8, j ≠ slotAddr k → (x.withTarget k (f t)).bus.occ[j] = x.bus.occ[j] := fun j hj =>
      set_getElem_ne _ _ (Ne.symm hj)
    refine ⟨hx.combined, hx.bound, ?_, fun j => ?_, fun j u hu => ?_, hx.kept, hx.ctrl⟩
    · exact (hother 7 fun e => slotAddr_ne_7 k e.symm).trans hx.controllerAt7
    · by_cases hj : j = k
      · subst hj
        rw [Instance.target?_eq_some.1 (Instance.withTarget_target?_same x j (f t))]
        exact fun e => by cases e
      · exact hother (slotAddr j) (fun e => hj (slotAddr_inj e)) ▸ hx.controllerOnly7 j
    · by_cases hj : j = k
      · subst hj
        rw [Instance.withTarget_target?_same] at hu
        cases hu
        exact hf t ht
      · rw [Instance.withTarget_target?_other _ _ _ _ hj] at hu
        exact hx.targets j u hu

/-! ### What an event can do to a Controller -/

/-- The instructions whose body stores into SCMD: the write of it, the command bytes, and the write of SCTL, which clears
bit 4 when it aborts (R115, R116). -/
def Instr.writesScmd (i : Instr) (k : InstId) : Prop :=
  (∃ odd v, i = .wScmd k odd v ∨ i = .wSctl k odd v) ∨
  ∃ low, i = .scmdBusRelease k low ∨ i = .scmdSelect k low ∨ i = .scmdResetAtn k low ∨ i = .scmdSetAtn k low ∨
    i = .scmdTransfer k low ∨ i = .scmdTransferPause k low ∨ i = .scmdResetAckreq k low ∨ i = .scmdSetAckreq k low

/-- What the event `i` of instance `k` may do to the Controller's registers before the lines follow: each register that
only the host writes changes in its own accesses only, and a flag falls only by its own write (R111, R292). -/
structure CtrlDoes (i : Instr) (k : InstId) (c d : Controller) : Prop where
  bdid : d.bdid = c.bdid ∨ ∃ odd v, i = .wBdid k odd v
  sctl : d.sctl = c.sctl ∨ ∃ odd v, i = .wSctl k odd v
  sdgc : d.sdgc = c.sdgc ∨ ∃ odd v, i = .wSdgc k odd v
  pctl : d.pctl = c.pctl ∨ ∃ odd v, i = .wPctl k odd v
  dreg : d.dreg = c.dreg ∨ ∃ odd v, i = .wDreg k odd v ∨ i = .rDreg k odd
  scmd : d.scmd = c.scmd ∨ Instr.writesScmd i k
  unraised : (d.ints &&& 0xC2) &&& ~~~c.ints = 0
  flags : (∀ odd v, i ≠ .wInts k odd v) → c.ints &&& ~~~d.ints = 0
  cleared : ∀ odd v, i = .wInts k odd v → (c.ints &&& ~~~v) &&& ~~~d.ints = 0
  lines : d.irqLine = c.irqLine ∧ d.drqLine = c.drqLine
  budget : (∀ n, i ≠ .tick k n) → d.budget ≤ c.budget

variable {i : Instr} {k : InstId}

theorem CtrlDoes.trans {c d e : Controller} (h : CtrlDoes i k c d) (g : CtrlDoes i k d e) : CtrlDoes i k c e := by
  have either {α : Type} {a b c : α} {P : Prop} (h1 : b = a ∨ P) (h2 : c = b ∨ P) : c = a ∨ P :=
    h2.elim (fun e => h1.imp_left e.trans) .inr
  refine ⟨either h.bdid g.bdid, either h.sctl g.sctl, either h.sdgc g.sdgc, either h.pctl g.pctl, either h.dreg g.dreg,
    either h.scmd g.scmd, and_not_trans g.unraised h.unraised, fun hi => ?_, fun odd v hi => ?_,
    ⟨g.lines.1.trans h.lines.1, g.lines.2.trans h.lines.2⟩, fun hi => (g.budget hi).trans (h.budget hi)⟩
  · have := and_not_trans (m := 0xFF) ((and_allOnes c.ints).symm ▸ h.flags hi) ((and_allOnes d.ints).symm ▸ g.flags hi)
    rwa [and_allOnes] at this
  · exact and_not_trans (h.cleared odd v hi) (g.cleared odd v hi)

/-- A body that leaves the flags and the lines, and a register of the host unless it is its own. -/
theorem CtrlDoes.of_write {c d : Controller}
    (h1 : d.bdid = c.bdid ∨ ∃ odd v, i = .wBdid k odd v := by exact .inl rfl)
    (h2 : d.sctl = c.sctl ∨ ∃ odd v, i = .wSctl k odd v := by exact .inl rfl)
    (h3 : d.sdgc = c.sdgc ∨ ∃ odd v, i = .wSdgc k odd v := by exact .inl rfl)
    (h4 : d.pctl = c.pctl ∨ ∃ odd v, i = .wPctl k odd v := by exact .inl rfl)
    (h5 : d.dreg = c.dreg ∨ ∃ odd v, i = .wDreg k odd v ∨ i = .rDreg k odd := by exact .inl rfl)
    (h6 : d.scmd = c.scmd ∨ Instr.writesScmd i k := by exact .inl rfl) (h7 : d.ints = c.ints := by rfl)
    (h8 : d.irqLine = c.irqLine := by rfl) (h9 : d.drqLine = c.drqLine := by rfl)
    (h10 : (∀ n, i ≠ .tick k n) → d.budget ≤ c.budget := by exact fun _ => le_refl _) : CtrlDoes i k c d :=
  ⟨h1, h2, h3, h4, h5, h6, h7 ▸ and_not_same _ _, fun _ => h7 ▸ BitVec.and_not_self _,
    fun _ _ _ => h7 ▸ and_not_same _ _, ⟨h8, h9⟩, h10⟩

/-- A body that leaves the host's registers, the flags and the lines. -/
theorem CtrlDoes.of_eq {c d : Controller} (h1 : d.bdid = c.bdid := by rfl) (h2 : d.sctl = c.sctl := by rfl)
    (h3 : d.sdgc = c.sdgc := by rfl) (h4 : d.pctl = c.pctl := by rfl) (h5 : d.dreg = c.dreg := by rfl)
    (h6 : d.scmd = c.scmd ∨ Instr.writesScmd i k := by exact .inl rfl) (h7 : d.ints = c.ints := by rfl)
    (h8 : d.irqLine = c.irqLine := by rfl) (h9 : d.drqLine = c.drqLine := by rfl)
    (h10 : (∀ n, i ≠ .tick k n) → d.budget ≤ c.budget := by exact fun _ => le_refl _) : CtrlDoes i k c d :=
  .of_write (.inl h1) (.inl h2) (.inl h3) (.inl h4) (.inl h5) h6 h7 h8 h9 h10

theorem CtrlReacts.does {c d : Controller} (h : CtrlReacts c d) : CtrlDoes i k c d := by
  obtain ⟨f, hf, hints⟩ := h.ints
  refine ⟨.inl h.bdid, .inl h.sctl, .inl h.sdgc, .inl h.pctl, .inl h.dreg, .inl h.scmd, hints ▸ or_and_not hf _, fun _ => ?_,
    fun _ v _ => hints ▸ and_not_or _ _ _, h.lines, fun _ => h.budget⟩
  have := and_not_or c.ints f 0xFF
  rwa [and_allOnes, ← hints] at this

/-! ### What an event can do to an instance -/

/-- The calls made from one instance to the other are store accesses for Targets that were there, within their images
unless they fail; and a call that would be so in the other is so in the first (R50). -/
structure CallsInside (x y : Instance) : Prop where
  made : ∃ l, y.calls = x.calls ++ l ∧ ∀ c ∈ l, c.inBounds x
  back : ∀ c : Call, c.inBounds y → c.inBounds x

theorem CallsInside.trans {x y z : Instance} (h : CallsInside x y) (g : CallsInside y z) : CallsInside x z := by
  obtain ⟨l, hl, hin⟩ := h.made
  obtain ⟨m, hm, gin⟩ := g.made
  refine ⟨⟨l ++ m, by rw [hm, hl, List.append_assoc], fun c hc => ?_⟩, fun c hc => h.back c (g.back c hc)⟩
  rcases List.mem_append.1 hc with hc | hc
  · exact hin c hc
  · exact h.back c (gin c hc)

theorem CallsInside.of_eq {x y : Instance} (hc : y.calls = x.calls)
    (ht : ∀ j t, y.target? j = some t → x.target? j = some t) : CallsInside x y := by
  refine ⟨⟨[], by simp [hc], by simp⟩, fun c hin => ?_⟩
  cases c with
  | irq | drq => exact hin.elim
  | storeRead | storeWrite =>
    obtain ⟨t, st, h1, h2⟩ := hin
    exact ⟨t, st, ht _ t h1, h2⟩

/-- The instructions that open an image: what a Target's image is changes in them. -/
def Instr.opensImage : Instr → Bool
  | .busAttach .. | .envOpenImage .. => true
  | _ => false

/-- What the event `i` of instance `k` may do to its instance before the lines follow. -/
structure Does (i : Instr) (k : InstId) (x y : Instance) : Prop where
  ctrl : CtrlDoes i k x.ctrl y.ctrl
  quiet : y.calls.filter Call.isLine = x.calls.filter Call.isLine
  sound : x.Sound → y.Sound
  inside : Instr.opensImage i = false → CallsInside x y

theorem Does.trans {x y z : Instance} (h : Does i k x y) (g : Does i k y z) : Does i k x z :=
  ⟨h.ctrl.trans g.ctrl, g.quiet.trans h.quiet, fun hx => g.sound (h.sound hx),
    fun hi => (h.inside hi).trans (g.inside hi)⟩

/-- Whatever the participants do in an event is something the event may do. -/
theorem Reacts.does {x y : Instance} (h : Reacts x y) : Does i k x y :=
  ⟨h.ctrl.does, h.quiet, h.sound, fun _ => ⟨h.calls, fun _ hc => Call.inBounds_of_reacts h hc⟩⟩

theorem Does.refl (x : Instance) : Does i k x x := (Reacts.refl x).does

/-- A change of the Controller alone. -/
theorem Does.modCtrl {x : Instance} {f : Controller → Controller} (h : CtrlDoes i k x.ctrl (f x.ctrl))
    (hs : x.ctrl.Sound → (f x.ctrl).Sound) : Does i k x (x.modCtrl f) :=
  ⟨h, rfl, fun hx => hx.setCtrl rfl rfl (hs hx.ctrl), fun _ => .of_eq rfl fun _ _ ht => ht⟩

/-- The value that an event returns is nothing of the machine's (log 10). -/
theorem Does.setRet (x : Instance) (r : Ret) : Does i k x { x with ret := r } :=
  ⟨.of_eq, rfl, fun hx => hx.setCtrl rfl rfl hx.ctrl, fun _ => .of_eq rfl fun _ _ ht => ht⟩

/-- Another bus with the same occupants. -/
theorem Does.setBus {x : Instance} {b : Bus} (hc : b.combined) (ho : b.occ = x.bus.occ) (hcb : b.cb = x.bus.cb) :
    Does i k x { x with bus := b } :=
  ⟨.of_eq, rfl, fun hx => hx.setBus hc ho hcb,
    fun _ => .of_eq rfl fun j _ ht => by rwa [Instance.target?_congr (y := x) ho] at ht⟩

/-- What an event leaves: it has done what it may, and the two lines have followed or not (R111, D33). -/
def Leaves (i : Instr) (k : InstId) (x z : Instance) : Prop := ∃ y, Does i k x y ∧ (z = y ∨ z = updateLines y)

theorem Does.leaves {x y : Instance} (h : Does i k x y) : Leaves i k x y := ⟨y, h, .inl rfl⟩

/-- The common tail after a body (R111). -/
theorem Does.commonTail {x y : Instance} (h : Does i k x y) (e : Env) : Leaves i k x (commonTail e y) := by
  obtain ⟨z, hz, htail⟩ := commonTail_settles e y
  exact ⟨z, h.trans hz.does, .inr htail⟩

/-- A register read, at either polarity (R43, R110). -/
theorem Leaves.readRegister {odd : Bool} {body : Instance → Byte × Instance} {e : Env} {x : Instance}
    (h : Does i k x (body x).2) : Leaves i k x (readRegister odd body e x) := by
  unfold Machine.readRegister
  split
  · exact (h.trans (.setRet _ _)).commonTail e
  · exact (Does.setRet x _).leaves

theorem Leaves.readPlain {odd : Bool} {value : Instance → Byte} {e : Env} {x : Instance} :
    Leaves i k x (readPlain odd value e x) := .readRegister (.refl x)

/-- A register write, at either polarity (R43, R110). -/
theorem Leaves.writeRegister {odd : Bool} {body : Env → Instance → Instance} {e : Env} {x : Instance}
    (h : Does i k x (body e x)) : Leaves i k x (writeRegister odd body e x) := by
  unfold Machine.writeRegister
  split
  · exact h.commonTail e
  · exact (Does.refl x).leaves

theorem Leaves.writePlain {odd : Bool} {f : Controller → Controller} {e : Env} {x : Instance}
    (h : CtrlDoes i k x.ctrl (f x.ctrl)) (hs : x.ctrl.Sound → (f x.ctrl).Sound) :
    Leaves i k x (writePlain odd f e x) := .writeRegister (.modCtrl h hs)

/-- An access that selects no register (R43). -/
theorem Leaves.accessNothing (acc : Access) (e : Env) (x : Instance) : Leaves i k x (accessNothing acc e x) := by
  cases acc with
  | read => exact (Does.setRet x _).leaves
  | write => exact (Does.refl x).leaves

/-- The notification of a Bus call from outside (R91, R175). -/
theorem Does.notifyEvent {x y : Instance} (h : Does i k x y) (e : Env) : Leaves i k x (notifyEvent e y) := by
  unfold Machine.notifyEvent
  split
  · exact ⟨_, h.trans (notify_reacts e y).does, .inr rfl⟩
  · exact ⟨_, h.trans (notify_reacts e y).does, .inl rfl⟩

/-- A Bus call from outside that puts a bus in place (R93 to R95). -/
theorem Does.changeBus {x y : Instance} {b : Bus} (h : Does i k x { y with bus := b }) (e : Env) :
    Leaves i k x (changeBus (Machine.notifyEvent e) y b) := by
  rcases changeBus_cases (Machine.notifyEvent e) y b with ⟨-, g⟩ | ⟨-, g⟩ <;> rw [g]
  · exact h.leaves
  · exact h.notifyEvent e

/-! ### Bodies with side effects -/

theorem Controller.Sound.setSerr {c d : Controller} (h : c.Sound) (h1 : d.fifo.ring) (h2 : d.ints = c.ints)
    (h3 : d.serr = 0) (h4 : d.pctl = c.pctl) (h5 : d.bfTimer = c.bfTimer) (h6 : d.busy = c.busy) : d.Sound :=
  ⟨h1, h2 ▸ h.ints, by rw [h3]; exact BitVec.zero_and, h4 ▸ h.pctl, h5 ▸ h.bfTimer, h6.trans h.busy⟩

/-- `abort_all` (R115). -/
theorem abortAll_does (e : Env) (x : Instance) (hi : Instr.writesScmd i k) : Does i k x (abortAll (notify e) x) := by
  have hrelease : Reacts x (guarded (setControl (notify e) 7 0 sigALL) x) :=
    guarded_reacts (fun y => setControl_reacts (notify_reacts e) 7 0 sigALL (driven_7 y)) x
  have hshadow : Reacts (guarded (setControl (notify e) 7 0 sigALL) x)
      ((guarded (setControl (notify e) 7 0 sigALL) x).modCtrl fun c => { c with diagSig := 0 }) :=
    .modCtrl ⟨rfl, rfl, rfl, rfl, rfl, rfl, rfl, keepInts _, id, le_refl _, rfl, le_refl _, rfl, rfl⟩
  refine ((hrelease.trans hshadow).trans (setData_reacts 7 0 (driven_7 _))).does.trans ?_
  unfold abortAll
  exact .modCtrl (.of_eq (h6 := .inr hi)) fun h => h.setSerr (Fifo.clear_ring _) rfl rfl rfl rfl rfl

/-- The write of SCTL (R115). -/
theorem writeSctl_does (k : InstId) (odd : Bool) (v : Byte) (e : Env) (x : Instance) :
    Does (.wSctl k odd v) k x (writeSctl v e x) := by
  have hstore : Does (.wSctl k odd v) k x (x.modCtrl fun c => { c with sctl := v }) :=
    .modCtrl (.of_write (h2 := .inr ⟨odd, v, rfl⟩))
      fun h => ⟨h.ring, h.ints, h.serr, h.pctl, h.bfTimer, h.busy⟩
  unfold writeSctl
  simp only
  split
  · exact hstore.trans (abortAll_does e _ (.inl ⟨odd, v, .inr rfl⟩))
  · exact hstore

/-- The read of DREG (R126). -/
theorem readDreg_does (k : InstId) (odd : Bool) (x : Instance) : Does (.rDreg k odd) k x (readDreg x).2 := by
  unfold readDreg
  split
  · exact .refl x
  · exact Does.modCtrl (f := fun c => { c with dreg := c.fifo.front, fifo := c.fifo.pop }) (.of_write (h5 := .inr ⟨odd, 0, .inr rfl⟩))
      fun h => ⟨Fifo.pop_ring _ h.ring, h.ints, h.serr, h.pctl, h.bfTimer, h.busy⟩

/-- The write of DREG (R127). -/
theorem writeDreg_does (k : InstId) (odd : Bool) (v : Byte) (c : Controller) :
    CtrlDoes (.wDreg k odd v) k c (writeDreg v c) ∧ (c.Sound → (writeDreg v c).Sound) := by
  unfold writeDreg
  split
  · refine ⟨.of_write (h5 := .inr ⟨odd, v, .inl rfl⟩),
      fun h => ⟨h.ring, h.ints, or_and_eq_zero h.serr (by decide), h.pctl, h.bfTimer, h.busy⟩⟩
  · exact ⟨.of_write (h5 := .inr ⟨odd, v, .inl rfl⟩), fun h => ⟨Fifo.push_ring _ _ h.ring, h.ints, h.serr, h.pctl, h.bfTimer, h.busy⟩⟩

/-- The write of INTS (R117). -/
theorem clearInts_does (k : InstId) (odd : Bool) (v : Byte) (x : Instance) :
    Does (.wInts k odd v) k x (clearInts v x) := by
  refine .modCtrl ⟨.inl rfl, .inl rfl, .inl rfl, .inl rfl, .inl rfl, .inl rfl, ?_,
    fun hi => absurd rfl (hi odd v), fun o w hw => ?_, ⟨rfl, rfl⟩, fun _ => le_refl _⟩
    fun h => ⟨h.ring, ?_, h.serr, h.pctl, h.bfTimer, h.busy⟩
  · show ((x.ctrl.ints &&& ~~~v) &&& 0xC2) &&& ~~~x.ctrl.ints = 0
    rw [BitVec.and_assoc x.ctrl.ints]
    exact and_not_same _ _
  · cases hw
    exact BitVec.and_not_self _
  · rw [BitVec.and_assoc, BitVec.and_comm (~~~v), ← BitVec.and_assoc, h.ints]
    exact BitVec.zero_and

/-- An operation on the Controller's lines and engine that may also clear the overrun, as a command does (R153, R156). -/
abbrev Doing (i : Instr) (k : InstId) (f : Instance → Instance) : Prop := ∀ x, Does i k x (f x)

theorem cmdBusRelease_does (e : Env) : Doing i k (cmdBusRelease (notify e)) := by
  intro x
  have hrelease := releaseSelection_reacts (notify_reacts e) x
  unfold cmdBusRelease
  split
  · exact (hrelease.trans (.modCtrl ⟨rfl, rfl, rfl, rfl, rfl, rfl, rfl, keepInts _, id, le_refl _, rfl, le_refl _, rfl,
      rfl⟩)).does
  · split
    · exact (hrelease.trans (.modCtrl ⟨rfl, rfl, rfl, rfl, rfl, rfl, rfl, keepInts _, id, le_refl _, rfl, le_refl _, rfl,
        rfl⟩)).does
    · exact .refl x

theorem cmdSelect_does : Doing i k cmdSelect := by
  intro x
  unfold cmdSelect
  split
  · exact .modCtrl .of_eq fun h => h.setSerr h.ring rfl rfl rfl rfl rfl
  · exact .refl x

theorem cmdResetAtn_does (e : Env) : Doing i k (cmdResetAtn (notify e)) := fun x =>
  ((Reacts.modCtrl (x := x) ⟨rfl, rfl, rfl, rfl, rfl, rfl, rfl, keepInts _, id, le_refl _, rfl, le_refl _, rfl,
    rfl⟩).trans (drive_reacts (notify_reacts e) 0 sigATN _)).does

theorem cmdSetAtn_does (e : Env) : Doing i k (cmdSetAtn (notify e)) := by
  intro x
  have hqueue : Reacts x (x.modCtrl fun c => { c with atnQueued := true }) :=
    .modCtrl ⟨rfl, rfl, rfl, rfl, rfl, rfl, rfl, keepInts _, id, le_refl _, rfl, le_refl _, rfl, rfl⟩
  unfold cmdSetAtn
  simp only
  split
  · exact (hqueue.trans (drive_reacts (notify_reacts e) sigATN sigATN _)).does
  · exact hqueue.does

theorem cmdTransfer_does (v : Byte) : Doing i k (cmdTransfer v) := by
  intro x
  unfold cmdTransfer
  split
  · exact .modCtrl .of_eq fun h => h.setSerr h.ring rfl rfl rfl rfl rfl
  · exact .refl x

theorem cmdResetAckreq_does (e : Env) : Doing i k (cmdResetAckreq (notify e)) := by
  intro x
  unfold cmdResetAckreq
  split
  · exact (drive_reacts (notify_reacts e) 0 sigACK x).does
  · exact .refl x

theorem cmdSetAckreq_does (e : Env) : Doing i k (cmdSetAckreq (notify e)) := by
  intro x
  unfold cmdSetAckreq
  split
  · exact (drive_reacts (notify_reacts e) sigACK sigACK x).does
  · exact .refl x

theorem executeCommand_does (e : Env) (v : Byte) : Doing i k (executeCommand (notify e) v) := by
  intro x
  unfold executeCommand
  split
  · exact cmdBusRelease_does e x
  · exact cmdSelect_does x
  · exact cmdResetAtn_does e x
  · exact cmdSetAtn_does e x
  · exact cmdTransfer_does v x
  · exact .refl x
  · exact cmdResetAckreq_does e x
  · exact cmdSetAckreq_does e x

/-- The write of SCMD: the byte is stored, RST-out driven and the command run (R116). -/
theorem writeScmdWith_does {command : (Instance → Instance) → Instance → Instance} {e : Env}
    (h : Doing i k (command (notify e))) (hi : Instr.writesScmd i k) (v : Byte) (x : Instance) :
    Does i k x (writeScmdWith command v e x) := by
  have hstore : Does i k x (x.modCtrl fun c => { c with scmd := v }) :=
    .modCtrl (.of_eq (h6 := .inr hi)) fun h => ⟨h.ring, h.ints, h.serr, h.pctl, h.bfTimer, h.busy⟩
  have hdriven := hstore.trans (drive_reacts (notify_reacts e) (onlyIf (v.getLsbD 4) sigRST) sigRST _).does
  unfold writeScmdWith
  simp only
  split
  · exact hdriven
  · exact hdriven.trans (h _)

theorem issueCommand_leaves {command : (Instance → Instance) → Instance → Instance} {e : Env}
    (h : Doing i k (command (notify e))) (hi : Instr.writesScmd i k) (v : Byte) (x : Instance) :
    Leaves i k x (issueCommand command v e x) := (writeScmdWith_does h hi v x).commonTail e

/-! ### The tick (R210) -/

theorem tickPending_does (e : Env) (n : Nat) (x : Instance) :
    Does (.tick k n) k x (tickPending e (notify e) n x) := by
  have hspends (c d : Controller) : (∀ m, Instr.tick k n ≠ .tick k m) → d.budget ≤ c.budget := fun h => absurd rfl (h n)
  have hsame (f : Controller → Controller) (h : CtrlDoes (.tick k n) k x.ctrl (f x.ctrl))
      (hs : x.ctrl.Sound → (f x.ctrl).Sound) : Does (.tick k n) k x (runEngine e (notify e) (x.modCtrl f)) :=
    (Does.modCtrl h hs).trans (runEngine_reacts (notify_reacts e) e _).does
  unfold tickPending
  split
  · split
    · exact hsame _ (.of_eq (h10 := hspends _ _)) fun h => ⟨h.ring, h.ints, h.serr, h.pctl, h.bfTimer, h.busy⟩
    · exact .modCtrl .of_eq fun h => ⟨h.ring, h.ints, h.serr, h.pctl, h.bfTimer, h.busy⟩
  · exact hsame _ (.of_eq (h10 := hspends _ _)) fun h => ⟨h.ring, h.ints, h.serr, h.pctl, h.bfTimer, h.busy⟩

theorem tickSelTimer_reacts (e : Env) (armed : Bool) (n : Nat) : Reacting (tickSelTimer (notify e) armed n) := by
  intro x
  unfold tickSelTimer
  split
  · split
    · split
      · exact selectionTimeout_reacts (notify_reacts e) x
      · exact .modCtrl ⟨rfl, rfl, rfl, rfl, rfl, rfl, rfl, keepInts _, id, le_refl _, rfl, le_refl _, rfl, rfl⟩
    · exact .refl x
  · exact .refl x

theorem tickBusFree_does (e : Env) (he : e.p = Config.params) (n : Nat) (x : Instance) :
    Does i k x (tickBusFree e n x) := by
  refine .modCtrl .of_eq fun h => ⟨h.ring, h.ints, h.serr, h.pctl, ?_, h.busy⟩
  simp only
  split
  · exact he ▸ min_le_right _ _
  · exact Nat.zero_le _

/-- A tick before its tail: the budget is spent or taken back (R172, R210). -/
theorem tickInstance_leaves (e : Env) (he : e.p = Config.params) (n : Nat) (x : Instance) :
    ∃ y, Does (.tick k n) k x y ∧ y.ctrl.budget = 0 ∧ tickInstance e (notify e) n x = updateLines y := by
  obtain ⟨y, hy, htail⟩ := commonTail_settles e (checkDisconnect e (tickBusFree e n (tickSelTimer (notify e)
    x.ctrl.selTimer.isSome n ((tickPending e (notify e) n x).modCtrl fun c => { c with budget := 0 }))))
  refine ⟨y, ?_, ?_, htail⟩
  · have hzero : Does (.tick k n) k x ((tickPending e (notify e) n x).modCtrl fun c => { c with budget := 0 }) :=
      (tickPending_does e n x).trans
        (.modCtrl (.of_eq (h10 := fun h => absurd rfl (h n))) fun h => ⟨h.ring, h.ints, h.serr, h.pctl, h.bfTimer, h.busy⟩)
    exact (((hzero.trans (tickSelTimer_reacts e _ n _).does).trans (tickBusFree_does e he n _)).trans
      (checkDisconnect_reacts e _).does).trans hy.does
  · have h1 := (tickSelTimer_reacts e x.ctrl.selTimer.isSome n
      ((tickPending e (notify e) n x).modCtrl fun c => { c with budget := 0 })).ctrl.budget
    exact Nat.le_zero.1 ((hy.ctrl.budget.trans (checkDisconnect_reacts e _).ctrl.budget).trans h1)

/-! ### Bus and environment calls -/

/-- A CDB only reacts (R250). -/
theorem runCdb_reacts (id : Fin 7) (bytes : List Byte) {command : Env → Fin 7 → Instance → Instance} {e : Env}
    (h : Reacting (command e id)) : Reacting (runCdb id bytes command e) := fun _ =>
  (Reacts.modTarget (f := loadCdb bytes) fun _ => .plain rfl rfl rfl rfl rfl rfl rfl rfl).trans (h _)

/-- A CDB whose command only changes the record. -/
theorem runCdb_own_leaves (id : Fin 7) (bytes : List Byte) {f : Env → Target → Target} {e : Env} {x : Instance}
    (h : ∀ t, TargetReacts t (f e t)) :
    Leaves i k x (runCdb id bytes (fun e j y => y.modTarget j (f e)) e x) :=
  (runCdb_reacts id bytes (fun _ => .modTarget h) x).does.leaves

theorem runCdb_leaves (id : Fin 7) (bytes : List Byte) {command : Env → Fin 7 → Instance → Instance} {e : Env}
    {x : Instance} (h : Reacting (command e id)) : Leaves i k x (runCdb id bytes command e x) :=
  (runCdb_reacts id bytes h x).does.leaves

@[simp] theorem takeImage_ctrl (src : ImageSource) (x : Instance) : (takeImage src x).2.ctrl = x.ctrl := by
  rcases takeImage_cases x src with ⟨_, -, h⟩ | ⟨_, _, -, -, h⟩ | ⟨_, -, -, h⟩ <;> rw [h]

@[simp] theorem takeImage_calls (src : ImageSource) (x : Instance) : (takeImage src x).2.calls = x.calls := by
  rcases takeImage_cases x src with ⟨_, -, h⟩ | ⟨_, _, -, -, h⟩ | ⟨_, -, -, h⟩ <;> rw [h]

theorem openAt_calls (p : Params) (id : Fin 7) (src : ImageSource) (x : Instance) :
    (openAt p id src x).calls = x.calls := by
  rcases openAt_cases x p id src with h | ⟨t, st, -, -, h⟩ <;> rw [h]
  rw [Instance.modTarget_calls, keepImage_calls, takeImage_calls]

/-- `attach` of a new Target (R93, R321). -/
theorem busAttach_leaves (e : Env) (inst : InstId) (id : Fin 7) (dev : NewTarget) (x : Instance) :
    Leaves (.busAttach inst id dev) k x
      (attach (notifyEvent e) id (createTarget e.p id x.draws dev.ready (newImage dev (nextDraw x)).1)
        (keepImage id (newImage dev (nextDraw x)).2)) := by
  have hnew : (newImage dev (nextDraw x)).2.ctrl = x.ctrl ∧ (newImage dev (nextDraw x)).2.calls = x.calls ∧
      (x.Sound → (newImage dev (nextDraw x)).2.Sound ∧ ∀ st, (newImage dev (nextDraw x)).1 = some st → st.ok) := by
    have hdraw : x.Sound → (nextDraw x).Sound := fun hx => hx.setCtrl rfl rfl hx.ctrl
    cases hsrc : dev.image with
    | none =>
      simp only [newImage, hsrc]
      exact ⟨rfl, rfl, fun hx => ⟨hdraw hx, fun st hst => by cases hst⟩⟩
    | some src =>
      simp only [newImage, hsrc]
      exact ⟨takeImage_ctrl _ _, takeImage_calls _ _, fun hx => (hdraw hx).takeImage src⟩
  obtain ⟨hctrl, hcalls, hsound⟩ := hnew
  unfold attach
  refine Does.changeBus ⟨?_, ?_, fun hx => ?_, fun h => by cases h⟩ e
  · rw [show (keepImage id (newImage dev (nextDraw x)).2).ctrl = x.ctrl from hctrl]
    exact .of_eq
  · exact congrArg (List.filter Call.isLine) hcalls
  · obtain ⟨hnew, himage⟩ := hsound hx
    refine (hnew.keepImage id).replace id _ (fun e => by cases e) fun t ht => ?_
    cases ht
    exact createTarget_inv e.p id x.draws dev.ready _ himage

/-- `detach` (R94). -/
theorem busDetach_leaves (e : Env) (id : Fin 7) (x : Instance) :
    Leaves i k x (detach (notifyEvent e) id (keepImage id x)) := by
  unfold detach
  have hctrl : CtrlDoes i k x.ctrl x.ctrl := .of_eq
  refine Does.changeBus (y := keepImage id x) ⟨hctrl, rfl, fun hx => ?_, fun _ => .of_eq rfl fun j t ht => ?_⟩ e
  · exact (hx.keepImage id).replace id none (fun e => by cases e) fun t ht => by cases ht
  · have hocc := Instance.target?_eq_some.1 ht
    refine Instance.target?_eq_some.2 (Eq.trans ?_ hocc)
    by_cases hj : id = j
    · subst hj
      have hnone : ((keepImage id x).bus.replace (slotAddr id) none).occ[slotAddr id] = none := set_getElem_same _ _ _
      cases hnone.symm.trans hocc
    · exact (set_getElem_ne _ _ fun e => hj (slotAddr_inj e)).symm

/-- The opening of an image (R18). -/
theorem openAt_leaves (p : Params) (inst : InstId) (id : Fin 7) (src : ImageSource) (x : Instance) :
    Leaves (.envOpenImage inst id src) k x (openAt p id src x) := by
  refine Does.leaves ?_
  rcases openAt_cases x p id src with h | ⟨t, st, ht, hst, h⟩ <;> rw [h]
  · exact .refl x
  · refine ⟨?_, ?_, fun hx => ?_, fun h => by cases h⟩
    · rw [Instance.modTarget_ctrl, keepImage_ctrl, takeImage_ctrl]
      exact .of_eq
    · rw [Instance.modTarget_calls, keepImage_calls, takeImage_calls]
    · obtain ⟨htaken, hok⟩ := hx.takeImage src
      refine (htaken.keepImage id).modTarget id _ fun u hu => ?_
      exact openImage_inv p ((htaken.keepImage id).targets id u hu) (hok st hst)

/-- The closing of an image (R18, R323). -/
theorem closeImage_leaves (id : Fin 7) (x : Instance) :
    Leaves i k x ((keepImage id x).modTarget id closeImage) := by
  refine Does.leaves ⟨?_, by rw [Instance.modTarget_calls]; rfl, fun hx => ?_, fun _ => ?_⟩
  · rw [Instance.modTarget_ctrl]
    exact .of_eq
  · exact (hx.keepImage id).modTarget id _ fun u hu => closeImage_inv ((hx.keepImage id).targets id u hu)
  · refine ⟨⟨[], by simp, by simp⟩, ?_⟩
    have hback : ∀ j u st, ((keepImage id x).modTarget id closeImage).target? j = some u → u.image = some st →
        x.target? j = some u := by
      intro j u st hu hst
      cases ht : (keepImage id x).target? id with
      | none => rwa [Instance.modTarget_none ht] at hu
      | some t =>
        rw [Instance.modTarget_some ht] at hu
        by_cases hj : j = id
        · subst hj
          rw [Instance.withTarget_target?_same] at hu
          cases hu
          cases hst
        · rwa [Instance.withTarget_target?_other _ _ _ _ hj] at hu
    intro c hc
    cases c with
    | irq | drq => exact hc.elim
    | storeRead | storeWrite =>
      obtain ⟨u, st, hu, hst, hin⟩ := hc
      exact ⟨u, st, hback _ u st hu hst, hst, hin⟩

/-! ### Every instruction -/

/-- What every event of an instance leaves, said once (R10, R111): it has done what it may, the two lines have followed or
not, and the other instance has no part in it. -/
theorem exec_leaves (i : Instr) (k : InstId) (hi : i.inst? = some k) (s : State) :
    ∃ z, exec i s = .next (s.put k z) ∧ Leaves i k (beginEvent (s.get k)) z := by
  cases i with
  | envSystemReset => cases hi
  | busAttach inst id dev => cases hi; exact ⟨_, rfl, busAttach_leaves _ _ id dev _⟩
  | busDetach inst id => cases hi; exact ⟨_, rfl, busDetach_leaves _ id _⟩
  | busSetControl inst id v m =>
    cases hi
    exact ⟨_, rfl, (Does.setBus (Bus.writeControl_combined _ id v m) rfl rfl).changeBus _⟩
  | busSetData inst id v =>
    cases hi
    exact ⟨_, rfl, (Does.setBus (Bus.writeData_combined _ id v) rfl rfl).leaves⟩
  | busGetControl | busGetData | busIsBusFree | rRom => cases hi; exact ⟨_, rfl, (Does.setRet _ _).leaves⟩
  | envOpenImage inst id src => cases hi; exact ⟨_, rfl, openAt_leaves _ _ id src _⟩
  | envCloseImage inst id => cases hi; exact ⟨_, rfl, closeImage_leaves id _⟩
  | tick inst n =>
    cases hi
    obtain ⟨y, hy, -, h⟩ := tickInstance_leaves (k := k) (envOf k) rfl n (beginEvent (s.get k))
    exact ⟨_, rfl, y, hy, .inr h⟩
  | rBdid | rSctl | rScmd | rInts | rPsns | rSsts | rSerr | rPctl | rMbc | rTemp | rTch | rTcm | rTcl =>
    cases hi; exact ⟨_, rfl, .readPlain⟩
  | rDreg inst odd => cases hi; exact ⟨_, rfl, .readRegister (readDreg_does _ odd _)⟩
  | wBdid inst odd v =>
    cases hi
    exact ⟨_, rfl, .writePlain (.of_write (h1 := .inr ⟨odd, v, rfl⟩)) fun h => ⟨h.ring, h.ints, h.serr, h.pctl, h.bfTimer, h.busy⟩⟩
  | wSdgc inst odd v =>
    cases hi
    exact ⟨_, rfl, .writePlain (.of_write (h3 := .inr ⟨odd, v, rfl⟩)) fun h => ⟨h.ring, h.ints, h.serr, h.pctl, h.bfTimer, h.busy⟩⟩
  | wPctl inst odd v =>
    cases hi
    refine ⟨_, rfl, .writePlain (.of_write (h4 := .inr ⟨odd, v, rfl⟩)) fun h => ⟨h.ring, h.ints, h.serr, ?_, h.bfTimer, h.busy⟩⟩
    simp only [BitVec.and_assoc]
    exact BitVec.and_zero
  | wDreg inst odd v =>
    cases hi
    exact ⟨_, rfl, .writePlain (writeDreg_does _ odd v _).1 (writeDreg_does k odd v _).2⟩
  | wTemp inst odd v | wTch inst odd v | wTcm inst odd v | wTcl inst odd v | wSsts inst odd v | wSerr inst odd v
  | wMbc inst odd v =>
    cases hi
    exact ⟨_, rfl, .writePlain .of_eq fun h => ⟨h.ring, h.ints, h.serr, h.pctl, h.bfTimer, h.busy⟩⟩
  | wSctl inst odd v => cases hi; exact ⟨_, rfl, .writeRegister (writeSctl_does _ odd v _ _)⟩
  | wScmd inst odd v =>
    cases hi
    exact ⟨_, rfl, .writeRegister (writeScmdWith_does (executeCommand_does _ v) (.inl ⟨odd, v, .inl rfl⟩) v _)⟩
  | wInts inst odd v => cases hi; exact ⟨_, rfl, .writeRegister (clearInts_does _ odd v _)⟩
  | rwIndex3 inst odd acc | rwIndex15 inst odd acc | rwWrongPolarity inst index acc =>
    cases hi; exact ⟨_, rfl, .accessNothing acc _ _⟩
  | wRom => cases hi; exact ⟨_, rfl, (Does.refl _).leaves⟩
  | scmdBusRelease inst low =>
    cases hi; exact ⟨_, rfl, issueCommand_leaves (cmdBusRelease_does _) (.inr ⟨low, by simp⟩) _ _⟩
  | scmdSelect inst low => cases hi; exact ⟨_, rfl, issueCommand_leaves cmdSelect_does (.inr ⟨low, by simp⟩) _ _⟩
  | scmdResetAtn inst low =>
    cases hi; exact ⟨_, rfl, issueCommand_leaves (cmdResetAtn_does _) (.inr ⟨low, by simp⟩) _ _⟩
  | scmdSetAtn inst low => cases hi; exact ⟨_, rfl, issueCommand_leaves (cmdSetAtn_does _) (.inr ⟨low, by simp⟩) _ _⟩
  | scmdTransfer inst low =>
    cases hi; exact ⟨_, rfl, issueCommand_leaves (cmdTransfer_does _) (.inr ⟨low, by simp⟩) _ _⟩
  | scmdTransferPause inst low =>
    cases hi; exact ⟨_, rfl, issueCommand_leaves (fun y => .refl y) (.inr ⟨low, by simp⟩) _ _⟩
  | scmdResetAckreq inst low =>
    cases hi; exact ⟨_, rfl, issueCommand_leaves (cmdResetAckreq_does _) (.inr ⟨low, by simp⟩) _ _⟩
  | scmdSetAckreq inst low =>
    cases hi; exact ⟨_, rfl, issueCommand_leaves (cmdSetAckreq_does _) (.inr ⟨low, by simp⟩) _ _⟩
  | cdbTestUnitReady inst id c => cases hi; exact ⟨_, rfl, runCdb_own_leaves id _ (testUnitReady_reacts _)⟩
  | cdbRezeroUnit inst id c => cases hi; exact ⟨_, rfl, runCdb_own_leaves id _ (rezeroUnit_reacts _)⟩
  | cdbRequestSense inst id c => cases hi; exact ⟨_, rfl, runCdb_own_leaves id _ requestSense_reacts⟩
  | cdbFormatUnit inst id c | cdbStartStopUnit inst id c =>
    cases hi; exact ⟨_, rfl, runCdb_own_leaves id _ good_reacts⟩
  | cdbSeek6 inst id c => cases hi; exact ⟨_, rfl, runCdb_own_leaves id _ (seek6_reacts _)⟩
  | cdbInquiry inst id c => cases hi; exact ⟨_, rfl, runCdb_own_leaves id _ (inquiry_reacts _)⟩
  | cdbModeSelect6 inst id c => cases hi; exact ⟨_, rfl, runCdb_own_leaves id _ fun t => dataOut_reacts _ t⟩
  | cdbModeSense6 inst id c => cases hi; exact ⟨_, rfl, runCdb_own_leaves id _ (modeSense6_reacts _)⟩
  | cdbReadCapacity inst id c => cases hi; exact ⟨_, rfl, runCdb_own_leaves id _ (readCapacity_reacts _)⟩
  | cdbVerify10 inst id c => cases hi; exact ⟨_, rfl, runCdb_own_leaves id _ (verify10_reacts _)⟩
  | cdbOther inst id op args =>
    cases hi; exact ⟨_, rfl, runCdb_own_leaves id _ fun t => checkCondition_reacts _ _ _ _ _ t⟩
  | cdbRead6 inst id c => cases hi; exact ⟨_, rfl, runCdb_leaves id _ (read6_reacts _ id)⟩
  | cdbRead10 inst id c => cases hi; exact ⟨_, rfl, runCdb_leaves id _ (read10_reacts _ id)⟩
  | cdbWrite6 inst id c => cases hi; exact ⟨_, rfl, runCdb_leaves id _ (write6_reacts _ id)⟩
  | cdbWrite10 inst id c => cases hi; exact ⟨_, rfl, runCdb_leaves id _ (write10_reacts _ id)⟩

end Sys2Proof.Machine
end

section
/-! SUPPORT. The rules of the whole machine, from what an event can do (R10, R111, R292, D33). -/

namespace Sys2Proof.Machine

variable {i : Instr} {k : InstId} {s t : State}

/-! ### After the event -/

/-- Both lines at their levels (R294, R299). -/
theorem updateLines_sound {x : Instance} (hx : x.Sound) : (updateLines x).Sound := by
  rw [updateLines_eq]
  exact hx.setCtrl rfl rfl ⟨hx.ctrl.ring, hx.ctrl.ints, hx.ctrl.serr, hx.ctrl.pctl, hx.ctrl.bfTimer, hx.ctrl.busy⟩

theorem Leaves.sound {x z : Instance} (h : Leaves i k x z) (hx : x.Sound) : z.Sound := by
  obtain ⟨y, hy, rfl | rfl⟩ := h
  · exact hy.sound hx
  · exact updateLines_sound (hy.sound hx)

/-- The Controller after an event: it has done what it may, and after that only its two lines have moved. -/
theorem Leaves.ctrl {x z : Instance} (h : Leaves i k x z) :
    ∃ d, CtrlDoes i k x.ctrl d ∧ z.ctrl = { d with irqLine := z.ctrl.irqLine, drqLine := z.ctrl.drqLine } := by
  obtain ⟨y, hy, rfl | rfl⟩ := h
  · exact ⟨z.ctrl, hy.ctrl, rfl⟩
  · exact ⟨y.ctrl, hy.ctrl, by rw [updateLines_eq]⟩

/-- The store calls after an event are those made before the lines followed (R50). -/
theorem Leaves.storeCalls {x z : Instance} (h : Leaves i k x z) (ho : Instr.opensImage i = false) {c : Call}
    (hc : c ∈ z.calls) (hline : c.isLine = false) (hx : x.calls = []) : c.inBounds x := by
  obtain ⟨y, hy, hz⟩ := h
  obtain ⟨l, hl, hin⟩ := (hy.inside ho).made
  rw [hx, List.nil_append] at hl
  refine hin c (hl ▸ ?_)
  rcases hz with rfl | rfl
  · exact hc
  · rw [updateLines_eq] at hc
    rcases List.mem_append.1 hc with hc | hc
    · exact hc
    · have hedge : ∀ e ∈ lineEdges y.ctrl, e.isLine = true := by
        unfold lineEdges
        split <;> split <;> simp [Call.isLine]
      rw [hedge c hc] at hline
      cases hline

/-- Everything an event can do to one of the two instances. -/
theorem exec_cases (i : Instr) (s t : State) (h : exec i s = .next t) :
    i = .envSystemReset ∨ ∃ k z, i.inst? = some k ∧ t = s.put k z ∧ Leaves i k (beginEvent (s.get k)) z := by
  cases hi : i.inst? with
  | none => exact .inl (inst?_eq_none i hi)
  | some k =>
    obtain ⟨z, hz, hleaves⟩ := exec_leaves i k hi s
    rw [hz] at h
    cases h
    exact .inr ⟨k, z, rfl, rfl, hleaves⟩

/-- Everything an event can do to the Controller of either instance. -/
theorem exec_ctrl (h : exec i s = .next t) (hi : i ≠ .envSystemReset) (k : InstId) :
    ∃ d, CtrlDoes i k (s.get k).ctrl d ∧
      (t.get k).ctrl = { d with irqLine := (t.get k).ctrl.irqLine, drqLine := (t.get k).ctrl.drqLine } := by
  rcases exec_cases i s t h with rfl | ⟨j, z, -, rfl, hleaves⟩
  · exact absurd rfl hi
  · by_cases hj : k = j
    · subst hj
      rw [State.get_put_same]
      exact hleaves.ctrl
    · rw [State.get_put_other _ _ _ _ hj]
      exact ⟨(s.get k).ctrl, .of_eq, rfl⟩

/-! ### Reset -/

/-- A reset instance meets the invariant, if the images it keeps are in order (R320, R323). -/
theorem reset_inv (draws : Nat) (kept : List Store) (h : ∀ st ∈ kept, st.ok) :
    (Instance.reset draws kept).Inv Config.params where
  combined := by
    have hreset : Bus.reset.combined := by constructor <;> decide
    exact hreset
  bound := rfl
  controllerAt7 := rfl
  controllerOnly7 j := by
    have honly : ∀ j : Fin 7, Bus.reset.occ[slotAddr j] ≠ some .controller := by decide
    exact honly j
  targets j t ht := by
    have hnone : ∀ j : Fin 7, (Instance.reset 0).target? j = none := by decide
    cases (hnone j).symm.trans ht
  keptWf := h
  fifoRing := rfl
  intsReserved := (by decide : (0 : Byte) &&& 0xC2 = 0)
  serrReserved := (by decide : (0 : Byte) &&& 0xDF = 0)
  pctlReserved := (by decide : (0 : Byte) &&& 0x78 = 0)
  bfTimerBound := Nat.zero_le _
  notBusy := rfl
  noBudget := rfl

theorem rebuild_inv {x : Instance} (h : x.Inv Config.params) : (rebuild x).Inv Config.params := by
  refine reset_inv _ _ fun st hst => ?_
  rcases ((keepImages_kept x targetSlots).2 st).1 hst with hst | ⟨k, -, hst⟩
  · exact h.keptWf st hst
  · obtain ⟨u, hu, hi⟩ := Option.bind_eq_some_iff.1 hst
    exact (h.targets k u hu).imageWf st hi

/-- An event keeps the invariant of its instance: for a tick the budget is emptied, elsewhere it does not grow. -/
theorem exec_keeps_inv (hs : s.Inv) (h : exec i s = .next t) : t.Inv := by
  by_cases hreset : i = .envSystemReset
  · subst hreset
    cases h
    intro k
    cases k
    · exact rebuild_inv (hs .internal)
    · exact rebuild_inv (hs .external)
  rcases exec_cases i s t h with hi | ⟨j, z, hi, rfl, hleaves⟩
  · exact absurd hi hreset
  intro k
  by_cases hk : k = j
  · subst hk
    obtain ⟨hsound, hbudget⟩ := (inv_iff _).1 (hs k)
    have hbegin : (beginEvent (s.get k)).Sound := hsound.setCtrl rfl rfl hsound.ctrl
    rw [State.get_put_same, inv_iff]
    refine ⟨hleaves.sound hbegin, ?_⟩
    by_cases htick : ∀ n, i ≠ .tick k n
    · obtain ⟨d, hd, hz⟩ := hleaves.ctrl
      rw [hz]
      exact Nat.le_zero.1 (hbudget ▸ hd.budget htick)
    · push Not at htick
      obtain ⟨n, rfl⟩ := htick
      obtain ⟨y, -, hy, hend⟩ := tickInstance_leaves (k := k) (envOf k) rfl n (beginEvent (s.get k))
      have hput : s.put k z = s.put k (updateLines y) := by
        rw [← hend]
        exact (Host.Outcome.next.inj h).symm
      have hz := congrArg (fun u : State => u.get k) hput
      simp only [State.get_put_same] at hz
      rw [hz, updateLines_eq]
      exact hy
  · rw [State.get_put_other _ _ _ _ hk]
    exact hs k

/-! ### The lines -/

/-- The two lines are at their levels, spelled out (R294, R299). -/
theorem atLevels {c : Controller} (h : c.irqLine = irqLevel c ∧ c.drqLine = drqLevel c) :
    c.irqLine = (c.sctl.getLsbD 0 && (c.ints != 0 || c.serr.getLsbD 5)) ∧
    c.drqLine = (c.xferDma && c.state.famXfer &&
      ((c.xferIn && c.fifo.count.val != 0) ||
       (!c.xferIn && decide (c.fifo.count.val < 8) && decide (c.fifo.count.val < c.tc.toNat)))) := by
  have hempty : c.fifo.empty = (c.fifo.count.val == 0) := by
    rw [Bool.eq_iff_iff, Fifo.empty_iff, beq_iff_eq, Fin.ext_iff]
    rfl
  have hfull : (!c.fifo.full) = decide (c.fifo.count.val < 8) := by
    rw [Bool.eq_iff_iff, Bool.not_eq_true', ← Bool.not_eq_true, Fifo.full_iff, decide_eq_true_iff]
    omega
  refine ⟨h.1, h.2.trans ?_⟩
  simp only [drqLevel, hempty, hfull]
  rfl

/-- A read at the instance's own polarity, as an event (R110, R111). -/
theorem onInstance_readRegister_own (inst : InstId) (body : Instance → Byte × Instance) (s : State) :
    onInstance inst (readRegister (Config.params.odd inst) body) s =
      .next (s.put inst (commonTail (envOf inst)
        { (body (beginEvent (s.get inst))).2 with ret := .byte (body (beginEvent (s.get inst))).1 })) := by
  rw [onInstance_eq, readRegister_own]

/-- A write at the instance's own polarity, as an event (R110, R111). -/
theorem onInstance_writeRegister_own (inst : InstId) (body : Env → Instance → Instance) (s : State) :
    onInstance inst (writeRegister (Config.params.odd inst) body) s =
      .next (s.put inst (commonTail (envOf inst) (body (envOf inst) (beginEvent (s.get inst))))) := by
  rw [onInstance_eq, writeRegister_own]

end Sys2Proof.Machine

namespace Sys2Proof.Proofs
open Machine

/-- Settles O1: the reset instance keeps no image. -/
theorem resetMeetsInvariant : Obligations.ResetMeetsInvariant := by
  intro k
  cases k <;> exact reset_inv 0 [] (by simp)

/-- Settles O3: `step` takes the head of the queue if no event has overrun. -/
theorem stepRunsDecodedEvent : Obligations.StepRunsDecodedEvent := by
  intro s hs
  refine ⟨fun he => ?_, fun m rest i he hd => ?_⟩
  · simp [step, hs, fetch, he]
  · simp [step, hs, fetch, he, hd]

/-- Settles O6: a step that answers a next state is idle or runs one event, which keeps the invariant. -/
theorem stepKeepsInvariant : Obligations.StepKeepsInvariant := by
  intro s t hs h
  unfold step at h
  split at h
  · cases h
  · split at h
    · cases h
      exact hs
    · refine exec_keeps_inv (fun k => ?_) h
      rw [State.get_events]
      exact hs k
    · cases h

/-- Settles O7: every arm of `exec` answers `.next`, with the instance or both put back and the queue as it was. -/
theorem everyEventCompletes : Obligations.EveryEventCompletes := by
  intro i s
  cases hi : i.inst? with
  | none =>
    rw [inst?_eq_none i hi]
    exact ⟨_, rfl, rfl⟩
  | some k =>
    obtain ⟨z, hz, -⟩ := exec_leaves i k hi s
    exact ⟨_, hz, State.put_events z s k⟩

/-- Settles O8: an event of an instance is a function of that instance's record alone, put back in its place. -/
theorem instancesAreIndependent : Obligations.InstancesAreIndependent := by
  intro i k s t hi h
  obtain ⟨f, hf⟩ := exec_onInstance i k hi
  rw [hf, onInstance_eq] at h
  cases h
  refine ⟨State.get_put_other _ _ _ _ (by cases k <;> decide), fun s' t' hget h' => ?_⟩
  rw [hf, onInstance_eq, hget] at h'
  cases h'
  rw [State.get_put_same, State.get_put_same]

/-- Settles O9: the clauses of `CtrlDoes` on the host's registers. -/
theorem hostRegistersFrame : Obligations.HostRegistersFrame := by
  intro i k s t h c d
  by_cases hi : i = .envSystemReset
  · exact ⟨.inr (.inl hi), .inr (.inl hi), .inr (.inl hi), .inr (.inl hi), .inr (.inl hi), .inr (.inl hi)⟩
  obtain ⟨e, he, hd⟩ := exec_ctrl h hi k
  have orReset {P Q R : Prop} (h : P ∨ R) : P ∨ Q ∨ R := h.imp_right .inr
  rw [show d = _ from hd]
  exact ⟨orReset he.bdid, orReset he.sctl, orReset he.sdgc, orReset he.pctl, orReset he.dreg, orReset he.scmd⟩

/-- Settles O10: the clauses of `CtrlDoes` on the flags. -/
theorem flagsFallOnlyByHost : Obligations.FlagsFallOnlyByHost := by
  intro i k s t h hi c d
  obtain ⟨e, he, hd⟩ := exec_ctrl h hi k
  rw [show d = _ from hd]
  exact ⟨he.unraised, he.flags, he.cleared⟩

/-- Settles O11. The edges: what precedes the end of an event is quiet, and the end makes the edges that are owed. The
levels: each of these events ends with the common tail. -/
theorem linesFollowLevels : Obligations.LinesFollowLevels := by
  intro k i s t h
  refine ⟨fun hi => ?_, fun hown => ?_⟩
  · obtain ⟨z, hz, y, hy, hend⟩ := exec_leaves i k hi s
    have hquiet : Quiet (beginEvent (s.get k)) y := ⟨hy.ctrl.lines.1, hy.ctrl.lines.2, hy.quiet⟩
    rw [hz] at h
    cases h
    rw [State.get_put_same]
    rcases hend with rfl | rfl
    · exact hquiet.edges
    · exact hquiet.settled
  · obtain ⟨w, hw⟩ : ∃ w, exec i s = .next (s.put k (commonTail (envOf k) w)) := by
      rcases hown with hread | ⟨v, hwrite⟩ | ⟨l, hcommand⟩ | ⟨n, rfl⟩
      · simp only [List.mem_cons, List.not_mem_nil, or_false] at hread
        rcases hread with rfl | rfl | rfl | rfl | rfl | rfl | rfl | rfl | rfl | rfl | rfl | rfl | rfl | rfl <;>
          exact ⟨_, onInstance_readRegister_own k _ s⟩
      · simp only [List.mem_cons, List.not_mem_nil, or_false] at hwrite
        rcases hwrite with rfl | rfl | rfl | rfl | rfl | rfl | rfl | rfl | rfl | rfl | rfl | rfl | rfl | rfl <;>
          exact ⟨_, onInstance_writeRegister_own k _ s⟩
      · simp only [List.mem_cons, List.not_mem_nil, or_false] at hcommand
        rcases hcommand with rfl | rfl | rfl | rfl | rfl | rfl | rfl | rfl <;> exact ⟨_, rfl⟩
      · exact ⟨_, rfl⟩
    rw [hw] at h
    cases h
    rw [State.get_put_same]
    exact atLevels (tail_lines (envOf k) (notify (envOf k)) w)

/-- Settles O57: the calls of an event are in bounds of the instance before it, but for the opening of an image, which makes
none. -/
theorem storeCallsStayInside : Obligations.StoreCallsStayInside := by
  intro i k s t id off len bs ok hi hattach h
  have hcalls : ∀ c ∈ (t.get k).calls, c.isLine = false → c.inBounds (s.get k) := by
    intro c hc hline
    cases hopen : Instr.opensImage i with
    | false =>
      obtain ⟨z, hz, hleaves⟩ := exec_leaves i k hi s
      rw [hz] at h
      cases h
      rw [State.get_put_same] at hc
      exact hleaves.storeCalls hopen hc hline rfl
    | true =>
      cases i with
      | busAttach j id dev =>
        cases hi
        exact absurd rfl (hattach id dev)
      | envOpenImage j id src =>
        cases hi
        cases h
        rw [State.get_put_same, openAt_calls] at hc
        cases hc
      | _ => cases hopen
  exact ⟨fun hc => hcalls _ hc rfl, fun hc => hcalls _ hc rfl⟩

end Sys2Proof.Proofs
end

section
/-! SUPPORT. The register accesses as events (41_controller_registers.md): the body of each, then the common tail, and the
bytes of PSNS and SSTS bit by bit. -/

namespace Sys2Proof.Machine

variable (inst : InstId) (s : State)

theorem Controller.engineFree_iff (c : Controller) : c.engineFree = true ↔ c.state = .idle ∧ c.pending = none := by
  simp [Controller.engineFree]

@[simp] theorem updateLines_ret (x : Instance) : (updateLines x).ret = x.ret := by rw [updateLines_eq]

/-! ### Reads -/

/-- The reads without side effects at polarity `o`, with what each of them returns on `x` (R114 to R131). -/
def plainReads (inst : InstId) (o : Bool) (x : Instance) : List (Instr × Byte) :=
  let c := x.ctrl
  [(.rBdid inst o, 1#8 <<< c.bdid.toNat), (.rSctl inst o, c.sctl), (.rScmd inst o, c.scmd), (.rInts inst o, c.ints),
    (.rPsns inst o, psns x), (.rSsts inst o, ssts x), (.rSerr inst o, c.serr), (.rPctl inst o, c.pctl),
    (.rMbc inst o, (c.tc.extractLsb' 0 4).setWidth 8), (.rTemp inst o, c.temp), (.rTch inst o, c.tc.extractLsb' 16 8),
    (.rTcm inst o, c.tc.extractLsb' 8 8), (.rTcl inst o, c.tc.extractLsb' 0 8)]

/-- A plain read as an event: the value, then the common tail. -/
theorem exec_plainRead {i : Instr} {v : Byte} (h : (i, v) ∈ plainReads inst (Config.params.odd inst) (s.get inst)) :
    exec i s = .next (s.put inst (commonTail (envOf inst) { beginEvent (s.get inst) with ret := .byte v })) := by
  simp only [plainReads, List.mem_cons, List.not_mem_nil, or_false, Prod.mk.injEq] at h
  rcases h with ⟨rfl, rfl⟩ | ⟨rfl, rfl⟩ | ⟨rfl, rfl⟩ | ⟨rfl, rfl⟩ | ⟨rfl, rfl⟩ | ⟨rfl, rfl⟩ | ⟨rfl, rfl⟩ | ⟨rfl, rfl⟩ |
    ⟨rfl, rfl⟩ | ⟨rfl, rfl⟩ | ⟨rfl, rfl⟩ | ⟨rfl, rfl⟩ | ⟨rfl, rfl⟩ <;>
    exact onInstance_readPlain_own inst s _

/-! ### PSNS and SSTS bit by bit (R68, R70) -/

theorem byteOfBits_bits (b7 b6 b5 b4 b3 b2 b1 b0 : Bool) :
    let v := byteOfBits b7 b6 b5 b4 b3 b2 b1 b0
    v.getLsbD 7 = b7 ∧ v.getLsbD 6 = b6 ∧ v.getLsbD 5 = b5 ∧ v.getLsbD 4 = b4 ∧ v.getLsbD 3 = b3 ∧ v.getLsbD 2 = b2 ∧
    v.getLsbD 1 = b1 ∧ v.getLsbD 0 = b0 := by
  revert b7 b6 b5 b4 b3 b2 b1 b0
  decide

theorem has_and (a m q : Ctl) : has (a &&& m) q = has a (m &&& q) := by
  unfold has
  rw [BitVec.and_assoc]

/-- In diagnostic mode the signals of the shadow's mask are sensed from the shadow and the diagnostic control (R112). -/
theorem has_sense_shadow {x : Instance} (hd : x.ctrl.dm = true) {q : Ctl}
    (hq : (sigREQ ||| sigACK ||| sigBSY ||| sigMSG ||| sigCD ||| sigIO) &&& q = q)
    (hother : (sigSEL ||| sigATN ||| sigRST) &&& q = 0) :
    has (sense x) q = (has x.ctrl.diagSig q || has (diagExt x.ctrl.sdgc) q) := by
  have hnone : has x.bus.ctl 0 = false := by simp [has]
  unfold sense
  rw [if_pos hd, has_or, has_and, has_or, has_and, hq, hother, hnone, Bool.or_false]

/-- In diagnostic mode SEL, ATN and RST are sensed from the bus (R112). -/
theorem has_sense_bus {x : Instance} (hd : x.ctrl.dm = true) {q : Ctl}
    (hq : (sigREQ ||| sigACK ||| sigBSY ||| sigMSG ||| sigCD ||| sigIO) &&& q = 0)
    (hother : (sigSEL ||| sigATN ||| sigRST) &&& q = q) :
    has (sense x) q = has x.bus.ctl q := by
  have hnone (a : Ctl) : has a 0 = false := by simp [has]
  unfold sense
  rw [if_pos hd, has_or, has_and, has_or, has_and, hq, hother, hnone, hnone, Bool.or_false, Bool.false_or]

/-- The signals that the diagnostic control asserts (R112). -/
theorem diagExt_signals (v : Byte) :
    has (diagExt v) sigREQ = v.getLsbD 7 ∧ has (diagExt v) sigACK = v.getLsbD 6 ∧ has (diagExt v) sigBSY = v.getLsbD 3 ∧
    has (diagExt v) sigMSG = v.getLsbD 2 ∧ has (diagExt v) sigCD = v.getLsbD 1 ∧ has (diagExt v) sigIO = v.getLsbD 0 := by
  unfold diagExt
  generalize v.getLsbD 7 = b7, v.getLsbD 6 = b6, v.getLsbD 3 = b3, v.getLsbD 2 = b2, v.getLsbD 1 = b1, v.getLsbD 0 = b0
  revert b7 b6 b3 b2 b1 b0
  decide

/-! ### Writes -/

/-- The writes that store or are ignored, at polarity `o`, with the Controller that each of them makes of `c` (R114, R120,
R122 to R125, R128 to R131). -/
def plainWrites (inst : InstId) (o : Bool) (v : Byte) (c : Controller) : List (Instr × Controller) :=
  [(.wBdid inst o v, { c with bdid := v.extractLsb' 0 3 }), (.wSdgc inst o v, { c with sdgc := v }),
    (.wSsts inst o v, c), (.wSerr inst o v, c), (.wPctl inst o v, { c with pctl := v &&& 0x87 }), (.wMbc inst o v, c),
    (.wTemp inst o v, { c with temp := v }), (.wTch inst o v, { c with tc := v ++ c.tc.extractLsb' 0 16 }),
    (.wTcm inst o v, { c with tc := c.tc.extractLsb' 16 8 ++ v ++ c.tc.extractLsb' 0 8 }),
    (.wTcl inst o v, { c with tc := c.tc.extractLsb' 8 16 ++ v })]

/-- A plain write as an event: the register takes its bits, the engine keeps what it was at, then the common tail. -/
theorem exec_plainWrite {v : Byte} {i : Instr} {d : Controller}
    (h : (i, d) ∈ plainWrites inst (Config.params.odd inst) v (s.get inst).ctrl) :
    exec i s = .next (s.put inst (commonTail (envOf inst) { beginEvent (s.get inst) with ctrl := d })) ∧
    d.busy = (s.get inst).ctrl.busy ∧ d.state = (s.get inst).ctrl.state ∧ d.pending = (s.get inst).ctrl.pending := by
  simp only [plainWrites, List.mem_cons, List.not_mem_nil, or_false, Prod.mk.injEq] at h
  rcases h with ⟨rfl, rfl⟩ | ⟨rfl, rfl⟩ | ⟨rfl, rfl⟩ | ⟨rfl, rfl⟩ | ⟨rfl, rfl⟩ | ⟨rfl, rfl⟩ | ⟨rfl, rfl⟩ | ⟨rfl, rfl⟩ |
    ⟨rfl, rfl⟩ | ⟨rfl, rfl⟩ <;>
    exact ⟨onInstance_writePlain_own inst s _, rfl, rfl, rfl⟩

/-- An access as an event, in every state and in closed form at rest: once its body is known, the common tail follows, which
only moves the lines where the engine rests before and after the body (R111). -/
theorem exec_tail_rest {i : Instr} {y : Instance} (h : exec i s = .next (s.put inst (commonTail (envOf inst) y)))
    (hy : (beginEvent (s.get inst)).engineRests → y.engineRests) :
    exec i s = .next (s.put inst (commonTail (envOf inst) y)) ∧
    ((beginEvent (s.get inst)).engineRests → exec i s = .next (s.put inst (afterTail y))) :=
  ⟨h, fun hx => by rw [h, commonTail_rest _ _ (hy hx)]⟩

/-- The read of DREG, spelled out (R126). -/
theorem readDreg_eq (x : Instance) :
    ({ (readDreg x).2 with ret := .byte (readDreg x).1 } : Instance) =
      if x.ctrl.fifo.count = 0 then { x with ret := .byte x.ctrl.dreg }
      else
        { x with
          ret := .byte x.ctrl.fifo.buf[x.ctrl.fifo.head]
          ctrl := { x.ctrl with
            dreg := x.ctrl.fifo.buf[x.ctrl.fifo.head]
            fifo := { x.ctrl.fifo with head := x.ctrl.fifo.head + 1, count := x.ctrl.fifo.count - 1 } } } := by
  by_cases h : x.ctrl.fifo.count = 0
  · rw [if_pos h, readDreg, if_pos ((Fifo.empty_iff _).2 h)]
  · rw [if_neg h, readDreg, if_neg fun e => h ((Fifo.empty_iff _).1 e)]
    have hpop : x.ctrl.fifo.pop = { x.ctrl.fifo with head := x.ctrl.fifo.head + 1, count := x.ctrl.fifo.count - 1 } :=
      if_neg h
    simp only [Instance.modCtrl, hpop]
    rfl

/-- The write of DREG, spelled out (R127). -/
theorem writeDreg_eq (v : Byte) (c : Controller) :
    writeDreg v c =
      if c.fifo.count = 8 then { c with dreg := v, serr := c.serr ||| 0x20 }
      else
        { c with
          dreg := v
          fifo := { c.fifo with buf := c.fifo.buf.set c.fifo.tail v, tail := c.fifo.tail + 1,
                                count := c.fifo.count + 1 } } := by
  have hfull : c.fifo.full = true ↔ c.fifo.count = 8 := (Fifo.full_iff _).trans (Fin.ext_iff (b := (8 : Fin 9))).symm
  unfold writeDreg
  by_cases h : c.fifo.count = 8
  · rw [if_pos h, if_pos (hfull.2 h)]
  · have hnot : ¬c.fifo.full = true := fun e => h (hfull.1 e)
    rw [if_neg h, if_neg hnot, Fifo.push_of_not_full _ _ (by simpa using hnot)]

/-- The write of SCTL as an event (R115). -/
theorem exec_wSctl (v : Byte) :
    exec (.wSctl inst (Config.params.odd inst) v) s =
      .next (s.put inst (commonTail (envOf inst) (writeSctl v (envOf inst) (beginEvent (s.get inst))))) :=
  onInstance_writeRegister_own inst _ s

/-- A write of SCTL that aborts nothing (R115). -/
theorem writeSctl_stores (v : Byte) (e : Env) (x : Instance)
    (h : v.getLsbD 7 = false ∨ (x.ctrl.state = .idle ∧ x.ctrl.pending = none)) :
    writeSctl v e x = { x with ctrl := { x.ctrl with sctl := v } } := by
  unfold writeSctl
  rcases h with h | h
  · rw [h]
    rfl
  · have hfree : (x.modCtrl fun c => { c with sctl := v }).ctrl.engineFree = true := (Controller.engineFree_iff _).2 h
    simp only [hfree, Bool.not_true, Bool.and_false]
    rfl

/-- A write of SCTL that aborts (R115). -/
theorem writeSctl_aborts (v : Byte) (e : Env) (x : Instance) (hv : v.getLsbD 7 = true)
    (h : x.ctrl.state ≠ .idle ∨ x.ctrl.pending ≠ none) :
    writeSctl v e x = abortAll (notify e) { x with ctrl := { x.ctrl with sctl := v } } := by
  have hbusy : (x.modCtrl fun c => { c with sctl := v }).ctrl.engineFree = false := by
    rw [← Bool.not_eq_true, Controller.engineFree_iff]
    exact fun g => h.elim (· g.1) (· g.2)
  unfold writeSctl
  simp only [hv, hbusy]
  rfl

/-- What `abort_all` leaves of the Controller, whatever the participants make of the falling lines (R115). -/
theorem abortAll_ctrl (e : Env) (x : Instance) :
    ∃ y, Reacts x y ∧ y.ctrl.diagSig = 0 ∧ (abortAll (notify e) x).ctrl =
      { y.ctrl with scmd := y.ctrl.scmd &&& ~~~0x10, fifo := y.ctrl.fifo.clear, state := .idle, pending := none,
                    selTimer := none, connected := false, atnQueued := false, xferTerm := false, xferDma := false,
                    serr := 0 } := by
  have hrelease : Reacts x (guarded (setControl (notify e) 7 0 sigALL) x) :=
    guarded_reacts (fun y => setControl_reacts (notify_reacts e) 7 0 sigALL (driven_7 y)) x
  have hshadow : Reacts (guarded (setControl (notify e) 7 0 sigALL) x)
      ((guarded (setControl (notify e) 7 0 sigALL) x).modCtrl fun c => { c with diagSig := 0 }) :=
    .modCtrl ⟨rfl, rfl, rfl, rfl, rfl, rfl, rfl, keepInts _, id, le_refl _, rfl, le_refl _, rfl, rfl⟩
  exact ⟨_, (hrelease.trans hshadow).trans (setData_reacts 7 0 (driven_7 _)), rfl, rfl⟩

end Sys2Proof.Machine

namespace Sys2Proof.Proofs
open Machine

/-- Settles O12: the value is taken before the tail, which only reacts. -/
theorem plainReadsReturn : Obligations.PlainReadsReturn := by
  intro inst s i v o x c h
  obtain ⟨y, hy, htail⟩ := commonTail_settles (envOf inst) { beginEvent x with ret := .byte v }
  obtain ⟨f, -, hints⟩ := hy.ctrl.ints
  have hflags : c.ints &&& ~~~y.ctrl.ints = 0 := by
    have := and_not_or c.ints f 0xFF
    rwa [and_allOnes, ← show y.ctrl.ints = c.ints ||| f from hints] at this
  refine ⟨_, exec_plainRead inst s h, ?_⟩
  rw [State.get_put_same, htail, updateLines_ret, updateLines_eq]
  exact ⟨hy.ret, State.put_events _ _ _, State.get_put_other _ _ _ _ (by cases inst <;> decide), hy.ctrl.bdid,
    hy.ctrl.sctl, hy.ctrl.scmd, hy.ctrl.sdgc, hy.ctrl.pctl, hy.ctrl.dreg, hy.ctrl.serr, hflags⟩

/-- Settles O13: at rest the common tail only moves the lines. -/
theorem plainReadsAtRest : Obligations.PlainReadsAtRest := by
  intro inst s i v o x c hrest h
  rw [exec_plainRead inst s h, commonTail_rest]
  · rfl
  · exact hrest

/-- Settles O14: PSNS is put together from the sensed signals, and these are the bus, or shadow and diagnostic control. -/
theorem psnsReadsSignals : Obligations.PsnsReadsSignals := by
  intro inst s x
  obtain ⟨b7, b6, b5, b4, b3, b2, b1, b0⟩ := byteOfBits_bits (has (sense x) sigREQ) (has (sense x) sigACK)
    (has (sense x) sigATN) (has (sense x) sigSEL) (has (sense x) sigBSY) (has (sense x) sigMSG) (has (sense x) sigCD)
    (has (sense x) sigIO)
  obtain ⟨y, hy, htail⟩ := commonTail_settles (envOf inst) { beginEvent x with ret := .byte (psns x) }
  refine ⟨_, psns x, exec_plainRead inst s (v := psns x) (by simp [plainReads, x]), ?_, b7, b6, b5, b4, b3, b2, b1, b0,
    fun hd => ?_, fun hd => ?_⟩
  · rw [State.get_put_same, htail, updateLines_ret, hy.ret]
  · have hnormal : ¬x.ctrl.dm = true := by rw [show x.ctrl.dm = false from hd]; decide
    unfold sense
    rw [if_neg hnormal]
  · have hdm : x.ctrl.dm = true := hd
    obtain ⟨hreq, hack, hbsy, hmsg, hcd, hio⟩ := diagExt_signals x.ctrl.sdgc
    rw [← hreq, ← hack, ← hbsy, ← hmsg, ← hcd, ← hio]
    exact ⟨has_sense_shadow hdm (by decide) (by decide), has_sense_shadow hdm (by decide) (by decide),
      has_sense_shadow hdm (by decide) (by decide), has_sense_shadow hdm (by decide) (by decide),
      has_sense_shadow hdm (by decide) (by decide), has_sense_shadow hdm (by decide) (by decide),
      has_sense_bus hdm (by decide) (by decide), has_sense_bus hdm (by decide) (by decide),
      has_sense_bus hdm (by decide) (by decide)⟩

/-- Settles O15: SSTS is put together from these eight facts. -/
theorem sstsReadsStatus : Obligations.SstsReadsStatus := by
  intro inst s x c
  obtain ⟨b7, b6, b5, b4, b3, b2, b1, b0⟩ := byteOfBits_bits c.connected false (!c.engineFree)
    (c.state.famXfer || (match c.pending with | some (t, _) => t.famXfer | none => false))
    (has x.bus.ctl sigRST) (c.tc == 0) c.fifo.full c.fifo.empty
  obtain ⟨y, hy, htail⟩ := commonTail_settles (envOf inst) { beginEvent x with ret := .byte (ssts x) }
  refine ⟨_, ssts x, exec_plainRead inst s (v := ssts x) (by simp [plainReads, x]), ?_, b7, b6, ?_, ?_, b3, ?_, ?_, ?_⟩
  · rw [State.get_put_same, htail, updateLines_ret, hy.ret]
  · refine (Bool.eq_iff_iff.1 b5).trans ?_
    rw [Bool.not_eq_true', ← Bool.not_eq_true, Controller.engineFree_iff, not_and_or]
  · refine (Bool.eq_iff_iff.1 b4).trans ?_
    rw [Bool.or_eq_true]
    cases hp : c.pending with
    | none => simp
    | some p =>
      obtain ⟨u, r⟩ := p
      refine or_congr_right ⟨fun h => ⟨u, r, rfl, h⟩, ?_⟩
      rintro ⟨u', r', hsome, h⟩
      cases hsome
      exact h
  · exact (Bool.eq_iff_iff.1 b2).trans beq_iff_eq
  · exact (Bool.eq_iff_iff.1 b1).trans ((Fifo.full_iff _).trans (Fin.ext_iff (b := (8 : Fin 9))).symm)
  · exact (Bool.eq_iff_iff.1 b0).trans (Fifo.empty_iff _)

/-- Settles O17: the body of the read of DREG, then the tail. -/
theorem dregReadPops : Obligations.DregReadPops := by
  intro inst s x c y
  have hbody : ({ (readDreg x).2 with ret := .byte (readDreg x).1 } : Instance) = y := readDreg_eq x
  refine exec_tail_rest inst s ?_ fun hx => ?_
  · rw [← hbody]
    exact onInstance_readRegister_own inst readDreg s
  · show Instance.engineRests (if c.fifo.count = 0 then _ else _)
    split
    · exact hx
    · exact hx

/-- Settles O18: each body only changes its register, so a resting engine rests after it. -/
theorem plainWritesStore : Obligations.PlainWritesStore := by
  intro inst v s i d o x c h
  obtain ⟨hexec, hbusy, hstate, hpending⟩ := exec_plainWrite inst s h
  obtain ⟨hevery, hrest⟩ := exec_tail_rest inst s hexec fun hx =>
    ⟨hbusy.trans hx.1, by rw [hstate, hpending]; exact hx.2⟩
  exact ⟨hevery, fun hx => hrest hx⟩

/-- Settles O19: without flags and without the overrun the level of IRQ is low. -/
theorem intsWriteClears : Obligations.IntsWriteClears := by
  intro inst v s x c y
  obtain ⟨hevery, hrest⟩ := exec_tail_rest inst s (i := .wInts inst (Config.params.odd inst) v) (y := y)
    (onInstance_writeRegister_own inst (fun _ x => clearInts v x) s) fun hx => hx
  refine ⟨hevery, fun hx => ⟨hrest hx, fun hints hserr => ?_⟩⟩
  show irqLevel y.ctrl = false
  have hintsY : y.ctrl.ints = 0 := hints
  have hserrY : y.ctrl.serr.getLsbD 5 = false := hserr
  unfold irqLevel
  rw [hintsY, hserrY]
  exact Bool.and_false _

/-- Settles O20: the body of the write of DREG, then the tail. -/
theorem dregWritePushes : Obligations.DregWritePushes := by
  intro inst v s x c y
  have hbody : x.modCtrl (writeDreg v) = y := by
    simp only [y, Instance.modCtrl, writeDreg_eq]
    split <;> rfl
  refine exec_tail_rest inst s ?_ fun hx => ?_
  · rw [← hbody]
    exact onInstance_writePlain_own inst s _
  · show Instance.engineRests (if c.fifo.count = 8 then _ else _)
    split
    · exact hx
    · exact hx

/-- Settles O21: the guard of `abort_all` is not met. -/
theorem sctlWriteStores : Obligations.SctlWriteStores := by
  intro inst v s x c y h
  refine exec_tail_rest inst s ?_ fun hx => hx
  rw [exec_wSctl, writeSctl_stores v _ x h]

/-- Settles O22: `abort_all` leaves an idle engine, so the common tail only moves the lines; what the participants do
while the own lines fall under the guard touches neither the counter nor, without an RST edge, a flag. -/
theorem sctlWriteAborts : Obligations.SctlWriteAborts := by
  intro inst v s x c hbusy hv h
  let w : Instance := { beginEvent x with ctrl := { c with sctl := v } }
  obtain ⟨y, hy, hshadow, hctrl⟩ := abortAll_ctrl (envOf inst) w
  obtain ⟨htc, htemp, hguard, hsig, hdat⟩ := abortAll_held (notify_held (envOf inst)) w
  have hrest : (abortAll (notify (envOf inst)) w).engineRests := ⟨hguard.trans hbusy, .inl (by rw [hctrl])⟩
  have hfree : w.ctrl.engineFree = false := by
    rw [← Bool.not_eq_true, Controller.engineFree_iff]
    exact fun g => h.elim (· g.1) (· g.2)
  have hexec : exec (.wSctl inst (Config.params.odd inst) v) s =
      .next (s.put inst (afterTail (abortAll (notify (envOf inst)) w))) := by
    rw [exec_wSctl, writeSctl_aborts v _ (beginEvent x) hv h]
    exact congrArg (fun z => Host.Outcome.next (s.put inst z)) (commonTail_rest _ _ hrest)
  refine ⟨_, hexec, ?_⟩
  rw [State.get_put_same]
  refine ⟨?_, ?_, ?_, ?_, ?_, ?_, ?_, ?_, ?_, ?_, ?_, ?_, hsig, hdat, ?_, ?_, ?_, ?_, htc, htemp,
    fun hc hr => (abortAll_still (envOf inst) w hc hr hfree).1⟩ <;>
    simp only [afterTail]
  · exact (congrArg Controller.sctl hctrl).trans hy.ctrl.sctl
  · exact (congrArg Controller.scmd hctrl).trans (congrArg (· &&& _) hy.ctrl.scmd)
  · exact congrArg Controller.state hctrl
  · exact congrArg Controller.pending hctrl
  · exact congrArg Controller.selTimer hctrl
  · exact congrArg Controller.connected hctrl
  · exact congrArg Controller.atnQueued hctrl
  · exact congrArg Controller.xferTerm hctrl
  · exact congrArg Controller.xferDma hctrl
  · exact congrArg Controller.serr hctrl
  · exact congrArg (fun d : Controller => d.fifo.count) hctrl
  · exact (congrArg Controller.diagSig hctrl).trans hshadow
  · exact (congrArg Controller.bdid hctrl).trans hy.ctrl.bdid
  · exact (congrArg Controller.pctl hctrl).trans hy.ctrl.pctl
  · exact (congrArg Controller.sdgc hctrl).trans hy.ctrl.sdgc
  · exact (congrArg Controller.dreg hctrl).trans hy.ctrl.dreg

/-- Settles O23: at the other polarity, and at the two indices without a register, no body runs. -/
theorem noRegisterSelected : Obligations.NoRegisterSelected := by
  intro inst s i v o x
  have hread (body : Instance → Byte × Instance) :
      onInstance inst (readRegister (!Config.params.odd inst) body) s = .next (s.put inst { x with ret := .byte 0xFF }) := by
    rw [onInstance_eq, readRegister_other]
  have hwrite (body : Env → Instance → Instance) :
      onInstance inst (writeRegister (!Config.params.odd inst) body) s = .next (s.put inst x) := by
    rw [onInstance_eq, writeRegister_other]
  refine ⟨?_, ?_⟩
  · rintro (h | ⟨odd, rfl | rfl⟩ | ⟨index, rfl⟩)
    · simp only [List.mem_cons, List.not_mem_nil, or_false] at h
      rcases h with rfl | rfl | rfl | rfl | rfl | rfl | rfl | rfl | rfl | rfl | rfl | rfl | rfl | rfl <;> exact hread _
    · rfl
    · rfl
    · rfl
  · rintro (h | ⟨odd, rfl | rfl⟩ | ⟨index, rfl⟩)
    · simp only [List.mem_cons, List.not_mem_nil, or_false] at h
      rcases h with rfl | rfl | rfl | rfl | rfl | rfl | rfl | rfl | rfl | rfl | rfl | rfl | rfl | rfl <;> exact hwrite _
    · rfl
    · rfl
    · rfl

/-- Settles O24: the bytes of the ROM up to its size. -/
theorem romRegion : Obligations.RomRegion := by
  intro inst off v s x _
  exact ⟨⟨_, rfl, fun h => if_pos h, fun h => if_neg (Nat.not_lt.2 h)⟩, rfl⟩

end Sys2Proof.Proofs
end

section
/-! SUPPORT. The Target's commands that make no store access (45_target_commands.md): the checks they share as cases, the
bodies as closed forms, the dispatch on the opcode; and what a system reset leaves. -/

namespace Sys2Proof.Machine

variable (inst : InstId) (id : Fin 7) (s : State)

/-! ### Checks and exits (R251, R253) -/

@[simp] theorem afterChecks_nil (t : Target) : afterChecks [] t = t := rfl

/-- A check that stops under a condition, then the others. -/
theorem afterChecks_cons (p : Prop) [Decidable p] (u : Target) (cs : List Check) (t : Target) :
    afterChecks ((if p then some u else none) :: cs) t = if p then u else afterChecks cs t := by
  by_cases h : p
  · rw [if_pos h, if_pos h]
    rfl
  · rw [if_neg h, if_neg h]
    rfl

theorem needMedium_eq (p : Params) (t : Target) :
    needMedium p t = if t.image = none then some (checked 0x2 0x3A 0x00 none t) else none := by
  unfold needMedium
  simp only [Option.isNone_iff_eq_none]
  rfl

theorem inRange_eq (p : Params) (lba : BitVec 32) (blocks : Nat) (t : Target) :
    inRange p lba.toNat blocks t =
      if t.geom.totalSectors < lba.toNat + blocks then some (checked 0x5 0x21 0x00 (some lba) t) else none := by
  unfold inRange
  rw [show some lba.toNat = (some lba).map BitVec.toNat from rfl, checkCondition_eq]

theorem fits_eq (p : Params) (blocks : Nat) (t : Target) :
    fits p blocks t = if 65536 < blocks * t.geom.bps then some (checked 0x5 0x24 0x00 none t) else none := rfl

/-- `DataIn` of a length byte, bounded by what there is to send (R251). -/
theorem dataIn_min (len : Byte) {n : Nat} (hn : 0 < n) (t : Target) :
    dataIn (min len.toNat n) t =
      if len = 0 then { t with status := 0x00, tstate := .status }
      else { t with cur := 0, total := min len.toNat n, status := 0x00, tstate := .dataIn } := by
  unfold dataIn
  by_cases h : len = 0
  · rw [if_pos h, if_pos (by simp [h])]
    rfl
  · have := toNat_ne_zero h
    rw [if_neg h, if_neg (by omega)]

/-- The first byte of a command buffer, once the bytes behind it are put there. -/
theorem fillCmd_behind (bytes : List Byte) (cmd : Vector Byte 16) {i j : Nat} (hi : i < 16) (h : i < j) :
    (fillCmd cmd j bytes)[i] = cmd[i] := by
  induction bytes generalizing cmd j with
  | nil => rfl
  | cons v vs ih =>
    rw [fillCmd, ih _ (by omega)]
    exact Vector.getElem_setIfInBounds_ne hi (by omega)

theorem loadCdb_opcode (op : Byte) (args : List Byte) (t : Target) : (loadCdb (op :: args) t).cmd[0] = op := by
  show (fillCmd (t.cmd.setIfInBounds 0 op) 1 args)[0] = op
  rw [fillCmd_behind args _ (by decide) (by decide)]
  exact Vector.getElem_setIfInBounds_self (by decide)

/-! ### What collecting a CDB leaves of the record (R230) -/

variable (bytes : List Byte) (t : Target)

@[simp] theorem loadCdb_image : (loadCdb bytes t).image = t.image := rfl
@[simp] theorem loadCdb_geom : (loadCdb bytes t).geom = t.geom := rfl
@[simp] theorem loadCdb_buf : (loadCdb bytes t).buf = t.buf := rfl
@[simp] theorem loadCdb_serial : (loadCdb bytes t).serial = t.serial := rfl
@[simp] theorem loadCdb_senseKey : (loadCdb bytes t).senseKey = t.senseKey := rfl
@[simp] theorem loadCdb_senseAsc : (loadCdb bytes t).senseAsc = t.senseAsc := rfl
@[simp] theorem senseBytes_loadCdb : senseBytes (loadCdb bytes t) = senseBytes t := rfl
@[simp] theorem currentGeom_loadCdb : (loadCdb bytes t).currentGeom = t.currentGeom := rfl

/-! ### Bodies, as cases (R255, R256, R263, R268, R269) -/

theorem testUnitReady_eq (p : Params) :
    testUnitReady p t = if t.image = none then checked 0x2 0x3A 0x00 none t else good t := by
  unfold testUnitReady
  rw [needMedium_eq, afterChecks_cons, afterChecks_nil]

theorem seek6_eq (p : Params) (lba : BitVec 32) (h : lba6 t.cmd = lba.toNat) :
    seek6 p t =
      if t.image = none then checked 0x2 0x3A 0x00 none t
      else if t.geom.totalSectors < lba.toNat then checked 0x5 0x21 0x00 (some lba) t
      else good t := by
  unfold seek6
  rw [h, needMedium_eq, inRange_eq, afterChecks_cons, afterChecks_cons, afterChecks_nil]
  rfl

theorem verify10_eq (p : Params) (lba : BitVec 32) (h : lba10 t.cmd = lba.toNat) :
    verify10 p t =
      if t.cmd[1].getLsbD 1 then checked 0x5 0x24 0x00 none t
      else if t.image = none then checked 0x2 0x3A 0x00 none t
      else if t.geom.totalSectors < lba.toNat + blocks10 t.cmd then checked 0x5 0x21 0x00 (some lba) t
      else good t := by
  unfold verify10
  rw [h, needMedium_eq, inRange_eq, afterChecks_cons, afterChecks_cons, afterChecks_nil]
  rfl

theorem readCapacity_eq (p : Params) :
    readCapacity p t =
      if t.image = none then checked 0x2 0x3A 0x00 none t
      else { t with buf := bufFill t.buf 0 (beField p 4 (t.geom.totalSectors - 1) ++ beField p 4 t.geom.bps),
                    cur := 0, total := 8, status := 0x00, tstate := .dataIn } := by
  unfold readCapacity
  rw [needMedium_eq, afterChecks_cons, afterChecks_nil]
  rfl

theorem dataOut_len (len : Byte) :
    dataOut len.toNat t =
      if len = 0 then { t with status := 0x00, tstate := .status }
      else { t with cur := 0, total := len.toNat, status := 0x00, tstate := .dataOut } := by
  unfold dataOut
  by_cases h : len = 0
  · rw [if_pos h, if_pos (by simp [h])]
    rfl
  · rw [if_neg h, if_neg (toNat_ne_zero h)]

/-! ### Dispatch (R250, R270) -/

/-- An opcode that is none of the fifteen listed ones. -/
theorem cdbOpOf_unlisted {b : Byte}
    (h : ∀ l ∈ ([0x00, 0x01, 0x03, 0x04, 0x08, 0x0A, 0x0B, 0x12, 0x15, 0x1A, 0x1B, 0x25, 0x28, 0x2A, 0x2F] : List Byte),
      b ≠ l) : cdbOpOf b = .other := by
  simp only [List.forall_mem_cons] at h
  obtain ⟨h1, h2, h3, h4, h5, h6, h7, h8, h9, h10, h11, h12, h13, h14, h15, -⟩ := h
  unfold cdbOpOf
  rw [if_neg h1, if_neg h2, if_neg h3, if_neg h4, if_neg h5, if_neg h6, if_neg h7, if_neg h8, if_neg h9, if_neg h10,
    if_neg h11, if_neg h12, if_neg h13, if_neg h14, if_neg h15]

/-- Any other opcode is refused (R270). -/
theorem executeCdb_other {e : Env} {y : Instance} {t : Target} (h : y.target? id = some t) (hop : cdbOpOf t.cmd[0] = .other) :
    executeCdb e id y = y.withTarget id (checked 0x5 0x20 0x00 none t) := by
  unfold executeCdb
  rw [h]
  simp only [hop]
  exact Instance.modTarget_some h _

theorem executeCdb_none {e : Env} {y : Instance} (h : y.target? id = none) : executeCdb e id y = y := by
  unfold executeCdb
  rw [h]

/-- A command on the dispatch's own terms: it is what `execute_cdb` runs for its opcode, and does nothing at an empty
slot. -/
structure Dispatched (op : Byte) (f : Env → Fin 7 → Instance → Instance) : Prop where
  /-- At a Target that has its opcode. -/
  at_target : ∀ e id (y : Instance) (t : Target), y.target? id = some t → t.cmd[0] = op → executeCdb e id y = f e id y
  /-- At an empty slot. -/
  at_none : ∀ e id (y : Instance), y.target? id = none → f e id y = y

theorem Dispatched.ofTarget {op : Byte} {f : Env → Target → Target}
    (h : ∀ e id (y : Instance) (t : Target), y.target? id = some t → t.cmd[0] = op →
      executeCdb e id y = y.modTarget id (f e)) :
    Dispatched op fun e k z => z.modTarget k (f e) :=
  ⟨h, fun _ _ _ hnone => Instance.modTarget_none hnone _⟩

/-- A CDB row is `execute_cdb` of the record that has its bytes. -/
theorem Dispatched.run {op : Byte} {f : Env → Fin 7 → Instance → Instance} (h : Dispatched op f) (args : List Byte) :
    onInstance inst (runCdb id (op :: args) f) s =
      .next (s.put inst (executeCdb (envOf inst) id ((beginEvent (s.get inst)).modTarget id (loadCdb (op :: args))))) := by
  rw [onInstance_eq]
  unfold runCdb
  cases ht : (beginEvent (s.get inst)).target? id with
  | none => rw [Instance.modTarget_none ht, executeCdb_none id ht, h.at_none _ _ _ ht]
  | some t =>
    rw [Instance.modTarget_some ht,
      h.at_target _ _ _ _ (Instance.withTarget_target?_same _ _ _) (loadCdb_opcode op args t)]

/-- The command that an entry of the opcode map names (R250). -/
def runOp (e : Env) (k : Fin 7) (y : Instance) : CdbOp → Instance
  | .testUnitReady => y.modTarget k (testUnitReady e.p)
  | .rezeroUnit => y.modTarget k (rezeroUnit e.p)
  | .requestSense => y.modTarget k requestSense
  | .formatUnit => y.modTarget k formatUnit
  | .read6 => read6 e k y
  | .write6 => write6 e k y
  | .seek6 => y.modTarget k (seek6 e.p)
  | .inquiry => y.modTarget k (inquiry e.p)
  | .modeSelect6 => y.modTarget k modeSelect6
  | .modeSense6 => y.modTarget k (modeSense6 e.p)
  | .startStopUnit => y.modTarget k startStopUnit
  | .readCapacity => y.modTarget k (readCapacity e.p)
  | .read10 => read10 e k y
  | .write10 => write10 e k y
  | .verify10 => y.modTarget k (verify10 e.p)
  | .other => y.modTarget k (otherOpcode e.p)

theorem executeCdb_listed {e : Env} {k : Fin 7} {y : Instance} {t : Target} {op : Byte} (h : y.target? k = some t)
    (hop : t.cmd[0] = op) : executeCdb e k y = runOp e k y (cdbOpOf op) := by
  unfold executeCdb
  rw [h, ← hop]
  rfl

theorem dispatched_testUnitReady : Dispatched 0x00 fun e k z => z.modTarget k (testUnitReady e.p) :=
  .ofTarget fun _ _ _ _ h hop => executeCdb_listed h hop

theorem dispatched_rezeroUnit : Dispatched 0x01 fun e k z => z.modTarget k (rezeroUnit e.p) :=
  .ofTarget fun _ _ _ _ h hop => executeCdb_listed h hop

theorem dispatched_requestSense : Dispatched 0x03 fun _ k z => z.modTarget k requestSense :=
  .ofTarget fun _ _ _ _ h hop => executeCdb_listed h hop

theorem dispatched_formatUnit : Dispatched 0x04 fun _ k z => z.modTarget k formatUnit :=
  .ofTarget fun _ _ _ _ h hop => executeCdb_listed h hop

theorem dispatched_read6 : Dispatched 0x08 read6 where
  at_target _ _ _ _ h hop := executeCdb_listed h hop
  at_none _ _ _ h := by
    unfold read6
    rw [h]

theorem dispatched_write6 : Dispatched 0x0A write6 where
  at_target _ _ _ _ h hop := executeCdb_listed h hop
  at_none _ _ _ h := by
    unfold write6
    rw [h]

theorem dispatched_seek6 : Dispatched 0x0B fun e k z => z.modTarget k (seek6 e.p) :=
  .ofTarget fun _ _ _ _ h hop => executeCdb_listed h hop

theorem dispatched_inquiry : Dispatched 0x12 fun e k z => z.modTarget k (inquiry e.p) :=
  .ofTarget fun _ _ _ _ h hop => executeCdb_listed h hop

theorem dispatched_modeSelect6 : Dispatched 0x15 fun _ k z => z.modTarget k modeSelect6 :=
  .ofTarget fun _ _ _ _ h hop => executeCdb_listed h hop

theorem dispatched_modeSense6 : Dispatched 0x1A fun e k z => z.modTarget k (modeSense6 e.p) :=
  .ofTarget fun _ _ _ _ h hop => executeCdb_listed h hop

theorem dispatched_startStopUnit : Dispatched 0x1B fun _ k z => z.modTarget k startStopUnit :=
  .ofTarget fun _ _ _ _ h hop => executeCdb_listed h hop

theorem dispatched_readCapacity : Dispatched 0x25 fun e k z => z.modTarget k (readCapacity e.p) :=
  .ofTarget fun _ _ _ _ h hop => executeCdb_listed h hop

theorem dispatched_read10 : Dispatched 0x28 read10 where
  at_target _ _ _ _ h hop := executeCdb_listed h hop
  at_none _ _ _ h := by
    unfold read10
    rw [h]

theorem dispatched_write10 : Dispatched 0x2A write10 where
  at_target _ _ _ _ h hop := executeCdb_listed h hop
  at_none _ _ _ h := by
    unfold write10
    rw [h]

theorem dispatched_verify10 : Dispatched 0x2F fun e k z => z.modTarget k (verify10 e.p) :=
  .ofTarget fun _ _ _ _ h hop => executeCdb_listed h hop

/-- The three statements of a row of the dispatch. -/
theorem Dispatched.row {op : Byte} {args : List Byte} {f : Env → Fin 7 → Instance → Instance} {i : Instr} {e : Env}
    {y : Instance} {t : Target} (h : Dispatched op f)
    (hexec : exec i s = onInstance inst (runCdb id (op :: args) f) s) (hlen : (op :: args).length = cdbLen op) :
    (y.target? id = some t → t.cmd[0] = op → executeCdb e id y = f e id y) ∧
    exec i s =
      .next (s.put inst (executeCdb (envOf inst) id ((beginEvent (s.get inst)).modTarget id (loadCdb (op :: args))))) ∧
    (op :: args).length = cdbLen op :=
  ⟨h.at_target e id y t, hexec.trans (h.run inst id s args), hlen⟩

/-- The length of a CDB by the group of its opcode (R231). -/
theorem cdbLen_eq (op : Byte) :
    let group := (op.extractLsb' 5 3).toNat
    cdbLen op = if group = 1 ∨ group = 2 then 10 else if group = 5 then 12 else 6 := by
  intro group
  unfold cdbLen
  split <;> simp_all [group]

/-! ### Mode Sense (R266) -/

/-- The page code among the bits of its byte. -/
theorem pageByte_eq (lba : BitVec 21) (n : BitVec 6) :
    lba.extractLsb' 8 8 &&& 0x3F = n.setWidth 8 ↔ lba.extractLsb' 8 6 = n := by
  have hpage : lba.extractLsb' 8 6 = (lba.extractLsb' 8 8).setWidth 6 := by
    apply BitVec.eq_of_toNat_eq
    simp only [BitVec.extractLsb'_toNat, BitVec.toNat_setWidth]
    omega
  have hmask : ∀ b : Byte, b &&& 0x3F = (b.setWidth 6).setWidth 8 := by decide
  rw [hpage, hmask]
  refine ⟨fun h => BitVec.eq_of_toNat_eq ?_, fun h => congrArg _ h⟩
  have hnat := congrArg BitVec.toNat h
  simp only [BitVec.toNat_setWidth] at hnat
  have hn := n.isLt
  rw [BitVec.toNat_setWidth]
  omega

theorem beField_length (p : Params) (w v : Nat) : (beField p w v).length = w := beBytes_length w _

/-- Mode Sense of one of the four page codes (R266). -/
theorem modeSense6_page (p : Params) {page : Byte} (hpage : t.cmd[2] &&& 0x3F = page)
    (h : page = 0x00 ∨ page = 0x03 ∨ page = 0x04 ∨ page = 0x3F) {g : Geometry} (hg : t.currentGeom = g) {bs : List Byte}
    (hbs : modeBytes p page g = bs) :
    modeSense6 p t = dataIn (min t.cmd[4].toNat bs.length) (fillFromStart bs t) := by
  have hlisted : ¬(page ≠ 0x00 ∧ page ≠ 0x03 ∧ page ≠ 0x04 ∧ page ≠ 0x3F) := by tauto
  unfold modeSense6
  simp only [hpage, hg, hbs]
  rw [if_neg hlisted]

/-- Mode Sense of any other page code (R266). -/
theorem modeSense6_other (p : Params) {page : Byte} (hpage : t.cmd[2] &&& 0x3F = page)
    (h : page ≠ 0x00 ∧ page ≠ 0x03 ∧ page ≠ 0x04 ∧ page ≠ 0x3F) : modeSense6 p t = checked 0x5 0x24 0x00 none t := by
  unfold modeSense6
  simp only [hpage]
  rw [if_pos h]
  rfl

/-- The bytes of Mode Sense, once the pages asked for are known (R266). -/
theorem modeBytes_eq (p : Params) (page : Byte) (g : Geometry) {pages : List Byte} {len : Byte}
    (hpages : (if page = 0x03 ∨ page = 0x3F then formatPage p g else []) ++
      (if page = 0x04 ∨ page = 0x3F then geometryPage p g else []) = pages)
    (hlen : len = BitVec.ofNat 8 (11 + pages.length)) :
    modeBytes p page g = len :: (modeHeader p g ++ pages) := by
  have hheader : (modeHeader p g).length = 11 := by simp [modeHeader, beField_length]
  unfold modeBytes
  simp only [List.append_assoc, hpages, List.length_append, hheader, hlen]

theorem formatPage_length (p : Params) (g : Geometry) : (formatPage p g).length = 24 := by
  simp [formatPage, beField_length]

theorem geometryPage_length (p : Params) (g : Geometry) : (geometryPage p g).length = 24 := by
  simp [geometryPage, beField_length]

/-! ### Reads and writes (R271, R272) -/

/-- The first check of a read or write that stops. -/
theorem rwChecks_eq (p : Params) (lba : BitVec 32) (blocks : Nat) :
    rwChecks p lba.toNat blocks t =
      if t.image = none then some (checked 0x2 0x3A 0x00 none t)
      else if t.geom.totalSectors < lba.toNat + blocks then some (checked 0x5 0x21 0x00 (some lba) t)
      else if 65536 < blocks * t.geom.bps then some (checked 0x5 0x24 0x00 none t)
      else none := by
  unfold rwChecks
  rw [needMedium_eq, inRange_eq, fits_eq]
  split
  · rfl
  · split
    · rfl
    · split <;> rfl

theorem doRead_checked {e : Env} {k : Fin 7} {x : Instance} {t v : Target} {lba blocks : Nat}
    (ht : x.target? k = some t) (h : rwChecks e.p lba blocks t = some v) :
    doRead e k lba blocks x = x.withTarget k v := by
  unfold doRead
  rw [ht]
  simp only [h]
  exact Instance.modTarget_some ht _

theorem doWrite_checked {e : Env} {k : Fin 7} {x : Instance} {t v : Target} {lba blocks : Nat}
    (ht : x.target? k = some t) (h : rwChecks e.p lba blocks t = some v) :
    doWrite e k lba blocks x = x.withTarget k v := by
  unfold doWrite
  rw [Instance.modTarget_some ht]
  simp only [h]

theorem doWrite_passed {e : Env} {k : Fin 7} {x : Instance} {t : Target} {lba blocks : Nat}
    (ht : x.target? k = some t) (h : rwChecks e.p lba blocks t = none) :
    doWrite e k lba blocks x =
      x.withTarget k (dataOut (blocks * t.geom.bps) { t with lba := BitVec.ofNat 32 lba, blocks := blocks }) := by
  unfold doWrite
  rw [Instance.modTarget_some ht]
  simp only [h]

/-- A request of a read or a write: what runs on the record that the CDB was put into. -/
theorem read6_eq {e : Env} {k : Fin 7} {x : Instance} {t : Target} (ht : x.target? k = some t) :
    read6 e k x = doRead e k (lba6 t.cmd) (blocks6 t.cmd) x := by
  unfold read6
  rw [ht]

theorem read10_eq {e : Env} {k : Fin 7} {x : Instance} {t : Target} (ht : x.target? k = some t) :
    read10 e k x = doRead e k (lba10 t.cmd) (blocks10 t.cmd) x := by
  unfold read10
  rw [ht]

theorem write6_eq {e : Env} {k : Fin 7} {x : Instance} {t : Target} (ht : x.target? k = some t) :
    write6 e k x = doWrite e k (lba6 t.cmd) (blocks6 t.cmd) x := by
  unfold write6
  rw [ht]

theorem write10_eq {e : Env} {k : Fin 7} {x : Instance} {t : Target} (ht : x.target? k = some t) :
    write10 e k x = doWrite e k (lba10 t.cmd) (blocks10 t.cmd) x := by
  unfold write10
  rw [ht]

/-- An LBA of 21 bits in a field of 32. -/
theorem toNat_setWidth_lba6 (lba : BitVec 21) : (lba.setWidth 32).toNat = lba.toNat := by
  rw [BitVec.toNat_setWidth, Nat.mod_eq_of_lt (by omega)]

/-- Read(6) and Read(10) as events, by their operands (R259, R260). -/
theorem exec_read {c : Cdb6} {d : Cdb10} {i : Instr} {bytes : List Byte} {lba : BitVec 32} {blocks : Nat} {t : Target}
    (ht : (beginEvent (s.get inst)).target? id = some t)
    (h : (i, bytes, lba, blocks) ∈
      [(Instr.cdbRead6 inst id c, cdb6Bytes 0x08 c, c.lba.setWidth 32, if c.len = 0 then 256 else c.len.toNat),
       (.cdbRead10 inst id d, cdb10Bytes 0x28 d, d.lba, d.len.toNat)]) :
    exec i s = .next (s.put inst
      (doRead (envOf inst) id lba.toNat blocks ((beginEvent (s.get inst)).withTarget id (loadCdb bytes t)))) := by
  simp only [List.mem_cons, List.not_mem_nil, or_false, Prod.mk.injEq] at h
  rcases h with ⟨rfl, rfl, rfl, rfl⟩ | ⟨rfl, rfl, rfl, rfl⟩
  · rw [toNat_setWidth_lba6, ← lba6_loadCdb 0x08 c t, ← blocks6_loadCdb 0x08 c t,
      ← read6_eq (Instance.withTarget_target?_same _ _ _)]
    exact runCdb_any inst id s _ read6 t ht
  · rw [← lba10_loadCdb 0x28 d t, ← blocks10_loadCdb 0x28 d t, ← read10_eq (Instance.withTarget_target?_same _ _ _)]
    exact runCdb_any inst id s _ read10 t ht

/-- Write(6) and Write(10) as events, by their operands (R261, R262). -/
theorem exec_write {c : Cdb6} {d : Cdb10} {i : Instr} {bytes : List Byte} {lba : BitVec 32} {blocks : Nat} {t : Target}
    (ht : (beginEvent (s.get inst)).target? id = some t)
    (h : (i, bytes, lba, blocks) ∈
      [(Instr.cdbWrite6 inst id c, cdb6Bytes 0x0A c, c.lba.setWidth 32, if c.len = 0 then 256 else c.len.toNat),
       (.cdbWrite10 inst id d, cdb10Bytes 0x2A d, d.lba, d.len.toNat)]) :
    exec i s = .next (s.put inst
      (doWrite (envOf inst) id lba.toNat blocks ((beginEvent (s.get inst)).withTarget id (loadCdb bytes t)))) := by
  simp only [List.mem_cons, List.not_mem_nil, or_false, Prod.mk.injEq] at h
  rcases h with ⟨rfl, rfl, rfl, rfl⟩ | ⟨rfl, rfl, rfl, rfl⟩
  · rw [toNat_setWidth_lba6, ← lba6_loadCdb 0x0A c t, ← blocks6_loadCdb 0x0A c t,
      ← write6_eq (Instance.withTarget_target?_same _ _ _)]
    exact runCdb_any inst id s _ write6 t ht
  · rw [← lba10_loadCdb 0x2A d t, ← blocks10_loadCdb 0x2A d t, ← write10_eq (Instance.withTarget_target?_same _ _ _)]
    exact runCdb_any inst id s _ write10 t ht

/-! ### What a system reset leaves (R320, R323) -/

theorem exec_systemReset : ∃ t, exec .envSystemReset s = .next t ∧ ∀ i, t.get i = rebuild (s.get i) :=
  ⟨_, rfl, fun i => by cases i <;> rfl⟩

theorem mem_targetSlots (k : Fin 7) : k ∈ targetSlots := by
  revert k
  decide

/-- The images that a system reset keeps (R323). -/
theorem rebuild_kept (x : Instance) :
    x.kept <+: (rebuild x).kept ∧
    ∀ st, st ∈ (rebuild x).kept ↔ st ∈ x.kept ∨ ∃ k, (x.target? k).bind Target.image = some st := by
  obtain ⟨hprefix, hmem⟩ := keepImages_kept x targetSlots
  refine ⟨hprefix, fun st => (hmem st).trans (or_congr_right (exists_congr fun k => ?_))⟩
  exact and_iff_right (mem_targetSlots k)

end Sys2Proof.Machine

namespace Sys2Proof.Proofs
open Machine

/-- Settles O2: the two instances are built anew; what the registers read is computed. -/
theorem systemResetValues : Obligations.SystemResetValues := by
  intro s
  obtain ⟨t, hexec, hget⟩ := exec_systemReset s
  refine ⟨t, hexec, fun i => ?_⟩
  obtain ⟨hprefix, hmem⟩ := rebuild_kept (s.get i)
  rw [hget]
  have hslots : ∀ k : Fin 8, Bus.reset.sig[k] = 0 ∧ Bus.reset.dat[k] = 0 := by decide
  have hempty : ∀ k : Fin 7, Bus.reset.occ[slotAddr k] = none ∧ (Instance.reset 0).target? k = none := by decide
  have hfree : Bus.reset.isFree = true := by decide
  have hfifo : ∀ k : Fin 8, Controller.reset.fifo.buf[k] = 0 := by decide
  have hid : idBit Controller.reset.bdid.toNat = 0x80 := by decide
  have hpsns : psns (Instance.reset 0) = 0 := by decide
  have hssts : ssts (Instance.reset 0) = 0x05 := by decide
  have hmbc : mbc (Instance.reset 0) = 0 := by decide
  exact ⟨hslots, rfl, rfl, hempty, rfl, rfl, hfree, rfl, rfl, rfl, rfl, rfl, rfl, rfl, rfl, rfl, rfl, rfl, hfifo, rfl,
    rfl, rfl, rfl, rfl, rfl, rfl, rfl, rfl, rfl, rfl, rfl, rfl, rfl, rfl, rfl, rfl, rfl, rfl, hid, hpsns, hssts, hmbc,
    hprefix, hmem⟩

/-- Settles O45: both are the medium check. -/
theorem mediumTests : Obligations.MediumTests := by
  intro inst id c s t i op x u ht hi
  simp only [List.mem_cons, List.not_mem_nil, or_false, Prod.mk.injEq] at hi
  have hbody : testUnitReady Config.params u =
      match t.image with
      | none => checked 0x2 0x3A 0x00 none u
      | some _ => { u with status := 0x00, tstate := .status } := by
    have himage : u.image = t.image := loadCdb_image _ t
    rw [testUnitReady_eq]
    cases h : t.image with
    | none => exact if_pos (himage.trans h)
    | some st => exact if_neg (by rw [himage.trans h]; exact Option.some_ne_none st)
  refine Eq.trans ?_ (congrArg (fun v => Host.Outcome.next (s.put inst (x.withTarget id v))) hbody)
  rcases hi with ⟨rfl, rfl⟩ | ⟨rfl, rfl⟩
  · exact runCdb_own inst id s _ (fun e => testUnitReady e.p) t ht
  · exact runCdb_own inst id s _ (fun e => rezeroUnit e.p) t ht

/-- Settles O46: both commands are the good exit. -/
theorem noOpCommandsSucceed : Obligations.NoOpCommandsSucceed := by
  intro inst id c s t x ht
  exact ⟨runCdb_own inst id s _ (fun _ => formatUnit) t ht, runCdb_own inst id s _ (fun _ => startStopUnit) t ht⟩

/-- Settles O47: the buffer's first 18 bytes are the sense, read back through `bufFill`. -/
theorem requestSenseConsumes : Obligations.RequestSenseConsumes := by
  intro inst id c s t x u bs v ht
  obtain ⟨-, -, -, -, hlen⟩ := loadCdb6_cmd 0x03 c t
  have hvalid : (if t.senseLbaValid then 0xF0 else 0x70 : Byte) = 0x70 ||| (if t.senseLbaValid then 0x80 else 0x00) := by
    cases t.senseLbaValid <;> decide
  have hbytes : senseBytes u = bs := by
    rw [show senseBytes u = senseBytes t from senseBytes_loadCdb _ t, senseBytes, hvalid]
  have hbody : requestSense u = v := by
    rw [requestSense_eq, hbytes, show u.cmd[4] = c.len from hlen]
  have hlookup (j : Nat) : v.buf.lookup j = if j < 18 then some (bs.getD j 0) else t.buf.lookup j := by
    have hbuf : v.buf = bufFill u.buf 0 bs := by simp only [v]
    rw [hbuf, show u.buf = t.buf from loadCdb_buf _ t, lookup_bufFill]
    have hcount : bs.length = 18 := rfl
    simp only [Nat.zero_le, true_and, Nat.sub_zero, Nat.zero_add, hcount]
  have hserial : v.serial = t.serial := by
    have hu : u.serial = t.serial := loadCdb_serial _ t
    rw [← hu]
  refine ⟨?_, fun j hj => ?_, fun j hj => ?_⟩
  · rw [← hbody]
    exact runCdb_own inst id s _ (fun _ => requestSense) t ht
  · unfold bufRead
    rw [hlookup, if_pos hj, Option.getD_some]
  · unfold bufRead
    rw [hlookup, if_neg (by omega), hserial]

/-- Settles O48: the payload is put at the start of the buffer; the two exits go by the length byte. -/
theorem inquiryAndModeSelect : Obligations.InquiryAndModeSelect := by
  intro inst id c s t x u w v ht
  obtain ⟨-, -, -, -, hinquiry⟩ := loadCdb6_cmd 0x12 c t
  obtain ⟨-, -, -, -, hselect⟩ := loadCdb6_cmd 0x15 c t
  have hsend : inquiry Config.params u =
      if c.len = 0 then { v with tstate := .status }
      else { v with cur := 0, total := min c.len.toNat 36, tstate := .dataIn } := by
    unfold inquiry
    rw [show u.cmd[4] = c.len from hinquiry, dataIn_min _ (by decide), fillFromStart]
  have htake : modeSelect6 w = if c.len = 0 then { w with status := 0x00, tstate := .status }
      else { w with cur := 0, total := c.len.toNat, status := 0x00, tstate := .dataOut } := by
    unfold modeSelect6
    rw [show w.cmd[4] = c.len from hselect, dataOut_len]
  rw [← hsend, ← htake]
  refine ⟨runCdb_own inst id s _ (fun e => inquiry e.p) t ht, fun j => ?_,
    runCdb_own inst id s _ (fun _ => modeSelect6) t ht⟩
  have hbuf : Memory.lookup v.buf j = some (Config.params.inquiryPayload.toList.getD j 0) := by
    rw [show v.buf = bufFill u.buf 0 Config.params.inquiryPayload.toList from rfl, lookup_bufFill,
      if_pos ⟨Nat.zero_le _, by simp⟩, Nat.sub_zero]
  unfold bufRead
  rw [hbuf, Option.getD_some, List.getD_eq_getElem _ _ (by simp), Vector.getElem_toList]
  rfl

/-- Settles O49: the page code selects the pages, each of 24 bytes, behind 12 bytes of header and block descriptor. -/
theorem modeSenseBuildsPages : Obligations.ModeSenseBuildsPages := by
  intro inst id c s t p x u g page format geometry bytes sent ht
  obtain ⟨-, -, hpage, -, hlen⟩ := loadCdb6_cmd 0x1A c t
  have hg : u.currentGeom = g := by
    rw [show u.currentGeom = t.currentGeom from currentGeom_loadCdb _ t, Target.currentGeom]
    simp only [g]
    cases t.image <;> rfl
  have hcode (n : BitVec 6) : u.cmd[2] &&& 0x3F = n.setWidth 8 ↔ page = n := by
    rw [show u.cmd[2] = _ from hpage]
    exact pageByte_eq c.lba n
  have hheader : (modeHeader p g).length = 11 := by simp [modeHeader, beField_length]
  have hsent (n : Nat) (bs : List Byte) (hbs : bs.length = n) (hn : 0 < n) :
      dataIn (min u.cmd[4].toNat bs.length) (fillFromStart bs u) = sent n bs := by
    rw [show u.cmd[4] = c.len from hlen, hbs, dataIn_min _ hn, fillFromStart]
  have hbody : modeSense6 p u =
      if page = 0x00 then sent 12 (bytes 11 [])
      else if page = 0x03 then sent 36 (bytes 35 format)
      else if page = 0x04 then sent 36 (bytes 35 geometry)
      else if page = 0x3F then sent 60 (bytes 59 (format ++ geometry))
      else checked 0x5 0x24 0x00 none u := by
    by_cases h0 : page = 0x00
    · rw [if_pos h0, modeSense6_page u p ((hcode _).2 h0) (by decide) hg (modeBytes_eq p _ g (pages := []) rfl rfl)]
      exact hsent _ _ (by simp [hheader]) (by decide)
    by_cases h3 : page = 0x03
    · rw [if_neg h0, if_pos h3, modeSense6_page u p ((hcode _).2 h3) (by decide) hg
        (modeBytes_eq p _ g (pages := formatPage p g) (List.append_nil _) (by rw [formatPage_length]))]
      exact hsent _ _ (by simp [hheader, formatPage_length]) (by decide)
    by_cases h4 : page = 0x04
    · rw [if_neg h0, if_neg h3, if_pos h4, modeSense6_page u p ((hcode _).2 h4) (by decide) hg
        (modeBytes_eq p _ g (pages := geometryPage p g) (List.nil_append _) (by rw [geometryPage_length]))]
      exact hsent _ _ (by simp [hheader, geometryPage_length]) (by decide)
    by_cases h3F : page = 0x3F
    · rw [if_neg h0, if_neg h3, if_neg h4, if_pos h3F, modeSense6_page u p ((hcode _).2 h3F) (by decide) hg
        (modeBytes_eq p _ g rfl (by simp [formatPage_length, geometryPage_length]; rfl))]
      exact hsent _ _ (by simp [hheader, formatPage_length, geometryPage_length]) (by decide)
    · rw [if_neg h0, if_neg h3, if_neg h4, if_neg h3F]
      exact modeSense6_other u p rfl ⟨fun h => h0 ((hcode 0x00).1 h), fun h => h3 ((hcode 0x03).1 h),
        fun h => h4 ((hcode 0x04).1 h), fun h => h3F ((hcode 0x3F).1 h)⟩
  rw [← hbody]
  exact runCdb_own inst id s _ (fun e => modeSense6 e.p) t ht

/-- Settles O52: each listed opcode is its own row of the dispatch, and no other opcode has one. -/
theorem opcodesDispatch : Obligations.OpcodesDispatch := by
  intro inst id op args c6 c10 e y s t x rows
  refine ⟨fun r hr => ?_, fun hy hop => executeCdb_other id hy (cdbOpOf_unlisted ?_), fun hwf ht => ?_, cdbLen_eq op⟩
  · simp only [rows, List.mem_cons, List.not_mem_nil, or_false] at hr
    rcases hr with rfl | rfl | rfl | rfl | rfl | rfl | rfl | rfl | rfl | rfl | rfl | rfl | rfl | rfl | rfl
    · exact dispatched_testUnitReady.row inst id s rfl rfl
    · exact dispatched_rezeroUnit.row inst id s rfl rfl
    · exact dispatched_requestSense.row inst id s rfl rfl
    · exact dispatched_formatUnit.row inst id s rfl rfl
    · exact dispatched_read6.row inst id s rfl rfl
    · exact dispatched_write6.row inst id s rfl rfl
    · exact dispatched_seek6.row inst id s rfl rfl
    · exact dispatched_inquiry.row inst id s rfl rfl
    · exact dispatched_modeSelect6.row inst id s rfl rfl
    · exact dispatched_modeSense6.row inst id s rfl rfl
    · exact dispatched_startStopUnit.row inst id s rfl rfl
    · exact dispatched_readCapacity.row inst id s rfl rfl
    · exact dispatched_read10.row inst id s rfl rfl
    · exact dispatched_write10.row inst id s rfl rfl
    · exact dispatched_verify10.row inst id s rfl rfl
  · simpa [rows] using hop
  · have hother : cdbOpOf op = .other := (of_decide_eq_true hwf).1
    have hexec := runCdb_own inst id s (op :: args) (fun e => otherOpcode e.p) t ht
    refine ⟨hexec, Eq.trans hexec (congrArg (fun z => Host.Outcome.next (s.put inst z)) ?_)⟩
    rw [Instance.modTarget_some ht, executeCdb_other id (Instance.withTarget_target?_same _ _ _)
      ((congrArg cdbOpOf (loadCdb_opcode op args t)).trans hother), Instance.withTarget_withTarget]
    rfl

/-- Settles O53: the first check that stops is the whole command. -/
theorem readWriteChecks : Obligations.ReadWriteChecks := by
  intro inst id c d s t i bytes lba blocks x u n ht hi hfails
  have himage : u.image = t.image := loadCdb_image _ t
  have hgeom : u.geom = t.geom := loadCdb_geom _ t
  have hu : (x.withTarget id u).target? id = some u := Instance.withTarget_target?_same _ _ _
  have hcheck : rwChecks Config.params lba.toNat blocks u = some (
      if t.image = none then checked 0x2 0x3A 0x00 none u
      else if t.geom.totalSectors < lba.toNat + blocks then checked 0x5 0x21 0x00 (some lba) u
      else checked 0x5 0x24 0x00 none u) := by
    rw [rwChecks_eq, himage, hgeom]
    by_cases h1 : t.image = none
    · rw [if_pos h1, if_pos h1]
    by_cases h2 : t.geom.totalSectors < lba.toNat + blocks
    · rw [if_neg h1, if_neg h1, if_pos h2, if_pos h2]
    · have h3 := (hfails.resolve_left h1).resolve_left h2
      rw [if_neg h1, if_neg h1, if_neg h2, if_neg h2, if_pos h3]
  rw [← Instance.withTarget_withTarget x id u]
  have hi' : (i, bytes, lba, blocks) ∈ [(Instr.cdbRead6 inst id c, cdb6Bytes 0x08 c, c.lba.setWidth 32, n),
      (.cdbRead10 inst id d, cdb10Bytes 0x28 d, d.lba, d.len.toNat)] ∨
      (i, bytes, lba, blocks) ∈ [(Instr.cdbWrite6 inst id c, cdb6Bytes 0x0A c, c.lba.setWidth 32, n),
      (.cdbWrite10 inst id d, cdb10Bytes 0x2A d, d.lba, d.len.toNat)] := by
    simp only [List.mem_cons, List.not_mem_nil, or_false] at hi ⊢
    tauto
  rcases hi' with hread | hwrite
  · rw [exec_read inst id s ht hread]
    exact congrArg (fun z => Host.Outcome.next (s.put inst z)) (doRead_checked hu hcheck)
  · rw [exec_write inst id s ht hwrite]
    exact congrArg (fun z => Host.Outcome.next (s.put inst z)) (doWrite_checked hu hcheck)

/-- Settles O55: the checks pass, and the data is asked for. -/
theorem writeAsksForData : Obligations.WriteAsksForData := by
  intro inst id c d s t i bytes lba blocks x u v ht himage hbps hrange hfits hi
  have hu : (x.withTarget id u).target? id = some u := Instance.withTarget_target?_same _ _ _
  have hgeom : u.geom = t.geom := loadCdb_geom _ t
  have hpass : rwChecks Config.params lba.toNat blocks u = none := by
    rw [rwChecks_eq_none, hgeom, show u.image = t.image from loadCdb_image _ t]
    exact ⟨himage, hrange, hfits⟩
  have hbody : dataOut (blocks * u.geom.bps) { u with lba := BitVec.ofNat 32 lba.toNat, blocks := blocks } =
      if blocks = 0 then { v with tstate := .status }
      else { v with cur := 0, total := blocks * t.geom.bps, tstate := .dataOut } := by
    rw [BitVec.ofNat_toNat, BitVec.setWidth_eq, hgeom]
    unfold dataOut
    by_cases h : blocks = 0
    · rw [if_pos h, if_pos (by rw [h, Nat.zero_mul])]
      rfl
    · rw [if_neg h, if_neg (Nat.mul_ne_zero h (by omega))]
  rw [← hbody, ← Instance.withTarget_withTarget x id u, exec_write inst id s ht hi]
  exact congrArg (fun z => Host.Outcome.next (s.put inst z)) (doWrite_passed hu hpass)

/-- Settles O50: the checks in their order. -/
theorem rangeCommands : Obligations.RangeCommands := by
  intro inst id c d s t x u w ht
  have hwide : (c.lba.setWidth 32).toNat = c.lba.toNat := by
    rw [BitVec.toNat_setWidth, Nat.mod_eq_of_lt (by omega)]
  have hlba : lba6 u.cmd = (c.lba.setWidth 32).toNat := (lba6_loadCdb 0x0B c t).trans hwide.symm
  have hseek := seek6_eq u Config.params _ hlba
  obtain ⟨-, hflags, -⟩ := loadCdb10_cmd 0x2F d t
  have hverify := verify10_eq w Config.params d.lba (lba10_loadCdb 0x2F d t)
  rw [show u.image = t.image from loadCdb_image _ t, show u.geom = t.geom from loadCdb_geom _ t, hwide] at hseek
  rw [show w.image = t.image from loadCdb_image _ t, show w.geom = t.geom from loadCdb_geom _ t,
    show blocks10 w.cmd = d.len.toNat from blocks10_loadCdb 0x2F d t, show w.cmd[1] = d.flags from hflags] at hverify
  exact ⟨(runCdb_own inst id s _ (fun e => seek6 e.p) t ht).trans
      (congrArg (fun v => Host.Outcome.next (s.put inst (x.withTarget id v))) hseek),
    (runCdb_own inst id s _ (fun e => verify10 e.p) t ht).trans
      (congrArg (fun v => Host.Outcome.next (s.put inst (x.withTarget id v))) hverify)⟩

/-- Settles O51: the medium check, then eight bytes. -/
theorem readCapacityReportsGeometry : Obligations.ReadCapacityReportsGeometry := by
  intro inst id d s t x u ht
  have himage : u.image = t.image := loadCdb_image _ t
  have hgeom : u.geom = t.geom := loadCdb_geom _ t
  rw [← himage, ← hgeom, ← readCapacity_eq]
  exact runCdb_own inst id s _ (fun e => readCapacity e.p) t ht

end Sys2Proof.Proofs
end

section
/-! SUPPORT. The Target's commands that access the store (45_target_commands.md): the staging of a read, the flush of a
sector. -/

namespace Sys2Proof.Machine

/-! ### Store accesses (R50) -/

/-- The instance after calls of the store, each with its draw. -/
def Instance.called (x : Instance) (cs : List Call) : Instance :=
  { x with calls := x.calls ++ cs, draws := x.draws + cs.length }

@[simp] theorem Instance.called_nil (x : Instance) : x.called [] = x := by simp [Instance.called]

@[simp] theorem Instance.called_called (x : Instance) (a b : List Call) : (x.called a).called b = x.called (a ++ b) := by
  simp [Instance.called, Nat.add_assoc]

@[simp] theorem Instance.called_target? (x : Instance) (cs : List Call) (k : Fin 7) :
    (x.called cs).target? k = x.target? k := rfl

@[simp] theorem Instance.called_draws (x : Instance) (cs : List Call) : (x.called cs).draws = x.draws + cs.length := rfl

theorem Instance.withTarget_called (x : Instance) (k : Fin 7) (t : Target) (cs : List Call) :
    (x.withTarget k t).called cs = (x.called cs).withTarget k t := rfl

/-- One call of the store has made one draw. -/
theorem Instance.called_one_draws (x : Instance) (c : Call) (k : Fin 7) (t : Target) (j : Nat) :
    ((x.called [c]).withTarget k t).draws + j = x.draws + (j + 1) := by
  rw [withTarget_draws, called_draws, List.length_singleton, Nat.add_assoc, Nat.add_comm 1 j]

/-- Calls of the store and the record of one Target are all that a command of that Target changes. -/
theorem State.put_called (s : State) (inst : InstId) (x : Instance) (k : Fin 7) (t u : Target) (cs : List Call) :
    let z := (s.put inst (((x.withTarget k t).called cs).withTarget k u)).get inst
    z.target? k = some u ∧ z.ctrl = x.ctrl ∧ z.bus.sig = x.bus.sig ∧ z.bus.dat = x.bus.dat ∧ z.bus.ctl = x.bus.ctl ∧
    z.bus.data = x.bus.data ∧ (∀ j, j ≠ k → z.target? j = x.target? j) ∧ z.calls = x.calls ++ cs := by
  intro z
  have hz : z = ((x.withTarget k t).called cs).withTarget k u := State.get_put_same _ _ _
  rw [hz]
  refine ⟨Instance.withTarget_target?_same _ _ _, rfl, rfl, rfl, rfl, rfl, fun j hj => ?_, rfl⟩
  rw [Instance.withTarget_target?_other _ _ _ _ hj, Instance.called_target?, Instance.withTarget_target?_other _ _ _ _ hj]

/-- A store read within the image, as the environment's draw decides it (R50). -/
theorem storeRead_eq {e : Env} {k : Fin 7} {off len : Nat} {x : Instance} {t : Target} {st : Store}
    (ht : x.target? k = some t) (hst : t.image = some st) (hin : off + len ≤ st.size) :
    storeRead e k off len x =
      (if e.p.storeFails e.id x.draws then none else some (st.readRange off len),
        x.called [.storeRead k off len !(e.p.storeFails e.id x.draws)]) := by
  unfold storeRead
  simp only [ht, Option.bind_some, hst, drawFails, hin, decide_true, Bool.and_true]
  cases e.p.storeFails e.id x.draws <;> rfl

/-- A store write within the image, as the environment's draw decides it (R50). -/
theorem storeWrite_eq {e : Env} {k : Fin 7} {off : Nat} {data : List Byte} {x : Instance} {t : Target} {st : Store}
    (ht : x.target? k = some t) (hst : t.image = some st) (hin : off + data.length ≤ st.size) :
    storeWrite e k off data x =
      if e.p.storeFails e.id x.draws then
        (false, (x.called [.storeWrite k off data false]).withTarget k
          { t with image := some (st.writeMixed off (e.p.storeTakesNew e.id x.draws) 0 data) })
      else
        (true, (x.called [.storeWrite k off data true]).withTarget k { t with image := some (st.writeRange off data) }) := by
  unfold storeWrite
  simp only [ht, Option.bind_some, hst, drawFails, hin, decide_true, Bool.and_true, Instance.modTarget_some ht]
  cases e.p.storeFails e.id x.draws <;> rfl

/-! ### Staging (R271) -/

section
variable {e : Env} {k : Fin 7} {lba bps : Nat} {t : Target} {st : Store}

/-- The store calls of sectors `n`, `n + 1`, … up to `n + m`, all of them answered. -/
def readCalls (k : Fin 7) (lba bps n m : Nat) : List Call :=
  (List.range' n m).map fun j => .storeRead k ((lba + j) * bps) bps true

@[simp] theorem readCalls_length (n m : Nat) : (readCalls k lba bps n m).length = m := by simp [readCalls]

theorem readCalls_cons (n m : Nat) :
    readCalls k lba bps n (m + 1) = .storeRead k ((lba + n) * bps) bps true :: readCalls k lba bps (n + 1) m := rfl

theorem readCalls_zero (m : Nat) :
    readCalls k lba bps 0 m = (List.range m).map fun j => Call.storeRead k ((lba + j) * bps) bps true := by
  rw [readCalls, List.range_eq_range']

/-- The end of a sector of the request lies within the image. -/
theorem sector_end_le {n blocks size : Nat} (hn : n < blocks) (h : (lba + blocks) * bps ≤ size) :
    (lba + n) * bps + bps ≤ size := by
  rw [← Nat.succ_mul]
  exact (Nat.mul_le_mul_right bps (by omega)).trans h

/-- One round of staging that the environment answers: the sector is in the buffer. -/
theorem stageSectors_read {done left : Nat} {x : Instance} (ht : x.target? k = some t) (hst : t.image = some st)
    (hin : (lba + done) * bps + bps ≤ st.size) (hok : e.p.storeFails e.id x.draws = false) :
    stageSectors e k lba bps (done + (left + 1)) (left + 1) x =
      stageSectors e k lba bps (done + (left + 1)) left
        ((x.called [.storeRead k ((lba + done) * bps) bps true]).withTarget k
          { t with buf := bufFill t.buf (done * bps) (st.readRange ((lba + done) * bps) bps) }) := by
  have hj : done + (left + 1) - (left + 1) = done := by omega
  rw [stageSectors]
  have hread : storeRead e k ((lba + done) * bps) bps x =
      (some (st.readRange ((lba + done) * bps) bps), x.called [.storeRead k ((lba + done) * bps) bps true]) := by
    rw [storeRead_eq ht hst hin, hok]
    rfl
  simp only [hj, hread]
  exact congrArg _ (Instance.modTarget_some (x := x.called _) ht _)

/-- One round of staging that the environment fails: the command ends (R271). -/
theorem stageSectors_fail {done left : Nat} {x : Instance} (ht : x.target? k = some t) (hst : t.image = some st)
    (hin : (lba + done) * bps + bps ≤ st.size) (hfail : e.p.storeFails e.id x.draws = true) :
    stageSectors e k lba bps (done + (left + 1)) (left + 1) x =
      (x.called [.storeRead k ((lba + done) * bps) bps false]).withTarget k
        (checkCondition e.p 0x3 0x00 0x00 (some (lba + done)) t) := by
  have hj : done + (left + 1) - (left + 1) = done := by omega
  rw [stageSectors]
  have hread : storeRead e k ((lba + done) * bps) bps x = (none, x.called [.storeRead k ((lba + done) * bps) bps false]) := by
    rw [storeRead_eq ht hst hin, hfail]
    rfl
  simp only [hj, hread]
  exact Instance.modTarget_some (x := x.called _) ht _

/-- Staging that the environment fails nowhere: the buffer holds the bytes of the sectors, and they are offered. -/
theorem stageSectors_all (left : Nat) : ∀ (done : Nat) (x : Instance) (t : Target), x.target? k = some t → t.image = some st →
    (lba + (done + left)) * bps ≤ st.size → (∀ j, j < left → e.p.storeFails e.id (x.draws + j) = false) →
    ∃ m : Memory, stageSectors e k lba bps (done + left) left x =
        (x.called (readCalls k lba bps done left)).withTarget k (dataIn ((done + left) * bps) { t with buf := m }) ∧
      ∀ a, m.lookup a =
        if done * bps ≤ a ∧ a < (done + left) * bps then some (st.readByte (lba * bps + a)) else t.buf.lookup a := by
  induction left with
  | zero =>
    intro done x t ht hst hin hok
    refine ⟨t.buf, ?_, fun a => (if_neg (by rw [Nat.add_zero]; omega)).symm⟩
    rw [show readCalls k lba bps done 0 = [] from rfl, Instance.called_nil]
    exact Instance.modTarget_some ht _
  | succ left ih =>
    intro done x t ht hst hin hok
    have hdraw : e.p.storeFails e.id x.draws = false := hok 0 (by omega)
    rw [stageSectors_read ht hst (sector_end_le (by omega) hin) hdraw, show done + (left + 1) = done + 1 + left by omega]
    obtain ⟨m, hrun, hbuf⟩ := ih (done + 1)
      ((x.called [.storeRead k ((lba + done) * bps) bps true]).withTarget k
        { t with buf := bufFill t.buf (done * bps) (st.readRange ((lba + done) * bps) bps) })
      { t with buf := bufFill t.buf (done * bps) (st.readRange ((lba + done) * bps) bps) }
      (Instance.withTarget_target?_same _ _ _) hst
      (by rwa [show done + 1 + left = done + (left + 1) by omega]) fun j hj => by
        rw [Instance.called_one_draws]
        exact hok (j + 1) (by omega)
    refine ⟨m, ?_, fun a => ?_⟩
    · rw [hrun, Instance.withTarget_called, Instance.called_called, Instance.withTarget_withTarget, readCalls_cons]
      rfl
    · rw [hbuf, lookup_bufFill, Store.readRange_length]
      have hsplit : (done + 1) * bps = done * bps + bps := Nat.succ_mul done bps
      have hle : (done + 1) * bps ≤ (done + 1 + left) * bps := Nat.mul_le_mul_right bps (by omega)
      by_cases hlater : (done + 1) * bps ≤ a ∧ a < (done + 1 + left) * bps
      · rw [if_pos hlater, if_pos ⟨by omega, hlater.2⟩]
      by_cases hnow : done * bps ≤ a ∧ a < done * bps + bps
      · rw [if_neg hlater, if_pos hnow, if_pos ⟨hnow.1, by omega⟩, Store.readRange_getD _ _ _ _ (by omega)]
        rw [Nat.add_mul, Nat.add_assoc, Nat.add_sub_cancel' hnow.1]
      · rw [if_neg hlater, if_neg hnow, if_neg (by omega)]

/-- Staging whose first failing sector is `done + n`: the command ends in a Medium Error that names it. -/
theorem stageSectors_first (n : Nat) : ∀ (done left : Nat) (x : Instance) (t : Target), x.target? k = some t →
    t.image = some st → (lba + (done + left)) * bps ≤ st.size → n < left →
    (∀ j, j < n → e.p.storeFails e.id (x.draws + j) = false) → e.p.storeFails e.id (x.draws + n) = true →
    ∃ m : Memory, stageSectors e k lba bps (done + left) left x =
      (x.called (readCalls k lba bps done n ++ [.storeRead k ((lba + (done + n)) * bps) bps false])).withTarget k
        (checkCondition e.p 0x3 0x00 0x00 (some (lba + (done + n))) { t with buf := m }) := by
  induction n with
  | zero =>
    intro done left x t ht hst hin hn hok hfail
    obtain ⟨left, rfl⟩ := Nat.exists_eq_add_one_of_ne_zero (Nat.ne_of_gt hn)
    exact ⟨t.buf, stageSectors_fail ht hst (sector_end_le (by omega) hin) hfail⟩
  | succ n ih =>
    intro done left x t ht hst hin hn hok hfail
    obtain ⟨left, rfl⟩ := Nat.exists_eq_add_one_of_ne_zero (Nat.ne_of_gt (Nat.zero_lt_of_lt hn))
    have hdraw : e.p.storeFails e.id x.draws = false := hok 0 (by omega)
    rw [stageSectors_read ht hst (sector_end_le (by omega) hin) hdraw, show done + (left + 1) = done + 1 + left by omega]
    obtain ⟨m, hrun⟩ := ih (done + 1) left
      ((x.called [.storeRead k ((lba + done) * bps) bps true]).withTarget k
        { t with buf := bufFill t.buf (done * bps) (st.readRange ((lba + done) * bps) bps) })
      { t with buf := bufFill t.buf (done * bps) (st.readRange ((lba + done) * bps) bps) } (Instance.withTarget_target?_same _ _ _) hst
      (by rwa [show done + 1 + left = done + (left + 1) by omega]) (by omega)
      (fun j hj => by
        rw [Instance.called_one_draws]
        exact hok (j + 1) (by omega))
      ((congrArg _ (Instance.called_one_draws x _ k _ n)).trans hfail)
    refine ⟨m, ?_⟩
    rw [hrun, Instance.withTarget_called, Instance.called_called, Instance.withTarget_withTarget, readCalls_cons,
      show done + 1 + n = done + (n + 1) by omega]
    rfl

end

theorem doRead_passed {e : Env} {k : Fin 7} {x : Instance} {t : Target} {lba blocks : Nat} (ht : x.target? k = some t)
    (h : rwChecks e.p lba blocks t = none) :
    doRead e k lba blocks x =
      stageSectors e k lba t.geom.bps blocks blocks
        (x.withTarget k { t with lba := BitVec.ofNat 32 lba, blocks := blocks }) := by
  unfold doRead
  rw [ht]
  simp only [h]
  rw [Instance.modTarget_some ht]

/-- `DataIn` by its length (R251). -/
theorem dataIn_eq (n : Nat) (t : Target) :
    dataIn n t = if n = 0 then good t else { t with cur := 0, total := n, status := 0x00, tstate := .dataIn } := rfl

/-- The record of a read whose checks have passed: the CDB is in, and so is the request (R271). -/
def Target.requested (bytes : List Byte) (lba blocks : Nat) (t : Target) : Target :=
  { loadCdb bytes t with lba := BitVec.ofNat 32 lba, blocks := blocks }

/-- Read(6) and Read(10) within the image, as events: the staging of their sectors. -/
theorem exec_read_passed {inst : InstId} {id : Fin 7} {s : State} {c : Cdb6} {d : Cdb10} {i : Instr} {lba : BitVec 32}
    {blocks : Nat} {t : Target} (ht : (beginEvent (s.get inst)).target? id = some t) (himage : t.image ≠ none)
    (hrange : lba.toNat + blocks ≤ t.geom.totalSectors) (hfits : blocks * t.geom.bps ≤ 65536)
    (h : (i, lba, blocks) ∈
      [(Instr.cdbRead6 inst id c, c.lba.setWidth 32, if c.len = 0 then 256 else c.len.toNat),
       (.cdbRead10 inst id d, d.lba, d.len.toNat)]) :
    ∃ bytes, exec i s = .next (s.put inst (stageSectors (envOf inst) id lba.toNat t.geom.bps blocks blocks
      ((beginEvent (s.get inst)).withTarget id (t.requested bytes lba.toNat blocks)))) := by
  have hread : ∃ bytes, (i, bytes, lba, blocks) ∈
      [(Instr.cdbRead6 inst id c, cdb6Bytes 0x08 c, c.lba.setWidth 32, if c.len = 0 then 256 else c.len.toNat),
       (.cdbRead10 inst id d, cdb10Bytes 0x28 d, d.lba, d.len.toNat)] := by
    simp only [List.mem_cons, List.not_mem_nil, or_false, Prod.mk.injEq] at h ⊢
    rcases h with ⟨rfl, rfl, rfl⟩ | ⟨rfl, rfl, rfl⟩
    · exact ⟨_, .inl ⟨rfl, rfl, rfl, rfl⟩⟩
    · exact ⟨_, .inr ⟨rfl, rfl, rfl, rfl⟩⟩
  obtain ⟨bytes, hread⟩ := hread
  have hpass : rwChecks (envOf inst).p lba.toNat blocks (loadCdb bytes t) = none := by
    rw [rwChecks_eq_none, loadCdb_image, loadCdb_geom]
    exact ⟨himage, hrange, hfits⟩
  refine ⟨bytes, (exec_read inst id s ht hread).trans (congrArg (fun z => Host.Outcome.next (s.put inst z)) ?_)⟩
  rw [doRead_passed (Instance.withTarget_target?_same _ _ _) hpass, Instance.withTarget_withTarget, loadCdb_geom]
  rfl

/-- A number that fits the LBA field of the sense goes into it unchanged (R252). -/
theorem toNat_narrow_lba (p : Params) {n : Nat} (h : n < 2 ^ 32) : (BitVec.ofNat 32 (narrow p 4 n)).toNat = n := by
  rw [show narrow p 4 n = n from if_pos (by omega), BitVec.toNat_ofNat, Nat.mod_eq_of_lt h]

/-! ### The flush of a sector (R254) -/

/-- A failed write changes no byte outside its range (R50; log 6). -/
theorem readByte_writeMixed_outside {st : Store} (off : Nat) (takes : Nat → Bool) (n : Nat) (bs : List Byte) (hst : st.ok)
    {a : Nat} (ha : ¬(off + n ≤ a ∧ a < off + n + bs.length)) :
    (st.writeMixed off takes n bs).readByte a = st.readByte a := by
  induction bs generalizing st n with
  | nil => rfl
  | cons v vs ih =>
    rw [List.length_cons] at ha
    rw [Store.writeMixed]
    split
    · rw [ih (n + 1) (Store.writeByte_ok _ v hst) (by omega),
        Store.readByte_writeByte _ _ _ _ ((Memory.wf_iff _).1 hst.1).1, if_neg (by omega)]
    · exact ih (n + 1) hst (by omega)

/-- The bytes of a slice of the data buffer. -/
theorem bufSlice_getD (e : Env) (t : Target) (j n a : Nat) (h : a < n) :
    (bufSlice e t j n).getD a 0 = bufRead e t (j + a) := by
  induction n generalizing j a with
  | zero => omega
  | succ n ih =>
    cases a with
    | zero => rfl
    | succ a =>
      rw [bufSlice, List.getD_cons_succ, ih _ _ (by omega), Nat.add_assoc, Nat.add_comm 1 a]

end Sys2Proof.Machine

namespace Sys2Proof.Proofs
open Machine

/-- Settles O54: the staging either runs through or stops at the first sector whose draw fails. -/
theorem readStagesSectors : Obligations.ReadStagesSectors := by
  intro inst id c d s t st i lba blocks x bps fails ht himage hbps hstore hrange hfits hi
  obtain ⟨bytes, hexec⟩ := exec_read_passed ht (by rw [himage]; exact Option.some_ne_none st) hrange hfits hi
  have hw : (x.withTarget id (t.requested bytes lba.toNat blocks)).target? id = some (t.requested bytes lba.toNat blocks) :=
    Instance.withTarget_target?_same _ _ _
  have hin : (lba.toNat + (0 + blocks)) * bps ≤ st.size := by
    rw [Nat.zero_add]
    exact (Nat.mul_le_mul_right bps hrange).trans hstore
  cases hfind : (List.range blocks).find? fails with
  | none =>
    have hok : ∀ j, j < blocks → fails j = false := fun j hj =>
      Bool.eq_false_iff.2 (List.find?_eq_none.1 hfind j (List.mem_range.2 hj))
    obtain ⟨m, hrun, hbuf⟩ := stageSectors_all (e := envOf inst) (lba := lba.toNat) blocks 0 _ _ hw himage hin hok
    rw [Nat.zero_add] at hrun hbuf
    rw [show t.geom.bps = bps from rfl, hrun] at hexec
    generalize hv : dataIn (blocks * bps) { t.requested bytes lba.toNat blocks with buf := m } = v at hexec
    obtain ⟨htarget, hctrl, hsig, hdat, hctl, hdata, hothers, hcalls⟩ := State.put_called s inst x id
      (t.requested bytes lba.toNat blocks) v (readCalls id lba.toNat bps 0 blocks)
    have hlookup : ∀ a, a < blocks * bps → m.lookup a = some (st.readByte (lba.toNat * bps + a)) := fun a ha => by
      rw [hbuf, if_pos ⟨by omega, ha⟩]
    refine ⟨_, v, hexec, htarget, ?_⟩
    rw [dataIn_eq] at hv
    by_cases hzero : blocks = 0
    · rw [if_pos (by rw [hzero, Nat.zero_mul])] at hv
      subst hv
      exact ⟨himage, rfl, hctrl, hsig, hdat, hctl, hdata, hothers, hlookup, rfl, rfl, rfl, by rw [if_pos hzero]; rfl,
        hcalls.trans (readCalls_zero blocks)⟩
    · rw [if_neg (Nat.mul_ne_zero hzero (by omega))] at hv
      subst hv
      exact ⟨himage, rfl, hctrl, hsig, hdat, hctl, hdata, hothers, hlookup, rfl, rfl, rfl,
        by rw [if_neg hzero]; exact ⟨rfl, rfl, rfl⟩,
        hcalls.trans (readCalls_zero blocks)⟩
  | some j =>
    obtain ⟨hfail, hj, hok⟩ := List.find?_range_eq_some.1 hfind
    obtain ⟨m, hrun⟩ := stageSectors_first (e := envOf inst) (lba := lba.toNat) j 0 blocks _ _ hw himage hin
      (List.mem_range.1 hj) (fun i hi => Bool.not_eq_true' _ ▸ hok i hi) hfail
    rw [Nat.zero_add, Nat.zero_add] at hrun
    rw [show t.geom.bps = bps from rfl, hrun] at hexec
    obtain ⟨htarget, hctrl, hsig, hdat, hctl, hdata, hothers, hcalls⟩ := State.put_called s inst x id
      (t.requested bytes lba.toNat blocks)
      (checkCondition (envOf inst).p 0x3 0x00 0x00 (some (lba.toNat + j))
        { t.requested bytes lba.toNat blocks with buf := m })
      (readCalls id lba.toNat bps 0 j ++ [.storeRead id ((lba.toNat + j) * bps) bps false])
    refine ⟨_, _, hexec, htarget, himage, rfl, hctrl, hsig, hdat, hctl, hdata, hothers, rfl, rfl, rfl, rfl, rfl, rfl,
      fun h => toNat_narrow_lba _ h, ?_⟩
    rw [hcalls, readCalls_zero]
    rfl

/-- Settles O56: the store write within the image, as the draw decides it. -/
theorem flushWritesOneSector : Obligations.FlushWritesOneSector := by
  intro e k x t st bps j off ht himage hok hin
  have hlen : (bufSlice e t (j * bps) bps).length = bps := bufSlice_length _ _ _ _
  have hwrite := storeWrite_eq (e := e) (off := off) (data := bufSlice e t (j * bps) bps) ht himage (by rwa [hlen])
  by_cases hfail : e.p.storeFails e.id x.draws = true
  · rw [if_pos hfail] at hwrite
    have hflush : flushSector e k x = (x.called [.storeWrite k off (bufSlice e t (j * bps) bps) false]).withTarget k
        (flushFailed e.p j
          { t with image := some (st.writeMixed off (e.p.storeTakesNew e.id x.draws) 0 (bufSlice e t (j * bps) bps)) }) := by
      unfold flushSector
      rw [ht]
      simp only [show storeWrite e k ((t.lba.toNat + (t.cur / t.geom.bps - 1)) * t.geom.bps)
        (bufSlice e t ((t.cur / t.geom.bps - 1) * t.geom.bps) t.geom.bps) x = _ from hwrite]
      rw [Instance.modTarget_some (Instance.withTarget_target?_same _ _ _), Instance.withTarget_withTarget]
    rw [hflush]
    refine ⟨_, _, Instance.withTarget_target?_same _ _ _, rfl, Store.writeMixed_size _ _ _ _ _, fun a ha => ?_, rfl, rfl,
      ?_⟩
    · exact readByte_writeMixed_outside _ _ _ _ hok (by rwa [hlen])
    · rw [if_pos hfail]
      exact ⟨rfl, rfl, rfl, rfl, rfl, rfl, rfl, fun h => toNat_narrow_lba e.p h⟩
  · rw [if_neg hfail] at hwrite
    have hflush : flushSector e k x = (x.called [.storeWrite k off (bufSlice e t (j * bps) bps) true]).withTarget k
        { t with image := some (st.writeRange off (bufSlice e t (j * bps) bps)) } := by
      unfold flushSector
      rw [ht]
      simp only [show storeWrite e k ((t.lba.toNat + (t.cur / t.geom.bps - 1)) * t.geom.bps)
        (bufSlice e t ((t.cur / t.geom.bps - 1) * t.geom.bps) t.geom.bps) x = _ from hwrite]
    rw [hflush]
    refine ⟨_, _, Instance.withTarget_target?_same _ _ _, rfl, Store.writeRange_size _ _ _, fun a ha => ?_, rfl, rfl, ?_⟩
    · rw [Store.readByte_writeRange _ _ _ _ hok, hlen, if_neg (by omega)]
    · rw [if_neg hfail]
      refine ⟨rfl, fun a ha => ?_⟩
      rw [Store.readByte_writeRange _ _ _ _ hok, hlen, if_pos ⟨by omega, by omega, by omega⟩, Nat.add_sub_cancel_left,
        bufSlice_getD _ _ _ _ _ ha]

end Sys2Proof.Proofs
end

section
/-! SUPPORT. The command bytes as events (42_controller_commands.md): what each command does to the lines and to the
Controller, with any participants on the bus and in closed form. -/

namespace Sys2Proof.Machine

/-! ### A command byte as an event (R66, R116, R150) -/

section
variable (inst : InstId) (s : State)

/-- Every byte is a command code and the bits below. -/
theorem scmdByte_split (v : Byte) : v = scmdByte (v.extractLsb' 5 3) (v.extractLsb' 0 5) := by
  revert v
  decide

theorem code_cases (code : BitVec 3) :
    code = 0 ∨ code = 1 ∨ code = 2 ∨ code = 3 ∨ code = 4 ∨ code = 5 ∨ code = 6 ∨ code = 7 := by
  revert code
  decide

/-- The command a byte names is the one its code selects in `execute_command` (R150). -/
theorem exec_scmdOf (v : Byte) :
    exec (scmdOf inst v) s = onInstance inst (issueCommand (fun n => executeCommand n v) v) s := by
  obtain ⟨code, low, rfl⟩ : ∃ code low, v = scmdByte code low := ⟨_, _, scmdByte_split v⟩
  have hcommand {command : (Instance → Instance) → Instance → Instance}
      (h : ∀ n x, executeCommand n (scmdByte code low) x = command n x) :
      onInstance inst (issueCommand command (scmdByte code low)) s =
        onInstance inst (issueCommand (fun n => executeCommand n (scmdByte code low)) (scmdByte code low)) s := by
    rw [show command = fun n => executeCommand n (scmdByte code low) from funext fun n => funext fun x => (h n x).symm]
  have hcode := (scmdByte_fields code low).2
  rw [scmdOf_scmdByte]
  rcases code_cases code with rfl | rfl | rfl | rfl | rfl | rfl | rfl | rfl <;>
    exact hcommand fun n x => by
      unfold executeCommand
      rw [hcode]
      rfl

theorem exec_wScmd (v : Byte) :
    exec (.wScmd inst (Config.params.odd inst) v) s =
      onInstance inst (issueCommand (fun n => executeCommand n v) v) s := by
  rw [onInstance_eq]
  exact onInstance_writeRegister_own inst (writeScmd v) s

/-- The eight command bytes by their codes (R66). -/
theorem scmdOf_of_code {v : Byte} {low : BitVec 5} {i : Instr} {code : BitVec 3} (hv : v = code ++ low)
    (h : (i, code) ∈ [(Instr.scmdBusRelease inst low, 0#3), (.scmdSelect inst low, 1#3), (.scmdResetAtn inst low, 2#3),
      (.scmdSetAtn inst low, 3#3), (.scmdTransfer inst low, 4#3), (.scmdTransferPause inst low, 5#3),
      (.scmdResetAckreq inst low, 6#3), (.scmdSetAckreq inst low, 7#3)]) : scmdOf inst v = i := by
  rw [show v = scmdByte code low from hv, scmdOf_scmdByte]
  simp only [List.mem_cons, List.not_mem_nil, or_false, Prod.mk.injEq] at h
  rcases h with ⟨rfl, rfl⟩ | ⟨rfl, rfl⟩ | ⟨rfl, rfl⟩ | ⟨rfl, rfl⟩ | ⟨rfl, rfl⟩ | ⟨rfl, rfl⟩ | ⟨rfl, rfl⟩ | ⟨rfl, rfl⟩ <;>
    rfl

/-- A command byte that is disabled, in every state: RST-out, the common tail (R116, R118). -/
theorem issueCommand_disabled (e : Env) (command : (Instance → Instance) → Instance → Instance) (code : BitVec 3)
    (low : BitVec 5) (x : Instance) (h : x.ctrl.sctl.getLsbD 7 = true) :
    issueCommand command (scmdByte code low) e x = commonTail e (afterRstOut e code low x) := by
  have hz : (x.modCtrl fun c => { c with scmd := scmdByte code low }) =
      { x with ctrl := { x.ctrl with scmd := code ++ low } } := rfl
  unfold issueCommand writeScmdWith
  simp only [scmdByte_rst, hz]
  rw [show drive (notify e) (onlyIf (low.getLsbD 4) sigRST) sigRST { x with ctrl := { x.ctrl with scmd := code ++ low } } =
    afterRstOut e code low x from rfl, if_pos (by rw [afterRstOut_sctl, h])]

/-- After a command byte SCMD holds it, whatever the participants do (R116). -/
theorem issueCommand_scmd (e : Env) (v : Byte) (x : Instance) :
    (issueCommand (fun n => executeCommand n v) v e x).ctrl.scmd = v := by
  obtain ⟨z, hz, htail⟩ := commonTail_settles e (writeScmdWith (fun n => executeCommand n v) v e x)
  have hdrive : (drive (notify e) (onlyIf (v.getLsbD 4) sigRST) sigRST
      (x.modCtrl fun c => { c with scmd := v })).ctrl.scmd = v := (drive_reacts (notify_reacts e) _ _ _).ctrl.scmd
  have hcommand (y : Instance) : (executeCommand (notify e) v y).ctrl.scmd = y.ctrl.scmd := by
    refine (executeCommand_does (i := .rBdid .internal false) (k := .internal) e v y).ctrl.scmd.resolve_right fun h => ?_
    simp [Instr.writesScmd] at h
  have hbody : (writeScmdWith (fun n => executeCommand n v) v e x).ctrl.scmd = v := by
    unfold writeScmdWith
    simp only
    split
    · exact hdrive
    · exact (hcommand _).trans hdrive
  unfold issueCommand
  rw [htail, updateLines_eq]
  exact hz.ctrl.scmd.trans hbody

/-- A command byte that is not disabled, in every state: RST-out, the command, the common tail (R116, R150). -/
theorem exec_issue {i : Instr} {command : (Instance → Instance) → Instance → Instance} {code : BitVec 3} {low : BitVec 5}
    (h7 : (beginEvent (s.get inst)).ctrl.sctl.getLsbD 7 = false)
    (hi : exec i s = onInstance inst (issueCommand command (scmdByte code low)) s) :
    exec i s = .next (s.put inst (commonTail (envOf inst)
      (command (notify (envOf inst)) (afterRstOut (envOf inst) code low (beginEvent (s.get inst)))))) := by
  rw [hi, onInstance_eq, issueCommand_rstOut _ _ _ _ _ h7]

end

/-- Two bodies with the same result are the same event. -/
theorem next_put_congr (s : State) (inst : InstId) {a b : Instance} (h : a = b) :
    (Host.Outcome.next (s.put inst a) : Host.Outcome State Fault Refusal) = .next (s.put inst b) := by rw [h]

/-! ### Merging (R95) -/

/-- A merge that sets the masked bits. -/
theorem merge_self (q m : Ctl) : merge q m m = q ||| m := by
  unfold merge
  rw [BitVec.and_self]
  ext i
  simp only [BitVec.getElem_or, BitVec.getElem_and, BitVec.getElem_not]
  cases q[i] <;> cases m[i] <;> rfl

/-- A merge of RST-out. -/
theorem merge_rst (q : Ctl) (b : Bool) : merge q (onlyIf b sigRST) sigRST = (q &&& ~~~sigRST) ||| (if b then sigRST else 0) := by
  cases b <;> rfl

/-- A combined bus shows what a slot asserts. -/
theorem has_of_slot {b : Bus} (hc : b.combined) (k : Fin 8) {m : Ctl} (h : has b.sig[k] m = true) : has b.ctl m = true := by
  rw [hc.1]
  exact (has_orCtl _ _).2 ⟨k, h⟩

/-- The instance with a command byte stored (R116). -/
def Instance.stored (v : Byte) (x : Instance) : Instance := { x with ctrl := { x.ctrl with scmd := v } }

/-- A command byte that is not disabled, in normal mode, whose bit 4 leaves RST as it is: the command on what is stored. -/
theorem exec_issue_same {i : Instr} {command : (Instance → Instance) → Instance → Instance} {code : BitVec 3}
    {low : BitVec 5} (inst : InstId) (s : State) (h7 : (beginEvent (s.get inst)).ctrl.sctl.getLsbD 7 = false)
    (hcomb : (beginEvent (s.get inst)).bus.combined) (hnormal : (beginEvent (s.get inst)).ctrl.sctl.getLsbD 5 = false)
    (hrst : (beginEvent (s.get inst)).bus.sig[7] &&& sigRST = (if low.getLsbD 4 then sigRST else 0))
    (hi : exec i s = onInstance inst (issueCommand command (scmdByte code low)) s) :
    exec i s = .next (s.put inst (commonTail (envOf inst)
      (command (notify (envOf inst)) ((beginEvent (s.get inst)).stored (code ++ low))))) := by
  rw [exec_issue inst s h7 hi, afterRstOut_same _ _ _ _ hcomb hnormal hrst]
  rfl

/-- The instance with a command byte stored and RST-out in the shadow, in diagnostic mode (R112, R116). -/
def Instance.storedShadow (v : Byte) (rst : Bool) (x : Instance) : Instance :=
  { x with ctrl := { x.ctrl with
      scmd := v, diagSig := (x.ctrl.diagSig &&& ~~~sigRST) ||| (if rst then sigRST else 0) } }

/-- A command byte that is not disabled, in diagnostic mode. -/
theorem exec_issue_dm {i : Instr} {command : (Instance → Instance) → Instance → Instance} {code : BitVec 3}
    {low : BitVec 5} (inst : InstId) (s : State) (h7 : (beginEvent (s.get inst)).ctrl.sctl.getLsbD 7 = false)
    (hdm : (beginEvent (s.get inst)).ctrl.dm = true)
    (hi : exec i s = onInstance inst (issueCommand command (scmdByte code low)) s) :
    exec i s = .next (s.put inst (commonTail (envOf inst)
      (command (notify (envOf inst)) ((beginEvent (s.get inst)).storedShadow (code ++ low) (low.getLsbD 4))))) := by
  rw [hi, onInstance_eq, issueCommand_dm _ _ _ _ _ hdm h7, merge_rst]
  rfl

/-! ### The commands, case by case (R152 to R159) -/

section
variable {n : Instance → Instance} {x : Instance}

theorem cmdBusRelease_idle (h : x.ctrl.state = .idle) :
    cmdBusRelease n x = (releaseSelection n x).modCtrl fun c => { c with atnQueued := false } := by
  unfold cmdBusRelease
  rw [h]
  rfl

theorem cmdBusRelease_sel (h : x.ctrl.state.famSel = true) :
    cmdBusRelease n x = (releaseSelection n x).modCtrl fun c =>
      { c with state := .idle, pending := none, selTimer := none, atnQueued := false } := if_pos h

theorem cmdResetAckreq_free (h : x.ctrl.engineFree = true) : cmdResetAckreq n x = drive n 0 sigACK x := if_pos h

theorem cmdSetAckreq_free (h : x.ctrl.engineFree = true) : cmdSetAckreq n x = drive n sigACK sigACK x := if_pos h

theorem cmdSetAtn_unconnected (h : x.ctrl.connected = false) :
    cmdSetAtn n x = { x with ctrl := { x.ctrl with atnQueued := true } } := if_neg (by simp [h])

theorem cmdSetAtn_connected (h : x.ctrl.connected = true) :
    cmdSetAtn n x = drive n sigATN sigATN { x with ctrl := { x.ctrl with atnQueued := true } } := if_pos h

end

/-- `drive` in diagnostic mode (R112). -/
theorem drive_shadow {n : Instance → Instance} {v m : Ctl} {x : Instance} (h : x.ctrl.dm = true) :
    drive n v m x = { x with ctrl := { x.ctrl with diagSig := merge x.ctrl.diagSig v m } } := if_pos h

theorem Instance.ctrlCalm.free {x : Instance} (h : x.ctrlCalm) : x.ctrl.engineFree = true :=
  (Controller.engineFree_iff _).2 ⟨h.2.2.1, h.2.2.2.1⟩

theorem Instance.calm.connected {x : Instance} (h : x.calm) : x.ctrl.connected = false := h.1.2.2.2.2

theorem Instance.atnQueued_self {x : Instance} {a : Bool} (h : x.ctrl.atnQueued = a) :
    { x with ctrl := { x.ctrl with atnQueued := a } } = x := by rw [← h]

/-- A Controller that a still notification has left undisturbed differs from what it was in five fields. -/
theorem Undisturbed.shape {p : Params} {x y : Instance} (h : Undisturbed p x y) :
    ∃ conn ints bf seen note, y.ctrl =
      { x.ctrl with connected := conn, ints := ints, bfTimer := bf, rstSeen := seen, renotify := note } :=
  ⟨_, _, _, _, _, h.ctrl⟩

/-- What is left of an idle Controller once the others have reacted to a change of its own lines, and the tail has run:
the command byte `b` and ATN-queued are stored, a disconnect that is due may have been recorded (R206). -/
theorem afterTail_undisturbed {p : Params} {w z : Instance} {c : Controller} {b : Byte} {atn : Bool}
    (h : Undisturbed p w z) (hw : w.ctrl = { c with scmd := b }) :
    let d := (afterTail { z with ctrl := { z.ctrl with atnQueued := atn } }).ctrl
    d = { c with scmd := b, atnQueued := atn, connected := d.connected, ints := d.ints, bfTimer := d.bfTimer,
                 rstSeen := d.rstSeen, irqLine := d.irqLine, drqLine := d.drqLine, renotify := false } ∧
    ((d.connected = c.connected ∧ d.ints = c.ints) ∨
     (c.connected = true ∧ c.engineFree = true ∧ p.busFreeCycles ≤ c.bfTimer ∧ d.connected = false ∧
       d.ints = if c.pctl.getLsbD 7 then c.ints ||| 0x20 else c.ints)) := by
  have hconn := h.connected
  obtain ⟨conn, ints, bf, seen, note, hz⟩ := h.shape
  rw [hw] at hz hconn
  rw [hz] at hconn
  intro d
  have hd : d = (afterTail { z with ctrl := { z.ctrl with atnQueued := atn } }).ctrl := rfl
  simp only [afterTail, hz] at hd
  rw [hd]
  exact ⟨rfl, hconn⟩

end Sys2Proof.Machine

namespace Sys2Proof.Proofs
open Machine

/-- Settles O25: the write is the body that the named command issues. -/
theorem scmdWriteIsItsCommand : Obligations.ScmdWriteIsItsCommand := by
  intro inst v s x e
  refine ⟨?_, (exec_wScmd inst s v).trans (exec_scmdOf inst s v).symm, fun low i code hv h => scmdOf_of_code inst hv h,
    fun h7 => ?_⟩
  · refine ⟨_, (exec_wScmd inst s v).trans (onInstance_eq _ _ _), ?_, State.get_put_other _ _ _ _ (by cases inst <;> decide)⟩
    rw [State.get_put_same]
    exact issueCommand_scmd e v x
  · obtain ⟨code, low, rfl⟩ : ∃ code low, v = scmdByte code low := ⟨_, _, scmdByte_split v⟩
    rw [exec_wScmd, onInstance_eq, issueCommand_disabled _ _ _ _ _ h7, scmdByte_rst]
    rfl

/-- Settles O26: a disabled command ends after RST-out. -/
theorem disabledCommandsAreStored : Obligations.DisabledCommandsAreStored := by
  intro inst low s i code x e h7 h
  have hexec : exec i s = .next (s.put inst (commonTail e (afterRstOut e code low x))) := by
    rw [← scmdOf_of_code inst rfl h, exec_scmdOf, onInstance_eq]
    exact congrArg (fun z => Host.Outcome.next (s.put inst z)) (issueCommand_disabled _ _ _ _ _ h7)
  refine ⟨hexec, fun hcalm => ?_⟩
  rw [hexec, afterRstOut_calm _ _ _ _ hcalm, commonTail_rest _ _ (afterScmd_calm _ hcalm).1.rests]

/-- Settles O27: at an idle engine the drive of the own lines leaves the Controller undisturbed. -/
theorem lineCommands : Obligations.LineCommands := by
  intro inst low s x c e own y h7
  have hbusRelease := exec_issue inst s (i := .scmdBusRelease inst low) (code := 0) h7 rfl
  have hresetAtn := exec_issue inst s (i := .scmdResetAtn inst low) (code := 2) h7 rfl
  have hsetAtn := exec_issue inst s (i := .scmdSetAtn inst low) (code := 3) h7 rfl
  have hpause := exec_issue inst s (i := .scmdTransferPause inst low) (code := 5) h7 rfl
  have hresetAck := exec_issue inst s (i := .scmdResetAckreq inst low) (code := 6) h7 rfl
  have hsetAck := exec_issue inst s (i := .scmdSetAckreq inst low) (code := 7) h7 rfl
  refine ⟨fun hidle => ?_, hsetAtn, fun hfree => ?_, fun hfree => ?_, ?_, fun hcalm => ?_⟩
  · rw [hbusRelease, cmdBusRelease_idle hidle]
    rfl
  · rw [hresetAck, cmdResetAckreq_free hfree]
  · rw [hsetAck, cmdSetAckreq_free hfree]
  · intro hcomb hseen hbusy hidle hpending hdm hrst i code sig dat atn h
    have hfree : c.engineFree = true := (Controller.engineFree_iff _).2 ⟨hidle, hpending⟩
    have hstill (b : Byte) : (x.stored b).still := ⟨hcomb, hseen, .inr (.inl hidle)⟩
    have hfreed (b : Byte) : (x.stored b).ctrl.engineFree = true := hfree
    have hidled (b : Byte) : (x.stored b).ctrl.state = .idle := hidle
    have hdone {w z : Instance} {b : Byte} (hz : Undisturbed e.p w z) (hw : w.ctrl = { c with scmd := b }) :
        ({ z with ctrl := { z.ctrl with atnQueued := atn } } : Instance).engineRests := by
      obtain ⟨conn, ints, bf, seen, note, hctrl⟩ := hz.shape
      rw [hw] at hctrl
      rw [hctrl]
      exact ⟨hbusy, .inl hidle⟩
    have hresult {w z : Instance} (hz : Undisturbed e.p w z) (hw : w.ctrl = { c with scmd := code ++ low })
        (hexec : exec i s = .next (s.put inst (commonTail e { z with ctrl := { z.ctrl with atnQueued := atn } })))
        (hsig : z.bus.sig[7] = sig) (hdat : z.bus.dat[7] = dat) (hbus : z.bus.combined) :
        ∃ t, exec i s = .next t ∧
          let d := (t.get inst).ctrl
          (t.get inst).bus.sig[7] = sig ∧ (t.get inst).bus.dat[7] = dat ∧ (t.get inst).bus.combined ∧
          d = { c with scmd := code ++ low, atnQueued := atn, connected := d.connected, ints := d.ints,
                       bfTimer := d.bfTimer, rstSeen := d.rstSeen, irqLine := d.irqLine, drqLine := d.drqLine,
                       renotify := false } ∧
          ((d.connected = c.connected ∧ d.ints = c.ints) ∨
           (c.connected = true ∧ Config.params.busFreeCycles ≤ c.bfTimer ∧ d.connected = false ∧
             d.ints = if c.pctl.getLsbD 7 then c.ints ||| 0x20 else c.ints)) := by
      rw [commonTail_rest _ _ (hdone hz hw)] at hexec
      obtain ⟨hctrl, hconn⟩ := afterTail_undisturbed (atn := atn) hz hw
      refine ⟨_, hexec, ?_⟩
      rw [State.get_put_same]
      exact ⟨hsig, hdat, hbus, hctrl, hconn.imp_right fun ⟨h1, _, h3⟩ => ⟨h1, h3⟩⟩
    simp only [List.mem_cons, List.not_mem_nil, or_false, Prod.mk.injEq] at h
    rcases h with ⟨rfl, rfl, rfl, rfl, rfl⟩ | ⟨rfl, rfl, rfl, rfl, rfl⟩ | ⟨rfl, rfl, rfl, rfl, rfl⟩
    · obtain ⟨w, hsig, hdat, hw, hund, hbus, -⟩ :=
        releaseSelection_still e (x.stored (0#3 ++ low)) hcomb hseen hdm
      refine hresult hund hw ?_ (hund.sig.trans (hsig.trans (merge_zero _ _))) (hund.dat.trans hdat) hbus
      rw [exec_issue_same inst s (code := 0#3) h7 hcomb hdm hrst rfl, cmdBusRelease_idle (hidled _)]
      rfl
    · obtain ⟨⟨hstill', hund⟩, hsig, hdat, -⟩ := drive_still e 0 sigACK _ (hstill (6#3 ++ low)) (by decide) hdm
      have hatn := congrArg Controller.atnQueued hund.ctrl
      refine hresult hund rfl ?_ (hsig.trans (merge_zero _ _)) hdat hstill'.combined
      rw [exec_issue_same inst s (code := 6#3) h7 hcomb hdm hrst rfl, cmdResetAckreq_free (hfreed _)]
      exact next_put_congr s inst (congrArg (commonTail e) (Instance.atnQueued_self hatn).symm)
    · obtain ⟨⟨hstill', hund⟩, hsig, hdat, -⟩ := drive_still e sigACK sigACK _ (hstill (7#3 ++ low)) (by decide) hdm
      have hatn := congrArg Controller.atnQueued hund.ctrl
      refine hresult hund rfl ?_ (hsig.trans (merge_self _ _)) hdat hstill'.combined
      rw [exec_issue_same inst s (code := 7#3) h7 hcomb hdm hrst rfl, cmdSetAckreq_free (hfreed _)]
      exact next_put_congr s inst (congrArg (commonTail e) (Instance.atnQueued_self hatn).symm)
  · have hscmd (code : BitVec 3) : y code = afterScmd (code ++ low) x := afterRstOut_calm e code low x hcalm
    have hstored (code : BitVec 3) : (afterScmd (code ++ low) x).calm := afterScmd_calm _ hcalm
    have hfree (code : BitVec 3) : (y code).ctrl.engineFree = true := by rw [hscmd]; exact (hstored code).1.free
    have hdriven (v m : Ctl) (code : BitVec 3) :
        commonTail e (drive (notify e) v m (y code)) = afterTail (afterDrive v m (afterScmd (code ++ low) x)) := by
      rw [hscmd, drive_calm _ _ _ _ (hstored code), commonTail_rest _ _ (afterDrive_calm _ _ (hstored code)).1.rests]
    have hput {a b : Instance} (h : a = b) := next_put_congr s inst h
    refine ⟨?_, ?_, ?_, hpause.trans (hput ?_), ?_, ?_⟩
    · obtain ⟨r, hrelease⟩ := releaseSelection_calm e _ (hstored 0)
      have hidle : (y 0).ctrl.state = .idle := by rw [hscmd]; exact (hstored 0).1.2.2.1
      rw [hbusRelease, cmdBusRelease_idle hidle]
      refine hput ?_
      rw [show y 0 = _ from hscmd 0, hrelease]
      exact commonTail_rest _ _ (afterDrive_calm _ _ (hstored 0)).1.rests
    · rw [hresetAtn]
      refine hput ?_
      have hcleared : ({ afterScmd (2#3 ++ low) x with ctrl := { (afterScmd (2#3 ++ low) x).ctrl with atnQueued := false } } :
        Instance).calm := hstored 2
      rw [show afterRstOut (envOf inst) 2 low (beginEvent (s.get inst)) = _ from hscmd 2]
      exact (congrArg (commonTail e) (drive_calm e 0 sigATN _ hcleared)).trans
        (commonTail_rest _ _ (afterDrive_calm _ _ hcleared).1.rests)
    · rw [hsetAtn]
      refine hput ?_
      rw [show afterRstOut (envOf inst) 3 low (beginEvent (s.get inst)) = _ from hscmd 3,
        cmdSetAtn_unconnected (hstored 3).connected]
      exact commonTail_rest _ _ (hstored 3).1.rests
    · exact (congrArg (commonTail e) (hscmd 5)).trans (commonTail_rest _ _ (hstored 5).1.rests)
    · rw [hresetAck, cmdResetAckreq_free (hfree 6)]
      exact hput (hdriven 0 sigACK 6)
    · rw [hsetAck, cmdSetAckreq_free (hfree 7)]
      exact hput (hdriven sigACK sigACK 7)

/-- Settles O28: the drive of ATN leaves a connected Controller undisturbed; in diagnostic mode it is the shadow's. -/
theorem setAtnWhenConnected : Obligations.SetAtnWhenConnected := by
  intro inst low s x c hrests hconn h7
  refine ⟨fun hnormal hcomb hseen hrst => ?_, fun hdm => ?_⟩
  · let w : Instance := { x.stored (3#3 ++ low) with ctrl := { (x.stored (3#3 ++ low)).ctrl with atnQueued := true } }
    have hstill : w.still := ⟨hcomb, hseen, .inr hrests.2⟩
    obtain ⟨⟨hstill', hund⟩, hsig, hdat, -⟩ := drive_still (envOf inst) sigATN sigATN w hstill (by decide) hnormal
    have hconnected : (x.stored (3#3 ++ low)).ctrl.connected = true := hconn
    have hexec := exec_issue_same inst s (i := .scmdSetAtn inst low) (code := 3#3) h7 hcomb hnormal hrst rfl
    rw [cmdSetAtn_connected hconnected] at hexec
    have hatn := congrArg Controller.atnQueued hund.ctrl
    have hrests' : (drive (notify (envOf inst)) sigATN sigATN w).engineRests := by
      obtain ⟨conn, ints, bf, seen, note, hctrl⟩ := hund.shape
      rw [Instance.engineRests, hctrl]
      exact hrests
    obtain ⟨hctrl, hconn'⟩ := afterTail_undisturbed (c := { c with atnQueued := true }) (b := 3#3 ++ low) (atn := true) hund rfl
    rw [Instance.atnQueued_self hatn] at hctrl hconn'
    refine ⟨_, hexec.trans (next_put_congr s inst (commonTail_rest _ _ hrests')), ?_⟩
    rw [State.get_put_same]
    refine ⟨hsig.trans (merge_self _ _), has_of_slot hstill'.combined 7 ?_, hdat, hctrl, ?_⟩
    · show has ((drive (notify (envOf inst)) sigATN sigATN w).bus.sig[7]) sigATN = true
      rw [hsig, merge_self, has_or, show has sigATN sigATN = true by decide, Bool.or_true]
    · exact hconn'.imp (fun ⟨h1, h2⟩ => ⟨h1.trans hconn, h2⟩)
        fun ⟨_, hfree, h⟩ => ⟨((Controller.engineFree_iff _).1 hfree).2, h⟩
  · have hdm' : x.ctrl.dm = true := hdm
    have hconnected : (x.storedShadow (3#3 ++ low) (low.getLsbD 4)).ctrl.connected = true := hconn
    have hexec := exec_issue_dm inst s (i := .scmdSetAtn inst low) (code := 3#3) h7 hdm' rfl
    rw [cmdSetAtn_connected hconnected] at hexec
    refine hexec.trans (next_put_congr s inst ?_)
    refine (congrArg (commonTail (envOf inst)) (drive_shadow (by exact hdm'))).trans ?_
    rw [merge_self]
    exact commonTail_rest _ _ hrests

/-- Settles O29: the selection is cancelled under the guard, so whatever the participants do, the transfer's registers
stay. -/
theorem busReleaseCancelsSelection : Obligations.BusReleaseCancelsSelection := by
  intro inst low s x c hbusy hsel h7
  refine ⟨fun hnormal hcomb hrst => ?_, fun hdm => ?_⟩
  · let w : Instance := x.stored (0#3 ++ low)
    have hselecting : w.ctrl.state.famSel = true := hsel
    have hexec := exec_issue_same inst s (i := .scmdBusRelease inst low) (code := 0#3) h7 hcomb hnormal hrst rfl
    rw [show (beginEvent (s.get inst)).stored (0#3 ++ low) = w from rfl, cmdBusRelease_sel hselecting] at hexec
    have hreact := releaseSelection_reacts (notify_reacts (envOf inst)) w
    obtain ⟨htc, htemp, -, hguard, hsig, hdat⟩ := releaseSelection_held (notify_held (envOf inst)) w
    obtain ⟨f, -, hints⟩ := hreact.ctrl.ints
    have hflags : c.ints &&& ~~~(releaseSelection (notify (envOf inst)) w).ctrl.ints = 0 := by
      have := and_not_or c.ints f 0xFF
      rwa [and_allOnes, ← show _ = c.ints ||| f from hints] at this
    refine ⟨_, hexec.trans (next_put_congr s inst (commonTail_rest _ _ ⟨hguard.trans hbusy, .inl rfl⟩)), ?_⟩
    rw [State.get_put_same]
    refine ⟨hreact.ctrl.scmd, rfl, rfl, rfl, rfl, ?_, hdat, hflags, htc, htemp, fun hseen => ?_⟩
    · refine hsig.trans (if_neg ?_)
      rw [show w.ctrl.dm = false from hnormal]
      decide
    · obtain ⟨v, -, -, hv, hund, -⟩ := releaseSelection_still (envOf inst) w hcomb hseen hnormal
      have hbusyEngine : ¬v.ctrl.engineFree = true := by
        rw [hv, Controller.engineFree_iff]
        intro h
        rw [show c.state = .idle from h.1] at hsel
        cases hsel
      obtain ⟨hconn, hints⟩ := hund.connected.resolve_right fun h => hbusyEngine h.2.1
      have hfifo := congrArg Controller.fifo hund.ctrl
      rw [hv] at hconn hints hfifo
      exact ⟨hints, hconn, hfifo⟩
  · have hdm' : x.ctrl.dm = true := hdm
    have hselecting : (x.storedShadow (0#3 ++ low) (low.getLsbD 4)).ctrl.state.famSel = true := hsel
    have hshadow : (x.storedShadow (0#3 ++ low) (low.getLsbD 4)).ctrl.dm = true := hdm
    have hexec := exec_issue_dm inst s (i := .scmdBusRelease inst low) (code := 0#3) h7 hdm' rfl
    rw [cmdBusRelease_sel hselecting, releaseSelection_quiet _ _ (.inl hshadow)] at hexec
    rw [if_pos hshadow, if_pos hshadow] at hexec
    exact hexec.trans (next_put_congr s inst (commonTail_rest _ _ ⟨hbusy, .inl rfl⟩))

end Sys2Proof.Proofs
end

section
/-! SUPPORT. SELECT and TRANSFER as events, and the commands at an engine that is not free (42_controller_commands.md): the
first evaluation of the engine's state after them, which waits, parks or ends. -/

namespace Sys2Proof.Machine

/-! ### One evaluation in the common tail (R111, R174) -/

/-- The instance as a run of the engine evaluates it: under the guard, with no notification yet. -/
def Instance.running (x : Instance) : Instance := { x with ctrl := { x.ctrl with busy := true, renotify := false } }

/-- A tail whose run of the engine waits where it is. -/
theorem commonTail_waits {e : Env} {x : Instance} (hb : x.ctrl.busy = false) (hp : x.ctrl.pending = none)
    (h : engineStep e (notify e) x.running = (.stay, x.running)) : commonTail e x = afterTail x := by
  unfold commonTail tail
  rw [runEngine_stay e (notify e) x x.running hb rfl hp h, updateLines_eq]
  rfl

/-- A tail whose run of the engine ends at rest after one evaluation. -/
theorem commonTail_ends {e : Env} {x z : Instance} {r : StepResult} (hb : x.ctrl.busy = false) (hp : x.ctrl.pending = none)
    (h : engineStep e (notify e) x.running = (r, z)) (hz : z.ctrl.state = .idle ∨ z.ctrl.pending ≠ none) :
    commonTail e x = afterTail { z with ctrl := { z.ctrl with busy := false } } := by
  unfold commonTail tail
  rw [runEngine_settles e (notify e) x x.running z r hb rfl hp h hz, updateLines_eq]
  rfl

/-- The guard put back where it was open. -/
theorem Controller.busy_self {c : Controller} (h : c.busy = false) : { c with busy := false } = c := by rw [← h]

/-- A Controller whose engine is idle and does not run. -/
theorem Controller.rest_self {c : Controller} (hs : c.state = .idle) (hb : c.busy = false) :
    { c with state := .idle, busy := false } = c := by rw [← hs, ← hb]

/-- A tail whose run of the engine parks at once (R172). -/
theorem commonTail_parks {e : Env} {x : Instance} {t : EngineState} {d : Nat} (hb : x.ctrl.busy = false)
    (hp : x.ctrl.pending = none) (h : engineStep e (notify e) x.running = goto t d x.running) (hd : x.ctrl.budget < d) :
    commonTail e x =
      afterTail { x with ctrl := { x.ctrl with pending := some (t, d - x.ctrl.budget), budget := 0 } } := by
  have hparked : goto t d x.running = (.parked, { x.running with
      ctrl := { x.running.ctrl with pending := some (t, d - x.ctrl.budget), budget := 0 } }) := if_neg (Nat.not_le.2 hd)
  rw [commonTail_ends hb hp (h.trans hparked) (.inr (Option.some_ne_none _))]
  exact (congrArg (fun c => afterTail { x with ctrl := c })
    (Controller.busy_self (c := { x.ctrl with pending := some (t, d - x.ctrl.budget), budget := 0 }) hb) :)

/-- The bits below the code in a command byte. -/
theorem scmdByte_low (code : BitVec 3) (low : BitVec 5) :
    (scmdByte code low).getLsbD 2 = low.getLsbD 2 ∧ (scmdByte code low).getLsbD 0 = low.getLsbD 0 := by
  revert code low
  decide

/-- "Bus free detected" (R211), on the words. -/
theorem busFreeDetected_iff (e : Env) (x : Instance) :
    busFreeDetected e x = true ↔ x.bus.ctl &&& (sigBSY ||| sigSEL) = 0 ∧ e.p.busFreeCycles ≤ x.ctrl.bfTimer := by
  simp [busFreeDetected, Bus.isFree]

/-! ### SELECT (R153, R180, R185) -/

theorem cmdSelect_free {x : Instance} (h : x.ctrl.engineFree = true) :
    cmdSelect x = { x with ctrl := { x.ctrl with
      serr := 0, state := if x.ctrl.sctl.getLsbD 4 then .arbWaitFree else .selWaitFree } } := if_pos h

/-- The first state of an arbitration or a selection waits while the bus is not free for long enough. -/
theorem engineStep_waitFree_busy {e : Env} {n : Instance → Instance} {x : Instance} {arb : Bool}
    (hs : x.ctrl.state = if arb then .arbWaitFree else .selWaitFree) (h : ¬busFreeDetected e x = true) :
    engineStep e n x = (.stay, x) := by
  unfold engineStep
  rw [hs]
  cases arb
  · exact if_neg h
  · exact if_neg h

/-- It goes on once the bus is. -/
theorem engineStep_waitFree_free {e : Env} {n : Instance → Instance} {x : Instance} {arb : Bool}
    (hs : x.ctrl.state = if arb then .arbWaitFree else .selWaitFree) (h : busFreeDetected e x = true) :
    engineStep e n x =
      goto (if arb then .arbAssertBsy else .selAssertId) (if arb then e.p.dArbFree else e.p.dSelFree) x := by
  unfold engineStep
  rw [hs]
  cases arb
  · exact if_pos h
  · exact if_pos h

/-! ### TRANSFER (R156, R195, R204) -/

/-- The Controller as an accepted TRANSFER latches it, but for the state that it enters. -/
def Controller.latched (low : BitVec 5) (c : Controller) : Controller :=
  { c with serr := 0, xferPhase := c.pctl.extractLsb' 0 3, xferIn := c.pctl.getLsbD 0, xferDma := !low.getLsbD 2,
           xferTerm := low.getLsbD 0 }

theorem cmdTransfer_free {x : Instance} (low : BitVec 5) (h : x.ctrl.engineFree = true) :
    cmdTransfer (scmdByte 4 low) x = { x with ctrl := { x.ctrl.latched low with
      state := if x.ctrl.tc = 0 ∧ low.getLsbD 0 = false then .xferWaitFifoEmpty else .xferWaitReq } } := by
  obtain ⟨h2, h0⟩ := scmdByte_low 4 low
  unfold cmdTransfer
  rw [if_pos h, h2, h0]
  rfl

/-- With nothing to transfer and an empty FIFO the transfer completes (R204). -/
theorem engineStep_fifoEmpty {e : Env} {n : Instance → Instance} {x : Instance} (hs : x.ctrl.state = .xferWaitFifoEmpty)
    (h : x.ctrl.fifo.count = 0) :
    engineStep e n x = (.progress, (raiseInt intCC (driveData 0 x)).modCtrl fun c =>
      { c with state := .idle, xferDma := false, xferTerm := false }) := by
  unfold engineStep
  rw [hs]
  exact if_pos ((Fifo.empty_iff _).2 h)

section
variable {e : Env} {n : Instance → Instance} {x : Instance} (hs : x.ctrl.state = .xferWaitReq)
include hs

/-- Without BSY the transfer ends in DISCONNECT (R195, R197). -/
theorem engineStep_waitReq_noBsy (h : has (sense x) sigBSY = false) :
    engineStep e n x = (.progress, abortDisconnect n x) := by
  unfold engineStep
  rw [hs]
  exact if_pos (by rw [h]; rfl)

/-- In another phase it ends in SR (R195, R196). -/
theorem engineStep_waitReq_otherPhase (h : has (sense x) sigBSY = true) (hphase : phaseOf (sense x) ≠ x.ctrl.xferPhase) :
    engineStep e n x = (.progress, abortPhase n x) := by
  unfold engineStep
  rw [hs]
  exact (if_neg (by rw [h]; decide)).trans (if_pos hphase)

/-- In the expected phase it waits for REQ (R195). -/
theorem engineStep_waitReq_low (h : has (sense x) sigBSY = true) (hphase : phaseOf (sense x) = x.ctrl.xferPhase)
    (hreq : has (sense x) sigREQ = false) : engineStep e n x = (.stay, x) := by
  unfold engineStep
  rw [hs]
  exact (if_neg (by rw [h]; decide)).trans ((if_neg (not_not.2 hphase)).trans (if_neg (by rw [hreq]; decide)))

/-- With REQ up it goes on to the byte (R195). -/
theorem engineStep_waitReq_high (h : has (sense x) sigBSY = true) (hphase : phaseOf (sense x) = x.ctrl.xferPhase)
    (hreq : has (sense x) sigREQ = true) :
    engineStep e n x = goto (if x.ctrl.xferIn then .xferRecvData else .xferSendData) e.p.dHs x := by
  unfold engineStep
  rw [hs]
  exact (if_neg (by rw [h]; decide)).trans ((if_neg (not_not.2 hphase)).trans (if_pos hreq))

end

/-- What an abort of a transfer leaves, where the Controller holds no ACK on the bus (R196, R197). -/
theorem abortTransfer_noAck {n : Instance → Instance} {flag : Byte} {x : Instance}
    (h : x.ctrl.dm = false → x.bus.combined ∧ x.bus.sig[7] &&& sigACK = 0) :
    abortTransfer n flag x =
      { x with
        bus := x.bus.writeData 7 0
        ctrl := { x.ctrl with
          diagSig := if x.ctrl.dm then x.ctrl.diagSig &&& ~~~sigACK else x.ctrl.diagSig
          fifo := if x.ctrl.xferIn then x.ctrl.fifo else x.ctrl.fifo.clear
          ints := x.ctrl.ints ||| flag
          state := .idle, pending := none, xferDma := false, xferTerm := false } } := by
  cases hdm : x.ctrl.dm
  · obtain ⟨hcomb, hack⟩ := h hdm
    have hmerge : merge x.bus.sig[7] 0 sigACK = x.bus.sig[7] := by
      rw [merge_zero]
      exact BitVec.eq_of_getLsbD_eq fun i hi => by
        have hbit := congrArg (fun v : Ctl => v.getLsbD i) hack
        simp only [BitVec.getLsbD_and] at hbit
        simp only [BitVec.getLsbD_and, BitVec.getLsbD_not, hi, decide_true, Bool.true_and]
        revert hbit
        cases x.bus.sig[7].getLsbD i <;> cases sigACK.getLsbD i <;> simp
    unfold abortTransfer
    rw [drive_same n 0 sigACK x hcomb hdm hmerge]
    rfl
  · unfold abortTransfer
    rw [drive_shadow hdm, merge_zero]
    rfl

/-- The instance that an accepted TRANSFER of something leaves to the engine. -/
def Instance.transferring (low : BitVec 5) (y : Instance) : Instance :=
  { y with ctrl := { y.ctrl.latched low with state := .xferWaitReq } }

section
variable {e : Env} {y : Instance} {low : BitVec 5}

theorem sense_transferring : sense (y.transferring low).running = sense y := rfl

theorem cmdTransfer_some (hfree : y.ctrl.engineFree = true) (h : y.ctrl.tc ≠ 0 ∨ low.getLsbD 0 = true) :
    cmdTransfer (scmdByte 4 low) y = y.transferring low := by
  rw [cmdTransfer_free low hfree, if_neg fun g => h.elim (· g.1) fun g' => by rw [g.2] at g'; cases g']
  rfl

variable (hfree : y.ctrl.engineFree = true) (hb : y.ctrl.busy = false)
include hfree hb

/-- In the expected phase with REQ low the transfer waits. -/
theorem commonTail_transferring_low (hbsy : has (sense y) sigBSY = true)
    (hphase : phaseOf (sense y) = y.ctrl.pctl.extractLsb' 0 3) (hreq : has (sense y) sigREQ = false) :
    commonTail e (y.transferring low) = afterTail (y.transferring low) := by
  rw [← sense_transferring (low := low)] at hbsy hphase hreq
  exact commonTail_waits hb ((Controller.engineFree_iff _).1 hfree).2 (engineStep_waitReq_low rfl hbsy hphase hreq)

/-- In the expected phase with REQ up it parks, the budget being short. -/
theorem commonTail_transferring_high (hbsy : has (sense y) sigBSY = true)
    (hphase : phaseOf (sense y) = y.ctrl.pctl.extractLsb' 0 3) (hreq : has (sense y) sigREQ = true)
    (hbudget : y.ctrl.budget < e.p.dHs) :
    commonTail e (y.transferring low) =
      afterTail { y.transferring low with ctrl := { (y.transferring low).ctrl with
        pending := some (if y.ctrl.pctl.getLsbD 0 then .xferRecvData else .xferSendData, e.p.dHs - y.ctrl.budget)
        budget := 0 } } := by
  rw [← sense_transferring (low := low)] at hbsy hphase hreq
  exact commonTail_parks hb ((Controller.engineFree_iff _).1 hfree).2 (engineStep_waitReq_high rfl hbsy hphase hreq) hbudget

/-- Without BSY, or in another phase, it ends with the flag of the abort; the connection ends with DISCONNECT. -/
theorem commonTail_transferring_abort {flag : Byte} (hack : y.ctrl.dm = false → y.bus.combined ∧ y.bus.sig[7] &&& sigACK = 0)
    (h : (has (sense y) sigBSY = false ∧ flag = 0x20) ∨
      (has (sense y) sigBSY = true ∧ phaseOf (sense y) ≠ y.ctrl.pctl.extractLsb' 0 3 ∧ flag = 0x08)) :
    commonTail e (y.transferring low) =
      afterTail { y with
        bus := y.bus.writeData 7 0
        ctrl := { y.ctrl.latched low with
          xferDma := false
          xferTerm := false
          connected := if flag = 0x20 then false else y.ctrl.connected
          diagSig := if y.ctrl.dm then y.ctrl.diagSig &&& ~~~sigACK else y.ctrl.diagSig
          fifo := if y.ctrl.pctl.getLsbD 0 then y.ctrl.fifo else y.ctrl.fifo.clear
          ints := y.ctrl.ints ||| flag } } := by
  obtain ⟨hidle, hpending⟩ := (Controller.engineFree_iff _).1 hfree
  have habort := abortTransfer_noAck (n := notify e) (flag := flag) (x := (y.transferring low).running) hack
  have hstep : engineStep e (notify e) (y.transferring low).running =
      (.progress, (abortTransfer (notify e) flag (y.transferring low).running).modCtrl fun c =>
        { c with connected := if flag = 0x20 then false else c.connected }) := by
    rw [← sense_transferring (low := low)] at h
    rcases h with ⟨hbsy, rfl⟩ | ⟨hbsy, hphase, rfl⟩
    · exact engineStep_waitReq_noBsy rfl hbsy
    · exact engineStep_waitReq_otherPhase rfl hbsy hphase
  rw [habort] at hstep
  refine (commonTail_ends (x := y.transferring low) hb hpending hstep (.inl rfl)).trans ?_
  have hrest (c : Controller) (hs : c.state = .idle) (hp : c.pending = none) (hb : c.busy = false) :
      { c with state := .idle, pending := none, busy := false } = c := by rw [← hs, ← hp, ← hb]
  exact (congrArg (fun d => afterTail { y with bus := y.bus.writeData 7 0, ctrl := d })
    (hrest { y.ctrl.latched low with
      xferDma := false
      xferTerm := false
      connected := if flag = 0x20 then false else y.ctrl.connected
      diagSig := if y.ctrl.dm then y.ctrl.diagSig &&& ~~~sigACK else y.ctrl.diagSig
      fifo := if y.ctrl.pctl.getLsbD 0 then y.ctrl.fifo else y.ctrl.fifo.clear
      ints := y.ctrl.ints ||| flag } hidle hpending hb) :)

end

/-! ### An engine that is not free -/

section
variable {n : Instance → Instance} {x : Instance}

/-- The four commands that need a free engine are lost otherwise (R153, R156, R158 to R160). -/
theorem lost_of_busy (h : x.ctrl.engineFree = false) (v : Byte) :
    cmdSelect x = x ∧ cmdTransfer v x = x ∧ cmdResetAckreq n x = x ∧ cmdSetAckreq n x = x := by
  have hbusy : ¬x.ctrl.engineFree = true := by rw [h]; decide
  exact ⟨if_neg hbusy, if_neg hbusy, if_neg hbusy, if_neg hbusy⟩

omit n x in
/-- The families of states exclude each other (R15). -/
theorem EngineState.not_of_famXfer {t : EngineState} (h : t.famXfer = true) : t.famSel = false ∧ t.famIdle = false := by
  cases t with
  | xferWaitReq | xferSendData | xferRecvData | xferSendAck | xferWaitDeassertReq | xferDeassertAck | xferWaitFifoEmpty =>
    exact ⟨rfl, rfl⟩
  | _ => cases h

/-- BUS_RELEASE is lost in a transfer (R152). -/
theorem cmdBusRelease_xfer (h : x.ctrl.state.famXfer = true) : cmdBusRelease n x = x := by
  obtain ⟨hsel, hidle⟩ := EngineState.not_of_famXfer h
  exact (if_neg (by rw [hsel]; decide)).trans (if_neg (by rw [hidle]; decide))

end

/-- RST-out that rises on a bus without RST (R116, R207). -/
theorem drive_rst_rises (e : Env) (x : Instance) (hcb : x.bus.cb = .controller) (hdm : x.ctrl.dm = false)
    (hrst : has x.bus.ctl sigRST = false) (hseen : x.ctrl.rstSeen = false) :
    RstTaken (x.onBus (x.bus.writeControl 7 sigRST sigRST)) (drive (notify e) sigRST sigRST x) := by
  have hrises : has (x.bus.writeControl 7 sigRST sigRST).ctl sigRST = true := by
    refine has_of_slot (Bus.writeControl_combined _ _ _ _) 7 ?_
    show has ((x.bus.sig.set 7 (merge x.bus.sig[7] sigRST sigRST))[7]) sigRST = true
    rw [Vector.getElem_set_self, merge_self, has_or, show has sigRST sigRST = true by decide, Bool.or_true]
  have hchanged : (x.bus.writeControl 7 sigRST sigRST).ctl ≠ x.bus.ctl := fun h => by
    rw [h, hrst] at hrises
    cases hrises
  have hdrive : drive (notify e) sigRST sigRST x = notify e { x with bus := x.bus.writeControl 7 sigRST sigRST } := by
    unfold drive setControl changeBus
    rw [if_neg (by rw [hdm]; decide)]
    exact if_neg hchanged
  rw [hdrive]
  exact notify_rst e x _ hcb (Bus.writeControl_combined _ _ _ _) hrises hseen

end Sys2Proof.Machine

namespace Sys2Proof.Proofs
open Machine

/-- Settles O30: the first evaluation looks whether the bus is free for long enough. -/
theorem selectStarts : Obligations.SelectStarts := by
  intro inst low s x c e arbitrates y d ready delay h7
  refine ⟨fun hcalm => ?_, fun hfree => ?_⟩
  · have hy : y = afterScmd (1#3 ++ low) x := afterRstOut_calm _ _ _ _ hcalm
    refine ⟨hy, ?_⟩
    rw [hy]
    exact (afterScmd_calm _ hcalm).1.free
  have hsctl : y.ctrl.sctl.getLsbD 4 = arbitrates := congrArg (fun v : Byte => v.getLsbD 4) (afterRstOut_sctl _ _ _ _)
  have hselect : cmdSelect y = { y with ctrl := d } := by
    rw [cmdSelect_free hfree, hsctl]
  have hexec : exec (.scmdSelect inst low) s = .next (s.put inst (commonTail e { y with ctrl := d })) := by
    have hissue := exec_issue inst s (i := .scmdSelect inst low) (code := 1#3) h7 rfl
    exact hissue.trans (next_put_congr s inst (congrArg (commonTail e) hselect))
  have hpending : d.pending = none := ((Controller.engineFree_iff _).1 hfree).2
  have hdetect : busFreeDetected e (Instance.running { y with ctrl := d }) = true ↔ ready := busFreeDetected_iff e _
  refine ⟨hexec, fun hbusy hnot => ?_, fun hbusy hready => ?_⟩
  · have hb : d.busy = false := (afterRstOut_busy _ _ _ _).trans hbusy
    refine hexec.trans (next_put_congr s inst (commonTail_waits hb hpending ?_))
    exact engineStep_waitFree_busy rfl fun h => hnot (hdetect.1 h)
  · have hb : d.busy = false := (afterRstOut_busy _ _ _ _).trans hbusy
    by_cases hbudget : y.ctrl.budget < delay
    · rw [if_pos hbudget]
      refine hexec.trans (next_put_congr s inst (commonTail_parks hb hpending ?_ hbudget))
      exact engineStep_waitFree_free rfl (hdetect.2 hready)
    · rw [if_neg hbudget]
      exact hexec

/-- Settles O31: XFER_WAIT_FIFO_EMPTY with an empty FIFO completes in one evaluation. -/
theorem transferOfNothingCompletes : Obligations.TransferOfNothingCompletes := by
  intro inst low s x y c h7
  refine ⟨fun hcalm => ?_, fun hbusy hfree htc hterm hfifo => ?_⟩
  · have hy : y = afterScmd (4#3 ++ low) x := afterRstOut_calm _ _ _ _ hcalm
    refine ⟨hy, ?_⟩
    show y.ctrl.engineFree = true
    rw [hy]
    exact (afterScmd_calm _ hcalm).1.free
  obtain ⟨hidle, hpending⟩ := (Controller.engineFree_iff _).1 hfree
  have hb : c.busy = false := (afterRstOut_busy _ _ _ _).trans hbusy
  let w : Instance := { y with ctrl := { c.latched low with state := .xferWaitFifoEmpty } }
  have htransfer : cmdTransfer (scmdByte 4 low) y = w := by
    rw [cmdTransfer_free low hfree, if_pos ⟨htc, hterm⟩]
  have hstep := engineStep_fifoEmpty (e := envOf inst) (n := notify (envOf inst)) (x := w.running) rfl hfifo
  have hexec := exec_issue inst s (i := .scmdTransfer inst low) (code := 4#3) h7 rfl
  refine hexec.trans (next_put_congr s inst ?_)
  refine (congrArg (commonTail (envOf inst)) htransfer).trans ((commonTail_ends (x := w) hb hpending hstep (.inl rfl)).trans ?_)
  exact (congrArg (fun d => afterTail { y with bus := y.bus.writeData 7 0, ctrl := d })
    (Controller.rest_self (c := { c.latched low with xferDma := false, xferTerm := false, ints := c.ints ||| 0x10 })
      hidle hb) :)

/-- Settles O32: the operands are latched, and the first evaluation in XFER_WAIT_REQ looks at REQ. -/
theorem transferLatchesAndWaits : Obligations.TransferLatchesAndWaits := by
  intro inst low s x e y c d h7
  refine ⟨fun hcalm => ?_, fun hfree => ?_⟩
  · have hy : y = afterScmd (4#3 ++ low) x := afterRstOut_calm _ _ _ _ hcalm
    refine ⟨hy, ?_⟩
    show y.ctrl.engineFree = true
    rw [hy]
    exact (afterScmd_calm _ hcalm).1.free
  have hissue := exec_issue inst s (i := .scmdTransfer inst low) (code := 4#3) h7 rfl
  refine ⟨hissue.trans (next_put_congr s inst (congrArg (commonTail e) (cmdTransfer_free low hfree))),
    fun hbusy hsome hbsy hphase => ?_⟩
  have hb : y.ctrl.busy = false := (afterRstOut_busy _ _ _ _).trans hbusy
  have hexec := hissue.trans (next_put_congr s inst (congrArg (commonTail e) (cmdTransfer_some hfree hsome)))
  refine ⟨fun hreq => hexec.trans (next_put_congr s inst (commonTail_transferring_low hfree hb hbsy hphase hreq)),
    fun hreq => ?_⟩
  by_cases hbudget : c.budget < Config.params.dHs
  · rw [if_pos hbudget]
    exact hexec.trans (next_put_congr s inst (commonTail_transferring_high hfree hb hbsy hphase hreq hbudget))
  · rw [if_neg hbudget]
    exact hissue.trans (next_put_congr s inst (congrArg (commonTail e) (cmdTransfer_free low hfree)))

/-- Settles O33: the first evaluation in XFER_WAIT_REQ aborts; with no ACK held the release changes no line. -/
theorem transferAborts : Obligations.TransferAborts := by
  intro inst low s flag x y c dm h7
  refine ⟨fun hcalm => ?_, fun hbusy hfree hsome hack hflag => ?_⟩
  · have hy : y = afterScmd (4#3 ++ low) x := afterRstOut_calm _ _ _ _ hcalm
    refine ⟨hy, ?_⟩
    show y.ctrl.engineFree = true
    rw [hy]
    exact (afterScmd_calm _ hcalm).1.free
  have hb : y.ctrl.busy = false := (afterRstOut_busy _ _ _ _).trans hbusy
  have hdm : y.ctrl.dm = dm := congrArg (fun v : Byte => v.getLsbD 5) (afterRstOut_sctl _ _ _ _)
  have hnoAck (h : y.ctrl.dm = false) : y.bus.combined ∧ y.bus.sig[7] &&& sigACK = 0 :=
    ⟨afterRstOut_combined _ _ _ _ (hdm.symm.trans h), hack (hdm.symm.trans h)⟩
  have hissue := exec_issue inst s (i := .scmdTransfer inst low) (code := 4#3) h7 rfl
  have hexec := hissue.trans (next_put_congr s inst (congrArg (commonTail (envOf inst)) (cmdTransfer_some hfree hsome)))
  rw [← hdm]
  exact hexec.trans (next_put_congr s inst (commonTail_transferring_abort hfree hb hnoAck hflag))

/-- Settles O34: each command is lost by its own guard, and a rising RST is taken in the notification of the drive. -/
theorem busyEngineIgnoresCommands : Obligations.BusyEngineIgnoresCommands := by
  intro inst low s i code x c e stored driven rstStays h7
  have hbusRelease := exec_issue inst s (i := .scmdBusRelease inst low) (code := 0#3) h7 rfl
  have hresetAtn := exec_issue inst s (i := .scmdResetAtn inst low) (code := 2#3) h7 rfl
  have hpause := exec_issue inst s (i := .scmdTransferPause inst low) (code := 5#3) h7 rfl
  have hstays (h : rstStays) (code : BitVec 3) : driven code = stored code := by
    obtain ⟨hcomb, hnormal, hrst⟩ := h
    exact afterRstOut_same e code low x hcomb hnormal hrst
  refine ⟨fun h => ?_, fun hxfer => ?_, hpause, hresetAtn, hstays, fun hcb hnormal hlow hrst hseen => ?_⟩
  · have hlost (hbusy : (driven code).ctrl.engineFree = false) :
        exec i s = .next (s.put inst (commonTail e (driven code))) := by
      obtain ⟨hselect, htransfer, hresetAck, hsetAck⟩ := lost_of_busy (n := notify e) hbusy (scmdByte 4 low)
      simp only [List.mem_cons, List.not_mem_nil, or_false, Prod.mk.injEq] at h
      rcases h with ⟨rfl, rfl⟩ | ⟨rfl, rfl⟩ | ⟨rfl, rfl⟩ | ⟨rfl, rfl⟩
      · have hissue := exec_issue inst s (i := .scmdSelect inst low) (code := 1#3) h7 rfl
        exact hissue.trans (next_put_congr s inst (congrArg (commonTail e) hselect))
      · have hissue := exec_issue inst s (i := .scmdTransfer inst low) (code := 4#3) h7 rfl
        exact hissue.trans (next_put_congr s inst (congrArg (commonTail e) htransfer))
      · have hissue := exec_issue inst s (i := .scmdResetAckreq inst low) (code := 6#3) h7 rfl
        exact hissue.trans (next_put_congr s inst (congrArg (commonTail e) hresetAck))
      · have hissue := exec_issue inst s (i := .scmdSetAckreq inst low) (code := 7#3) h7 rfl
        exact hissue.trans (next_put_congr s inst (congrArg (commonTail e) hsetAck))
    refine ⟨hlost, fun hst hbusy hparked => ?_⟩
    have hsame := hstays hst code
    have hfree : (stored code).ctrl.engineFree = false := by
      rw [← Bool.not_eq_true, Controller.engineFree_iff]
      exact fun g => hparked g.2
    refine (hlost (by rw [hsame]; exact hfree)).trans (next_put_congr s inst ?_)
    rw [hsame]
    exact commonTail_rest _ _ ⟨hbusy, .inr hparked⟩
  · exact hbusRelease.trans (next_put_congr s inst (congrArg (commonTail e) (cmdBusRelease_xfer hxfer)))
  · intro sig
    have hbus : x.bus.writeControl 7 sigRST sigRST = { x.bus with sig := sig, ctl := orCtl sig, data := orData x.bus.dat } := by
      unfold Bus.writeControl
      rw [merge_self]
      rfl
    have htaken (code : BitVec 3) :
        RstTaken ((stored code).onBus { x.bus with sig := sig, ctl := orCtl sig, data := orData x.bus.dat }) (driven code) := by
      have h := drive_rst_rises e (stored code) hcb hnormal hrst hseen
      rw [show (stored code).bus = x.bus from rfl, hbus] at h
      simp only [driven, hlow, if_true]
      exact h
    have hrests (hbusy : c.busy = false) : (driven 5#3).engineRests := by
      rw [Instance.engineRests, (htaken 5#3).ctrl]
      exact ⟨(afterRst_busy _).trans hbusy, .inl (afterRst_state _)⟩
    exact ⟨htaken, fun hbusy => hpause.trans (next_put_congr s inst (commonTail_rest _ _ (hrests hbusy)))⟩

end Sys2Proof.Proofs
end

section
/-! SUPPORT. The Bus calls that change the control word, as events (40_bus_ops.md), and the images that the environment
opens and closes. -/

namespace Sys2Proof.Machine

/-! ### A changed word from outside (R91, R175, D33) -/

theorem has_of_has_or {c a b : Ctl} (h : has c (a ||| b) = false) : has c a = false ∧ has c b = false := by
  have hzero : (c &&& a) ||| (c &&& b) = 0 := by
    rw [← BitVec.and_or_distrib_left]
    simpa [has] using h
  obtain ⟨ha, hb⟩ := BitVec.or_eq_zero_iff.1 hzero
  exact ⟨by simp [has, ha], by simp [has, hb]⟩

/-- The notification of a bus is the callback and then the slots in ascending order (R91). -/
theorem notify_eq (e : Env) (x : Instance) (b : Bus) (hcb : b.cb = .controller) :
    notify e { x with bus := b } =
      targetSlots.foldl (fun z k => targetHandler e (notifyTo e 31) k z)
        (runEngine e (notifyTo e 31) (checkDisconnect e (checkRst (notifyTo e 31) (x.onBus b)))) := by
  rw [← onBusChange_eq]
  exact notifyTo_succ e 31 { x with bus := b } hcb

/-- Where no Target's handler does anything the notification is the callback alone. -/
theorem notify_callback (e : Env) (x : Instance) (hcb : x.bus.cb = .controller)
    (h : ∀ k, targetHandler e (notifyTo e 31) k (onBusChange e (notifyTo e 31) x) = onBusChange e (notifyTo e 31) x) :
    notify e x = onBusChange e (notifyTo e 31) x :=
  (notifyTo_succ e 31 x hcb).trans (List.foldl_fixed' h targetSlots)

theorem notify_noTargets (e : Env) (x : Instance) (hcb : x.bus.cb = .controller) (h : x.noTargets) :
    notify e x = onBusChange e (notifyTo e 31) x := by
  have hdeliver : notify e = deliver e (notifyTo e 31) := rfl
  rw [hdeliver, deliver_noTargets e (notifyTo_reacts e 31) hcb h]

/-- A changed word at a calm Controller, where the notification is the callback alone. -/
theorem changeBus_quiet (e : Env) (x : Instance) (b : Bus) (h : x.ctrlCalm) (hcb : b.cb = x.bus.cb)
    (hn : b.ctl ≠ x.bus.ctl → notify e { x with bus := b } = onBusChange e (notifyTo e 31) { x with bus := b }) :
    changeBus (notifyEvent e) x b = afterBusEvent x b := by
  obtain ⟨hbound, hrest⟩ := h
  have hbus : ({ x with bus := b } : Instance).ctrlCalm := ⟨hcb.trans hbound, hrest⟩
  have hbound' : b.cb = .controller := hcb.trans hbound
  by_cases hsame : b.ctl = x.bus.ctl
  · unfold changeBus afterBusEvent
    rw [if_pos hsame, if_pos hsame]
  · have hnotified := changeBus_notified e x b hsame hbound'
    rw [hn hsame, onBusChange_calm _ _ _ hbus] at hnotified
    rw [hnotified]
    unfold afterBusEvent
    rw [if_neg hsame, afterChange_ne x b hsame, updateLines_eq]
    rfl

/-- The onset of a notification leaves the Targets where they are. -/
theorem Instance.onBus_undriven {x : Instance} {b : Bus} (h : b.occ = x.bus.occ) {k : Fin 7} (hk : x.undriven k) :
    (x.onBus b).undriven k := fun j t hj => hk j t (by rwa [Instance.target?_congr (y := x.onBus b) h.symm])

/-! ### `set_control` from outside (R95) -/

theorem exec_setControl (inst : InstId) (s : State) (id : Fin 8) (v m : Ctl) :
    exec (.busSetControl inst id v m) s = .next (s.put inst (changeBus (notifyEvent (envOf inst)) (beginEvent (s.get inst))
      ((beginEvent (s.get inst)).bus.writeControl id v m))) := rfl

/-! ### `attach` and `detach` (R93, R94) -/

/-- The image that a new Target opens, and the images kept without it (R18, R321). -/
def foundImage (image : Option ImageSource) (kept : List Store) : Option Store × List Store :=
  match image with
  | none => (none, kept)
  | some (.given bs) => (some (Store.ofBytes bs), kept)
  | some (.kept i) => (kept[i]?, kept.eraseIdx i)

theorem newImage_eq (dev : NewTarget) (x : Instance) :
    newImage dev x = ((foundImage dev.image x.kept).1, { x with kept := (foundImage dev.image x.kept).2 }) := by
  unfold newImage foundImage
  cases hsrc : dev.image with
  | none => rfl
  | some src =>
    rcases takeImage_cases x src with ⟨bs, rfl, h⟩ | ⟨i, st, rfl, hi, h⟩ | ⟨i, rfl, hi, h⟩
    · exact h
    · refine h.trans ?_
      rw [← hi]
    · have herase : x.kept.eraseIdx i = x.kept := List.eraseIdx_of_length_le (List.getElem?_eq_none_iff.1 hi)
      refine h.trans ?_
      rw [← hi]
      exact congrArg (fun l => (x.kept[i]?, { x with kept := l })) herase.symm

/-- The record that `attach` creates (R17, R321). -/
theorem createTarget_eq (p : Params) (k : Fin 7) (serial : Nat) (ready : Bool) (image : Option Store) :
    createTarget p k serial ready image =
      { tstate := .idle, cmd := Vector.replicate 16 0, cmdLen := 0, buf := [], cur := 0, total := 0, lba := 0,
        blocks := 0, senseKey := 0, senseAsc := 0, senseAscq := 0, senseLba := 0, senseLbaValid := false, status := 0,
        message := 0, image := image,
        geom := match image with
          | none => ⟨0, 0, 0, 0, 0⟩
          | some st => p.geometryOfSize st.size
        ready := ready || image.isSome, mediaChanged := image.isSome, id := k, hs := .needReq,
        msgOut := false, tbusy := false, trenotify := false, serial := serial } := by
  cases image <;> rfl

theorem exec_attach (inst : InstId) (s : State) (id : Fin 7) (dev : NewTarget) :
    let x := beginEvent (s.get inst)
    let found := foundImage dev.image x.kept
    exec (.busAttach inst id dev) s = .next (s.put inst (changeBus (notifyEvent (envOf inst))
      { x with draws := x.draws + 1, kept := found.2 ++ ((x.target? id).bind Target.image).toList }
      (x.bus.replace (slotAddr id)
        (some (.target (createTarget Config.params id x.draws dev.ready found.1)))))) := by
  intro x found
  have himage := newImage_eq dev (nextDraw x)
  have hexec : exec (.busAttach inst id dev) s = .next (s.put inst (attach (notifyEvent (envOf inst)) id
      (createTarget Config.params id x.draws dev.ready (newImage dev (nextDraw x)).1)
      (keepImage id (newImage dev (nextDraw x)).2))) := rfl
  rw [hexec, himage]
  rfl

theorem exec_detach (inst : InstId) (s : State) (id : Fin 7) :
    let x := beginEvent (s.get inst)
    exec (.busDetach inst id) s = .next (s.put inst (changeBus (notifyEvent (envOf inst))
      { x with kept := x.kept ++ ((x.target? id).bind Target.image).toList } (x.bus.replace (slotAddr id) none))) := rfl

/-- What stands on the slots after an occupant is replaced (R93, R94). -/
theorem replace_target?_other {x : Instance} {b : Bus} {id j : Fin 7} {o : Option Participant}
    (hb : b.occ = x.bus.occ.set (slotAddr id) o) (hj : j ≠ id) : Instance.target? { x with bus := b } j = x.target? j :=
  (Instance.target?_congr (y := x.setOccupant id o) hb j).trans (Instance.setOccupant_target?_other x id j o hj)

theorem replace_target?_same {x : Instance} {b : Bus} {id : Fin 7} {t : Target}
    (hb : b.occ = x.bus.occ.set (slotAddr id) (some (.target t))) : Instance.target? { x with bus := b } id = some t :=
  (Instance.target?_congr (y := x.setOccupant id (some (.target t))) hb id).trans
    (Instance.setOccupant_target?_same x id t)

theorem replace_target?_none {x : Instance} {b : Bus} {id : Fin 7} (hb : b.occ = x.bus.occ.set (slotAddr id) none) :
    Instance.target? { x with bus := b } id = none := by
  unfold Instance.target?
  have hslot : b.occ[slotAddr id] = none := by
    rw [hb]
    exact Vector.getElem_set_self _
  rw [show ({ x with bus := b } : Instance).bus.occ[slotAddr id] = none from hslot]

/-! ### Images that the environment opens and closes (R18, R323) -/

section
variable {p : Params} {x : Instance} {id : Fin 7}

theorem openAt_empty (h : x.target? id = none) {src : ImageSource} : openAt p id src x = x := by
  unfold openAt
  rw [h]

theorem closeAt_empty (h : x.target? id = none) : (keepImage id x).modTarget id closeImage = x := by
  rw [Instance.modTarget_none ((keepImage_target? x id id).trans h)]
  unfold keepImage
  rw [h]
  simp

theorem takeImage_kept {i : Nat} {st : Store} (h : x.kept[i]? = some st) :
    takeImage (.kept i) x = (some st, { x with kept := x.kept.eraseIdx i }) := by
  simp only [takeImage, h]

theorem takeImage_absent {i : Nat} (h : x.kept[i]? = none) : takeImage (.kept i) x = (none, x) := by
  simp only [takeImage, h]

theorem openAt_absent {src : ImageSource} (h : takeImage src x = (none, x)) : openAt p id src x = x := by
  unfold openAt
  rw [h]
  cases x.target? id <;> rfl

/-- An image that is there is opened on a Target that is there; the one that was open persists. -/
theorem openAt_found {src : ImageSource} {t : Target} {st : Store} {kept : List Store} (ht : x.target? id = some t)
    (h : takeImage src x = (some st, { x with kept := kept })) :
    openAt p id src x = { x with kept := kept ++ t.image.toList }.withTarget id (openImage p st t) := by
  have hkeep : keepImage id { x with kept := kept } = { x with kept := kept ++ t.image.toList } := by
    unfold keepImage
    rw [show ({ x with kept := kept } : Instance).target? id = some t from ht]
    rfl
  unfold openAt
  rw [ht, h]
  simp only [hkeep]
  exact Instance.modTarget_some (x := { x with kept := kept ++ t.image.toList }) ht _

/-- Closing the image of a Target that is there. -/
theorem closeAt_eq {t : Target} (ht : x.target? id = some t) :
    (keepImage id x).modTarget id closeImage =
      { x with kept := x.kept ++ t.image.toList }.withTarget id { t with image := none, ready := false } := by
  have hkeep : keepImage id x = { x with kept := x.kept ++ t.image.toList } := by
    unfold keepImage
    rw [ht]
    rfl
  rw [hkeep]
  exact Instance.modTarget_some (x := { x with kept := x.kept ++ t.image.toList }) ht _

end

end Sys2Proof.Machine

namespace Sys2Proof.Proofs
open Machine

/-- Settles O36: the word is notified, or it is not; what the notification can do is said once. -/
theorem busSetControlMerges : Obligations.BusSetControlMerges := by
  intro inst id value mask s x sig b e n y
  refine ⟨fun hsame => ?_, fun hchanged hcb => ?_, fun hcalm => ?_⟩
  · exact (exec_setControl inst s id value mask).trans (next_put_congr s inst (if_pos hsame))
  · have hy : notify e { x with bus := b } = y := notify_eq e x b hcb
    have hnotified : Notified Config.params (x.onBus b) y := by
      rw [← hy]
      exact notify_notified e x b hcb ⟨rfl, rfl⟩
    refine ⟨?_, hnotified, fun k hk => hnotified.undriven k (Instance.onBus_undriven rfl hk)⟩
    rw [← hy]
    exact (exec_setControl inst s id value mask).trans (next_put_congr s inst (changeBus_notified e x b hchanged hcb))
  · exact (exec_setControl inst s id value mask).trans (next_put_congr s inst (setControl_calm e id value mask x hcalm))

/-- Settles O38: the record is put on its slot and the new bus notified; an idle record stays aside in it. -/
theorem attachCreatesTarget : Obligations.AttachCreatesTarget := by
  intro inst id dev s x found kept t sig dat b
  have ht : createTarget Config.params id x.draws dev.ready found.1 = t := createTarget_eq _ _ _ _ _
  have hexec : exec (.busAttach inst id dev) s = .next (s.put inst (changeBus (notifyEvent (envOf inst))
      { x with draws := x.draws + 1, kept := kept } b)) := by
    refine (exec_attach inst s id dev).trans (next_put_congr s inst ?_)
    rw [show foundImage dev.image (beginEvent (s.get inst)).kept = found from rfl,
      show createTarget Config.params id (beginEvent (s.get inst)).draws dev.ready found.1 = t from ht]
    rfl
  have hrest : t.atRest := ⟨rfl, rfl, rfl⟩
  have hid : t.id = id := rfl
  have haside (hsel : has (orCtl sig) sigSEL = false) (hseen : has (orCtl sig) sigRST = true → x.ctrl.rstSeen = true)
      (hengine : x.ctrl.busy = true ∨ x.ctrl.state = .idle ∨ x.ctrl.pending ≠ none)
      (hids : ∀ j u, j ≠ id → x.target? j = some u → u.id = j) :
      Aside id t { x with bus := b, draws := x.draws + 1, kept := kept } := by
    refine ⟨⟨⟨rfl, rfl⟩, hseen, hengine⟩, hsel, fun j u hj => ?_, replace_target?_same (x := x) rfl,
      Vector.getElem_set_self _, Vector.getElem_set_self _⟩
    by_cases hj' : j = id
    · rw [hj'] at hj ⊢
      cases (replace_target?_same (x := x) (b := b) rfl).symm.trans hj
      exact hid
    · exact hids j u hj' ((replace_target?_other (x := x) (b := b) rfl hj').symm.trans hj)
  refine ⟨fun hsame => hexec.trans (next_put_congr s inst (if_pos hsame)), fun hchanged hcb => ?_, fun hcalm hno hquiet => ?_⟩
  · intro z y
    have hnotified : Notified Config.params (z.onBus b) y := notify_notified (envOf inst) z b hcb ⟨rfl, rfl⟩
    obtain ⟨u, hu, huid, hgeom, hready, hchange, hserial, himage⟩ :=
      hnotified.target id t (replace_target?_same (x := x) rfl)
    refine ⟨hexec.trans (next_put_congr s inst (changeBus_notified (envOf inst) z b hchanged hcb)), hnotified,
      hnotified.kept.1, ⟨u, hu, huid, hgeom, hready, hchange, hserial, himage⟩, fun hsel hseen hengine hids => ?_⟩
    have hstart : Aside id t { z with bus := b } := haside hsel hseen hengine hids
    have hdone : Aside id t y := hstart.notify (envOf inst) hrest
    exact ⟨hdone.target, hdone.sig, hdone.dat⟩
  · obtain ⟨hsel, hnoRst⟩ := has_of_has_or hquiet
    have hids : ∀ j u, j ≠ id → x.target? j = some u → u.id = j := fun j u hj hu => by
      rw [hno j hj] at hu
      cases hu
    have hstart := haside hsel (fun h => by rw [hnoRst] at h; cases h) (.inr (.inl hcalm.2.2.1)) hids
    refine hexec.trans (next_put_congr s inst (changeBus_quiet _ _ _ hcalm rfl fun _ => ?_))
    refine notify_callback _ _ hcalm.1 fun k => ?_
    have hcalled := hstart.onBusChange (envOf inst) (notifyTo (envOf inst) 31)
    by_cases hk : k = id
    · rw [hk]
      exact hcalled.handlerSelf (envOf inst) hrest
    · refine targetHandler_none _ _ ?_
      have hnone : ({ x with bus := b, draws := x.draws + 1, kept := kept } : Instance).target? k = none :=
        (replace_target?_other (x := x) rfl hk).trans (hno k hk)
      have hbus := onBusChange_still_bus (envOf inst) (notifyTo (envOf inst) 31) _ hstart.still
      exact (Instance.target?_congr (congrArg Bus.occ hbus) k).trans hnone

/-- Settles O39: the slot is empty in the notification; at an idle Controller that is the callback alone. -/
theorem detachFreesSlot : Obligations.DetachFreesSlot := by
  intro inst id s x c kept sig dat b
  have hexec : exec (.busDetach inst id) s =
      .next (s.put inst (changeBus (notifyEvent (envOf inst)) { x with kept := kept } b)) := exec_detach inst s id
  have hempty (z : Instance) (hz : z.bus = x.bus) (hno : x.noTargetsBut id) :
      ({ z with bus := b } : Instance).noTargets := fun j => by
    by_cases hj : j = id
    · rw [hj]
      exact replace_target?_none (x := x) rfl
    · exact (replace_target?_other (x := x) rfl hj).trans (hno j hj)
  refine ⟨fun hsame => hexec.trans (next_put_congr s inst (if_pos hsame)), fun hcalm hno => ?_, fun hchanged hcb => ?_⟩
  · refine hexec.trans (next_put_congr s inst (changeBus_quiet _ _ _ hcalm rfl fun _ => ?_))
    exact notify_noTargets _ _ hcalm.1 (hempty { x with kept := kept } rfl hno)
  · intro z y
    have hnotified : Notified Config.params (z.onBus b) y := notify_notified (envOf inst) z b hcb ⟨rfl, rfl⟩
    have hevent : exec (.busDetach inst id) s = .next (s.put inst (updateLines y)) :=
      hexec.trans (next_put_congr s inst (changeBus_notified (envOf inst) z b hchanged hcb))
    have hslot : b.occ[slotAddr id] = none := Vector.getElem_set_self _
    refine ⟨hevent, hnotified, ?_, hnotified.kept.1, fun hids => ?_, fun hidle hpending hseen hbusy hno => ?_⟩
    · refine (hnotified.occ (slotAddr id) fun t ht => ?_).trans hslot
      rw [show (z.onBus b).bus.occ[slotAddr id] = none from hslot] at ht
      cases ht
    · have hundriven : (z.onBus b).undriven id := fun j u hj => by
        by_cases hj' : j = id
        · rw [hj'] at hj
          cases (replace_target?_none (x := x) (b := b) rfl).symm.trans hj
        · exact hids j u hj' ((replace_target?_other (x := x) (b := b) rfl hj').symm.trans hj)
      obtain ⟨hsig, hdat⟩ := hnotified.undriven id hundriven
      exact ⟨hsig.trans (Vector.getElem_set_self _), hdat.trans (Vector.getElem_set_self _)⟩
    · have hcallback : y = onBusChange (envOf inst) (notifyTo (envOf inst) 31) { z with bus := b } :=
        notify_noTargets _ _ hcb (hempty z rfl hno)
      obtain ⟨hdue, hnotDue⟩ := onBusChange_idle (envOf inst) (notifyTo (envOf inst) 31) z b hseen hbusy hidle hpending
      have hfree (m : Nat) : (if b.isFree then m else 0) = if orCtl sig &&& (sigBSY ||| sigSEL) = 0 then m else 0 := by
        simp only [Bus.isFree, beq_iff_eq]
        rfl
      intro due d
      refine ⟨fun h => hevent.trans (next_put_congr s inst ?_), fun h => hevent.trans (next_put_congr s inst ?_)⟩
      · rw [hcallback, hdue h, updateLines_eq]
        simp only [hfree]
        rfl
      · rw [hcallback, hnotDue h, updateLines_eq]
        simp only [hfree]
        rfl

/-- Settles O40: the image is taken, the one that was open is kept. -/
theorem imageOpenAndClose : Obligations.ImageOpenAndClose := by
  intro inst id content i s x
  have hopen (src : ImageSource) : exec (.envOpenImage inst id src) s = .next (s.put inst (openAt Config.params id src x)) := rfl
  have hclose : exec (.envCloseImage inst id) s = .next (s.put inst ((keepImage id x).modTarget id closeImage)) := rfl
  refine ⟨fun hnone => ⟨fun src => (hopen src).trans (next_put_congr s inst (openAt_empty hnone)),
    hclose.trans (next_put_congr s inst (closeAt_empty hnone))⟩, fun t ht => ?_⟩
  intro opened
  obtain ⟨hbps, hfits⟩ := geometryOfSize_fits Config.params (Store.ofBytes content).size
  refine ⟨⟨Store.ofBytes content, _, (hopen _).trans (next_put_congr s inst (openAt_found ht rfl)), rfl,
      Store.ofBytes_readByte content, hbps, hfits⟩, fun st hst => ?_, fun hst => ?_, ?_⟩
  · obtain ⟨hbps, hfits⟩ := geometryOfSize_fits Config.params st.size
    exact ⟨_, (hopen _).trans (next_put_congr s inst (openAt_found ht (takeImage_kept hst))), hbps, hfits⟩
  · exact (hopen _).trans (next_put_congr s inst (openAt_absent (takeImage_absent hst)))
  · exact hclose.trans (next_put_congr s inst (closeAt_eq ht))

end Sys2Proof.Proofs
end

section
/-! SUPPORT. Ticks as events (43_controller_fsm.md section 8): the pending transition, the selection timer and its timeout,
the bus-free timer, and the disconnect that is due at the end. -/

namespace Sys2Proof.Machine

/-! ### The steps of a tick (R210) -/

/-- The bus-free timer of a bus after `n` more cycles (R210, R211). -/
def Bus.freeAfter (p : Params) (n : Nat) (b : Bus) (t : Nat) : Nat :=
  if b.ctl &&& (sigBSY ||| sigSEL) = 0 then min (t + n) p.busFreeCycles else 0

/-- What a tick does behind its first step. -/
def tickTimers (e : Env) (n : Nat) (armed : Bool) (paid : Instance) : Instance :=
  commonTail e (checkDisconnect e (tickBusFree e n
    (tickSelTimer (notify e) armed n { paid with ctrl := { paid.ctrl with budget := 0 } })))

/-- The instance as a transition of the engine into a state finds it, with a budget (R172). -/
def Instance.entering (u : EngineState) (budget : Nat) (x : Instance) : Instance :=
  { x with ctrl := { x.ctrl with state := u, pending := none, budget := budget } }

section
variable {e : Env} {f : Instance → Instance} {n : Nat} {x : Instance}

theorem exec_tick (inst : InstId) (n : Nat) (s : State) :
    let x := beginEvent (s.get inst)
    exec (.tick inst n) s = .next (s.put inst (tickTimers (envOf inst) n x.ctrl.selTimer.isSome
      (tickPending (envOf inst) (notify (envOf inst)) n x))) := rfl

theorem tickBusFree_eq :
    tickBusFree e n x = { x with ctrl := { x.ctrl with bfTimer := x.bus.freeAfter e.p n x.ctrl.bfTimer } } := by
  simp only [tickBusFree, Instance.modCtrl, Bus.isFree, beq_iff_eq, Bus.freeAfter]

/-- The first step of a tick (R210). -/
theorem tickPending_eq : tickPending e f n x = match x.ctrl.pending with
    | some (u, r) =>
      if r ≤ n then runEngine e f { x with ctrl := { x.ctrl with budget := n - r, pending := none, state := u } }
      else { x with ctrl := { x.ctrl with pending := some (u, r - n) } }
    | none => runEngine e f { x with ctrl := { x.ctrl with budget := n } } := rfl

theorem tickPending_notDue {u : EngineState} {r : Nat} (h : x.ctrl.pending = some (u, r)) (hr : n < r) :
    tickPending e f n x = { x with ctrl := { x.ctrl with pending := some (u, r - n) } } := by
  rw [tickPending_eq, h]
  exact if_neg (Nat.not_le.2 hr)

theorem tickPending_due {u : EngineState} {r : Nat} (h : x.ctrl.pending = some (u, r)) (hr : r ≤ n) :
    tickPending e f n x = runEngine e f (x.entering u (n - r)) := by
  rw [tickPending_eq, h]
  exact if_pos hr

theorem tickPending_none (h : x.ctrl.pending = none) :
    tickPending e f n x = runEngine e f { x with ctrl := { x.ctrl with budget := n } } := by
  rw [tickPending_eq, h]

/-- A tick evaluates a state from the start if the engine is in it, or the transition into it is due. -/
theorem tickPending_runs {u : EngineState}
    (h : (x.ctrl.state = u ∧ x.ctrl.pending = none) ∨ ∃ r, x.ctrl.pending = some (u, r) ∧ r ≤ n) :
    ∃ budget, tickPending e f n x = runEngine e f (x.entering u budget) := by
  rcases h with ⟨hu, hp⟩ | ⟨r, hp, hr⟩
  · refine ⟨n, (tickPending_none hp).trans ?_⟩
    unfold Instance.entering
    rw [← hu, ← hp]
  · exact ⟨n - r, tickPending_due hp hr⟩

theorem tickPending_idle (hb : x.ctrl.busy = false) (hs : x.ctrl.state = .idle) (hp : x.ctrl.pending = none) :
    tickPending e f n x = { x with ctrl := { x.ctrl with budget := n, renotify := false } } :=
  (tickPending_none hp).trans (runEngine_rest _ _ _ ⟨hb, .inl hs⟩)

theorem tickSelTimer_unarmed {armed : Bool} (h : armed = false ∨ x.ctrl.selTimer = none) : tickSelTimer f armed n x = x := by
  unfold tickSelTimer
  rcases h with h | h
  · rw [h]
    rfl
  · rw [h]
    cases armed <;> rfl

theorem tickSelTimer_expired {el l : Nat} (h : x.ctrl.selTimer = some (el, l)) (hl : l ≤ el + n) :
    tickSelTimer f true n x = selectionTimeout f x := by
  unfold tickSelTimer
  rw [if_pos rfl, h]
  exact if_pos hl

theorem tickSelTimer_short {el l : Nat} (h : x.ctrl.selTimer = some (el, l)) (hl : ¬l ≤ el + n) :
    tickSelTimer f true n x = { x with ctrl := { x.ctrl with selTimer := some (el + n, l) } } := by
  unfold tickSelTimer
  rw [if_pos rfl, h]
  exact if_neg hl

/-- The selection timer of a tick, where it was armed `before` (R190, R210). -/
theorem tickSelTimer_eq (before : Option (Nat × Nat)) :
    let released := driveData 0 (guarded (drive f 0 (sigBSY ||| sigSEL ||| sigATN ||| sigACK)) x)
    tickSelTimer f before.isSome n x = match before, x.ctrl.selTimer with
      | some _, some (el, l) =>
        if l ≤ el + n then
          { released with ctrl := { released.ctrl with
              ints := released.ctrl.ints ||| 0x04, state := .idle, pending := none, selTimer := none
              atnQueued := false } }
        else { x with ctrl := { x.ctrl with selTimer := some (el + n, l) } }
      | _, _ => x := by
  intro released
  cases before with
  | none => exact tickSelTimer_unarmed (.inl rfl)
  | some _ =>
    cases htimer : x.ctrl.selTimer with
    | none => exact tickSelTimer_unarmed (.inr htimer)
    | some p =>
      obtain ⟨el, l⟩ := p
      by_cases hl : l ≤ el + n
      · exact (tickSelTimer_expired htimer hl).trans (if_pos hl).symm
      · exact (tickSelTimer_short htimer hl).trans (if_neg hl).symm

/-- Short of its limit the selection timer only advances, if it is armed. -/
theorem tickSelTimer_advances (h : ∀ el l, x.ctrl.selTimer = some (el, l) → el + n < l) :
    tickSelTimer f x.ctrl.selTimer.isSome n x =
      { x with ctrl := { x.ctrl with selTimer := x.ctrl.selTimer.map fun p => (p.1 + n, p.2) } } := by
  cases hsel : x.ctrl.selTimer with
  | none =>
    rw [tickSelTimer_unarmed (.inr hsel), Option.map_none, ← hsel]
  | some p => exact tickSelTimer_short hsel (Nat.not_le.2 (h p.1 p.2 hsel))

/-- `check_disconnect` on the words (R206). -/
theorem checkDisconnect_eq : checkDisconnect e x =
    if x.ctrl.connected && x.ctrl.state == .idle && x.ctrl.pending == none &&
      x.bus.ctl &&& (sigBSY ||| sigSEL) == 0 && e.p.busFreeCycles ≤ x.ctrl.bfTimer then
      { x with ctrl := { x.ctrl with
          connected := false, ints := if x.ctrl.pctl.getLsbD 7 then x.ctrl.ints ||| 0x20 else x.ctrl.ints } }
    else x := by
  by_cases hdue : x.ctrl.connected = true ∧ x.ctrl.state = .idle ∧ x.ctrl.pending = none ∧
      x.bus.ctl &&& (sigBSY ||| sigSEL) = 0 ∧ e.p.busFreeCycles ≤ x.ctrl.bfTimer
  · obtain ⟨hc, hs, hp, hf, hb⟩ := hdue
    rw [checkDisconnect_due e x hc hs hp hf hb, hc, hs, hp, hf, decide_eq_true hb]
    rfl
  · rw [if_neg (by simpa [and_assoc] using hdue)]
    unfold checkDisconnect
    refine if_neg ?_
    simpa [Controller.engineFree_iff, busFreeDetected_iff, and_assoc] using hdue

/-- An engine that is not free records no disconnect (R206). -/
theorem checkDisconnect_engaged (h : x.ctrl.engineFree = false) : checkDisconnect e x = x := by
  unfold checkDisconnect
  rw [h, Bool.and_false, Bool.false_and, if_neg (by simp)]

/-- The timers of a tick at an engine that is not free, the selection timer short of its limit. -/
theorem tickTimers_engaged (hfree : x.ctrl.engineFree = false) (h : ∀ el l, x.ctrl.selTimer = some (el, l) → el + n < l) :
    tickTimers e n x.ctrl.selTimer.isSome x = commonTail e { x with ctrl := { x.ctrl with
      budget := 0, selTimer := x.ctrl.selTimer.map fun p => (p.1 + n, p.2)
      bfTimer := x.bus.freeAfter e.p n x.ctrl.bfTimer } } := by
  unfold tickTimers
  rw [tickSelTimer_advances (x := { x with ctrl := { x.ctrl with budget := 0 } }) h, tickBusFree_eq]
  exact congrArg (commonTail e) (checkDisconnect_engaged hfree)

/-- The timers of a tick where the selection timer is not armed. -/
theorem tickTimers_unarmed {armed : Bool} (h : armed = false ∨ x.ctrl.selTimer = none) :
    tickTimers e n armed x = commonTail e (checkDisconnect e { x with ctrl := { x.ctrl with
      budget := 0, bfTimer := x.bus.freeAfter e.p n x.ctrl.bfTimer } }) := by
  unfold tickTimers
  rw [tickSelTimer_unarmed (by exact h), tickBusFree_eq]

/-- A tick at an idle Controller with no selection timer (R210). -/
theorem tick_idle {armed : Bool} (hb : x.ctrl.busy = false) (hs : x.ctrl.state = .idle) (hp : x.ctrl.pending = none)
    (hsel : x.ctrl.selTimer = none) :
    tickTimers e n armed (tickPending e f n x) = commonTail e (checkDisconnect e { x with ctrl := { x.ctrl with
      budget := 0, renotify := false, bfTimer := x.bus.freeAfter e.p n x.ctrl.bfTimer } }) := by
  rw [tickPending_idle hb hs hp]
  exact tickTimers_unarmed (x := { x with ctrl := { x.ctrl with budget := n, renotify := false } }) (.inr hsel)

/-- The same where it completes the bus-free time of a connected Controller (R206). -/
theorem tick_idle_due {armed : Bool} (hb : x.ctrl.busy = false) (hs : x.ctrl.state = .idle) (hp : x.ctrl.pending = none)
    (hsel : x.ctrl.selTimer = none) (hconn : x.ctrl.connected = true) (hfree : x.bus.ctl &&& (sigBSY ||| sigSEL) = 0)
    (htime : e.p.busFreeCycles ≤ x.ctrl.bfTimer + n) :
    tickTimers e n armed (tickPending e f n x) = afterTail { x with ctrl := { x.ctrl with
      budget := 0, bfTimer := e.p.busFreeCycles, connected := false
      ints := if x.ctrl.pctl.getLsbD 7 then x.ctrl.ints ||| 0x20 else x.ctrl.ints } } := by
  have htimer : x.bus.freeAfter e.p n x.ctrl.bfTimer = e.p.busFreeCycles := (if_pos hfree).trans (min_eq_right htime)
  refine (tick_idle hb hs hp hsel).trans ?_
  rw [htimer]
  let z : Instance := { x with ctrl := { x.ctrl with budget := 0, renotify := false, bfTimer := e.p.busFreeCycles } }
  have hdue := checkDisconnect_due e z hconn hs hp hfree (le_refl _)
  exact (congrArg (commonTail e) hdue).trans (commonTail_rest _ _ ⟨hb, .inl hs⟩)

/-! ### One evaluation in a tick (R186 to R188) -/

/-- SEL_WAIT_BSY without an answer (R188). -/
theorem engineStep_unanswered (hs : x.ctrl.state = .selWaitBsy)
    (h : has (sense x) sigBSY = false ∨ has (sense x) (sigREQ ||| sigMSG ||| sigCD ||| sigIO) = true) :
    engineStep e f x = (.stay, x) := by
  unfold engineStep engSelWaitBsy
  rw [hs]
  refine if_neg ?_
  rcases h with h | h
  · rw [h, Bool.false_and]
    exact Bool.false_ne_true
  · rw [h, Bool.not_true, Bool.and_false]
    exact Bool.false_ne_true

theorem goto_parks {t : EngineState} {d : Nat} (h : x.ctrl.budget < d) :
    goto t d x = (.parked, { x with ctrl := { x.ctrl with pending := some (t, d - x.ctrl.budget), budget := 0 } }) :=
  if_neg (Nat.not_le.2 h)

theorem engineStep_selAssertId (hs : x.ctrl.state = .selAssertId) :
    engineStep e f x = goto .selAssertSel e.p.dSelId (driveData (idBit x.ctrl.bdid.toNat ||| x.ctrl.temp) x) := by
  unfold engineStep
  rw [hs]
  rfl

theorem engineStep_selAssertSel (hs : x.ctrl.state = .selAssertSel) :
    engineStep e f x = goto .selWaitBsy e.p.dSelSel
      ((drive f (sigSEL ||| onlyIf x.ctrl.atnQueued sigATN) (sigSEL ||| sigATN ||| sigBSY) x).modCtrl fun c =>
        { c with selTimer := (e.p.selTimeout c.tc).map fun l => (0, l) }) := by
  unfold engineStep
  rw [hs]
  rfl

/-! ### Ticks of an engine that waits, parks or goes on (R172, R186 to R188, R210) -/

theorem tick_parked {u : EngineState} {r : Nat} (hb : x.ctrl.busy = false)
    (h : ∀ el l, x.ctrl.selTimer = some (el, l) → el + n < l) (hp : x.ctrl.pending = some (u, r)) (hr : n < r) :
    tickTimers e n x.ctrl.selTimer.isSome (tickPending e f n x) = afterTail { x with ctrl := { x.ctrl with
      budget := 0, selTimer := x.ctrl.selTimer.map fun p => (p.1 + n, p.2)
      bfTimer := x.bus.freeAfter e.p n x.ctrl.bfTimer, pending := some (u, r - n) } } := by
  rw [tickPending_notDue hp hr]
  refine (tickTimers_engaged (x := { x with ctrl := { x.ctrl with pending := some (u, r - n) } }) ?_ h).trans ?_
  · rw [← Bool.not_eq_true, Controller.engineFree_iff]
    exact fun hfree => Option.some_ne_none _ hfree.2
  · exact commonTail_rest _ _ ⟨hb, .inr (Option.some_ne_none _)⟩

/-- A run of the engine that waits for an answer of the Target (R188). -/
theorem runEngine_unanswered {budget : Nat} (hb : x.ctrl.busy = false)
    (h : has (sense x) sigBSY = false ∨ has (sense x) (sigREQ ||| sigMSG ||| sigCD ||| sigIO) = true) :
    runEngine e f (x.entering .selWaitBsy budget) =
      { x with ctrl := { x.ctrl with state := .selWaitBsy, pending := none, budget := budget, renotify := false } } :=
  runEngine_stay e f _ (x.entering .selWaitBsy budget).running hb rfl rfl (engineStep_unanswered rfl h)

theorem tick_unanswered (hb : x.ctrl.busy = false) (h : ∀ el l, x.ctrl.selTimer = some (el, l) → el + n < l)
    (hwait : (x.ctrl.state = .selWaitBsy ∧ x.ctrl.pending = none) ∨ ∃ r, x.ctrl.pending = some (.selWaitBsy, r) ∧ r ≤ n)
    (hsense : has (sense x) sigBSY = false ∨ has (sense x) (sigREQ ||| sigMSG ||| sigCD ||| sigIO) = true) :
    tickTimers e n x.ctrl.selTimer.isSome (tickPending e f n x) = afterTail { x with ctrl := { x.ctrl with
      budget := 0, selTimer := x.ctrl.selTimer.map fun p => (p.1 + n, p.2)
      bfTimer := x.bus.freeAfter e.p n x.ctrl.bfTimer, state := .selWaitBsy, pending := none } } := by
  obtain ⟨budget, hpaid⟩ := tickPending_runs (e := e) (f := f) hwait
  rw [hpaid, runEngine_unanswered hb hsense]
  refine (tickTimers_engaged (x := { x with ctrl := { x.ctrl with
    state := .selWaitBsy, pending := none, budget := budget, renotify := false } }) rfl h).trans ?_
  exact commonTail_waits hb rfl (engineStep_unanswered rfl hsense)

theorem tick_selAssertId {r : Nat} (hb : x.ctrl.busy = false)
    (h : ∀ el l, x.ctrl.selTimer = some (el, l) → el + n < l) (hp : x.ctrl.pending = some (.selAssertId, r)) (hr : r ≤ n)
    (hd : n - r < e.p.dSelId) :
    let b := x.bus.writeData 7 (idBit x.ctrl.bdid.toNat ||| x.ctrl.temp)
    tickTimers e n x.ctrl.selTimer.isSome (tickPending e f n x) = afterTail { x with bus := b, ctrl := { x.ctrl with
      budget := 0, selTimer := x.ctrl.selTimer.map fun p => (p.1 + n, p.2)
      bfTimer := b.freeAfter e.p n x.ctrl.bfTimer, state := .selAssertId
      pending := some (.selAssertSel, e.p.dSelId - (n - r)) } } := by
  intro b
  let parked : Instance := { x with bus := b, ctrl := { x.ctrl with
    state := .selAssertId, budget := 0, pending := some (.selAssertSel, e.p.dSelId - (n - r)) } }
  let z : Instance := { parked with ctrl := { parked.ctrl with busy := true, renotify := false } }
  have hstep : engineStep e f (x.entering .selAssertId (n - r)).running = (.parked, z) :=
    (engineStep_selAssertId rfl).trans (goto_parks hd)
  have hrun := (tickPending_due hp hr).trans (runEngine_settles e f _ _ z _ hb rfl rfl hstep (.inr (Option.some_ne_none _)))
  rw [hrun]
  refine (tickTimers_engaged (x := { z with ctrl := { z.ctrl with busy := false, renotify := false } }) rfl h).trans ?_
  refine (commonTail_rest _ _ ⟨rfl, .inr (Option.some_ne_none _)⟩).trans ?_
  exact congrArg (fun q => afterTail { x with bus := b, ctrl := { x.ctrl with
      budget := 0, selTimer := x.ctrl.selTimer.map fun p => (p.1 + n, p.2)
      bfTimer := b.freeAfter e.p n x.ctrl.bfTimer, state := .selAssertId
      pending := some (.selAssertSel, e.p.dSelId - (n - r)), busy := q } }) hb.symm

/-- The own lines of SEL_ASSERT_SEL: SEL and a queued ATN up, BSY down (R187). -/
def selLines (atn : Bool) (q : Ctl) : Ctl :=
  (q &&& ~~~(sigSEL ||| sigATN ||| sigBSY)) ||| (sigSEL ||| if atn then sigATN else 0)

theorem tick_selAssertSel {r : Nat} (hc : x.bus.combined) (hrst : has x.bus.ctl sigRST = true → x.ctrl.rstSeen = true)
    (hb : x.ctrl.busy = false) (hsel : x.ctrl.selTimer = none) (hp : x.ctrl.pending = some (.selAssertSel, r)) (hr : r ≤ n)
    (hd : n - r < e.p.dSelSel) :
    let t := tickTimers e n x.ctrl.selTimer.isSome (tickPending e (notify e) n x)
    t.bus.sig[7] = (if x.ctrl.dm then x.bus.sig[7] else selLines x.ctrl.atnQueued x.bus.sig[7]) ∧
    t.bus.dat[7] = x.bus.dat[7] ∧
    t.ctrl = { x.ctrl with
      state := .selAssertSel, pending := some (.selWaitBsy, e.p.dSelSel - (n - r))
      selTimer := (e.p.selTimeout x.ctrl.tc).map fun l => (0, l)
      diagSig := if x.ctrl.dm then selLines x.ctrl.atnQueued x.ctrl.diagSig else x.ctrl.diagSig
      budget := 0, bfTimer := t.ctrl.bfTimer, rstSeen := t.ctrl.rstSeen, irqLine := t.ctrl.irqLine
      drqLine := t.ctrl.drqLine, renotify := false } := by
  let w := (x.entering .selAssertSel (n - r)).running
  have hmask : (sigSEL ||| onlyIf x.ctrl.atnQueued sigATN) &&& (sigSEL ||| sigATN ||| sigBSY) =
      sigSEL ||| onlyIf x.ctrl.atnQueued sigATN := by cases x.ctrl.atnQueued <;> decide
  have hnoRst : (sigSEL ||| onlyIf x.ctrl.atnQueued sigATN) &&& sigRST = 0 := by cases x.ctrl.atnQueued <;> decide
  obtain ⟨hctrl, hsig, hdat, -⟩ := drive_running e _ _ w ⟨hc, hrst, .inl rfl⟩ rfl hnoRst hmask
  have hstep : engineStep e (notify e) w = goto .selWaitBsy e.p.dSelSel
      ((drive (notify e) (sigSEL ||| onlyIf x.ctrl.atnQueued sigATN) (sigSEL ||| sigATN ||| sigBSY) w).modCtrl fun c =>
        { c with selTimer := (e.p.selTimeout c.tc).map fun l => (0, l) }) := engineStep_selAssertSel rfl
  generalize drive (notify e) (sigSEL ||| onlyIf x.ctrl.atnQueued sigATN) (sigSEL ||| sigATN ||| sigBSY) w = y
    at hctrl hsig hdat hstep
  obtain ⟨bf, seen, note, hy⟩ : ∃ bf seen note, y.ctrl = { w.ctrl with
      diagSig := if x.ctrl.dm then selLines x.ctrl.atnQueued x.ctrl.diagSig else x.ctrl.diagSig
      bfTimer := bf, rstSeen := seen, renotify := note } := ⟨_, _, _, hctrl⟩
  let parked : Instance := { y with ctrl := { y.ctrl with
    selTimer := (e.p.selTimeout y.ctrl.tc).map fun l => (0, l)
    pending := some (.selWaitBsy, e.p.dSelSel - y.ctrl.budget), budget := 0 } }
  have hparked : engineStep e (notify e) w = (.parked, parked) :=
    hstep.trans (goto_parks (lt_of_eq_of_lt (by exact congrArg Controller.budget hy) hd))
  have hpaid := (tickPending_due hp hr).trans
    (runEngine_settles e (notify e) _ w parked _ hb rfl rfl hparked (.inr (Option.some_ne_none _)))
  let z : Instance := { parked with ctrl := { parked.ctrl with
    busy := false, renotify := false, bfTimer := parked.bus.freeAfter e.p n parked.ctrl.bfTimer } }
  have ht : tickTimers e n x.ctrl.selTimer.isSome (tickPending e (notify e) n x) = afterTail z := by
    rw [hpaid]
    refine (tickTimers_unarmed (.inl (by rw [hsel]; rfl))).trans ?_
    refine (congrArg (commonTail e) (checkDisconnect_engaged ?_)).trans (commonTail_rest e z ⟨rfl, .inr (Option.some_ne_none _)⟩)
    rw [← Bool.not_eq_true, Controller.engineFree_iff]
    exact fun hfree => Option.some_ne_none _ hfree.2
  rw [ht]
  refine ⟨hsig, hdat, ?_⟩
  simp only [afterTail, z, parked, hy]
  rw [← hb]
  rfl

end

/-! ### The selection timeout (R190) -/

/-- A drive in normal mode with no Target on the bus changes the bus by the merge alone. -/
theorem drive_noTargets_bus (e : Env) (v m : Ctl) (x : Instance) (h : x.still) (hv : v &&& sigRST = 0)
    (hd : x.ctrl.dm = false) (hcb : x.bus.cb = .controller) (hno : x.noTargets) :
    (drive (notify e) v m x).bus = x.bus.writeControl 7 v m := by
  have hstill : ({ x with bus := x.bus.writeControl 7 v m } : Instance).still :=
    ⟨Bus.writeControl_combined _ _ _ _, fun hh => h.rst (by rw [h.combined.1]; exact writeControl_rst hv hh), h.engine⟩
  unfold drive
  rw [if_neg (by simp [hd])]
  unfold setControl
  rcases changeBus_cases (notify e) x (x.bus.writeControl 7 v m) with ⟨-, hquiet⟩ | ⟨-, hnotified⟩
  · rw [hquiet]
  · have hnone : ({ x with bus := x.bus.writeControl 7 v m } : Instance).noTargets := hno
    rw [hnotified, notify_noTargets e _ (by exact hcb) hnone, onBusChange_still_bus _ _ _ hstill]

/-- The own signals that a timeout releases, and those it leaves. -/
def Ctl.released (dm : Bool) (q : Ctl) : Ctl := if dm then q else q &&& ~~~(sigBSY ||| sigSEL ||| sigATN ||| sigACK)

/-- What a selection timeout leaves, with any participants (R190; log 23). -/
theorem selectionTimeout_leaves (e : Env) (x : Instance) (hc : x.bus.combined)
    (hr : has x.bus.ctl sigRST = true → x.ctrl.rstSeen = true) (hfree : x.ctrl.engineFree = false) :
    let y := selectionTimeout (notify e) x
    (∃ bf seen note, y.ctrl = { x.ctrl with
      ints := x.ctrl.ints ||| 0x04, state := .idle, pending := none, selTimer := none, atnQueued := false
      diagSig := if x.ctrl.dm then x.ctrl.diagSig &&& ~~~(sigBSY ||| sigSEL ||| sigATN ||| sigACK) else x.ctrl.diagSig
      bfTimer := bf, rstSeen := seen, renotify := note }) ∧
    y.bus.sig[7] = Ctl.released x.ctrl.dm x.bus.sig[7] ∧ y.bus.dat[7] = 0 ∧ y.bus.combined := by
  cases hdm : x.ctrl.dm
  · obtain ⟨w, hsig, hdat, hw, hund, hcomb, -⟩ := releaseSelection_still e x hc hr hdm
    have hstays : ¬w.ctrl.engineFree = true := by rw [hw, hfree]; exact Bool.false_ne_true
    obtain ⟨hconn, hints⟩ := hund.connected.resolve_right fun h => hstays h.2.1
    obtain ⟨conn, ints, bf, seen, note, hy⟩ := hund.shape
    rw [hy, hw] at hconn hints
    subst hconn hints
    refine ⟨⟨bf, seen, note, ?_⟩, hund.sig.trans (hsig.trans (merge_zero _ _)), hund.dat.trans hdat, hcomb⟩
    simp only [selectionTimeout, raiseInt, Instance.modCtrl_ctrl, hy, hw]
    rfl
  · intro y
    have hy : y = _ := congrArg (fun z => (raiseInt intTO z).modCtrl fun c =>
      { c with state := .idle, pending := none, selTimer := none, atnQueued := false })
      (releaseSelection_quiet (notify e) x (.inl hdm))
    rw [hy, if_pos hdm, if_pos hdm]
    exact ⟨⟨_, _, _, rfl⟩, rfl, Vector.getElem_set_self _, Bus.writeData_combined _ _ _⟩

/-- With no Target on the bus nothing else of it changes. -/
theorem selectionTimeout_noTargets (e : Env) (x : Instance) (hc : x.bus.combined)
    (hr : has x.bus.ctl sigRST = true → x.ctrl.rstSeen = true) (hcb : x.bus.cb = .controller) (hno : x.noTargets) :
    let y := selectionTimeout (notify e) x
    y.bus.sig = x.bus.sig.set 7 (Ctl.released x.ctrl.dm x.bus.sig[7]) ∧ y.bus.dat = x.bus.dat.set 7 0 ∧
      y.bus.occ = x.bus.occ := by
  have hbus : (releaseSelection (notify e) x).bus =
      (if x.ctrl.dm then x.bus else x.bus.writeControl 7 0 (sigBSY ||| sigSEL ||| sigATN ||| sigACK)).writeData 7 0 := by
    cases hdm : x.ctrl.dm
    · have hdrive := drive_noTargets_bus e 0 (sigBSY ||| sigSEL ||| sigATN ||| sigACK)
        (x.modCtrl fun c => { c with busy := true }) ⟨hc, hr, .inl rfl⟩ (by decide) hdm hcb hno
      exact congrArg (fun b : Bus => b.writeData 7 0) hdrive
    · exact (congrArg Instance.bus (releaseSelection_quiet (notify e) x (.inl hdm))).trans
        (congrArg (fun b : Bus => b.writeData 7 0) (if_pos hdm))
  intro y
  have hy : y.bus = (releaseSelection (notify e) x).bus := rfl
  rw [hy, hbus]
  cases hdm : x.ctrl.dm
  · exact ⟨congrArg (x.bus.sig.set 7) (merge_zero _ _), rfl, rfl⟩
  · exact ⟨(Vector.set_getElem_self _).symm, rfl, rfl⟩

/-- The first step of a tick at an engine that waits unanswered, or whose transition is not due: the timers apart, only the
rest of the delay changes. -/
theorem tickPending_waits {e : Env} {f : Instance → Instance} {n : Nat} {x : Instance} (hb : x.ctrl.busy = false)
    (h : (x.ctrl.state = .selWaitBsy ∧ x.ctrl.pending = none ∧
        (has (sense x) sigBSY = false ∨ has (sense x) (sigREQ ||| sigMSG ||| sigCD ||| sigIO) = true)) ∨
      ∃ u r, x.ctrl.pending = some (u, r) ∧ n < r) :
    ∃ p note budget, tickPending e f n x =
        { x with ctrl := { x.ctrl with pending := p, renotify := note, budget := budget } } ∧
      Controller.engineFree { x.ctrl with pending := p, renotify := note, budget := 0 } = false := by
  rcases h with ⟨hs, hp, hsense⟩ | ⟨u, r, hp, hr⟩
  · obtain ⟨budget, hpaid⟩ := tickPending_runs (e := e) (f := f) (n := n) (.inl ⟨hs, hp⟩)
    refine ⟨none, false, budget, ?_, ?_⟩
    · rw [hpaid, runEngine_unanswered hb hsense, ← hs]
    · rw [← Bool.not_eq_true, Controller.engineFree_iff]
      intro hfree
      rw [show x.ctrl.state = .idle from hfree.1] at hs
      cases hs
  · refine ⟨_, _, _, tickPending_notDue hp hr, ?_⟩
    rw [← Bool.not_eq_true, Controller.engineFree_iff]
    exact fun hfree => Option.some_ne_none _ hfree.2

/-- The end of a tick at an idle engine: the bus-free timer, and the disconnect that may be due (R206, R210). -/
theorem tick_ends_idle (e : Env) (n : Nat) (x : Instance) (hb : x.ctrl.busy = false) (hs : x.ctrl.state = .idle) :
    let y := commonTail e (checkDisconnect e (tickBusFree e n x))
    y.bus = x.bus ∧ ∃ bf conn ints irq drq, y.ctrl = { x.ctrl with
        bfTimer := bf, connected := conn, ints := ints, irqLine := irq, drqLine := drq, renotify := false } ∧
      ((conn = x.ctrl.connected ∧ ints = x.ctrl.ints) ∨
       (x.ctrl.connected = true ∧ conn = false ∧
         ints = if x.ctrl.pctl.getLsbD 7 then x.ctrl.ints ||| 0x20 else x.ctrl.ints)) := by
  let w : Instance := { x with ctrl := { x.ctrl with bfTimer := x.bus.freeAfter e.p n x.ctrl.bfTimer } }
  have hw : tickBusFree e n x = w := tickBusFree_eq
  have hcheck := checkDisconnect_eq (e := e) (x := w)
  rw [hw]
  intro y
  split at hcheck
  · rename_i hdue
    have hy : y = afterTail _ := (congrArg (commonTail e) hcheck).trans (commonTail_rest _ _ ⟨by exact hb, .inl (by exact hs)⟩)
    simp only [Bool.and_eq_true] at hdue
    obtain ⟨⟨⟨⟨hconn, -⟩, -⟩, -⟩, -⟩ := hdue
    rw [hy]
    exact ⟨rfl, _, _, _, _, _, rfl, .inr ⟨hconn, rfl, rfl⟩⟩
  · have hy : y = afterTail w := (congrArg (commonTail e) hcheck).trans (commonTail_rest e w ⟨hb, .inl hs⟩)
    rw [hy]
    exact ⟨rfl, _, _, _, _, _, rfl, .inl ⟨rfl, rfl⟩⟩

end Sys2Proof.Machine

namespace Sys2Proof.Proofs
open Machine

/-- Settles O41: the engine rests in both runs of the tick, and an unconnected Controller records no disconnect. -/
theorem tickAdvancesBusFreeTimer : Obligations.TickAdvancesBusFreeTimer := by
  intro inst n s x c hbusy hidle hpending hconn hsel
  refine (exec_tick inst n s).trans (next_put_congr s inst ?_)
  refine (tick_idle hbusy hidle hpending hsel).trans ?_
  refine (congrArg (commonTail (envOf inst)) (checkDisconnect_unconnected (by exact hconn))).trans ?_
  exact commonTail_rest _ _ ⟨hbusy, .inl hidle⟩

/-- Settles O43: the same tick, where the disconnect is due. -/
theorem tickDetectsDisconnect : Obligations.TickDetectsDisconnect := by
  intro inst n s x c hbusy hidle hpending hconn hsel hfree htime
  refine (exec_tick inst n s).trans (next_put_congr s inst ?_)
  exact tick_idle_due hbusy hidle hpending hsel hconn hfree htime

/-- Settles O42: the steps of a tick in their order; the closed forms are the engine's one evaluation in the first of them. -/
theorem tickRunsEngine : Obligations.TickRunsEngine := by
  intro inst n s x c e paid y released timed advanced z leaves gone timers unanswered whole
  have htick := exec_tick inst n s
  have hpaid : tickPending e (notify e) n x = paid := tickPending_eq
  have hwhole : tickTimers e n c.selTimer.isSome (tickPending e (notify e) n x) = whole := by
    rw [hpaid]
    have htimed : tickSelTimer (notify e) c.selTimer.isSome n y = timed := tickSelTimer_eq _
    have hz : tickBusFree e n (tickSelTimer (notify e) c.selTimer.isSome n y) = z := (congrArg _ htimed).trans tickBusFree_eq
    have hgone : checkDisconnect e z = if leaves then gone else z := checkDisconnect_eq
    exact congrArg (commonTail e) ((congrArg (checkDisconnect e) hz).trans hgone)
  have hexec : exec (.tick inst n) s = .next (s.put inst whole) := htick.trans (next_put_congr s inst hwhole)
  refine ⟨hexec, fun hbusy hshort => ⟨fun u r hp hr => ?_, fun hwait hsense => ?_, fun r hp hr => ?_⟩, fun hc hrst hbusy hsel r hp hr => ?_⟩
  · exact htick.trans (next_put_congr s inst (tick_parked hbusy hshort hp hr))
  · exact htick.trans (next_put_congr s inst (tick_unanswered hbusy hshort hwait hsense))
  · intro dat b
    split
    · rename_i hd
      exact htick.trans (next_put_congr s inst (tick_selAssertId hbusy hshort hp hr hd))
    · exact hexec
  · intro own
    refine ⟨_, htick, ?_⟩
    rw [State.get_put_same]
    exact fun hd => tick_selAssertSel hc hrst hbusy hsel hp hr hd

/-- Settles O44: the engine waits or is parked in the first step, and the timeout releases under the guard. -/
theorem tickTimesSelectionOut : Obligations.TickTimesSelectionOut := by
  intro inst n el l s x c own dm hc hrst hbusy hsel hl hwait
  refine ⟨_, exec_tick inst n s, ?_⟩
  rw [State.get_put_same]
  obtain ⟨p, note, budget, hpaid, hfree⟩ := tickPending_waits (e := envOf inst) (f := notify (envOf inst)) hbusy hwait
  let y : Instance := { x with ctrl := { c with pending := p, renotify := note, budget := 0 } }
  obtain ⟨⟨bf, seen, note', hctrl⟩, hsig, hdat, hcomb⟩ := selectionTimeout_leaves (envOf inst) y hc hrst hfree
  have hquiet := selectionTimeout_noTargets (envOf inst) y hc hrst
  have htick : tickTimers (envOf inst) n c.selTimer.isSome (tickPending (envOf inst) (notify (envOf inst)) n x) =
      commonTail (envOf inst) (checkDisconnect (envOf inst) (tickBusFree (envOf inst) n
        (selectionTimeout (notify (envOf inst)) y))) := by
    rw [hpaid, show c.selTimer.isSome = true by rw [hsel]; rfl]
    unfold tickTimers
    exact congrArg (fun z => commonTail (envOf inst) (checkDisconnect (envOf inst) (tickBusFree (envOf inst) n z)))
      (tickSelTimer_expired (x := y) hsel hl)
  rw [show tickTimers (envOf inst) n (beginEvent (s.get inst)).ctrl.selTimer.isSome
    (tickPending (envOf inst) (notify (envOf inst)) n (beginEvent (s.get inst))) = _ from htick]
  generalize selectionTimeout (notify (envOf inst)) y = z at hctrl hsig hdat hcomb hquiet
  obtain ⟨hbus, bf', conn, ints, irq, drq, hd, hconn⟩ := tick_ends_idle (envOf inst) n z (by rw [hctrl]; exact hbusy) (by rw [hctrl])
  generalize commonTail (envOf inst) (checkDisconnect (envOf inst) (tickBusFree (envOf inst) n z)) = t at hbus hd
  rw [hctrl] at hd hconn
  rw [hbus, hd]
  exact ⟨rfl, hconn, hsig, hdat, hcomb, fun hcb hno => hquiet hcb hno⟩

end Sys2Proof.Proofs
end

section
/-! SUPPORT. The engine's evaluations, state by state (43_controller_fsm.md), at a Controller whose guard is held. -/

namespace Sys2Proof.Machine

/-! ### A drive of the own lines, and what is done to the Controller behind it (R92, R112) -/

/-- The Controller of `y` is `d` after a drive of the own lines of `x` and the reactions of the others (R92). -/
def Instance.Drove (x : Instance) (d : Controller) (value mask : Ctl) (y : Instance) : Prop :=
  y.ctrl = { d with
    diagSig := if x.ctrl.dm then (x.ctrl.diagSig &&& ~~~mask) ||| value else x.ctrl.diagSig
    bfTimer := y.ctrl.bfTimer
    rstSeen := y.ctrl.rstSeen
    renotify := y.ctrl.renotify } ∧
  y.bus.sig[7] = (if x.ctrl.dm then x.bus.sig[7] else (x.bus.sig[7] &&& ~~~mask) ||| value) ∧
  y.bus.combined

section
variable {x y : Instance} {d : Controller} {v m : Ctl}

/-- A change of the Controller that does not look at the four fields goes through to `d`. -/
theorem Instance.Drove.modCtrl (h : x.Drove d v m y) (f : Controller → Controller)
    (hf : ∀ (c : Controller) (shadow : Ctl) (bf : Nat) (seen note : Bool),
      f { c with diagSig := shadow, bfTimer := bf, rstSeen := seen, renotify := note } =
        { f c with diagSig := shadow, bfTimer := bf, rstSeen := seen, renotify := note } := by intros; rfl) :
    x.Drove (f d) v m (y.modCtrl f) := by
  obtain ⟨hctrl, hsig, hcomb⟩ := h
  obtain ⟨shadow, bf, seen, note, hshadow, hy⟩ : ∃ shadow bf seen note,
      shadow = (if x.ctrl.dm then (x.ctrl.diagSig &&& ~~~m) ||| v else x.ctrl.diagSig) ∧
      y.ctrl = { d with diagSig := shadow, bfTimer := bf, rstSeen := seen, renotify := note } := ⟨_, _, _, _, rfl, hctrl⟩
  refine ⟨?_, hsig, hcomb⟩
  rw [← hshadow, Instance.modCtrl_ctrl, hy, hf]

/-- The own data byte goes with it. -/
theorem Instance.Drove.driveData (h : x.Drove d v m y) (b : Byte) :
    x.Drove d v m (driveData b y) ∧ (Machine.driveData b y).bus.dat[7] = b := by
  obtain ⟨hctrl, hsig, -⟩ := h
  exact ⟨⟨hctrl, hsig, Bus.writeData_combined _ _ _⟩, Vector.getElem_set_self _⟩

end

section
variable {e : Env} {x : Instance}

/-- `drive` of a running engine (R112). -/
theorem drive_drove (v m : Ctl) (h : x.still) (hs : x.ctrl.state ≠ .idle) (hv : v &&& sigRST = 0) (hm : v &&& m = v) :
    x.Drove x.ctrl v m (drive (notify e) v m x) ∧ (drive (notify e) v m x).bus.dat[7] = x.bus.dat[7] := by
  have hfree : x.ctrl.engineFree = false := by
    rw [← Bool.not_eq_true, Controller.engineFree_iff]
    exact fun hfree => hs hfree.1
  obtain ⟨hctrl, hsig, hdat, hstill⟩ := drive_running e v m x h hfree hv hm
  exact ⟨⟨hctrl, hsig, hstill.combined⟩, hdat⟩

theorem Instance.running_state {u : EngineState} (hs : x.ctrl.state = u) (hu : u ≠ .idle) : x.ctrl.state ≠ .idle := hs ▸ hu

/-! ### Arbitration (R180 to R183) -/

/-- A higher ID is on the bus (R182). -/
theorem higherId_iff (d : Byte) (n : Nat) : d >>> (n + 1) ≠ 0 ↔ ∃ k : Fin 8, n < k.val ∧ d.getLsbD k = true := by
  constructor
  · intro h
    by_contra hnone
    refine h (BitVec.eq_of_getLsbD_eq fun i hi => ?_)
    rw [BitVec.getLsbD_ushiftRight, show (0 : Byte).getLsbD i = false from BitVec.getLsbD_zero, ← Bool.not_eq_true]
    intro hbit
    exact hnone ⟨⟨n + 1 + i, BitVec.lt_of_getLsbD hbit⟩, by simp; omega, hbit⟩
  · rintro ⟨k, hk, hbit⟩ h
    have hzero : (d >>> (n + 1)).getLsbD (k - (n + 1)) = false := by
      rw [h]
      exact BitVec.getLsbD_zero
    rw [BitVec.getLsbD_ushiftRight, show n + 1 + (k.val - (n + 1)) = k.val by omega, hbit] at hzero
    cases hzero

theorem engineStep_arbAssertBsy (h : x.still) (hs : x.ctrl.state = .arbAssertBsy) :
    ∃ y, engineStep e (notify e) x = goto .arbWait e.p.dArbSettle y ∧ x.Drove x.ctrl sigBSY sigBSY y ∧
      y.bus.dat[7] = idBit x.ctrl.bdid.toNat := by
  obtain ⟨hstill, hdat, -⟩ := driveData_still (idBit x.ctrl.bdid.toNat) x h
  obtain ⟨hdrove, hkeeps⟩ := drive_drove (e := e) sigBSY sigBSY hstill (Instance.running_state hs (by decide)) (by decide) (by decide)
  refine ⟨_, ?_, hdrove, hkeeps.trans hdat⟩
  unfold engineStep
  rw [hs]
  rfl

theorem engineStep_arbLost (h : x.still) (hs : x.ctrl.state = .arbWait) (hlost : x.bus.data >>> (x.ctrl.bdid.toNat + 1) ≠ 0) :
    ∃ y, engineStep e (notify e) x = (.progress, y) ∧ x.Drove { x.ctrl with state := .idle } 0 sigBSY y ∧
      y.bus.dat[7] = 0 := by
  obtain ⟨hdrove, -⟩ := drive_drove (e := e) 0 sigBSY h (Instance.running_state hs (by decide)) (by decide) (by decide)
  obtain ⟨hdata, hdat⟩ := hdrove.driveData 0
  refine ⟨_, ?_, hdata.modCtrl fun c => { c with state := .idle }, hdat⟩
  unfold engineStep
  rw [hs]
  exact if_pos hlost

theorem engineStep_arbWon {n : Instance → Instance} (hs : x.ctrl.state = .arbWait)
    (hwon : ¬x.bus.data >>> (x.ctrl.bdid.toNat + 1) ≠ 0) : engineStep e n x = goto .arbAssertSel e.p.dArbWin x := by
  unfold engineStep
  rw [hs]
  exact if_neg hwon

theorem engineStep_arbAssertSel (h : x.still) (hs : x.ctrl.state = .arbAssertSel) :
    ∃ y, engineStep e (notify e) x = goto .selAssertId e.p.dSelId y ∧ x.Drove x.ctrl sigSEL sigSEL y ∧
      y.bus.dat[7] = x.bus.dat[7] := by
  obtain ⟨hdrove, hkeeps⟩ := drive_drove (e := e) sigSEL sigSEL h (Instance.running_state hs (by decide)) (by decide) (by decide)
  refine ⟨_, ?_, hdrove, hkeeps⟩
  unfold engineStep
  rw [hs]
  rfl

/-! ### Selection (R187 to R189) -/

theorem engineStep_selLines (h : x.still) (hs : x.ctrl.state = .selAssertSel) :
    ∃ y, engineStep e (notify e) x = goto .selWaitBsy e.p.dSelSel y ∧ y.bus.dat[7] = x.bus.dat[7] ∧
      x.Drove { x.ctrl with selTimer := (e.p.selTimeout x.ctrl.tc).map fun l => (0, l) }
        (sigSEL ||| onlyIf x.ctrl.atnQueued sigATN) (sigSEL ||| sigATN ||| sigBSY) y := by
  obtain ⟨hdrove, hkeeps⟩ := drive_drove (e := e) (sigSEL ||| onlyIf x.ctrl.atnQueued sigATN) (sigSEL ||| sigATN ||| sigBSY) h
    (Instance.running_state hs (by decide)) (by cases x.ctrl.atnQueued <;> decide) (by cases x.ctrl.atnQueued <;> decide)
  exact ⟨_, engineStep_selAssertSel hs, hkeeps,
    hdrove.modCtrl fun c => { c with selTimer := (e.p.selTimeout c.tc).map fun l => (0, l) }⟩

theorem engineStep_answered {n : Instance → Instance} (hs : x.ctrl.state = .selWaitBsy) (hbsy : has (sense x) sigBSY = true)
    (hrest : has (sense x) (sigREQ ||| sigMSG ||| sigCD ||| sigIO) = false) :
    engineStep e n x = goto .selSuccess e.p.dSelOk { x with ctrl := { x.ctrl with selTimer := none } } := by
  unfold engineStep
  rw [hs]
  exact if_pos (by rw [hbsy, hrest]; rfl)

theorem engineStep_selected (h : x.still) (hs : x.ctrl.state = .selSuccess)
    (hown : (if x.ctrl.dm then x.ctrl.diagSig else x.bus.sig[7]) &&& ~~~(sigATN ||| sigRST) = sigSEL) :
    ∃ y, engineStep e (notify e) x = (.progress, y) ∧ y.bus.dat[7] = 0 ∧
      x.Drove { x.ctrl with connected := true, ints := x.ctrl.ints ||| 0x10, state := .idle } 0 sigSEL y := by
  obtain ⟨hdrove, -⟩ := drive_drove (e := e) 0 sigSEL h (Instance.running_state hs (by decide)) (by decide) (by decide)
  obtain ⟨hdata, hdat⟩ := hdrove.driveData 0
  have hend := ((hdata.modCtrl fun c => { c with connected := true }).modCtrl fun c =>
    { c with ints := c.ints ||| intCC }).modCtrl fun c => { c with state := .idle }
  refine ⟨_, ?_, ?_, hend⟩
  case refine_2 => exact hdat
  unfold engineStep
  rw [hs]
  exact if_pos hown

theorem engineStep_notSelected {n : Instance → Instance} (hs : x.ctrl.state = .selSuccess)
    (hown : (if x.ctrl.dm then x.ctrl.diagSig else x.bus.sig[7]) &&& ~~~(sigATN ||| sigRST) ≠ sigSEL) :
    engineStep e n x = (.stay, x) := by
  unfold engineStep
  rw [hs]
  exact if_neg hown

/-! ### Transfer of a byte (R195 to R204) -/

/-- The Controller that an aborted transfer leaves (R196, R197). -/
def Controller.aborted (flag : Byte) (c : Controller) : Controller :=
  { c with fifo := if c.xferIn then c.fifo else c.fifo.clear, ints := c.ints ||| flag, state := .idle, pending := none,
           xferDma := false, xferTerm := false }

theorem abortTransfer_drove (flag : Byte) (h : x.still) (hs : x.ctrl.state = .xferWaitReq) :
    x.Drove (x.ctrl.aborted flag) 0 sigACK (abortTransfer (notify e) flag x) ∧
      (abortTransfer (notify e) flag x).bus.dat[7] = 0 := by
  obtain ⟨hdrove, -⟩ := drive_drove (e := e) 0 sigACK h (Instance.running_state hs (by decide)) (by decide) (by decide)
  obtain ⟨hdata, hdat⟩ := hdrove.driveData 0
  exact ⟨((hdata.modCtrl fun c => { c with fifo := if c.xferIn then c.fifo else c.fifo.clear }).modCtrl fun c =>
    { c with ints := c.ints ||| flag }).modCtrl fun c =>
      { c with state := .idle, pending := none, xferDma := false, xferTerm := false }, hdat⟩

theorem engineStep_sendAgain {n : Instance → Instance} (hs : x.ctrl.state = .xferSendData) (htc : x.ctrl.tc = 0) :
    engineStep e n x = goto .xferSendAck e.p.dHs (driveData x.ctrl.temp x) := by
  unfold engineStep
  rw [hs]
  exact if_pos htc

theorem engineStep_sendEmpty {n : Instance → Instance} (hs : x.ctrl.state = .xferSendData) (htc : x.ctrl.tc ≠ 0)
    (hfifo : x.ctrl.fifo.count = 0) : engineStep e n x = (.stay, x) := by
  unfold engineStep
  rw [hs]
  exact (if_neg htc).trans (if_pos ((Fifo.empty_iff _).2 hfifo))

theorem engineStep_sendByte {n : Instance → Instance} (hs : x.ctrl.state = .xferSendData) (htc : x.ctrl.tc ≠ 0)
    (hfifo : x.ctrl.fifo.count ≠ 0) :
    engineStep e n x = goto .xferSendAck e.p.dHs (driveData x.ctrl.fifo.front { x with ctrl := { x.ctrl with
      fifo := { x.ctrl.fifo with head := x.ctrl.fifo.head + 1, count := x.ctrl.fifo.count - 1 } } }) := by
  have hpop : x.ctrl.fifo.pop = { x.ctrl.fifo with head := x.ctrl.fifo.head + 1, count := x.ctrl.fifo.count - 1 } :=
    if_neg hfifo
  unfold engineStep
  rw [hs, ← hpop]
  exact (if_neg htc).trans (if_neg (mt (Fifo.empty_iff _).1 hfifo))

theorem engineStep_recvAgain {n : Instance → Instance} (hs : x.ctrl.state = .xferRecvData) (htc : x.ctrl.tc = 0) :
    engineStep e n x = goto .xferSendAck e.p.dHs { x with ctrl := { x.ctrl with temp := x.bus.data } } := by
  unfold engineStep
  rw [hs]
  exact if_pos htc

theorem engineStep_recvFull {n : Instance → Instance} (hs : x.ctrl.state = .xferRecvData) (htc : x.ctrl.tc ≠ 0)
    (hfifo : x.ctrl.fifo.full = true) : engineStep e n x = (.stay, x) := by
  unfold engineStep
  rw [hs]
  exact (if_neg htc).trans (if_pos hfifo)

theorem engineStep_recvByte {n : Instance → Instance} (hs : x.ctrl.state = .xferRecvData) (htc : x.ctrl.tc ≠ 0)
    (hfifo : x.ctrl.fifo.full = false) :
    engineStep e n x = goto .xferSendAck e.p.dHs { x with ctrl := { x.ctrl with
      fifo := { x.ctrl.fifo with buf := x.ctrl.fifo.buf.set x.ctrl.fifo.tail x.bus.data, tail := x.ctrl.fifo.tail + 1
                                 count := x.ctrl.fifo.count + 1 } } } := by
  unfold engineStep
  rw [hs, ← Fifo.push_of_not_full _ x.bus.data hfifo]
  exact (if_neg htc).trans (if_neg (by rw [hfifo]; exact Bool.false_ne_true))

theorem engineStep_sendAck (h : x.still) (hs : x.ctrl.state = .xferSendAck) :
    ∃ y, engineStep e (notify e) x = goto .xferWaitDeassertReq e.p.dHs y ∧ y.bus.dat[7] = x.bus.dat[7] ∧
      if x.ctrl.xferPhase = 6 ∧ x.ctrl.tc.toNat ≤ 1 then
        x.Drove { x.ctrl with atnQueued := false } sigACK (sigACK ||| sigATN) y
      else x.Drove x.ctrl sigACK sigACK y := by
  have hrun := Instance.running_state hs (by decide)
  unfold engineStep
  rw [hs]
  by_cases hlast : x.ctrl.xferPhase = 6 ∧ x.ctrl.tc.toNat ≤ 1
  · obtain ⟨hdrove, hkeeps⟩ := drive_drove (e := e) sigACK (sigACK ||| sigATN) h hrun (by decide) (by decide)
    refine ⟨_, congrArg (goto .xferWaitDeassertReq e.p.dHs) (if_pos hlast), hkeeps, ?_⟩
    rw [if_pos hlast]
    exact hdrove.modCtrl fun c => { c with atnQueued := false }
  · obtain ⟨hdrove, hkeeps⟩ := drive_drove (e := e) sigACK sigACK h hrun (by decide) (by decide)
    refine ⟨_, congrArg (goto .xferWaitDeassertReq e.p.dHs) (if_neg hlast), hkeeps, ?_⟩
    rw [if_neg hlast]
    exact hdrove

theorem engineStep_waitDeassertReq {n : Instance → Instance} (hs : x.ctrl.state = .xferWaitDeassertReq) :
    engineStep e n x = if has (sense x) sigREQ then (.stay, x) else goto .xferDeassertAck e.p.dHs x := by
  unfold engineStep
  rw [hs]
  rfl

theorem engineStep_deassertAck (h : x.still) (hs : x.ctrl.state = .xferDeassertAck) :
    ∃ y, engineStep e (notify e) x =
        goto (if x.ctrl.tc.toNat ≤ 1 then .xferWaitFifoEmpty else .xferWaitReq) e.p.dHs y ∧
      x.Drove { x.ctrl with tc := if x.ctrl.tc = 0 then 0 else x.ctrl.tc - 1 } 0 sigACK y ∧
      y.bus.dat[7] = if x.ctrl.xferIn then x.bus.dat[7] else 0 := by
  let w : Instance := { x with ctrl := { x.ctrl with tc := if x.ctrl.tc = 0 then 0 else x.ctrl.tc - 1 } }
  have hw : (x.modCtrl fun c => { c with tc := if c.tc = 0 then c.tc else c.tc - 1 }) = w := by
    have htc : (if x.ctrl.tc = 0 then x.ctrl.tc else x.ctrl.tc - 1) = if x.ctrl.tc = 0 then 0 else x.ctrl.tc - 1 := by
      by_cases hzero : x.ctrl.tc = 0
      · rw [if_pos hzero, if_pos hzero, hzero]
      · rw [if_neg hzero, if_neg hzero]
    exact congrArg (fun tc => ({ x with ctrl := { x.ctrl with tc := tc } } : Instance)) htc
  have hstep : engineStep e (notify e) x = goto (if x.ctrl.tc.toNat ≤ 1 then .xferWaitFifoEmpty else .xferWaitReq) e.p.dHs
      (drive (notify e) 0 sigACK (if x.ctrl.xferIn then w else driveData 0 w)) := by
    unfold engineStep engXferDeassertAck
    rw [hs]
    simp only [hw, decide_eq_true_eq]
    rfl
  have hstill : w.still := ⟨h.combined, h.rst, h.engine⟩
  have hrun : w.ctrl.state ≠ .idle := Instance.running_state (x := x) hs (by decide)
  cases hin : x.ctrl.xferIn
  · obtain ⟨hstill, hdat, -⟩ := driveData_still 0 w hstill
    obtain ⟨hdrove, hkeeps⟩ := drive_drove (e := e) 0 sigACK hstill hrun (by decide) (by decide)
    rw [hin] at hstep
    exact ⟨_, hstep, hdrove, hkeeps.trans hdat⟩
  · obtain ⟨hdrove, hkeeps⟩ := drive_drove (e := e) 0 sigACK hstill hrun (by decide) (by decide)
    rw [hin] at hstep
    exact ⟨_, hstep, hdrove, hkeeps⟩

theorem engineStep_fifoNotEmpty {n : Instance → Instance} (hs : x.ctrl.state = .xferWaitFifoEmpty)
    (hfifo : x.ctrl.fifo.count ≠ 0) : engineStep e n x = (.stay, x) := by
  unfold engineStep
  rw [hs]
  exact if_neg (mt (Fifo.empty_iff _).1 hfifo)

end

end Sys2Proof.Machine

namespace Sys2Proof.Proofs
open Machine

/-- Settles O59: the loop repeats its rounds, and each state's evaluation is a lemma of its own. -/
theorem engineSteps : Obligations.EngineSteps := by
  constructor
  · intro e n x evaluated forgotten
    refine ⟨fun hb => if_pos hb, fun hb m y hm hrun => ?_⟩
    have hloop : engineLoop e n loopBound (x.modCtrl fun c => { c with busy := true, renotify := false }) = y :=
      engineLoop_repeats e n m loopBound _ y hm hrun
    unfold runEngine
    rw [if_neg (by simp [hb]), hloop]
    rfl
  · intro e x h hb hp c s r wait free data drives lost own aborted
    refine ⟨?_, ?_, ?_, ?_, ?_, ?_, ?_, ?_, ?_, ?_, ?_, ?_, ?_, ?_, ?_, ?_, ?_, ?_⟩
    · exact fun u w y => rfl
    · intro hs
      show engineStep e (notify e) x = wait
      unfold engineStep
      rw [hs]
    · exact fun hs => ⟨fun hfree => engineStep_waitFree_free (arb := true) hs ((busFreeDetected_iff e x).2 hfree),
        fun hbusy => engineStep_waitFree_busy (arb := true) hs (mt (busFreeDetected_iff e x).1 hbusy)⟩
    · exact fun hs => engineStep_arbAssertBsy h hs
    · exact fun hs => ⟨fun hlost => engineStep_arbLost h hs ((higherId_iff _ _).2 hlost),
        fun hwon => engineStep_arbWon hs (mt (higherId_iff _ _).1 hwon)⟩
    · exact fun hs => engineStep_arbAssertSel h hs
    · exact fun hs => ⟨fun hfree => engineStep_waitFree_free (arb := false) hs ((busFreeDetected_iff e x).2 hfree),
        fun hbusy => engineStep_waitFree_busy (arb := false) hs (mt (busFreeDetected_iff e x).1 hbusy)⟩
    · exact fun hs => engineStep_selAssertId hs
    · exact fun hs => engineStep_selLines h hs
    · refine fun hs => ⟨fun ⟨hbsy, hrest⟩ => engineStep_answered hs hbsy hrest, fun hno => engineStep_unanswered hs ?_⟩
      by_cases hbsy : has (sense x) sigBSY = true
      · exact .inr (eq_true_of_ne_false fun hrest => hno ⟨hbsy, hrest⟩)
      · exact .inl (eq_false_of_ne_true hbsy)
    · exact fun hs => ⟨fun hown => engineStep_selected h hs hown, fun hown => engineStep_notSelected hs hown⟩
    · refine fun hs => ⟨fun hbsy => ?_, fun hbsy hphase => ?_, fun hbsy hphase => ?_⟩
      · obtain ⟨hdrove, hdat⟩ := abortTransfer_drove (e := e) intDISCONNECT h hs
        exact ⟨_, engineStep_waitReq_noBsy hs hbsy, hdat, hdrove.modCtrl fun c => { c with connected := false }⟩
      · obtain ⟨hdrove, hdat⟩ := abortTransfer_drove (e := e) intSR h hs
        exact ⟨_, engineStep_waitReq_otherPhase hs hbsy hphase, hdat, hdrove⟩
      · show engineStep e (notify e) x = _
        cases hreq : has (sense x) sigREQ
        · exact engineStep_waitReq_low hs hbsy hphase hreq
        · exact engineStep_waitReq_high hs hbsy hphase hreq
    · exact fun hs => ⟨engineStep_sendAgain hs, engineStep_sendEmpty hs, engineStep_sendByte hs⟩
    · refine fun hs => ⟨engineStep_recvAgain hs, fun htc hfull => engineStep_recvFull hs htc ?_,
        fun htc hfull => engineStep_recvByte hs htc ?_⟩
      · exact (Fifo.full_iff _).2 (congrArg Fin.val hfull)
      · rw [← Bool.not_eq_true, Fifo.full_iff]
        exact fun hcount => hfull (Fin.ext hcount)
    · exact fun hs => engineStep_sendAck h hs
    · exact fun hs => engineStep_waitDeassertReq hs
    · exact fun hs => engineStep_deassertAck h hs
    · exact fun hs => ⟨fun hempty => engineStep_fifoEmpty hs hempty, fun hfifo => engineStep_fifoNotEmpty hs hfifo⟩

end Sys2Proof.Proofs
end

section
/-! SUPPORT. A Target's evaluations, state by state (44_target_responder.md), whatever answers the bus. -/

namespace Sys2Proof.Machine

/-! ### The gate of a selection, and the claims (R223; log 24) -/

/-- The bit of a participant on the data bus. -/
theorem and_idBit (d : Byte) (i : Fin 7) : (d &&& idBit i) ≠ 0 ↔ d.getLsbD i = true := by
  have hbit : idBit i ≠ 0 := by
    revert i
    decide
  have hand : d &&& idBit i = if d.getLsbD i then idBit i else 0 := BitVec.and_twoPow d i
  rw [hand]
  by_cases h : d.getLsbD i = true
  · rw [if_pos h]
    exact iff_of_true hbit h
  · rw [if_neg h]
    exact iff_of_false (fun h0 => h0 rfl) h

theorem selectionGate_iff (t : Target) (c : Ctl) (d : Byte) : selectionGate t c d = true ↔
    (has c sigSEL = true ∧ has c sigBSY = false ∧ has c sigIO = false) ∧ d.getLsbD t.id = true ∧
      (t.image ≠ none ∨ t.ready = true) := by
  simp only [selectionGate, Bool.and_eq_true, Bool.or_eq_true, Bool.not_eq_true', bne_iff_ne, and_idBit, and_assoc,
    ne_eq, Option.isSome_iff_ne_none]

theorem claims_iff {self k : Fin 7} {c : Ctl} {d : Byte} {t : Target} (hid : t.id = k) : t.claims self k c d = true ↔
    (has c sigSEL = true ∧ has c sigBSY = false ∧ has c sigIO = false) ∧
      t.tstate = .idle ∧ d.getLsbD k = true ∧ (t.image ≠ none ∨ t.ready = true) ∧ (k = self ∨ t.tbusy = false) := by
  subst hid
  simp only [Target.claims, Bool.and_eq_true, beq_iff_eq, selectionGate_iff, Bool.or_eq_true, Bool.not_eq_true']
  tauto

theorem claimant_iff {x : Instance} {self k : Fin 7} {c : Ctl} {d : Byte} {t : Target} :
    x.bus.claimant self c d k = some t ↔ x.target? k = some t ∧ t.claims self k c d = true := by
  rw [Instance.target?_eq_some]
  constructor
  · intro h
    have hocc := Bus.claimant_occ h
    refine ⟨hocc, ?_⟩
    by_contra hno
    unfold Bus.claimant at h
    rw [hocc] at h
    cases h.symm.trans (if_neg hno)
  · rintro ⟨hocc, hclaims⟩
    unfold Bus.claimant
    rw [hocc]
    exact if_pos hclaims

/-! ### The handler (R222) -/

section
variable {e : Env} {n : Instance → Instance} {k : Fin 7} {x : Instance} {t : Target} (ht : x.target? k = some t)
include ht

theorem targetHandler_busy (hb : t.tbusy = true) : targetHandler e n k x = x.withTarget k { t with trenotify := true } := by
  unfold targetHandler
  rw [ht]
  exact (if_pos hb).trans (Instance.modTarget_some ht _)

theorem targetHandler_runs (hb : t.tbusy = false) {m : Nat} {y : Instance} {u : Target} (hm : m < 4096)
    (hu : y.target? k = some u)
    (hrun : RepeatsTo (targetStep e n k) (fun z => (z.target? k).any Target.trenotify)
      (fun z => z.modTarget k fun v => { v with trenotify := false }) m
      (x.withTarget k { t with tbusy := true, trenotify := false }) y) :
    targetHandler e n k x = y.withTarget k { u with tbusy := false } := by
  have hstart : (x.modTarget k fun t => { t with tbusy := true, trenotify := false }) =
      x.withTarget k { t with tbusy := true, trenotify := false } := Instance.modTarget_some ht _
  have hloop := targetLoop_repeats e n k m targetBound _ y hm hrun
  unfold targetHandler
  rw [ht]
  refine (if_neg (by rw [hb]; exact Bool.false_ne_true)).trans ?_
  rw [hstart, hloop]
  exact Instance.modTarget_some hu _

/-! ### RST and selection (R223) -/

section
variable (hid : t.id = k)
include hid

theorem targetStep_rst (hrst : has x.bus.ctl sigRST = true)
    (h : t.tstate ≠ .idle ∨ x.bus.sig[slotAddr k] ≠ 0 ∨ x.bus.dat[slotAddr k] ≠ 0) :
    targetStep e n k x = (true, targetReset n k k x) := by
  subst hid
  unfold targetStep
  rw [ht]
  exact (if_pos hrst).trans (if_pos h)

theorem targetStep_rstQuiet (hrst : has x.bus.ctl sigRST = true) (hidle : t.tstate = .idle)
    (hsig : x.bus.sig[slotAddr k] = 0) (hdat : x.bus.dat[slotAddr k] = 0) : targetStep e n k x = (false, x) := by
  subst hid
  unfold targetStep
  rw [ht]
  exact (if_pos hrst).trans (if_neg fun h => h.elim (· hidle) fun h => h.elim (· hsig) (· hdat))

end

section
variable (hrst : has x.bus.ctl sigRST = false)
include hrst

theorem targetStep_claims (hidle : t.tstate = .idle) (h : selectionGate t x.bus.ctl x.bus.data = true) :
    targetStep e n k x = (true, changeBus n x (x.bus.claims k)) := by
  unfold targetStep
  rw [ht]
  exact (if_neg (by rw [hrst]; exact Bool.false_ne_true)).trans ((if_pos hidle).trans (if_pos h))

theorem targetStep_unselected (hidle : t.tstate = .idle) (h : ¬selectionGate t x.bus.ctl x.bus.data = true) :
    targetStep e n k x = (false, x) := by
  unfold targetStep
  rw [ht]
  exact (if_neg (by rw [hrst]; exact Bool.false_ne_true)).trans ((if_pos hidle).trans (if_neg h))

/-! ### Waiting, the turn to MESSAGE-OUT, and the handshake (R224 to R228) -/

theorem targetStep_waitsSel (hbusy : t.tstate ≠ .idle) (hsel : has x.bus.ctl sigSEL = true) :
    targetStep e n k x = (false, x) := by
  unfold targetStep
  rw [ht]
  exact (if_neg (by rw [hrst]; exact Bool.false_ne_true)).trans ((if_neg hbusy).trans (if_pos hsel))

/-- A selected Target with SEL down is in its handshake, unless it turns to MESSAGE-OUT first. -/
theorem targetStep_selected (hbusy : t.tstate ≠ .idle) (hsel : has x.bus.ctl sigSEL = false) :
    targetStep e n k x =
      if t.tstate = .command ∧ t.cmdLen = 0 ∧ t.hs = .needReq ∧ has x.bus.ctl sigACK = false ∧ has x.bus.ctl sigATN = true then
        (true, x.withTarget k { t with tstate := .message, msgOut := true })
      else match t.hs with
        | .needReq => if has x.bus.ctl sigACK then (false, x) else (true, presentByte e n k t x)
        | .reqUp => if has x.bus.ctl sigACK then (true, answerAck e n k t x.bus.data x) else (false, x)
        | .reqDown => if has x.bus.ctl sigACK then (false, x) else (true, advance e n k t x.bus.ctl x) := by
  rw [← Instance.modTarget_some ht fun t => { t with tstate := .message, msgOut := true }]
  unfold targetStep
  rw [ht]
  exact (if_neg (by rw [hrst]; exact Bool.false_ne_true)).trans ((if_neg hbusy).trans
    (if_neg (by rw [hsel]; exact Bool.false_ne_true)))

end

/-! ### A byte presented, taken, and what follows it (R225, R226, R228, R230) -/

omit ht in
/-- The byte of a phase: a phase of the initiator presents none. -/
theorem presented_eq : (if t.outward then 0 else nextInByte e t) = match t.tstate with
    | .dataIn => bufRead e t t.cur
    | .status => t.status
    | .message => if t.msgOut then 0 else t.message
    | _ => 0 := by
  unfold Target.outward nextInByte
  cases t.tstate <;> rfl

/-- A byte of the phase taken, or counted. -/
theorem answered_eq (d : Byte) (s : TState) : t.tstate = s →
    (if t.outward then takeByte e k t d x
     else if t.tstate = .dataIn then x.modTarget k fun t => { t with cur := t.cur + 1 } else x) =
    match s with
      | .command => x.withTarget k { t with cmd := t.cmd.setIfInBounds t.cmdLen d, cmdLen := t.cmdLen + 1 }
      | .dataOut =>
        let y := x.withTarget k { t with buf := bufWrite t.buf t.cur d, cur := t.cur + 1 }
        if (t.cmd[0] = 0x0A ∨ t.cmd[0] = 0x2A) ∧ (t.cur + 1) % t.geom.bps = 0 then flushSector e k y else y
      | .dataIn => x.withTarget k { t with cur := t.cur + 1 }
      | .message => if t.msgOut then x.withTarget k { t with message := d } else x
      | _ => x := by
  intro hs
  unfold Target.outward takeByte
  cases s with
  | command =>
    refine Eq.trans ?_ (Instance.modTarget_some ht (storeCmdByte d))
    rw [hs]
    rfl
  | dataOut =>
    refine Eq.trans ?_ (congrArg (fun y => if (t.cmd[0] = 0x0A ∨ t.cmd[0] = 0x2A) ∧ (t.cur + 1) % t.geom.bps = 0 then
      flushSector e k y else y) (Instance.modTarget_some ht (storeDataByte d)))
    rw [hs]
    rfl
  | dataIn =>
    refine Eq.trans ?_ (Instance.modTarget_some ht fun t => { t with cur := t.cur + 1 })
    rw [hs]
    rfl
  | message =>
    refine Eq.trans ?_ (congrArg (fun y => if t.msgOut then y else x)
      (Instance.modTarget_some ht fun t => { t with message := d }))
    rw [hs]
    rfl
  | status =>
    rw [hs]
    rfl
  | idle =>
    rw [hs]
    rfl

/-- What follows a completed byte. -/
theorem advance_eq (c : Ctl) (hid : t.id = k) (s : TState) : t.tstate = s →
    advance e n k t c x = Instance.modTarget (match s with
      | .command => if t.cmdLen < cdbLen t.cmd[0] then x else executeCdb e k x
      | .dataOut | .dataIn => if t.total ≤ t.cur then x.withTarget k { t with tstate := .status } else x
      | .status => x.withTarget k { t with message := 0, tstate := .message, msgOut := false }
      | .message =>
        if t.msgOut = false then (releaseBus n k x).modTarget k fun u => { u with tstate := .idle }
        else if has c sigATN then x
        else x.withTarget k { t with tstate := .command, msgOut := false, cmdLen := 0 }
      | .idle => x) k fun u => { u with hs := .needReq } := by
  intro hs
  subst hid
  unfold advance
  rw [hs]
  refine congrArg (fun y : Instance => y.modTarget t.id fun u => { u with hs := .needReq }) ?_
  have hstatus := Instance.modTarget_some ht fun u => { u with tstate := .status }
  cases s with
  | command => rfl
  | dataOut => exact congrArg (fun y => if t.total ≤ t.cur then y else x) hstatus
  | dataIn => exact congrArg (fun y => if t.total ≤ t.cur then y else x) hstatus
  | status => exact Instance.modTarget_some ht fun u => { u with message := 0x00, tstate := .message, msgOut := false }
  | message =>
    by_cases hout : t.msgOut = true
    · refine (if_pos hout).trans (Eq.trans ?_ (if_neg (by rw [hout]; decide)).symm)
      exact congrArg (fun y => if has c sigATN then x else y)
        (Instance.modTarget_some ht fun u => { u with tstate := .command, msgOut := false, cmdLen := 0 })
    · exact (if_neg hout).trans (if_pos (eq_false_of_ne_true hout)).symm
  | idle => rfl

end

end Sys2Proof.Machine

namespace Sys2Proof.Proofs
open Machine

/-- Settles O60: the handler repeats its steps, and each state's step is a lemma of its own. -/
theorem targetSteps : Obligations.TargetSteps := by
  constructor
  · intro e n k x
    refine ⟨fun hnone => targetHandler_none _ _ hnone, fun t ht => ⟨fun hb => targetHandler_busy ht hb,
      fun hb m y u hm hu hrun => targetHandler_runs ht hb hm hu hrun⟩⟩
  · intro e n k x t ht hid c d r line drop phase byte taken followed turns selected ready
    refine ⟨fun hrst => ⟨fun h => targetStep_rst ht hid hrst h, fun hidle hsig hdat => targetStep_rstQuiet ht hid hrst hidle hsig hdat⟩,
      fun hrst hidle => ⟨fun hsel hready hids => ?_, fun hno => targetStep_unselected ht hrst hidle fun hgate => ?_⟩,
      fun hrst hbusy => ⟨fun hsel => targetStep_waitsSel ht hrst hbusy hsel, fun hsel => ?_⟩⟩
    · obtain ⟨hidle', hbit, hmedium, -⟩ := hready
      have hgate : selectionGate t c d = true := (selectionGate_iff _ _ _).2 ⟨hsel, hid.symm ▸ hbit, hmedium⟩
      have hclaims (j : Fin 7) (u : Target) (hu : x.target? j = some u) : u.claims k j c d = true ↔ ready j u :=
        (claims_iff (hids j u hu)).trans (and_iff_right hsel)
      have hclaimant (j : Fin 7) (u : Target) : x.bus.claimant k c d j = some u ↔ x.target? j = some u ∧ ready j u :=
        claimant_iff.trans (and_congr_right (hclaims j u))
      obtain ⟨hclaimed, hrest, hdat, hcb, hcomb⟩ := Bus.claims_spec k c d targetSlots (by decide) x.bus
        fun j u hu => hids j u ((hclaimant j u).1 hu).1
      have hself : x.bus.claimant k c d k = some t := (hclaimant k t).2 ⟨ht, hidle', hbit, hmedium, .inl rfl⟩
      have hseven := hrest 7 fun j _ h7 => absurd h7 (by revert j; decide)
      refine ⟨x.bus.claims k, targetStep_claims ht hrst hidle hgate, hdat, hcb,
        hcomb ⟨k, mem_targetSlots k, by rw [hself]; rfl⟩, hseven.2, hseven.1, fun j => ⟨fun u hu hj => ?_, fun hno => ?_⟩⟩
      · exact hclaimed j (mem_targetSlots j) u ((hclaimant j u).2 ⟨hu, hj⟩)
      · refine hrest (slotAddr j) fun l _ hl => ?_
        have hjl : j = l := Fin.castSucc_injective 7 hl
        rw [← hjl]
        refine Option.eq_none_iff_forall_ne_some.2 fun u hu => ?_
        obtain ⟨hu', hj⟩ := (hclaimant j u).1 hu
        exact hno u hu' hj
    · obtain ⟨hsel, hbit, hmedium⟩ := (selectionGate_iff _ _ _).1 hgate
      exact hno ⟨hsel, hidle, hid ▸ hbit, hmedium, .inl rfl⟩
    · have hstep := targetStep_selected (e := e) (n := n) ht hrst hbusy hsel
      refine ⟨fun hturns => hstep.trans (if_pos hturns), fun hno => ?_⟩
      have hshake := hstep.trans (if_neg hno)
      refine ⟨fun hhs => ?_, fun hhs => ?_, fun hhs => ?_⟩
      · rw [hhs] at hshake
        have hpresent : presentByte e n k t x = (setControl n line (sigBSY ||| phase ||| sigREQ) sigALL
            (setData line byte x)).modTarget k fun u => { u with hs := .reqUp } := by
          unfold presentByte
          rw [hid]
          exact congrArg (fun v => (setControl n line (sigBSY ||| t.phaseLines ||| sigREQ) sigALL
            (setData line v x)).modTarget k fun u => { u with hs := .reqUp }) presented_eq
        exact hshake.trans (congrArg (fun z => if has c sigACK then (false, x) else (true, z)) hpresent)
      · rw [hhs] at hshake
        have hanswer : answerAck e n k t d x = (setControl n line 0 sigREQ taken).modTarget k fun u => { u with hs := .reqDown } := by
          unfold answerAck
          rw [hid]
          exact congrArg (fun y => (setControl n line 0 sigREQ y).modTarget k fun u => { u with hs := .reqDown })
            (answered_eq ht d _ rfl)
        exact hshake.trans (congrArg (fun z => if has c sigACK then (true, z) else (false, x)) hanswer)
      · rw [hhs] at hshake
        exact hshake.trans (congrArg (fun z => if has c sigACK then (false, x) else (true, z)) (advance_eq ht c hid _ rfl))

end Sys2Proof.Proofs
end
